-- ==== Sys2Proof/Word.lean ====
section
/-!
DEFINITION. The words of the Rozia 8800: bytes, 32-bit register words, 64-bit values, and the rows of
32 lane values that a lane register is made of. Hexadecimal and little-endian conventions are those of R4.
-/
namespace Sys2Proof

/-- One byte of memory. -/
abbrev Byte := BitVec 8

/-- The value of a 32-bit register (R126). -/
abbrev Word := BitVec 32

/-- A 64-bit value: a register pair, a signal, a key. -/
abbrev DWord := BitVec 64

/-- The lane numbers of a gang (R122). -/
def laneList : List Nat :=
  [0, 1, 2, 3, 4, 5, 6, 7, 8, 9, 10, 11, 12, 13, 14, 15,
   16, 17, 18, 19, 20, 21, 22, 23, 24, 25, 26, 27, 28, 29, 30, 31]

/-- A lane register: one word for each of the 32 lanes of a gang. -/
abbrev Row := List Word

/-- The row whose lane `l` holds `f l`. -/
def rowOf (f : Nat → Word) : Row := laneList.map f

/-- The row that holds 0 in every lane. -/
def zeroRow : Row := rowOf fun _ => 0

/-- Lane `l` of a row. -/
def Row.lane (r : Row) (l : Nat) : Word := r.getD l 0

end Sys2Proof
end

