-- ==== Sys2Proof/Syntax.lean ====
section
/-!
DEFINITION. The syntax: one constructor of `Instr` for every row of the opcode table. The 144 Flaham
instructions take the operands of their word's format (R209), with every field pulled out and named;
the 98 other rows are the steps of the module's other agents, with the arguments that the step's agent
or the outside world gives it.
-/
namespace Sys2Proof

/-- The type codes of R217. -/
inductive Ty where
  | i32 | n32 | i16 | n16 | i8 | n8 | i64 | n64 | f32 | f16 | bf16 | e4m3 | e5m2 | f6 | bp | b32
  deriving DecidableEq, Repr

/-- The constant registers, codes 728 to 733 (R126). -/
inductive Const where
  | zero | one | ones | lane | quad | gang
  deriving DecidableEq, Repr

/-- The ports, codes 736 to 742 (R126, R135). -/
inductive Port where
  | le | lw | kn | ke | ks | kw | kd
  deriving DecidableEq, Repr

/-- The register codes 0 to 1023 by name (R126, R215). `idx k c` is `v[xk+c]` in a destination (R214);
`resv n` is a reserved code. -/
inductive Reg where
  | v (n : Nat) | o (n : Nat) | t (n : Nat) | s (n : Nat) | x (n : Nat) | p (n : Nat) | g (n : Nat)
  | con (c : Const) | port (p : Port) | hs (n : Nat) | hv (n : Nat) | idx (k c : Nat) | resv (n : Nat)
  deriving DecidableEq, Repr

/-- The permutations of R213; `rot 0` is the plain read. -/
inductive Perm where
  | rot (n : Nat) | bc (n : Nat) | bf (n : Nat) | mi (n : Nat)
  deriving DecidableEq, Repr

/-- A source of the RRR and RRI formats (R211, R213, R214). -/
inductive Src where
  | reg (r : Reg) (perm : Perm)
  | idx (k c : Nat)
  | imm (v : Word)
  deriving DecidableEq, Repr

/-- The A-operand of CTL and SYS (R210). -/
inductive AOpd where
  | reg (r : Reg)
  | imm (v : Nat)
  deriving DecidableEq, Repr

/-- The operand descriptors of ENG (R212). -/
inductive Desc where
  | record (id : Nat)
  | reg (opx : Nat) (r : Reg)
  | win (n : Nat) (r : Reg)
  | tile (n : Nat)
  | imm (v : Nat)
  deriving DecidableEq, Repr

/-- Guard and hints (R216, R201). -/
structure Head where
  pred : Nat
  neg : Bool
  stall : Nat
  yh : Bool
  nh : Bool
  deriving DecidableEq, Repr

/-- Modifiers (R217). -/
structure Mods where
  ty : Ty
  variant : Nat
  flags : Nat
  deriving DecidableEq, Repr

/-- Operands of an RRR or RRI word: the RRI immediate is the last source (R209, R211). -/
structure OpsR where
  h : Head
  m : Mods
  d : Reg
  a : Src
  b : Src
  c : Src
  deriving DecidableEq, Repr

/-- Operands of a CTL word: the A-operand and the signed offset (R209, R210). -/
structure OpsC where
  h : Head
  m : Mods
  a : AOpd
  off : Int
  deriving DecidableEq, Repr

/-- Operands of a MEM word: window, offset register, byte offset, data register with OPX (R209, R212). -/
structure OpsM where
  h : Head
  m : Mods
  d : Reg
  win : Nat
  roff : Reg
  disp : Int
  opx : Nat
  data : Reg
  deriving DecidableEq, Repr

/-- Operands of an ENG word (R209, R212). -/
structure OpsE where
  h : Head
  m : Mods
  d : Reg
  a : Desc
  b : Desc
  c : Desc
  deriving DecidableEq, Repr

/-- Operands of a SYS word; `imm` is the immediate of `trap` (R209, R307). -/
structure OpsS where
  h : Head
  m : Mods
  d : Reg
  a : AOpd
  b : Reg
  c : Reg
  imm : Word
  deriving DecidableEq, Repr

/-- A direction of a link: the sending and the receiving end. Ends 0 to 8 are the dies, the hub being 8;
end 16 + p is the far end of external port p (R6, R31). -/
structure LinkId where
  src : Nat
  dst : Nat
  deriving DecidableEq, Repr

/-- What a boot meets outside the module's state: the self-test phase, 2 to 5, that fails, if any, with its failing
die and unit (R15, R18, R19), the phase, 1 to 6, that neither passes nor fails, if any (R16), and the external ports that
train (R17). -/
structure BootEnv where
  failPhase : Option Nat
  stuck : Option Nat
  die : Nat
  unit : Nat
  portsUp : List Nat
  deriving DecidableEq, Repr

/-- What a sensor of the hub reads (R23): the supply's deviation from nominal and its duration, the clock's loss or
deviation, a junction temperature in thousandths of a degree, or whether the lid mesh is open or shorted. -/
inductive Reading where
  | voltage (ppm : Int) (ns : Nat)
  | clock (lost : Bool) (ppm : Int)
  | temperature (milli : Int)
  | lid (broken : Bool)
  deriving DecidableEq, Repr

/-- One constructor for every row of the opcode table. -/
inductive Instr where
  /-- R14: Power-good starts the hub boot ROM, which checks the Miotur images, runs self-test phases 1 to 6 and ends in
  READY or in the safe state. -/
  | powerGood (env : BootEnv)
  /-- R16: Phases 1 to 6 are still incomplete 90 s after power-good, not counting time held, so the module enters the
  safe state with code 0x50. -/
  | bootTimeExceeded
  /-- R42: The BASE + RPOS × STEP delay scheduled by a RESTAGGER cell expires, so phase 2 begins. -/
  | restaggerDelayExpiry (env : BootEnv)
  /-- R42: 600 s of hub time pass with no RESTAGGER cell, so the hold ends. -/
  | holdTimeout (env : BootEnv)
  /-- R13: Module input power is lost, and power falls without pacing. -/
  | modulePowerLoss
  /-- R16: A module reset commanded by the host restarts the module, and the module leaves the safe state. -/
  | hostModuleReset (env : BootEnv)
  /-- R10: A die's 7,000-cycle pacing window expires, and the pacing controller limits the power step, withholding
  issue or adding filler. -/
  | pacingWindow (d demand : Nat)
  /-- R24: A sensor raises a class 1 alarm, and Miotur logs it and raises a management interrupt. -/
  | securityAlarmClass1 (r : Reading) (rs : List Reading)
  /-- R24: A class 2 alarm erases all memory and port keys, resets the compute dies and repeats phases 2 to 6. -/
  | securityAlarmClass2 (r : Reading) (rs : List Reading) (env : BootEnv)
  /-- R24: A class 3 alarm performs the class 2 actions and also erases the attestation private key. -/
  | securityAlarmClass3 (r : Reading) (rs : List Reading) (env : BootEnv)
  /-- R27: A write of 1 to GO submits the request in MREQ; each OP has its own row. -/
  | go
  /-- R28: Sets the module input power limit and scales every die ceiling, or refuses the request with RANGE. -/
  | setlimit
  /-- R28: Atomically loads an AES-256-XTS key into a memory-encryption key slot of a die. -/
  | loadkey
  /-- R28: Clears a memory-encryption key slot of a die. -/
  | clearkey
  /-- R41: Loads a key and salt into an external port key slot, or refuses the request with BUSY if the slot is
  occupied. -/
  | portkey
  /-- R28: Stores RPOS and STAGGER in flash for the next boot. -/
  | setpos
  /-- R42: Ends a staggered boot hold at once. -/
  | release (env : BootEnv)
  /-- R30: Returns a signed attestation report over the host nonce, or status NOKEY after a class 3 alarm. -/
  | attest
  /-- R28: Returns the old and new export handles that Miotur made while draining a die. -/
  | handles
  /-- R28: Returns the module's DER-encoded identity certificate. -/
  | cert
  /-- R32: A read-request cell is accepted, and the die checks and performs the remote read and returns read data or a
  fault reply. -/
  | readCell (l : LinkId) (damage : Bool)
  /-- R32: A write-request cell is accepted, and the die checks and performs the write and returns a completion or a
  fault reply. -/
  | writeCell (l : LinkId) (damage : Bool)
  /-- R32: A remote-atomic cell is accepted, and the die performs the atomic at its home and returns the result. -/
  | remoteAtomicCell (l : LinkId) (damage : Bool)
  /-- R32: A copy-element cell is accepted and performed at the destination. -/
  | copyElementCell (l : LinkId) (damage : Bool)
  /-- R75: A migration-pull cell asks the source die for one line of a migrating page. -/
  | migrationPull (l : LinkId) (damage : Bool)
  /-- R32: A read-data response cell delivers remote data to the waiting element. -/
  | readData (l : LinkId) (damage : Bool)
  /-- R32: A write-completion response cell completes a remote write element. -/
  | writeCompletion (l : LinkId) (damage : Bool)
  /-- R32: An atomic-result cell delivers the old value of a remote atomic. -/
  | atomicResult (l : LinkId) (damage : Bool)
  /-- R39: A fault-reply cell makes the accessing lane or element take a protection, poisoned or integrity fault. -/
  | faultReply (l : LinkId) (damage : Bool)
  /-- R37: A kd push cell pair is accepted and placed in the receiving lanes' kd queue, or it waits in port buffers
  while the receiving gang is not resident. -/
  | kdPush (l : LinkId) (damage : Bool)
  /-- R37: A kd return cell restores one free entry of the sender's per-lane kd count. -/
  | kdReturn (l : LinkId) (damage : Bool)
  /-- R32: A publish cell is accepted on its channel-2 publish pool. -/
  | publishCell (l : LinkId) (damage : Bool)
  /-- R32: A signal-release cell is accepted on its channel-2 publish pool. -/
  | signalRelease (l : LinkId) (damage : Bool)
  /-- R35: An ACK frees the replay-buffer cells it covers and can complete an old-key erase at the sender. -/
  | ack (l : LinkId) (damage : Bool)
  /-- R35: A NAK makes the sender resend, unchanged and in order, every cell from the named SEQ onward. -/
  | nak (l : LinkId) (damage : Bool)
  /-- R33: A credit-only cell returns credits to the channel and pool that CVC and CSUB name, and carries an ACK. -/
  | creditOnly (l : LinkId) (damage : Bool)
  /-- R42: A RESTAGGER cell schedules phase 2 of a holding module, replacing any pending schedule, or is logged and
  ignored. -/
  | restagger (l : LinkId) (damage : Bool)
  /-- R32: A key-control cell is accepted on the management channel. -/
  | keyControl (l : LinkId) (damage : Bool)
  /-- R32: A link-status cell is accepted on the management channel. -/
  | linkStatus (l : LinkId) (damage : Bool)
  /-- R35: 32 network cycles pass after a receiver with no reverse traffic accepted a cell, so it sends a credit-only
  cell carrying ACK. -/
  | ackDeadline (l : LinkId)
  /-- R36: The same SEQ has been replayed 16 times without acceptance, so the link retrains, and after three failures
  it is reported down. -/
  | linkRetrain (l : LinkId) (trained : Bool)
  /-- R40: Eight tag failures in a row on one SEQ take the external port down and raise a class 1 alarm. -/
  | tagFailureLimit (p : Nat)
  /-- R41: A port's count reaches 2^48 under one key, so the sender stops new cells and reports KEYEXP. -/
  | keyexp (p : Nat)
  /-- R17: Every 2 s of hub time, Miotur retries training a down external port. -/
  | portRetry (p : Nat) (trained : Bool)
  /-- R43: After a QUIESCE with OFFLINE, Miotur moves the die through DRAINING to EVACUATED, RETAINED or POISONED. -/
  | dieOfflineTransition (d : Nat) (room linksUp : Bool)
  /-- R44: A host read through BAR2 translates and reads each line, returning all-ones and setting DSTAT.APF for
  faulted lines. -/
  | apertureRead (d off len : Nat)
  /-- R44: A host write through BAR2 translates and writes each line, dropping faulted lines and setting DSTAT.APF. -/
  | apertureWrite (d off : Nat) (data : List Byte)
  /-- R45: A write of 1 to DSTAT.APF clears APF, APFC and APFA. -/
  | apfClear (d : Nat)
  /-- R45: A write of 1 to RESUME releases a QUIESCE held with HOLD, and the queues and saved groups resume. -/
  | resume (d : Nat)
  /-- R46: A write to a queue configuration word that leaves EN set changes its fields or sets QERR = 5. -/
  | queueConfigWrite (d q : Nat) (v : DWord)
  /-- R46: A configuration write that clears EN discards unread records and returns HEAD, TAIL, the reservation count
  and QERR to 0. -/
  | queueDisable (d q : Nat) (v : DWord)
  /-- R47: A direct TAIL doorbell write makes records available, or sets QERR 3, 4 or 6. -/
  | tail (d q : Nat) (v : Word)
  /-- R47: A read of RESV reserves one ring slot and returns its number, or returns 0xFFFF_FFFF. -/
  | resv (d q : Nat)
  /-- R47: A write to COMMIT commits a reserved record, and TAIL advances over the committed records in order. -/
  | commit (d q : Nat) (v : Word)
  /-- R48: The command processor reads one command record covered by TAIL and checks its OP and reserved bits, setting
  QERR and stopping the queue if they are bad. -/
  | commandRecordRead (d q : Nat)
  /-- R53: The command processor starts the next startable command, by priority and round-robin, once its WAITS and
  SERIAL conditions hold. -/
  | commandStart (d q : Nat)
  /-- R50: A command completes: the command processor writes STATA, adds ADD to CSIG with release, and raises the
  interrupt. -/
  | commandCompletion (d c : Nat)
  /-- R49: The NOP command has no effect beyond its common fields. -/
  | nopCommand (d c : Nat)
  /-- R49: The LAUNCH command is accepted by the sweep unit once its cap fits, runs the check and measure pass, and
  runs its forest or is refused with CAP or RANGE. -/
  | launchCommand (d c : Nat)
  /-- R49: The COPY command copies bytes through the copy engine. -/
  | copyCommand (d c : Nat)
  /-- R49: The PUBLISH command flips a shadowed record's front as publish does. -/
  | publishCommand (d c : Nat)
  /-- R49: The SIGNAL command adds to or sets a signal record with release at .sys. -/
  | signalCommand (d c : Nat)
  /-- R49: The WAIT command completes when its signal is at least the given value. -/
  | waitCommand (d c : Nat)
  /-- R74: The MIGRATE command moves each 64 KiB page of its range from the source die to the target die in ascending
  order. -/
  | migrate (d c : Nat)
  /-- R74: Once the page's accepted accesses have completed and a migration entry is free, the page is unmapped on the
  source and mapped with MIG = 1 on the target. -/
  | migrationPageSwitch (d c : Nat)
  /-- R75: A pulled line arrives, or is marked poisoned, and its bit is set; when all 1,024 bits are set, MIG clears
  and the old frame returns to the source ring. -/
  | migrationLinePulled (d page line : Nat)
  /-- R54: The QUIESCE command stops command starts on the die, optionally pre-empts resident groups, and drains
  accesses. -/
  | quiesce (d c : Nat)
  /-- R54: Once started commands have finished and accesses have drained, QUIESCED is set and the QUIESCE completes. -/
  | quiesceComplete (d : Nat)
  /-- R61: A write of 1 to ALL invalidates every translation and import entry, with BUSY set until done. -/
  | tlbctlAll (d : Nat)
  /-- R61: A write to PAGE invalidates the page containing that address, with BUSY set until done. -/
  | tlbctlPage (d : Nat) (v : DWord)
  /-- R61: Every slice and engine has dropped the covered entries, so BUSY clears. -/
  | invalidationDone (d : Nat)
  /-- R73: A write to FTTAIL supplies first-touch frames for background zeroing. -/
  | fttail (d : Nat) (v : DWord)
  /-- R73: The die finishes zeroing a supplied frame in ring order and counts it into FTREADY. -/
  | frameZeroed (d : Nat)
  /-- R61: A write of 1 clears FTEMPTY. -/
  | ftemptyClear (d : Nat)
  /-- R312: A write to a control-window or special register with no behaviour of its own replaces the 8-byte word
  whole. -/
  | controlRegisterWrite (fn off : Nat) (v : DWord)
  /-- R103: The sweep unit opens the next candidate subtree, or starts a downward child, once its charge fits under the
  cap. -/
  | nodeOpen (d n i : Nat)
  /-- R113: The sweep unit places a ready group all or nothing, fills its inbox and registers, and starts its gangs. -/
  | groupPlacement (d n i : Nat)
  /-- R114: 64 later nodes have been placed past a waiting node, so placement on the die stops until that node is
  placed. -/
  | placementStarvation (d : Nat)
  /-- R94: When all gangs have exited and their commands and batches have completed, the group ends with a .die
  release, delivering results, RESA and handoffs. -/
  | groupEnd (d g : Nat)
  /-- R192: A higher-priority ready group has waited 16,384 cycles, so the sweep unit pre-empts lower-priority groups
  until it fits. -/
  | priorityPreemption (d n i : Nat)
  /-- R193: A saved group is placed again and every quad vectors through entry 0 with RESTORE = 1. -/
  | savedGroupPlacement (d g : Nat)
  /-- R326: Every quad has executed rfe with PRE = 1 and RESTORE = 0, so the group leaves its cores and the join engine
  is cleared and passed on. -/
  | groupSaved (d g : Nat)
  /-- R184: A quad with parked lanes reaches a convergence point or exit and vectors through the class's trap-table
  entry. -/
  | faultVector (d g k q : Nat)
  /-- R189: An engine element or code fetch meets a page-not-present fault, and the supplying quads vector at their
  next boundary. -/
  | pageFaultVector (d g k q : Nat)
  /-- R190: The group is stopped, its commands drain, and the node becomes FAILED. -/
  | faultBeyondRecovery (d g : Nat)
  /-- R138: Every resident gang of the group has been stalled on ports, bar, gsync or regang for 256 cycles, so each
  stalled quad traps. -/
  | portDeadlock (d g : Nat)
  /-- R71: An engine element's lines are translated and performed, or fault, at the memory slices. -/
  | engineElementPerformed (d c e : Nat)
  /-- R133: An engine command completes, decrementing C or A and landing any register result. -/
  | engineCommandCompletion (d c : Nat)
  /-- R283: The home slice re-reads a sigwait element when its line is written or 4,096 cycles pass, releasing the
  waiter with acquire when the value suffices. -/
  | sigwaitReread (d g k q : Nat)
  /-- R168: The join engine executes the next queued join instruction in issue order. -/
  | joinEntryExecute (d core : Nat)
  /-- R168: All instructions of a batch, with their retirements, spills and writes, have completed. -/
  | batchComplete (d core : Nat)
  /-- R176: At the next step boundary after pre-emption or jfrz, the engine freezes and FROZEN is set. -/
  | joinFreeze (d core : Nat)
  /-- R160: A waiting gang reaches the head of the acquire queue with the engine free and becomes owner, as an acquire.
  -/
  | macqGrant (d core : Nat)
  /-- R254: Every non-exited quad of the group has arrived at bar, so the barrier releases, orders accesses and settles
  the g registers. -/
  | barRelease (d g : Nat)
  /-- R255: Every non-exited quad has arrived at gsync, so the g registers settle. -/
  | gsyncRelease (d g : Nat)
  /-- R248: All existing non-exited quads wait at one regang PC, so they form one sub-gang. -/
  | regangJoin (d g k : Nat)
  /-- `vadd`, opcode 0x000 (R229): Integer add, wrapping or saturating. -/
  | vadd (o : OpsR)
  /-- `vsub`, opcode 0x001 (R229): Integer subtract. -/
  | vsub (o : OpsR)
  /-- `vmul`, opcode 0x002 (R229): Integer multiply. -/
  | vmul (o : OpsR)
  /-- `vmulhi`, opcode 0x003 (R229): High 32 bits of the 64-bit product. -/
  | vmulhi (o : OpsR)
  /-- `vmad`, opcode 0x004 (R229): Integer a × b + c as one exact sum. -/
  | vmad (o : OpsR)
  /-- `vneg`, opcode 0x005 (R229): Integer negate. -/
  | vneg (o : OpsR)
  /-- `vabs`, opcode 0x006 (R229): Integer absolute value. -/
  | vabs (o : OpsR)
  /-- `vmin`, opcode 0x007 (R229): Integer minimum. -/
  | vmin (o : OpsR)
  /-- `vmax`, opcode 0x008 (R229): Integer maximum. -/
  | vmax (o : OpsR)
  /-- `vand`, opcode 0x009 (R229): Bitwise and. -/
  | vand (o : OpsR)
  /-- `vor`, opcode 0x00A (R229): Bitwise or. -/
  | vor (o : OpsR)
  /-- `vxor`, opcode 0x00B (R229): Bitwise exclusive or. -/
  | vxor (o : OpsR)
  /-- `vnot`, opcode 0x00C (R229): Bitwise complement. -/
  | vnot (o : OpsR)
  /-- `vshl`, opcode 0x00D (R230): Shift left. -/
  | vshl (o : OpsR)
  /-- `vshr`, opcode 0x00E (R230): Shift right, arithmetic or logical. -/
  | vshr (o : OpsR)
  /-- `vrot`, opcode 0x00F (R230): Rotate left. -/
  | vrot (o : OpsR)
  /-- `vpopc`, opcode 0x010 (R229): Count of one bits. -/
  | vpopc (o : OpsR)
  /-- `vclz`, opcode 0x011 (R229): Count of leading zeros. -/
  | vclz (o : OpsR)
  /-- `vbrev`, opcode 0x012 (R229): Bit reversal. -/
  | vbrev (o : OpsR)
  /-- `vbfx`, opcode 0x013 (R230): Bit-field extract. -/
  | vbfx (o : OpsR)
  /-- `vbfi`, opcode 0x014 (R230): Bit-field insert. -/
  | vbfi (o : OpsR)
  /-- `vcmp`, opcode 0x015 (R229): Integer compare writing 1 or 0. -/
  | vcmp (o : OpsR)
  /-- `vsel`, opcode 0x016 (R229): Select by condition. -/
  | vsel (o : OpsR)
  /-- `vmov`, opcode 0x017 (R229): Register move. -/
  | vmov (o : OpsR)
  /-- `vmovi`, opcode 0x018 (R230): Immediate move, whole word or one half. -/
  | vmovi (o : OpsR)
  /-- `vdot4`, opcode 0x019 (R231): Four-byte dot product accumulated into 32 bits. -/
  | vdot4 (o : OpsR)
  /-- `vdot8`, opcode 0x01A (R231): Eight-nibble INT4 dot product accumulated into 32 bits. -/
  | vdot8 (o : OpsR)
  /-- `vlea`, opcode 0x01B (R229): Computes a + (b << c). -/
  | vlea (o : OpsR)
  /-- `vfadd`, opcode 0x040 (R232): Floating-point add. -/
  | vfadd (o : OpsR)
  /-- `vfsub`, opcode 0x041 (R232): Floating-point subtract. -/
  | vfsub (o : OpsR)
  /-- `vfmul`, opcode 0x042 (R232): Floating-point multiply. -/
  | vfmul (o : OpsR)
  /-- `vffma`, opcode 0x043 (R232): Fused multiply-add, rounded once. -/
  | vffma (o : OpsR)
  /-- `vfmin`, opcode 0x044 (R149): Floating-point minimum. -/
  | vfmin (o : OpsR)
  /-- `vfmax`, opcode 0x045 (R149): Floating-point maximum. -/
  | vfmax (o : OpsR)
  /-- `vfcmp`, opcode 0x046 (R234): Floating-point compare. -/
  | vfcmp (o : OpsR)
  /-- `vfrcp`, opcode 0x047 (R232): Correctly rounded reciprocal. -/
  | vfrcp (o : OpsR)
  /-- `vfrsq`, opcode 0x048 (R232): Correctly rounded reciprocal square root. -/
  | vfrsq (o : OpsR)
  /-- `vfsqrt`, opcode 0x049 (R232): Correctly rounded square root. -/
  | vfsqrt (o : OpsR)
  /-- `vfexp2`, opcode 0x04A (R232): Correctly rounded 2^a. -/
  | vfexp2 (o : OpsR)
  /-- `vflog2`, opcode 0x04B (R232): Correctly rounded log2 a. -/
  | vflog2 (o : OpsR)
  /-- `vfclass`, opcode 0x04C (R235): One-hot floating-point class mask. -/
  | vfclass (o : OpsR)
  /-- `vfdiv`, opcode 0x04D (R232): Correctly rounded division. -/
  | vfdiv (o : OpsR)
  /-- `sadd`, opcode 0x060 (R237): Scalar add. -/
  | sadd (o : OpsR)
  /-- `ssub`, opcode 0x061 (R237): Scalar subtract. -/
  | ssub (o : OpsR)
  /-- `smul`, opcode 0x062 (R237): Scalar multiply. -/
  | smul (o : OpsR)
  /-- `sand`, opcode 0x063 (R237): Scalar and. -/
  | sand (o : OpsR)
  /-- `sor`, opcode 0x064 (R237): Scalar or. -/
  | sor (o : OpsR)
  /-- `sxor`, opcode 0x065 (R237): Scalar exclusive or. -/
  | sxor (o : OpsR)
  /-- `sshl`, opcode 0x066 (R237): Scalar shift left. -/
  | sshl (o : OpsR)
  /-- `sshr`, opcode 0x067 (R237): Scalar shift right. -/
  | sshr (o : OpsR)
  /-- `scmp`, opcode 0x068 (R237): Scalar compare into an s register or a predicate. -/
  | scmp (o : OpsR)
  /-- `smov`, opcode 0x069 (R237): Scalar move. -/
  | smov (o : OpsR)
  /-- `smovi`, opcode 0x06A (R237): Scalar immediate move. -/
  | smovi (o : OpsR)
  /-- `ssel`, opcode 0x06B (R237): Scalar select. -/
  | ssel (o : OpsR)
  /-- `vcvt`, opcode 0x080 (R238): Float-to-float conversion. -/
  | vcvt (o : OpsR)
  /-- `vfcvti`, opcode 0x081 (R238): Float-to-integer conversion. -/
  | vfcvti (o : OpsR)
  /-- `vicvtf`, opcode 0x082 (R238): Integer-to-float conversion. -/
  | vicvtf (o : OpsR)
  /-- `vpack`, opcode 0x083 (R239): Narrows an integer into a field of the destination. -/
  | vpack (o : OpsR)
  /-- `vunpk`, opcode 0x084 (R239): Extracts an integer field. -/
  | vunpk (o : OpsR)
  /-- `vplx`, opcode 0x085 (R240): Gathers bit-plane words across lanes. -/
  | vplx (o : OpsR)
  /-- `vpli`, opcode 0x086 (R240): Inserts a plane bit into an 8-bit value. -/
  | vpli (o : OpsR)
  /-- `vsplit6`, opcode 0x087 (R241): Splits an F6 value into its nibble or mantissa plane part. -/
  | vsplit6 (o : OpsR)
  /-- `vjoin6`, opcode 0x088 (R241): Joins F6 plane parts into a whole value. -/
  | vjoin6 (o : OpsR)
  /-- `sfmt`, opcode 0x089 (R242): Writes checked fields of each quad's fmt. -/
  | sfmt (o : OpsR)
  /-- `if`, opcode 0x0C0 (R246): Pushes a mask entry and narrows LMASK, skipping the body if no lane is live. -/
  | ifMask (o : OpsC)
  /-- `else`, opcode 0x0C1 (R246): Switches to the complementary lanes and restores fmt. -/
  | elseMask (o : OpsC)
  /-- `endif`, opcode 0x0C2 (R246): Pops the if entry, restoring LMASK and fmt. -/
  | endif (o : OpsC)
  /-- `loop`, opcode 0x0C3 (R247): Pushes the exit and live loop entries. -/
  | loop (o : OpsC)
  /-- `brk`, opcode 0x0C4 (R247): Lanes leave the loop until it ends. -/
  | brk (o : OpsC)
  /-- `cont`, opcode 0x0C5 (R247): Lanes wait for the next iteration. -/
  | cont (o : OpsC)
  /-- `endloop`, opcode 0x0C6 (R247): Repeats the loop with the live lanes, or pops both entries. -/
  | endloop (o : OpsC)
  /-- `regang`, opcode 0x0C7 (R248): The quad arrives and waits to rejoin the gang's sub-gangs. -/
  | regang (o : OpsC)
  /-- `jmp`, opcode 0x0C8 (R249): Unconditional jump, direct or through an s pair. -/
  | jmp (o : OpsC)
  /-- `bra`, opcode 0x0C9 (R249): Branch when any or all live lanes hold true. -/
  | bra (o : OpsC)
  /-- `call`, opcode 0x0CA (R249): Pushes a return entry and jumps. -/
  | call (o : OpsC)
  /-- `ret`, opcode 0x0CB (R249): Returns from a call, checking the mask depth. -/
  | ret (o : OpsC)
  /-- `rep`, opcode 0x0CC (R250): Opens a counted hardware loop level, or skips the body for count 0. -/
  | rep (o : OpsC)
  /-- `exit`, opcode 0x0CD (R251): Ends the quad. -/
  | exit (o : OpsC)
  /-- `yield`, opcode 0x0CE (R252): Jumps to the label and leaves the rotation until the counts hold. -/
  | yield (o : OpsC)
  /-- `nop`, opcode 0x0CF (R253): Changes nothing but PC. -/
  | nop (o : OpsC)
  /-- `bar`, opcode 0x0D0 (R254): The quads arrive at the group barrier. -/
  | bar (o : OpsC)
  /-- `gsync`, opcode 0x0D1 (R255): The quads arrive at the g-register synchronisation. -/
  | gsync (o : OpsC)
  /-- `vshfl`, opcode 0x100 (R258): Reads a value from another lane by index, up, down or xor. -/
  | vshfl (o : OpsR)
  /-- `vvote`, opcode 0x101 (R259): Votes any, all, ballot or uniform over a lane set. -/
  | vvote (o : OpsR)
  /-- `vred`, opcode 0x102 (R260): Reduces over a fixed tree. -/
  | vred (o : OpsR)
  /-- `vscan`, opcode 0x103 (R260): Inclusive scan. -/
  | vscan (o : OpsR)
  /-- `vmatch`, opcode 0x104 (R261): Mask of present lanes holding the same value. -/
  | vmatch (o : OpsR)
  /-- `vconf`, opcode 0x105 (R261): Mask of lower present lanes holding the same value. -/
  | vconf (o : OpsR)
  /-- `vquad`, opcode 0x106 (R262): Exchange within a quad. -/
  | vquad (o : OpsR)
  /-- `vsegred`, opcode 0x107 (R260): Segmented reduction. -/
  | vsegred (o : OpsR)
  /-- `pbind`, opcode 0x108 (R263): Binds or unbinds a core port or kd. -/
  | pbind (o : OpsR)
  /-- `pcnt`, opcode 0x109 (R265): Reads a port's queued or free entry count. -/
  | pcnt (o : OpsR)
  /-- `pflush`, opcode 0x10A (R265): Discards receive-queue entries. -/
  | pflush (o : OpsR)
  /-- `xwin`, opcode 0x10B (R265): Sets an index window. -/
  | xwin (o : OpsR)
  /-- `ld`, opcode 0x140 (R270): Scratchpad load. -/
  | ld (o : OpsM)
  /-- `st`, opcode 0x141 (R270): Scratchpad store. -/
  | st (o : OpsM)
  /-- `atom`, opcode 0x142 (R271): Scratchpad atomic read-modify-write. -/
  | atom (o : OpsM)
  /-- `wset`, opcode 0x143 (R272): Sets a window descriptor. -/
  | wset (o : OpsE)
  /-- `copy`, opcode 0x144 (R274): Engine copy of one element per lane. -/
  | copy (o : OpsE)
  /-- `gath`, opcode 0x145 (R275): Multi-level indirect gather. -/
  | gath (o : OpsE)
  /-- `scat`, opcode 0x146 (R275): Multi-level indirect scatter. -/
  | scat (o : OpsE)
  /-- `ratom`, opcode 0x147 (R276): Device-memory atomic through a record. -/
  | ratom (o : OpsE)
  /-- `coll`, opcode 0x148 (R278): Ring collective across participants. -/
  | coll (o : OpsE)
  /-- `wait`, opcode 0x149 (R279): Holds until the completion counters fall. -/
  | wait (o : OpsE)
  /-- `publish`, opcode 0x14A (R281): Releases and flips a shadowed record's front. -/
  | publish (o : OpsE)
  /-- `fence`, opcode 0x14B (R280): Release or acquire fence at a scope. -/
  | fence (o : OpsE)
  /-- `sigadd`, opcode 0x14C (R282): Atomic add to a signal element. -/
  | sigadd (o : OpsE)
  /-- `sigwait`, opcode 0x14D (R283): Waits until a signal element reaches a target. -/
  | sigwait (o : OpsE)
  /-- `launch`, opcode 0x14E (R284): Submits a command record into a queue. -/
  | launch (o : OpsE)
  /-- `nres`, opcode 0x14F (R285): Writes the node result slot. -/
  | nres (o : OpsE)
  /-- `nhand`, opcode 0x150 (R285): Writes a child's handed value. -/
  | nhand (o : OpsE)
  /-- `macq`, opcode 0x180 (R292): Queues for join-engine ownership. -/
  | macq (o : OpsE)
  /-- `mrel`, opcode 0x181 (R292): Releases join-engine ownership after every batch. -/
  | mrel (o : OpsE)
  /-- `tfill`, opcode 0x182 (R293): Fills a tile register from scratchpad. -/
  | tfill (o : OpsE)
  /-- `tzero`, opcode 0x183 (R293): Zeroes a tile register. -/
  | tzero (o : OpsE)
  /-- `tstore`, opcode 0x184 (R293): Stores a tile register to scratchpad. -/
  | tstore (o : OpsE)
  /-- `jmm`, opcode 0x185 (R294): Dense join step into the trays. -/
  | jmm (o : OpsE)
  /-- `jmms`, opcode 0x186 (R295): Bitmap-sparse join step. -/
  | jmms (o : OpsE)
  /-- `jstream`, opcode 0x187 (R296): Merge-joins two tuple streams into the cabinet. -/
  | jstream (o : OpsE)
  /-- `jbatch`, opcode 0x188 (R299): Closes the open batch and returns its number. -/
  | jbatch (o : OpsE)
  /-- `jwait`, opcode 0x189 (R299): Waits for a batch to complete. -/
  | jwait (o : OpsE)
  /-- `copen`, opcode 0x18A (R300): Opens a cabinet session. -/
  | copen (o : OpsE)
  /-- `cacc`, opcode 0x18B (R297): Feeds lane tuples into the cabinet. -/
  | cacc (o : OpsE)
  /-- `cprobe`, opcode 0x18C (R298): Looks up a key in the cabinet. -/
  | cprobe (o : OpsE)
  /-- `cdrain`, opcode 0x18D (R302): Drains drawer images in key or index order. -/
  | cdrain (o : OpsE)
  /-- `cclose`, opcode 0x18E (R300): Retires trays and closes the session. -/
  | cclose (o : OpsE)
  /-- `cstat`, opcode 0x18F (R301): Reads CSTAT, CCNT, CFLAGS or JSTEP. -/
  | cstat (o : OpsE)
  /-- `tsave`, opcode 0x190 (R304): Saves all trays to scratchpad. -/
  | tsave (o : OpsE)
  /-- `tload`, opcode 0x191 (R304): Restores trays from scratchpad. -/
  | tload (o : OpsE)
  /-- `csave`, opcode 0x192 (R305): Saves the session line and drawer images. -/
  | csave (o : OpsE)
  /-- `cload`, opcode 0x193 (R305): Restores the session state and drawers. -/
  | cload (o : OpsE)
  /-- `trap`, opcode 0x1C0 (R313): Vectors with class 15 and the immediate. -/
  | trap (o : OpsS)
  /-- `rfe`, opcode 0x1C1 (R316): Returns from supervisor state, ending unreleased lanes, or stops or resumes a
  pre-empted quad. -/
  | rfe (o : OpsS)
  /-- `sysrd`, opcode 0x1C2 (R311): Reads a special register. -/
  | sysrd (o : OpsS)
  /-- `syswr`, opcode 0x1C3 (R312): Writes a special register. -/
  | syswr (o : OpsS)
  /-- `fltrd`, opcode 0x1C4 (R314): Reads 8 bytes of a lane's fault record. -/
  | fltrd (o : OpsS)
  /-- `unpark`, opcode 0x1C5 (R315): Marks parked lanes as released. -/
  | unpark (o : OpsS)
  /-- `pmap`, opcode 0x1C6 (R318): Maps a first-touch frame at a faulting page. -/
  | pmap (o : OpsS)
  /-- `tlbinv`, opcode 0x1C7 (R319): Invalidates a page or every translation and waits for completion. -/
  | tlbinv (o : OpsS)
  /-- `gsave`, opcode 0x1C8 (R321): Writes a gang or core context image. -/
  | gsave (o : OpsS)
  /-- `gload`, opcode 0x1C9 (R325): Checks and restores a gang or core context image. -/
  | gload (o : OpsS)
  /-- `jfrz`, opcode 0x1CA (R327): Freezes or thaws the join engine. -/
  | jfrz (o : OpsS)
  /-- `halt`, opcode 0x1CB (R317): Faults the group beyond recovery. -/
  | halt (o : OpsS)
  /-- `brkpt`, opcode 0x1CC (R313): Vectors with class 14. -/
  | brkpt (o : OpsS)
  /-- R39: A die fills one of its 4,096 export slots with a base, length, rights and generation, making a range of its
  memory reachable through handles. -/
  | exportSlotFill (d slot base len rights : Nat)
  /-- R39: Revoking an export increments the slot's GEN, so every access that arrives afterwards faults while accepted
  ones complete. -/
  | exportRevoke (d slot : Nat)
  deriving DecidableEq, Repr

end Sys2Proof
end

