-- ==== Sys2Proof/Machine/Table.lean ====
section
/-!
DEFINITION. The tables of the encoding and reference chapters (12 to 17) that decoding, encoding and
well-formedness share: which opcodes exist and which format each takes (R220, R221), what each field of a
word is used for (R209 to R212, R244, R257, R268, R288, R307), which values of TYPE, VARIANT and FLAGS each
opcode lists (R217 to R219 and the tables of the reference chapters), and which opcodes are privileged (R222).
-/
namespace Sys2Proof

/-- The format shapes: RRR and RRI share one. -/
inductive Shape where
  | r | c | m | e | s
  deriving DecidableEq, Repr

/-- The shape of an assigned opcode; `none` for an unassigned one (R220). -/
def shapeOf (op : Nat) : Option Shape :=
  if op ≤ 0x1B ∨ (0x40 ≤ op ∧ op ≤ 0x4D) ∨ (0x60 ≤ op ∧ op ≤ 0x6B) ∨ (0x80 ≤ op ∧ op ≤ 0x89)
      ∨ (0x100 ≤ op ∧ op ≤ 0x10B) then some .r
  else if 0xC0 ≤ op ∧ op ≤ 0xD1 then some .c
  else if 0x140 ≤ op ∧ op ≤ 0x142 then some .m
  else if (0x143 ≤ op ∧ op ≤ 0x150) ∨ (0x180 ≤ op ∧ op ≤ 0x193) then some .e
  else if 0x1C0 ≤ op ∧ op ≤ 0x1CC then some .s
  else none

/-- Opcodes that take RRR only (R221). -/
def rrrOnly : List Nat := [0x004, 0x013, 0x014, 0x016, 0x019, 0x01A, 0x01B, 0x043, 0x06B]

/-- Opcodes that take RRI only (R221). -/
def rriOnly : List Nat := [0x018, 0x06A]

/-- Whether an opcode accepts a format (R221). -/
def formatOk (op fmt : Nat) : Bool :=
  match shapeOf op with
  | some .r => (fmt = 0 && !rriOnly.contains op) || (fmt = 1 && !rrrOnly.contains op)
  | some .c => fmt = 2
  | some .m => fmt = 3
  | some .e => fmt = 4
  | some .s => fmt = 5
  | none => false

/-! ### What each field is used for -/

/-- How an RRR or RRI opcode uses its fields: whether DEST is used, how many sources it has from SRCA on,
and whether SRCA only names a port or an x register (R257). -/
structure FormR where
  dest : Bool
  n : Nat
  named : Bool
  deriving DecidableEq, Repr

/-- Opcodes of one source. -/
def oneSource : List Nat :=
  [0x005, 0x006, 0x00C, 0x010, 0x011, 0x012, 0x017, 0x018, 0x047, 0x048, 0x049, 0x04A, 0x04B, 0x04C, 0x069,
   0x06A, 0x080, 0x081, 0x082, 0x083, 0x084, 0x087, 0x089, 0x104, 0x105, 0x106, 0x109, 0x10A]

/-- Opcodes of three sources: those of RRR only, `vred` with its predicate, and `xwin`. -/
def threeSources : List Nat := rrrOnly ++ [0x102, 0x10B]

/-- The use of the fields of an RRR or RRI opcode (tables of R229 to R242, R257). (DEDUCED: log 50) -/
def formR (op v : Nat) : FormR :=
  { dest := !([0x089, 0x108, 0x10A, 0x10B].contains op)
    n := if op = 0x10A ∧ v = 1 then 0 else if oneSource.contains op then 1
         else if threeSources.contains op then 3 else 2
    named := [0x108, 0x109, 0x10A, 0x10B].contains op }

/-- Whether the RRI immediate of the opcode stands for SRCA (one source) rather than SRCB (R211). -/
def immAtA (op v : Nat) : Bool := (formR op v).n = 1 && !(formR op v).named

/-- Whether the opcode gives its RRI immediate a use: `pcnt` and `pflush` have no register source. -/
def immUsed (op : Nat) : Bool := !([0x109, 0x10A].contains op)

/-- The forms of an A-operand (R210). -/
inductive UseA where
  | none | reg | imm | both
  deriving DecidableEq, Repr

/-- Whether a use admits an A-operand of that form; an unused one is the zero field. -/
def UseA.ok (u : UseA) (a : AOpd) : Bool :=
  match u, a with
  | .none, .reg (.v 0) => true
  | .reg, .reg _ => true
  | .imm, .imm _ => true
  | .both, _ => true
  | _, _ => false

/-- The A-operand of a control opcode, and whether it uses the offset (R244). A condition is `both` here: its
immediate form is a cause of reason 4, not of reason 2. -/
def formC (op v : Nat) : UseA × Bool :=
  match op with
  | 0x0C0 | 0x0C4 | 0x0C5 | 0x0C9 => (.both, true)
  | 0x0C1 | 0x0C3 | 0x0C6 => (.none, true)
  | 0x0C8 | 0x0CA => if v = 1 then (.reg, false) else (.none, true)
  | 0x0CC => (.both, true)
  | 0x0CE => (.imm, true)
  | _ => (.none, false)

/-- The opcodes whose A-operand is a condition (R244). -/
def conditionOps : List Nat := [0x0C0, 0x0C4, 0x0C5, 0x0C9]

/-- Whether DEST, and whether SRCC, is used by a scratchpad opcode (R268). -/
def formM (op : Nat) : Bool × Bool := (op = 0x140 || op = 0x142, op = 0x141 || op = 0x142)

/-- The kinds of operand descriptors (R212). -/
inductive Kind where
  | record | reg | win | tile | imm
  deriving DecidableEq, Repr

/-- The kind of a descriptor. -/
def Desc.kind : Desc → Kind
  | .record _ => .record
  | .reg _ _ => .reg
  | .win _ _ => .win
  | .tile _ => .tile
  | .imm _ => .imm

/-- How an ENG opcode uses its fields: DEST, and the descriptor kinds accepted in SRCA, SRCB and SRCC, none of
them for an unused field (R268, R288). -/
structure FormE where
  dest : Bool
  a : List Kind
  b : List Kind
  c : List Kind
  deriving DecidableEq, Repr

/-- The use of the fields of an ENG opcode (R268, R274, R288). -/
def formE (op v : Nat) : FormE :=
  match op with
  | 0x143 => ⟨false, [.win], [.reg, .imm], [.reg, .imm]⟩
  | 0x144 => match v with
    | 1 => ⟨false, [.record], [.reg], [.win]⟩
    | 2 => ⟨true, [.win], [.win], [.imm]⟩
    | 3 => ⟨false, [.record], [.reg], [.record]⟩
    | _ => ⟨false, [.win], [.record], [.reg]⟩
  | 0x145 => ⟨true, [.win], [.record], [.reg]⟩
  | 0x146 => ⟨true, [.record], [.reg], [.win]⟩
  | 0x147 => ⟨true, [.record], [.reg], [.reg]⟩
  | 0x148 => ⟨false, [.record], [.record], [.win]⟩
  | 0x149 => ⟨false, [.imm], [], []⟩
  | 0x14A => ⟨false, [.record], [.reg], []⟩
  | 0x14B => ⟨false, [], [], []⟩
  | 0x14C | 0x14D => ⟨false, [.record], [.reg, .imm], [.reg, .imm]⟩
  | 0x14E => ⟨true, [.record], [.reg, .imm], [.reg, .imm]⟩
  | 0x14F => ⟨false, [.reg], [.reg], []⟩
  | 0x150 => ⟨false, [.reg], [.reg], [.reg]⟩
  | 0x182 => ⟨false, [.tile], [.win], [.reg]⟩
  | 0x183 => ⟨false, [.tile], [], []⟩
  | 0x184 => ⟨false, [.win], [.tile], []⟩
  | 0x185 => ⟨true, [.tile], [.tile], [.reg, .imm]⟩
  | 0x186 => ⟨true, [.tile], [.tile], [.reg]⟩
  | 0x187 => ⟨false, [.win], [.win], [.reg]⟩
  | 0x188 | 0x18F => ⟨true, [], [], []⟩
  | 0x189 => ⟨false, [.reg, .imm], [], []⟩
  | 0x18A => ⟨false, [.record], [.reg, .imm], [.reg, .imm]⟩
  | 0x18B => ⟨false, [.reg], [.reg], []⟩
  | 0x18C => ⟨true, [.reg], if v = 1 then [.imm] else [], []⟩
  | 0x18D => ⟨true, [.record, .win], [], []⟩
  | 0x190 | 0x191 => ⟨false, [.win], [], []⟩
  | 0x192 | 0x193 => ⟨false, [.record], [.reg, .imm], []⟩
  | _ => ⟨false, [], [], []⟩

/-- DEST, the A-operand and SRCB of a system opcode; no one uses SRCC, and `trap` alone holds an immediate (R307). -/
def formS (op v : Nat) : Bool × UseA × Bool :=
  match op with
  | 0x1C2 => (true, .imm, false)
  | 0x1C3 => (false, .imm, true)
  | 0x1C4 => (true, .reg, false)
  | 0x1C6 => (true, .reg, true)
  | 0x1C7 => (false, if v = 1 then .none else .reg, false)
  | 0x1C8 | 0x1C9 => (false, .both, true)
  | _ => (false, .none, false)

/-! ### TYPE, VARIANT and FLAGS -/

/-- The types "ints" of R229. -/
def ints : List Ty := [.i32, .n32, .i16, .n16, .i8, .n8, .i64, .n64]

/-- The types "sints" of R229. -/
def sints : List Ty := [.i32, .i16, .i8, .i64]

/-- The 32-bit and 64-bit integer types. -/
def wideInts : List Ty := [.i32, .n32, .i64, .n64]

/-- "b" of R229: TYPE 0 for 32 bits, or i64 for a pair. -/
def bitTypes : List Ty := [.i32, .i64]

/-- The three arithmetic floating-point types (R232). -/
def floatTypes : List Ty := [.f32, .f16, .bf16]

/-- The destination types of a conversion to floating point (R238). -/
def floatFormats : List Ty := [.f32, .f16, .bf16, .e4m3, .e5m2, .f6]

/-- The types of a reduction (R257). -/
def reduceTypes : List Ty := wideInts ++ floatTypes

/-- The types of scratchpad loads and stores (R270). -/
def memTypes : List Ty :=
  [.i8, .n8, .e4m3, .e5m2, .i16, .n16, .f16, .bf16, .i32, .n32, .f32, .b32, .i64, .n64]

/-- The types of atomics (R271). -/
def atomTypes : List Ty := [.i32, .n32, .i64, .n64, .f32]

/-- The types of collectives (R277). -/
def collTypes : List Ty := [.i32, .n32, .f32, .f16, .bf16, .b32]

/-- The types an opcode lists; an opcode that lists none requires TYPE 0 (R217). -/
def typesOf (op : Nat) : List Ty :=
  if op ≤ 0x002 ∨ op = 0x007 ∨ op = 0x008 ∨ op = 0x015 ∨ op = 0x081 then ints
  else if op = 0x005 ∨ op = 0x006 then sints
  else if op = 0x004 then [.i32, .n32, .i16, .n16, .i8, .n8]
  else if op = 0x003 ∨ op = 0x00F ∨ op = 0x013 then [.i32, .n32]
  else if (0x009 ≤ op ∧ op ≤ 0x00C) ∨ op = 0x016 ∨ op = 0x017 ∨ (0x063 ≤ op ∧ op ≤ 0x065) ∨ op = 0x069
      ∨ op = 0x06B ∨ op = 0x100 ∨ (0x104 ≤ op ∧ op ≤ 0x106) ∨ op = 0x14F ∨ op = 0x150 then bitTypes
  else if op = 0x00D ∨ op = 0x00E ∨ (0x060 ≤ op ∧ op ≤ 0x062) ∨ (0x066 ≤ op ∧ op ≤ 0x068) then wideInts
  else if 0x040 ≤ op ∧ op ≤ 0x04D then floatTypes
  else if op = 0x080 ∨ op = 0x082 then floatFormats
  else if op = 0x083 ∨ op = 0x084 then [.i16, .n16, .i8, .n8]
  else if op = 0x102 ∨ op = 0x103 ∨ op = 0x107 then reduceTypes
  else if op = 0x140 ∨ op = 0x141 then memTypes
  else if op = 0x142 ∨ op = 0x147 then atomTypes
  else if op = 0x148 then collTypes
  else if op = 0x18A then [.f32, .i32]
  else [.i32]

/-- Whether the type is one of the floating-point formats. -/
def Ty.isFloat (t : Ty) : Bool := [Ty.f32, .f16, .bf16, .e4m3, .e5m2, .f6].contains t

/-- Whether the type takes a register pair (R126, R217). -/
def Ty.wide (t : Ty) : Bool := t = .i64 || t = .n64

/-- The highest VARIANT an opcode lists, for the opcodes whose codes run from 0. -/
def maxVariant (op : Nat) : Nat :=
  match op with
  | 0x015 | 0x068 | 0x080 | 0x081 | 0x102 | 0x103 | 0x107 | 0x142 | 0x147 => 5
  | 0x018 | 0x06A | 0x089 | 0x106 | 0x145 | 0x146 => 2
  | 0x019 | 0x01A | 0x100 | 0x101 | 0x144 | 0x18F | 0x1C4 => 3
  | 0x046 => 6
  | 0x082 | 0x083 | 0x084 | 0x143 | 0x187 | 0x18B => 7
  | 0x087 | 0x0C8 | 0x0C9 | 0x0CA | 0x109 | 0x10A | 0x140 | 0x141 | 0x182 | 0x184 | 0x18A | 0x18C | 0x18D
  | 0x1C2 | 0x1C7 | 0x1C8 | 0x1C9 | 0x1CA => 1
  | _ => 0

/-- Whether an opcode lists a VARIANT (the tables of the reference chapters; ORD of R219). -/
def variantOk (op : Nat) (t : Ty) (v f : Nat) : Bool :=
  match op with
  | 0x083 | 0x084 => v ≤ (if f / 2 % 2 = 1 then 7 else if t = .i16 ∨ t = .n16 then 1 else 3)
  | 0x102 | 0x103 | 0x107 => v ≤ (if t.isFloat then 2 else 5)
  | 0x140 | 0x141 => v = 0 || (v = 1 && t = .b32)
  | 0x14B => 3 ≤ v && v ≤ 5
  | 0x14C => v = 0 || v = 1 || v = 4
  | _ => v ≤ maxVariant op

/-- Whether an opcode lists a FLAGS value (R218, R219, R229, R238, R239, R288). -/
def flagsOk (op : Nat) (t : Ty) (f : Nat) : Bool :=
  if op ≤ 0x002 ∨ (0x004 ≤ op ∧ op ≤ 0x006) ∨ op = 0x019 ∨ op = 0x01A ∨ (0x060 ≤ op ∧ op ≤ 0x062) then f ≤ 1
  else if op = 0x044 ∨ op = 0x045 ∨ op = 0x046 ∨ op = 0x04C then f = 0 || f = 4
  else if 0x040 ≤ op ∧ op ≤ 0x04D then f ≤ 7
  else if op = 0x080 ∨ op = 0x081 then f ≤ 7
  else if op = 0x082 then f ≤ 3
  else if op = 0x083 then if t = .i16 ∨ t = .n16 then f ≤ 1 else f ≤ 3
  else if op = 0x084 then f = 0 || (f = 2 && !(t = .i16 || t = .n16))
  else if op = 0x102 ∨ op = 0x103 ∨ op = 0x107 then if t.isFloat then f ≤ 7 else f = 0
  else if op = 0x142 ∨ op = 0x147 ∨ op = 0x148 ∨ (0x14A ≤ op ∧ op ≤ 0x14D) then f ≤ 4
  else if op = 0x18A then f = 0 || (f = 1 && t = .i32)
  else f = 0

/-- Opcodes on which no guard may stand (R244, R307). -/
def noGuard : List Nat := [0x0C0, 0x0C1, 0x0C2, 0x0C3, 0x0C4, 0x0C5, 0x0C6, 0x0C7, 0x0CC, 0x1C1]

/-- The privileged opcodes (R222). -/
def privileged (op : Nat) : Bool :=
  [0x1C1, 0x1C3, 0x1C4, 0x1C5, 0x1C6, 0x1C7, 0x1C8, 0x1C9, 0x1CA, 0x1CB].contains op

/-- Whether an atomic operation is listed for a type (R271), and is not `.xchg` or `.cas` under `.com`. -/
def atomOpOk (t : Ty) (ord opx : Nat) : Bool :=
  opx ≤ 7 && !(t = .f32 && 3 ≤ opx && opx ≤ 5) && !(ord = 1 && 6 ≤ opx)

/-- The check of TYPE, VARIANT, FLAGS and guard: the reason of the trap, if any. ORD 6 and 7 of `atom` and `ratom`
give reason 9 and are looked at first; everything else gives reason 4 (R217 to R219, R223). (DEDUCED: log 45, 46,
47) -/
def modsFault (op : Nat) (h : Head) (m : Mods) : Option Nat :=
  if (op = 0x142 ∨ op = 0x147) ∧ 6 ≤ m.variant then some 9
  else if !(typesOf op).contains m.ty || !flagsOk op m.ty m.flags || !variantOk op m.ty m.variant m.flags
      || (noGuard.contains op && !(h.pred = 7 && !h.neg)) then some 4
  else none


/-- The operands of a Flaham instruction, by the shape of its format. -/
inductive Ops where
  | r (o : OpsR) | c (o : OpsC) | m (o : OpsM) | e (o : OpsE) | s (o : OpsS)
  deriving DecidableEq, Repr

/-- The further causes of reason 4, which stand in an operand: a condition in immediate form (R244), an atomic
operation not listed (R271), `wset` of w7 (R272), the size of `copy.xc` (R274), DEST of `gath.1` and `scat.1`
(R286), a scale with `tfill.h` (R293), and the word number of `cprobe.wd` (R298). -/
def operandFault (op : Nat) : Ops → Option Nat
  | .r _ => none
  | .c o => match o.a with
    | .imm _ => if conditionOps.contains op then some 4 else none
    | .reg _ => none
  | .m o => if op = 0x142 && !atomOpOk o.m.ty o.m.variant o.opx then some 4 else none
  | .e o =>
    if op = 0x147 then match o.c with
      | .reg opx _ => if atomOpOk o.m.ty o.m.variant opx then none else some 4
      | _ => none
    else if op = 0x143 then match o.a with
      | .win 7 _ => some 4
      | _ => none
    else if op = 0x144 ∧ o.m.variant = 2 then match o.c with
      | .imm v => if [1, 2, 4, 8, 16, 32, 64, 128, 256].contains v then none else some 4
      | _ => none
    else if (op = 0x145 ∨ op = 0x146) ∧ o.m.variant = 0 then if o.d = .v 0 then none else some 4
    else if op = 0x182 ∧ o.m.variant = 1 then if o.c = .reg 0 (.v 0) then none else some 4
    else if op = 0x18C ∧ o.m.variant = 1 then match o.b with
      | .imm v => if v ≤ 255 then none else some 4
      | _ => none
    else none
  | .s _ => none

/-- The opcode of R220 and the operands of an instruction; `none` for a step of another agent. -/
def opcodeAndOps : Instr → Option (Nat × Ops)
  | .vadd o => some (0x000, .r o)
  | .vsub o => some (0x001, .r o)
  | .vmul o => some (0x002, .r o)
  | .vmulhi o => some (0x003, .r o)
  | .vmad o => some (0x004, .r o)
  | .vneg o => some (0x005, .r o)
  | .vabs o => some (0x006, .r o)
  | .vmin o => some (0x007, .r o)
  | .vmax o => some (0x008, .r o)
  | .vand o => some (0x009, .r o)
  | .vor o => some (0x00A, .r o)
  | .vxor o => some (0x00B, .r o)
  | .vnot o => some (0x00C, .r o)
  | .vshl o => some (0x00D, .r o)
  | .vshr o => some (0x00E, .r o)
  | .vrot o => some (0x00F, .r o)
  | .vpopc o => some (0x010, .r o)
  | .vclz o => some (0x011, .r o)
  | .vbrev o => some (0x012, .r o)
  | .vbfx o => some (0x013, .r o)
  | .vbfi o => some (0x014, .r o)
  | .vcmp o => some (0x015, .r o)
  | .vsel o => some (0x016, .r o)
  | .vmov o => some (0x017, .r o)
  | .vmovi o => some (0x018, .r o)
  | .vdot4 o => some (0x019, .r o)
  | .vdot8 o => some (0x01A, .r o)
  | .vlea o => some (0x01B, .r o)
  | .vfadd o => some (0x040, .r o)
  | .vfsub o => some (0x041, .r o)
  | .vfmul o => some (0x042, .r o)
  | .vffma o => some (0x043, .r o)
  | .vfmin o => some (0x044, .r o)
  | .vfmax o => some (0x045, .r o)
  | .vfcmp o => some (0x046, .r o)
  | .vfrcp o => some (0x047, .r o)
  | .vfrsq o => some (0x048, .r o)
  | .vfsqrt o => some (0x049, .r o)
  | .vfexp2 o => some (0x04A, .r o)
  | .vflog2 o => some (0x04B, .r o)
  | .vfclass o => some (0x04C, .r o)
  | .vfdiv o => some (0x04D, .r o)
  | .sadd o => some (0x060, .r o)
  | .ssub o => some (0x061, .r o)
  | .smul o => some (0x062, .r o)
  | .sand o => some (0x063, .r o)
  | .sor o => some (0x064, .r o)
  | .sxor o => some (0x065, .r o)
  | .sshl o => some (0x066, .r o)
  | .sshr o => some (0x067, .r o)
  | .scmp o => some (0x068, .r o)
  | .smov o => some (0x069, .r o)
  | .smovi o => some (0x06A, .r o)
  | .ssel o => some (0x06B, .r o)
  | .vcvt o => some (0x080, .r o)
  | .vfcvti o => some (0x081, .r o)
  | .vicvtf o => some (0x082, .r o)
  | .vpack o => some (0x083, .r o)
  | .vunpk o => some (0x084, .r o)
  | .vplx o => some (0x085, .r o)
  | .vpli o => some (0x086, .r o)
  | .vsplit6 o => some (0x087, .r o)
  | .vjoin6 o => some (0x088, .r o)
  | .sfmt o => some (0x089, .r o)
  | .ifMask o => some (0x0C0, .c o)
  | .elseMask o => some (0x0C1, .c o)
  | .endif o => some (0x0C2, .c o)
  | .loop o => some (0x0C3, .c o)
  | .brk o => some (0x0C4, .c o)
  | .cont o => some (0x0C5, .c o)
  | .endloop o => some (0x0C6, .c o)
  | .regang o => some (0x0C7, .c o)
  | .jmp o => some (0x0C8, .c o)
  | .bra o => some (0x0C9, .c o)
  | .call o => some (0x0CA, .c o)
  | .ret o => some (0x0CB, .c o)
  | .rep o => some (0x0CC, .c o)
  | .exit o => some (0x0CD, .c o)
  | .yield o => some (0x0CE, .c o)
  | .nop o => some (0x0CF, .c o)
  | .bar o => some (0x0D0, .c o)
  | .gsync o => some (0x0D1, .c o)
  | .vshfl o => some (0x100, .r o)
  | .vvote o => some (0x101, .r o)
  | .vred o => some (0x102, .r o)
  | .vscan o => some (0x103, .r o)
  | .vmatch o => some (0x104, .r o)
  | .vconf o => some (0x105, .r o)
  | .vquad o => some (0x106, .r o)
  | .vsegred o => some (0x107, .r o)
  | .pbind o => some (0x108, .r o)
  | .pcnt o => some (0x109, .r o)
  | .pflush o => some (0x10A, .r o)
  | .xwin o => some (0x10B, .r o)
  | .ld o => some (0x140, .m o)
  | .st o => some (0x141, .m o)
  | .atom o => some (0x142, .m o)
  | .wset o => some (0x143, .e o)
  | .copy o => some (0x144, .e o)
  | .gath o => some (0x145, .e o)
  | .scat o => some (0x146, .e o)
  | .ratom o => some (0x147, .e o)
  | .coll o => some (0x148, .e o)
  | .wait o => some (0x149, .e o)
  | .publish o => some (0x14A, .e o)
  | .fence o => some (0x14B, .e o)
  | .sigadd o => some (0x14C, .e o)
  | .sigwait o => some (0x14D, .e o)
  | .launch o => some (0x14E, .e o)
  | .nres o => some (0x14F, .e o)
  | .nhand o => some (0x150, .e o)
  | .macq o => some (0x180, .e o)
  | .mrel o => some (0x181, .e o)
  | .tfill o => some (0x182, .e o)
  | .tzero o => some (0x183, .e o)
  | .tstore o => some (0x184, .e o)
  | .jmm o => some (0x185, .e o)
  | .jmms o => some (0x186, .e o)
  | .jstream o => some (0x187, .e o)
  | .jbatch o => some (0x188, .e o)
  | .jwait o => some (0x189, .e o)
  | .copen o => some (0x18A, .e o)
  | .cacc o => some (0x18B, .e o)
  | .cprobe o => some (0x18C, .e o)
  | .cdrain o => some (0x18D, .e o)
  | .cclose o => some (0x18E, .e o)
  | .cstat o => some (0x18F, .e o)
  | .tsave o => some (0x190, .e o)
  | .tload o => some (0x191, .e o)
  | .csave o => some (0x192, .e o)
  | .cload o => some (0x193, .e o)
  | .trap o => some (0x1C0, .s o)
  | .rfe o => some (0x1C1, .s o)
  | .sysrd o => some (0x1C2, .s o)
  | .syswr o => some (0x1C3, .s o)
  | .fltrd o => some (0x1C4, .s o)
  | .unpark o => some (0x1C5, .s o)
  | .pmap o => some (0x1C6, .s o)
  | .tlbinv o => some (0x1C7, .s o)
  | .gsave o => some (0x1C8, .s o)
  | .gload o => some (0x1C9, .s o)
  | .jfrz o => some (0x1CA, .s o)
  | .halt o => some (0x1CB, .s o)
  | .brkpt o => some (0x1CC, .s o)
  | .powerGood _ => none
  | .bootTimeExceeded => none
  | .restaggerDelayExpiry _ => none
  | .holdTimeout _ => none
  | .modulePowerLoss => none
  | .hostModuleReset _ => none
  | .pacingWindow _ _ => none
  | .securityAlarmClass1 _ _ => none
  | .securityAlarmClass2 _ _ _ => none
  | .securityAlarmClass3 _ _ _ => none
  | .go => none
  | .setlimit => none
  | .loadkey => none
  | .clearkey => none
  | .portkey => none
  | .setpos => none
  | .release _ => none
  | .attest => none
  | .handles => none
  | .cert => none
  | .readCell _ _ => none
  | .writeCell _ _ => none
  | .remoteAtomicCell _ _ => none
  | .copyElementCell _ _ => none
  | .migrationPull _ _ => none
  | .readData _ _ => none
  | .writeCompletion _ _ => none
  | .atomicResult _ _ => none
  | .faultReply _ _ => none
  | .kdPush _ _ => none
  | .kdReturn _ _ => none
  | .publishCell _ _ => none
  | .signalRelease _ _ => none
  | .ack _ _ => none
  | .nak _ _ => none
  | .creditOnly _ _ => none
  | .restagger _ _ => none
  | .keyControl _ _ => none
  | .linkStatus _ _ => none
  | .ackDeadline _ => none
  | .linkRetrain _ _ => none
  | .tagFailureLimit _ => none
  | .keyexp _ => none
  | .portRetry _ _ => none
  | .dieOfflineTransition _ _ _ => none
  | .apertureRead _ _ _ => none
  | .apertureWrite _ _ _ => none
  | .apfClear _ => none
  | .resume _ => none
  | .queueConfigWrite _ _ _ => none
  | .queueDisable _ _ _ => none
  | .tail _ _ _ => none
  | .resv _ _ => none
  | .commit _ _ _ => none
  | .commandRecordRead _ _ => none
  | .commandStart _ _ => none
  | .commandCompletion _ _ => none
  | .nopCommand _ _ => none
  | .launchCommand _ _ => none
  | .copyCommand _ _ => none
  | .publishCommand _ _ => none
  | .signalCommand _ _ => none
  | .waitCommand _ _ => none
  | .migrate _ _ => none
  | .migrationPageSwitch _ _ => none
  | .migrationLinePulled _ _ _ => none
  | .quiesce _ _ => none
  | .quiesceComplete _ => none
  | .tlbctlAll _ => none
  | .tlbctlPage _ _ => none
  | .invalidationDone _ => none
  | .fttail _ _ => none
  | .frameZeroed _ => none
  | .ftemptyClear _ => none
  | .controlRegisterWrite _ _ _ => none
  | .nodeOpen _ _ _ => none
  | .groupPlacement _ _ _ => none
  | .placementStarvation _ => none
  | .groupEnd _ _ => none
  | .priorityPreemption _ _ _ => none
  | .savedGroupPlacement _ _ => none
  | .groupSaved _ _ => none
  | .faultVector _ _ _ _ => none
  | .pageFaultVector _ _ _ _ => none
  | .faultBeyondRecovery _ _ => none
  | .portDeadlock _ _ => none
  | .engineElementPerformed _ _ _ => none
  | .engineCommandCompletion _ _ => none
  | .sigwaitReread _ _ _ _ => none
  | .joinEntryExecute _ _ => none
  | .batchComplete _ _ => none
  | .joinFreeze _ _ => none
  | .macqGrant _ _ => none
  | .barRelease _ _ => none
  | .gsyncRelease _ _ => none
  | .regangJoin _ _ _ => none
  | .exportSlotFill _ _ _ _ _ => none
  | .exportRevoke _ _ => none

/-- The instruction of opcode `op` with operands of shape R (R220). -/
def buildR (op : Nat) (o : OpsR) : Option Instr :=
  match op with
  | 0x000 => some (.vadd o)
  | 0x001 => some (.vsub o)
  | 0x002 => some (.vmul o)
  | 0x003 => some (.vmulhi o)
  | 0x004 => some (.vmad o)
  | 0x005 => some (.vneg o)
  | 0x006 => some (.vabs o)
  | 0x007 => some (.vmin o)
  | 0x008 => some (.vmax o)
  | 0x009 => some (.vand o)
  | 0x00A => some (.vor o)
  | 0x00B => some (.vxor o)
  | 0x00C => some (.vnot o)
  | 0x00D => some (.vshl o)
  | 0x00E => some (.vshr o)
  | 0x00F => some (.vrot o)
  | 0x010 => some (.vpopc o)
  | 0x011 => some (.vclz o)
  | 0x012 => some (.vbrev o)
  | 0x013 => some (.vbfx o)
  | 0x014 => some (.vbfi o)
  | 0x015 => some (.vcmp o)
  | 0x016 => some (.vsel o)
  | 0x017 => some (.vmov o)
  | 0x018 => some (.vmovi o)
  | 0x019 => some (.vdot4 o)
  | 0x01A => some (.vdot8 o)
  | 0x01B => some (.vlea o)
  | 0x040 => some (.vfadd o)
  | 0x041 => some (.vfsub o)
  | 0x042 => some (.vfmul o)
  | 0x043 => some (.vffma o)
  | 0x044 => some (.vfmin o)
  | 0x045 => some (.vfmax o)
  | 0x046 => some (.vfcmp o)
  | 0x047 => some (.vfrcp o)
  | 0x048 => some (.vfrsq o)
  | 0x049 => some (.vfsqrt o)
  | 0x04A => some (.vfexp2 o)
  | 0x04B => some (.vflog2 o)
  | 0x04C => some (.vfclass o)
  | 0x04D => some (.vfdiv o)
  | 0x060 => some (.sadd o)
  | 0x061 => some (.ssub o)
  | 0x062 => some (.smul o)
  | 0x063 => some (.sand o)
  | 0x064 => some (.sor o)
  | 0x065 => some (.sxor o)
  | 0x066 => some (.sshl o)
  | 0x067 => some (.sshr o)
  | 0x068 => some (.scmp o)
  | 0x069 => some (.smov o)
  | 0x06A => some (.smovi o)
  | 0x06B => some (.ssel o)
  | 0x080 => some (.vcvt o)
  | 0x081 => some (.vfcvti o)
  | 0x082 => some (.vicvtf o)
  | 0x083 => some (.vpack o)
  | 0x084 => some (.vunpk o)
  | 0x085 => some (.vplx o)
  | 0x086 => some (.vpli o)
  | 0x087 => some (.vsplit6 o)
  | 0x088 => some (.vjoin6 o)
  | 0x089 => some (.sfmt o)
  | 0x100 => some (.vshfl o)
  | 0x101 => some (.vvote o)
  | 0x102 => some (.vred o)
  | 0x103 => some (.vscan o)
  | 0x104 => some (.vmatch o)
  | 0x105 => some (.vconf o)
  | 0x106 => some (.vquad o)
  | 0x107 => some (.vsegred o)
  | 0x108 => some (.pbind o)
  | 0x109 => some (.pcnt o)
  | 0x10A => some (.pflush o)
  | 0x10B => some (.xwin o)
  | _ => none

/-- The instruction of opcode `op` with operands of shape C (R220). -/
def buildC (op : Nat) (o : OpsC) : Option Instr :=
  match op with
  | 0x0C0 => some (.ifMask o)
  | 0x0C1 => some (.elseMask o)
  | 0x0C2 => some (.endif o)
  | 0x0C3 => some (.loop o)
  | 0x0C4 => some (.brk o)
  | 0x0C5 => some (.cont o)
  | 0x0C6 => some (.endloop o)
  | 0x0C7 => some (.regang o)
  | 0x0C8 => some (.jmp o)
  | 0x0C9 => some (.bra o)
  | 0x0CA => some (.call o)
  | 0x0CB => some (.ret o)
  | 0x0CC => some (.rep o)
  | 0x0CD => some (.exit o)
  | 0x0CE => some (.yield o)
  | 0x0CF => some (.nop o)
  | 0x0D0 => some (.bar o)
  | 0x0D1 => some (.gsync o)
  | _ => none

/-- The instruction of opcode `op` with operands of shape M (R220). -/
def buildM (op : Nat) (o : OpsM) : Option Instr :=
  match op with
  | 0x140 => some (.ld o)
  | 0x141 => some (.st o)
  | 0x142 => some (.atom o)
  | _ => none

/-- The instruction of opcode `op` with operands of shape E (R220). -/
def buildE (op : Nat) (o : OpsE) : Option Instr :=
  match op with
  | 0x143 => some (.wset o)
  | 0x144 => some (.copy o)
  | 0x145 => some (.gath o)
  | 0x146 => some (.scat o)
  | 0x147 => some (.ratom o)
  | 0x148 => some (.coll o)
  | 0x149 => some (.wait o)
  | 0x14A => some (.publish o)
  | 0x14B => some (.fence o)
  | 0x14C => some (.sigadd o)
  | 0x14D => some (.sigwait o)
  | 0x14E => some (.launch o)
  | 0x14F => some (.nres o)
  | 0x150 => some (.nhand o)
  | 0x180 => some (.macq o)
  | 0x181 => some (.mrel o)
  | 0x182 => some (.tfill o)
  | 0x183 => some (.tzero o)
  | 0x184 => some (.tstore o)
  | 0x185 => some (.jmm o)
  | 0x186 => some (.jmms o)
  | 0x187 => some (.jstream o)
  | 0x188 => some (.jbatch o)
  | 0x189 => some (.jwait o)
  | 0x18A => some (.copen o)
  | 0x18B => some (.cacc o)
  | 0x18C => some (.cprobe o)
  | 0x18D => some (.cdrain o)
  | 0x18E => some (.cclose o)
  | 0x18F => some (.cstat o)
  | 0x190 => some (.tsave o)
  | 0x191 => some (.tload o)
  | 0x192 => some (.csave o)
  | 0x193 => some (.cload o)
  | _ => none

/-- The instruction of opcode `op` with operands of shape S (R220). -/
def buildS (op : Nat) (o : OpsS) : Option Instr :=
  match op with
  | 0x1C0 => some (.trap o)
  | 0x1C1 => some (.rfe o)
  | 0x1C2 => some (.sysrd o)
  | 0x1C3 => some (.syswr o)
  | 0x1C4 => some (.fltrd o)
  | 0x1C5 => some (.unpark o)
  | 0x1C6 => some (.pmap o)
  | 0x1C7 => some (.tlbinv o)
  | 0x1C8 => some (.gsave o)
  | 0x1C9 => some (.gload o)
  | 0x1CA => some (.jfrz o)
  | 0x1CB => some (.halt o)
  | 0x1CC => some (.brkpt o)
  | _ => none

/-- The instruction of opcode `op` with operands `o` (R220). -/
def buildInstr (op : Nat) : Ops → Option Instr
  | .r o => buildR op o
  | .c o => buildC op o
  | .m o => buildM op o
  | .e o => buildE op o
  | .s o => buildS op o

end Sys2Proof
end

