-- ==== Sys2Proof/WellFormed.lean ====
section
/-!
DEFINITION. Which instructions are well formed: the register numbers, parameters and immediates lie in the ranges
their fields hold (R206 to R215), unused fields are zero, the descriptor kinds are accepted in their places, and
TYPE, VARIANT, FLAGS and guard are listed for the opcode (R217 to R219, R244, R307). Of a step of another agent:
the die, queue, port and slot numbers exist.
-/
namespace Sys2Proof

/-- A register that a 10-bit code names (R126, R215). -/
def Reg.wf : Reg → Bool
  | .v n => n < 576
  | .o n => n < 48
  | .t n => n < 16
  | .s n => n < 64
  | .x n => n < 8
  | .p n => n < 8
  | .g n => n < 8
  | .con _ => true
  | .port _ => true
  | .hs n => n < 8
  | .hv n => n < 8
  | .idx k c => k < 8 && c < 32
  | .resv n => n = 734 || n = 735 || n = 743 || (760 ≤ n && n < 768)

/-- A permutation with a 5-bit parameter (R213). -/
def Perm.wf : Perm → Bool
  | .rot n | .bc n | .bf n | .mi n => n < 32

/-- Whether a register takes a permutation: v, o, t, and in supervisor state hv. A port takes the bits too, and
traps on them with reason 5 (R213). -/
def Reg.permutes (sup : Bool) : Reg → Bool
  | .v _ | .o _ | .t _ | .port _ => true
  | .hv _ => sup
  | _ => false

/-- A source of the RRR and RRI formats (R211, R213, R214). -/
def Src.wf : Src → Bool
  | .reg r p => r.wf && p.wf && (p = .rot 0 || r.permutes true) &&
      (match r with | .idx _ _ => false | _ => true)
  | .idx k c => k < 8 && c < 128
  | .imm _ => true

/-- The zero source field. -/
def Src.zero : Src := .reg (.v 0) (.rot 0)

/-- The zero descriptor. -/
def Desc.zero : Desc := .reg 0 (.v 0)

/-- An operand descriptor (R212); OPX is zero unless the place assigns it. -/
def Desc.wf (opx : Bool) : Desc → Bool
  | .record id => id < 65536
  | .reg x r => (if opx then x < 16 else x = 0) && r.wf
  | .win n r => n < 8 && r.wf
  | .tile n => n < 16
  | .imm v => v < 16384

/-- An A-operand (R210). -/
def AOpd.wf : AOpd → Bool
  | .reg r => r.wf
  | .imm v => v < 65536

/-- Guard and hints: PRED = 7 with NEG is reserved (R216). -/
def Head.wf (h : Head) : Bool := h.pred < 8 && h.stall < 8 && !(h.pred = 7 && h.neg)

/-- Modifier fields of three bits. -/
def Mods.wf (m : Mods) : Bool := m.variant < 8 && m.flags < 8

/-- Whether a descriptor kind is accepted in a place; an unused place is zero. -/
def placeOk (ks : List Kind) (d : Desc) : Bool :=
  if ks.isEmpty then d = Desc.zero else ks.contains d.kind

/-- Whether the A-operand form or the descriptor kinds are accepted (R212, R244, R307). -/
def kindsOk (op : Nat) : Ops → Bool
  | .r _ => true
  | .c o => (formC op o.m.variant).1.ok o.a
  | .m _ => true
  | .e o => let f := formE op o.m.variant
    placeOk f.a o.a && placeOk f.b o.b && placeOk f.c o.c
  | .s o => (formS op o.m.variant).2.1.ok o.a

/-- The three sources of an RRR or RRI word: used ones are well formed, unused ones zero, and an immediate stands
only in the place of R211, without a third source. -/
def srcsOk (op : Nat) (o : OpsR) : Bool :=
  let f := formR op o.m.variant
  o.a.wf && o.b.wf && o.c.wf && (f.dest || o.d = .v 0) && o.d.wf &&
  (match o.a, o.b, o.c with
    | .imm _, b, c => immAtA op o.m.variant && b = Src.zero && c = Src.zero && formatOk op 1
    | a, .imm v, c => !immAtA op o.m.variant && (immUsed op || v = 0) && (f.n ≠ 0 || a = Src.zero) &&
        c = Src.zero && formatOk op 1
    | _, _, .imm _ => false
    | a, b, c => formatOk op 0 && (1 ≤ f.n || a = Src.zero) && (2 ≤ f.n || b = Src.zero) &&
        (3 ≤ f.n || c = Src.zero))

/-- The fields of the operands are in range and the unused ones zero. -/
def fieldsOk (op : Nat) : Ops → Bool
  | .r o => o.h.wf && o.m.wf && srcsOk op o
  | .c o => o.h.wf && o.m.wf && o.a.wf && (if (formC op o.m.variant).2 then
      (-2147483648 ≤ o.off && o.off < 2147483648 : Bool) else o.off = 0) &&
      (op ≠ 0x0CE || (match o.a with | .imm v => v < 4096 | _ => true))
  | .m o => o.h.wf && o.m.wf && o.d.wf && o.win < 8 && o.roff.wf && o.data.wf &&
      (-65536 ≤ o.disp && o.disp < 65536 : Bool) && (if op = 0x142 then o.opx < 16 else o.opx = 0) &&
      ((formM op).1 || o.d = .v 0) && ((formM op).2 || o.data = .v 0)
  | .e o => o.h.wf && o.m.wf && o.d.wf && ((formE op o.m.variant).dest || o.d = .v 0) &&
      o.a.wf false && o.b.wf false && o.c.wf (op = 0x147) &&
      (op ≠ 0x149 || (match o.a with | .imm v => v < 4096 | _ => true))
  | .s o => o.h.wf && o.m.wf && o.d.wf && o.a.wf && o.b.wf && ((formS op o.m.variant).1 || o.d = .v 0) &&
      ((formS op o.m.variant).2.2 || o.b = .v 0) && o.c = .v 0 && (op = 0x1C0 || o.imm = 0)

/-- Whether the operands of opcode `op` are well formed. -/
def opsWf (op : Nat) (ops : Ops) : Bool :=
  let hm : Head × Mods := match ops with
    | .r o => (o.h, o.m)
    | .c o => (o.h, o.m)
    | .m o => (o.h, o.m)
    | .e o => (o.h, o.m)
    | .s o => (o.h, o.m)
  fieldsOk op ops && kindsOk op ops && (modsFault op hm.1 hm.2).isNone && (operandFault op ops).isNone

/-- Whether the arguments of a step of another agent name things that exist: dies 0 to 7, the hub where it may be
meant, queues 0 to 63 (R46), external ports 0 to 7 (R6), export slots 0 to 4,095 (R39). -/
def stepArgsOk : Instr → Bool
  | .dieOfflineTransition d _ _ | .apertureRead d _ _ | .apertureWrite d _ _ | .apfClear d
  | .resume d | .commandCompletion d _ | .nopCommand d _ | .launchCommand d _ | .copyCommand d _
  | .publishCommand d _ | .signalCommand d _ | .waitCommand d _ | .migrate d _ | .migrationPageSwitch d _
  | .migrationLinePulled d _ _ | .quiesce d _ | .quiesceComplete d | .tlbctlAll d | .tlbctlPage d _
  | .invalidationDone d | .fttail d _ | .frameZeroed d | .ftemptyClear d | .nodeOpen d _ _
  | .groupPlacement d _ _ | .placementStarvation d | .groupEnd d _ | .priorityPreemption d _ _
  | .savedGroupPlacement d _ | .groupSaved d _ | .faultVector d _ _ _ | .pageFaultVector d _ _ _
  | .faultBeyondRecovery d _ | .portDeadlock d _ | .engineElementPerformed d _ _ | .engineCommandCompletion d _
  | .sigwaitReread d _ _ _ | .joinEntryExecute d _ | .batchComplete d _ | .joinFreeze d _ | .macqGrant d _
  | .barRelease d _ | .gsyncRelease d _ | .regangJoin d _ _ => d < 8
  | .queueConfigWrite d q _ | .queueDisable d q _ | .tail d q _ | .resv d q | .commit d q _
  | .commandRecordRead d q | .commandStart d q => d < 8 && q < 64
  | .tagFailureLimit p | .keyexp p | .portRetry p _ => p < 8
  | .exportSlotFill d slot _ _ _ | .exportRevoke d slot => d < 8 && slot < 4096
  | .controlRegisterWrite d _ _ | .pacingWindow d _ => d < 9
  | _ => true

/-- Well-formedness of an instruction. -/
def Instr.wf (i : Instr) : Bool :=
  match opcodeAndOps i with
  | some (op, ops) => opsWf op ops
  | none => stepArgsOk i

end Sys2Proof
end

