-- ==== Sys2Proof/Decode.lean ====
section
/-!
DEFINITION. Decoding of instruction words, total on any bytes and rejecting with the class and reason of R223, and
after it the encoder, both written from R206 to R224. The word's fields are taken apart once, here; everything
after sees constructors only.
-/
namespace Sys2Proof

/-- The class of an illegal instruction (R179). -/
def clsIllegal : Nat := 1

/-- The class of an illegal register (R179). -/
def clsRegister : Nat := 2

/-- The widths of the fields of R206 from bit 0 up: DEST, SRCA, SRCB, SRCC, PRED, NEG, STALL, YH, NH, reserved
[72:70], TYPE, VARIANT, FLAGS, OPCODE, FORMAT, reserved [95]. -/
def fieldWidths : List Nat := [10, 17, 17, 17, 3, 1, 3, 1, 1, 3, 4, 3, 3, 9, 3, 1]

/-- A number cut into fields of the given widths, lowest first. -/
def splitFields : List Nat → Nat → List Nat
  | [], _ => []
  | n :: ns, w => w % 2 ^ n :: splitFields ns (w / 2 ^ n)

/-- Fields of the given widths joined into a number, lowest first. -/
def joinFields : List Nat → List Nat → Nat
  | n :: ns, f :: fs => f % 2 ^ n + 2 ^ n * joinFields ns fs
  | _, _ => 0

/-- The code of a type (R217). -/
def Ty.code : Ty → Nat
  | .i32 => 0 | .n32 => 1 | .i16 => 2 | .n16 => 3 | .i8 => 4 | .n8 => 5 | .i64 => 6 | .n64 => 7
  | .f32 => 8 | .f16 => 9 | .bf16 => 10 | .e4m3 => 11 | .e5m2 => 12 | .f6 => 13 | .bp => 14 | .b32 => 15

/-- The type of a code (R217). -/
def tyOf (n : Nat) : Ty :=
  match n with
  | 0 => .i32 | 1 => .n32 | 2 => .i16 | 3 => .n16 | 4 => .i8 | 5 => .n8 | 6 => .i64 | 7 => .n64
  | 8 => .f32 | 9 => .f16 | 10 => .bf16 | 11 => .e4m3 | 12 => .e5m2 | 13 => .f6 | 14 => .bp | _ => .b32

/-- The code of a register (R126, R215). -/
def Reg.code : Reg → Nat
  | .v n => n
  | .o n => 576 + n
  | .t n => 624 + n
  | .s n => 640 + n
  | .x n => 704 + n
  | .p n => 712 + n
  | .g n => 720 + n
  | .con .zero => 728 | .con .one => 729 | .con .ones => 730 | .con .lane => 731 | .con .quad => 732
  | .con .gang => 733
  | .port .le => 736 | .port .lw => 737 | .port .kn => 738 | .port .ke => 739 | .port .ks => 740
  | .port .kw => 741 | .port .kd => 742
  | .hs n => 744 + n
  | .hv n => 752 + n
  | .idx k c => 768 + 32 * k + c
  | .resv n => n

/-- The register of a code (R126, R215). -/
def regOf (n : Nat) : Reg :=
  if n < 576 then .v n
  else if n < 624 then .o (n - 576)
  else if n < 640 then .t (n - 624)
  else if n < 704 then .s (n - 640)
  else if n < 712 then .x (n - 704)
  else if n < 720 then .p (n - 712)
  else if n < 728 then .g (n - 720)
  else match n with
    | 728 => .con .zero | 729 => .con .one | 730 => .con .ones | 731 => .con .lane | 732 => .con .quad
    | 733 => .con .gang
    | 736 => .port .le | 737 => .port .lw | 738 => .port .kn | 739 => .port .ke | 740 => .port .ks
    | 741 => .port .kw | 742 => .port .kd
    | _ =>
      if 744 ≤ n ∧ n < 752 then .hs (n - 744)
      else if 752 ≤ n ∧ n < 760 then .hv (n - 752)
      else if 768 ≤ n then .idx ((n - 768) / 32 % 8) (n % 32)
      else .resv n

/-- Bits [16:10] of a permutation (R213). -/
def Perm.code : Perm → Nat
  | .rot n => n
  | .bc n => 32 + n
  | .bf n => 64 + n
  | .mi n => 96 + n

/-- The permutation of bits [16:10] (R213). -/
def permOf (n : Nat) : Perm :=
  if n < 32 then .rot n else if n < 64 then .bc (n - 32) else if n < 96 then .bf (n - 64) else .mi (n % 32)

/-- The 17 bits of a source field (R211, R213, R214); an immediate stands elsewhere. -/
def Src.field : Src → Nat
  | .reg r p => r.code + 1024 * p.code
  | .idx k c => 768 + 32 * k + c % 32 + 1024 * (c / 32)
  | .imm _ => 0

/-- The source of a field; permutation bits on a register that takes none are dropped, which the comparison of
`decodeWord` then finds (R213). -/
def srcOf (sup : Bool) (f : Nat) : Src :=
  match regOf (f % 1024) with
  | .idx k c => .idx k (c + 32 * (f / 1024 % 4))
  | r => .reg r (if r.permutes sup then permOf (f / 1024) else .rot 0)

/-- The 17 bits of an operand descriptor (R212). -/
def Desc.field : Desc → Nat
  | .record id => 65536 + id
  | .reg opx r => 1024 * opx + r.code
  | .win n r => 16384 + 2048 * n + r.code
  | .tile n => 32768 + 1024 * n
  | .imm v => 49152 + v

/-- The descriptor of a field (R212). -/
def descOf (f : Nat) : Desc :=
  if 65536 ≤ f then .record (f % 65536)
  else if f < 16384 then .reg (f / 1024) (regOf (f % 1024))
  else if f < 32768 then .win (f / 2048 % 8) (regOf (f % 1024))
  else if f < 49152 then .tile (f / 1024 % 16)
  else .imm (f % 16384)

/-- The 17 bits of an A-operand (R210). -/
def AOpd.field : AOpd → Nat
  | .reg r => r.code
  | .imm v => 65536 + v

/-- The A-operand of a field (R210). -/
def aOpdOf (f : Nat) : AOpd := if 65536 ≤ f then .imm (f % 65536) else .reg (regOf (f % 1024))

/-- The signed value of the low `n` bits. -/
def signedOf (n v : Nat) : Int := if v % 2 ^ n < 2 ^ (n - 1) then (v % 2 ^ n : Nat) else (v % 2 ^ n : Nat) - 2 ^ n

/-- The low `n` bits of a signed value. -/
def bitsOf (n : Nat) (v : Int) : Nat := (v % 2 ^ n).toNat

/-- The fields of a word (R206), without the reserved ones. -/
structure Raw where
  dest : Nat
  a : Nat
  b : Nat
  c : Nat
  h : Head
  m : Mods
  opcode : Nat
  format : Nat
  deriving DecidableEq, Repr

/-- The word of the fields, reserved bits zero (R206). -/
def Raw.word (r : Raw) : Nat :=
  joinFields fieldWidths [r.dest, r.a, r.b, r.c, r.h.pred, r.h.neg.toNat, r.h.stall, r.h.yh.toNat, r.h.nh.toNat,
    0, r.m.ty.code, r.m.variant, r.m.flags, r.opcode, r.format, 0]

/-- The fields of a word; `none` when a reserved bit is set (R206). -/
def Raw.of (w : Nat) : Option Raw :=
  match splitFields fieldWidths w with
  | [d, a, b, c, pred, neg, stall, yh, nh, 0, ty, var, fl, op, fmt, 0] =>
    some ⟨d, a, b, c, ⟨pred, neg = 1, stall, yh = 1, nh = 1⟩, ⟨tyOf ty, var, fl⟩, op, fmt⟩
  | _ => none

/-- The 32-bit immediate or offset in SRCB and SRCC, bits [58:27] of the word (R209). -/
def Raw.imm (r : Raw) : Nat := (r.b + 131072 * r.c) % 4294967296

/-- The operands that the fields hold, by the use the opcode makes of them. What an opcode does not use is left at
zero, whatever the word holds there. (DEDUCED: log 50) -/
def operandsOf (sup : Bool) (r : Raw) : Shape → Ops
  | .r =>
    let f := formR r.opcode r.m.variant
    let rri : Bool := r.format = 1
    let immA := rri && immAtA r.opcode r.m.variant
    .r { h := r.h, m := r.m
         d := if f.dest then regOf r.dest else .v 0
         a := if immA then .imm (BitVec.ofNat 32 r.imm)
              else if 1 ≤ f.n then srcOf sup r.a else Src.zero
         b := if immA then Src.zero
              else if rri then .imm (if immUsed r.opcode then BitVec.ofNat 32 r.imm else 0)
              else if 2 ≤ f.n then srcOf sup r.b else Src.zero
         c := if !rri && 3 ≤ f.n then srcOf sup r.c else Src.zero }
  | .c =>
    .c { h := r.h, m := r.m
         a := match aOpdOf r.a with
           | .imm v => if (formC r.opcode r.m.variant).1 = .none then .reg (.v 0)
               else .imm (if r.opcode = 0x0CE then v % 4096 else v)
           | x => if (formC r.opcode r.m.variant).1 = .none then .reg (.v 0) else x
         off := if (formC r.opcode r.m.variant).2 then signedOf 32 r.imm else 0 }
  | .m =>
    .m { h := r.h, m := r.m
         d := if (formM r.opcode).1 then regOf r.dest else .v 0
         win := r.a / 2048 % 8
         roff := regOf (r.a % 1024)
         disp := signedOf 17 r.b
         opx := if r.opcode = 0x142 then r.c / 1024 % 16 else 0
         data := if (formM r.opcode).2 then regOf (r.c % 1024) else .v 0 }
  | .e =>
    let f := formE r.opcode r.m.variant
    let take : List Kind → Nat → Desc := fun ks x => if ks.isEmpty then Desc.zero else descOf x
    let plain : Desc → Desc := fun x => match x with
      | .reg _ rg => .reg 0 rg
      | y => y
    .e { h := r.h, m := r.m
         d := if f.dest then regOf r.dest else .v 0
         a := match plain (take f.a r.a) with
           | .imm v => .imm (if r.opcode = 0x149 then v % 4096 else v)
           | y => y
         b := plain (take f.b r.b)
         c := if r.opcode = 0x147 then take f.c r.c else plain (take f.c r.c) }
  | .s =>
    let f := formS r.opcode r.m.variant
    .s { h := r.h, m := r.m
         d := if f.1 then regOf r.dest else .v 0
         a := if f.2.1 = .none then .reg (.v 0) else aOpdOf r.a
         b := if f.2.2 then regOf (r.b % 1024) else .v 0
         c := .v 0
         imm := if r.opcode = 0x1C0 then BitVec.ofNat 32 r.imm else 0 }

/-- SRCB and SRCC that hold a 32-bit immediate (R209). -/
def immFields (v : Nat) : Nat × Nat := (v % 131072, v / 131072)

/-- The fields of an instruction of opcode `op` (R206 to R215). (DEDUCED: log 46) -/
def fieldsOf (op : Nat) : Ops → Raw
  | .r o =>
    let imm : Option Word := match o.a, o.b with
      | .imm v, _ => some v
      | _, .imm v => some v
      | _, _ => none
    let bc := match imm with
      | some v => immFields v.toNat
      | none => (o.b.field, o.c.field)
    ⟨o.d.code, o.a.field, bc.1, bc.2, o.h, o.m, op, if imm.isSome then 1 else 0⟩
  | .c o =>
    let bc := immFields (bitsOf 32 o.off)
    ⟨0, o.a.field, bc.1, bc.2, o.h, o.m, op, 2⟩
  | .m o =>
    ⟨o.d.code, 16384 + 2048 * o.win + o.roff.code, bitsOf 17 o.disp, 1024 * o.opx + o.data.code, o.h, o.m, op, 3⟩
  | .e o => ⟨o.d.code, o.a.field, o.b.field, o.c.field, o.h, o.m, op, 4⟩
  | .s o =>
    if op = 0x1C0 then
      let bc := immFields o.imm.toNat
      ⟨o.d.code, o.a.field, bc.1, bc.2, o.h, o.m, op, 5⟩
    else ⟨o.d.code, o.a.field, o.b.code, o.c.code, o.h, o.m, op, 5⟩

/-- A cause that stops a word: class and reason (R179, R182). -/
abbrev Cause := Nat × Nat

/-- The decoding of one 96-bit word, up to the privilege check, in the order of R223. A set bit in a place that R209
to R214 fix at zero, or in an unused field, is found by encoding the operands again: the fields differ. (DEDUCED:
log 45) -/
def decodeWord (sup : Bool) (w : Nat) : Except Cause Instr :=
  match Raw.of w with
  | none => .error (clsIllegal, 2)
  | some r =>
    match shapeOf r.opcode with
    | none => .error (clsIllegal, 1)
    | some sh =>
      if !formatOk r.opcode r.format then .error (clsIllegal, 1)
      else if r.h.pred = 7 && r.h.neg then .error (clsIllegal, 2)
      else
        let ops := operandsOf sup r sh
        if fieldsOf r.opcode ops ≠ r || !kindsOk r.opcode ops then .error (clsIllegal, 2)
        else match modsFault r.opcode r.h r.m, operandFault r.opcode ops with
          | some n, _ => .error (clsIllegal, n)
          | none, some n => .error (clsIllegal, n)
          | none, none => match buildInstr r.opcode ops with
            | some i => .ok i
            | none => .error (clsIllegal, 1)

/-- A little-endian number (R4). -/
def leNat : List Byte → Nat
  | [] => 0
  | b :: bs => b.toNat + 256 * leNat bs

/-- The `n` little-endian bytes of a number (R4). -/
def leBytes : Nat → Nat → List Byte
  | 0, _ => []
  | n + 1, v => BitVec.ofNat 8 v :: leBytes n (v / 256)

/-- The decoding of the instruction in slot `slot` of a 64-byte code block, trailer first (R207, R223). -/
def decodeBlock (sup : Bool) (block : List Byte) (slot : Nat) : Except Cause Instr :=
  if leNat ((block.drop 60).take 4) ≠ 0 then .error (clsIllegal, 3)
  else decodeWord sup (leNat ((block.drop (12 * slot)).take 12))

/-- The decoding of the 12 bytes of a word (R206). -/
def decodeBytes (sup : Bool) (bs : List Byte) : Except Cause Instr := decodeWord sup (leNat (bs.take 12))

/-- The encoding of an instruction as a 96-bit word; a step of another agent has none. -/
def encode (i : Instr) : Option Nat := (opcodeAndOps i).map fun x => (fieldsOf x.1 x.2).word

/-- The 12 bytes of an instruction (R206). -/
def encodeBytes (i : Instr) : Option (List Byte) := (encode i).map (leBytes 12)

/-- The instruction that the decoder reads from an opcode-table word of `nbits` bits, the bits above them zero. -/
def decodeTableWord (nbits w : Nat) : Option Instr :=
  match decodeBytes true (leBytes 12 (w % 2 ^ nbits)) with
  | .ok i => some i
  | .error _ => none

end Sys2Proof
end

