-- ==== Sys2Proof/Config.lean ====
section
/-!
DEFINITION. What is fixed for the module: its dies and sizes (R5, R6, R9, R10), and the free values, constants
without a body that stand for what the spec leaves open. No value of them can be computed or proved.
-/
namespace Sys2Proof.Config

/-- Whether compute die `d` is an L-die: the even-numbered ones are (R6). -/
def isL (d : Nat) : Bool := d % 2 = 0

/-- Columns of a die's core mesh (R5, R139). -/
def meshW (d : Nat) : Nat := if isL d then 8 else 4

/-- Rows of a die's core mesh (R5). -/
def meshH (d : Nat) : Nat := if isL d then 6 else 4

/-- Cores of a die (R5). -/
def coreCount (d : Nat) : Nat := meshW d * meshH d

/-- Installed DRAM of a die in bytes (R5, R56). -/
def dramBytes (d : Nat) : Nat := if isL d then 0x1000000000 else 0x10000000000

/-- Quadrant of core `n` of die `d` (R139). -/
def quadrant (d n : Nat) : Nat :=
  let row := n / meshW d
  let col := n % meshW d
  if isL d then 2 * (row / 3) + col / 4 else 2 * (row / 2) + col / 2

/-- Default power ceiling of a die in watts (R9). -/
def ceiling (d : Nat) : Nat := if isL d then 740 else 525

/-- Step share of a die per pacing window in watts (R10). -/
def stepShare (d : Nat) : Nat := if isL d then 45 else 27

/-- Scratchpad of a core in bytes (R131). -/
def spadBytes : Nat := 0x600000

/-- Slots of a die's sweep storage (R101). -/
def sweepSlots : Nat := 32768

/-- PC arithmetic is modulo this number of slots (R207). -/
def pcModulus : Nat := 5 * 2 ^ 50

/-- What a read gives at a physical address of a line that was written under the first key and is read under the second
(R22), from the bytes of the line as they were written.
(DESIGN CHOICE: log 12) -/
opaque underOtherKey : BitVec 512 → BitVec 512 → Nat → List Byte → Byte

/-- Free bytes: what another module's memory gives to a read, by the number of the access and the address.
(DESIGN CHOICE: log 13) -/
opaque freeByte : Nat → Byte

/-- Free words: every other value the spec leaves open.
(DESIGN CHOICE: log 20) -/
opaque freeWord : Nat → Word

/-- A fresh random key that Miotur draws (R20), and the key of `CHECK` drawn at each boot (R322).
(DESIGN CHOICE: log 14) -/
opaque freshKey : Nat → BitVec 512

/-- Whether a signature verifies for an image digest under the public key of the fused digest (R14).
(DESIGN CHOICE: log 14, 16) -/
opaque verifies : BitVec 256 → BitVec 256 → BitVec 3072 → Bool

/-- The attestation signature of a report body (R26, R30).
(DESIGN CHOICE: log 14) -/
opaque attestSign : List Byte → BitVec 3072

/-- `CHECK` of a pending section under the key of this boot (R322).
(DESIGN CHOICE: log 14, 86) -/
opaque contextCheck : BitVec 512 → List Nat → Word

/-- The ciphertext and tag of an external cell, from key, IV, header and payload (R40).
(DESIGN CHOICE: log 14) -/
opaque gcmTag : BitVec 256 → BitVec 96 → List Byte → List Byte → BitVec 128

/-- What another module's exporter makes of an access numbered by the first argument: 0 and 1 complete it, 2 refuse it,
3 find it poisoned, 4 have no link to it (R36, R39).
(DESIGN CHOICE: log 13) -/
opaque peerReply : Nat → Fin 5

/-- The page kind of a page of another module's export: handle and page of the export (R72).
(DESIGN CHOICE: log 13) -/
opaque peerKind : Nat → Nat → Fin 3

/-- Whether participants that give two different CIDs have agreed with the host on one mailbox all the same (R278).
(DESIGN CHOICE: log 120) -/
opaque sharesMailbox : Nat → Nat → Bool

/-- Whether the NVMe root ports are not running when a boot fails, so that the failure is not logged (R16).
(DESIGN CHOICE: log 109) -/
opaque nvmeDown : Nat → Bool

/-- The external port through which a fabric address is reached; the spec gives no routing (R39, R40).
(DESIGN CHOICE: log 13) -/
opaque portOf : BitVec 16 → Fin 8

end Sys2Proof.Config
end

