-- ==== Sys2Proof/Machine/FMap.lean ====
section
/-!
DEFINITION. Sparse data by key: a list of key and value pairs with strictly rising keys. A map with a default
lists no entry equal to the default, so that equal maps are equal lists. Memory, scratchpad, register files and
the tables of the machine are held in this one form.
-/
namespace Sys2Proof.Machine

/-- A sparse map from numbers. -/
abbrev FMap (α : Type) := List (Nat × α)

variable {α : Type}

/-- The entry of a key, if listed. -/
def FMap.find? : FMap α → Nat → Option α
  | [], _ => none
  | (k, v) :: m, x => if x = k then some v else FMap.find? m x

/-- The value of a key, `d` where none is listed. -/
def FMap.get (d : α) (m : FMap α) (x : Nat) : α := (FMap.find? m x).getD d

/-- The map with `v` listed at `x`. -/
def FMap.insert : FMap α → Nat → α → FMap α
  | [], x, v => [(x, v)]
  | (k, w) :: m, x, v =>
    if x < k then (x, v) :: (k, w) :: m
    else if x = k then (x, v) :: m
    else (k, w) :: FMap.insert m x v

/-- The map with nothing listed at `x`. -/
def FMap.erase : FMap α → Nat → FMap α
  | [], _ => []
  | (k, w) :: m, x => if x = k then FMap.erase m x else (k, w) :: FMap.erase m x

/-- The map with default `d` whose value at `x` becomes `v`. -/
def FMap.set [DecidableEq α] (d : α) (m : FMap α) (x : Nat) (v : α) : FMap α :=
  if v = d then FMap.erase m x else FMap.insert m x v

/-- The map with the entry at `x`, if listed, changed by `f`. -/
def FMap.modify (m : FMap α) (x : Nat) (f : α → α) : FMap α :=
  match FMap.find? m x with
  | some v => FMap.insert m x (f v)
  | none => m

/-- The keys are strictly rising from at least `lo`. -/
def FMap.risingFrom (lo : Nat) : FMap α → Bool
  | [] => true
  | (k, _) :: m => lo ≤ k && FMap.risingFrom (k + 1) m

/-- The canonical form of a map with default `d`. -/
def FMap.wf [DecidableEq α] (d : α) (m : FMap α) : Bool :=
  FMap.risingFrom 0 m && m.all fun e => e.2 ≠ d

/-- One more than the largest key: a key that is not listed. -/
def FMap.fresh (m : FMap α) : Nat := m.foldl (fun n e => max n (e.1 + 1)) 0

/-- Memory: bytes by address. (DEDUCED: log 11) -/
abbrev Memory := FMap (BitVec 8)

/-- What a byte of memory that nothing has written reads as: phase 6 of every boot zero-fills device memory and
scratchpads (R15). -/
def Memory.unlisted : BitVec 8 := 0

/-- The byte at an address. (DEDUCED: log 11) -/
def Memory.read (m : Memory) (a : Nat) : BitVec 8 := FMap.get Memory.unlisted m a

/-- Memory with one byte written. -/
def Memory.write (m : Memory) (a : Nat) (b : BitVec 8) : Memory := FMap.set Memory.unlisted m a b

/-- The canonical form of memory: addresses strictly rising, and no entry equal to what an unlisted address
reads as. -/
def Memory.wf (m : Memory) : Bool := FMap.wf Memory.unlisted m

/-- The bytes at the addresses of a list. -/
def Memory.readAll (m : Memory) (as : List Nat) : List (BitVec 8) := as.map (Memory.read m)

/-- Memory with bytes written at addresses, in list order. -/
def Memory.writeAll : Memory → List (Nat × BitVec 8) → Memory
  | m, [] => m
  | m, (a, b) :: r => Memory.writeAll (Memory.write m a b) r

end Sys2Proof.Machine
end

