-- ==== Sys2Proof/Machine/State.lean ====
section
/-!
DEFINITION. The state of the module as plain data: lanes, quads, gangs and groups (chapters 07, 10, 14), the join
engine and the cabinet of each core (09), the engines, the command processor, the sweep unit and the memory
management of each die (03, 04, 06, 15), the links and external ports (02), and the hub (01); then the model's
own fields, which say what moves next. `State.reset` is the moment of power-good.
-/
namespace Sys2Proof.Machine

/-- Why a step can stop. -/
inductive Fault where
  /-- Raised by a step of another agent that names a die the module does not have (R6): safe, since no such step
  exists. -/
  | noSuchDie
  deriving DecidableEq, Repr

/-- Why a step has no meaning. -/
inductive Refusal where
  /-- Raised by an arm of `exec` whose instruction has no meaning yet: safe, nothing is claimed about it. -/
  | notModelled (mnemonic : String)
  deriving DecidableEq, Repr

/-! ### Agents, releases, and what they have seen -/

/-- An agent: a gang with its engines, the sweep unit and the command processor of a die, the host, and the peers
together (R77). -/
inductive Agent where
  | gang (die gid gang : Nat)
  | sweepUnit (die : Nat)
  | commandProcessor (die : Nat)
  | host
  | peer
  deriving DecidableEq, Repr

/-- A release, as far as code shows it: who released at which scope, and the numbers of the writes that it covers or that
happen before it (R79, R80). -/
structure Release where
  by_ : Agent
  scope : Nat
  writes : List Nat
  deriving DecidableEq, Repr

/-- A line of 64 bytes of a die's DRAM, by physical line number, or of a group core's scratchpad area. -/
inductive Spot where
  | dram (die line : Nat)
  | area (die gid core line : Nat)
  deriving DecidableEq, Repr

/-- The bytes, line by line, that hold the value which a release wrote, or a later one written by atomic
read-modify-writes (R79). -/
structure Note where
  release : Release
  bytes : List (Spot × BitVec 64)
  deriving DecidableEq, Repr

/-- What the present step does in memory: the releases that its writes stand for, whether it is an atomic
read-modify-write; the lines of code it has written, by number and whether on a UO page, and the releases whose values it
has read. -/
structure Trace where
  releases : List Release
  atomic : Bool
  wrote : List (Nat × Bool)
  saw : List Release
  deriving DecidableEq, Repr

/-- No step under way. -/
def Trace.none : Trace := ⟨[], false, [], []⟩

/-- What a completed command, or a join batch, leaves until its gang sees it complete: its class, 0 for C, 1 for A, 2 for
a batch, and its number there; its writes that no release covers before, and those that the gang then acquires (R80, R93,
R95). -/
structure Unseen where
  cls : Nat
  ord : Nat
  own : List Nat
  acquired : List Nat
  deriving DecidableEq, Repr

/-- What a gang knows of the writes of code: those that happen before its instructions, each with the number of the
first such instruction; its release fences, latest first, by scope and instruction number; the releases that its
completed reads have observed; and what it has still to see complete (R79 to R81). -/
structure Know where
  known : FMap Nat
  fences : List (Nat × Nat)
  reads : List Release
  unseen : List Unseen
  deriving DecidableEq, Repr

/-- A gang that knows of no write. -/
def Know.empty : Know := ⟨[], [], [], []⟩

/-! ### Quads, lanes and gangs -/

/-- A mask-stack entry (R124): KIND 0 if, 1 else, 2 loop. -/
structure MaskEntry where
  fmt : Word
  kind : Nat
  mask : BitVec 4
  deriving DecidableEq, Repr

/-- A call-stack entry (R121, R249). -/
structure CallEntry where
  ret : Nat
  depth : Nat
  deriving DecidableEq, Repr

/-- First and end PC of an open `rep` level (R250). -/
structure RepLevel where
  first : Nat
  stop : Nat
  deriving DecidableEq, Repr

/-- A fault record (R181). CLASS 0 is no record. -/
structure FaultRec where
  cls : Nat
  reason : Nat
  gang : Nat
  lane : Nat
  opc : Nat
  pc : Nat
  addr : Nat
  loc : Nat
  value : Word
  deriving DecidableEq, Repr

/-- No record (R181). -/
def FaultRec.none : FaultRec := ⟨0, 0, 0, 0, 0, 0, 0, 0, 0⟩

/-- A window descriptor (R131). -/
structure Win where
  base : Nat
  extent : Nat
  swz : Nat
  deriving DecidableEq, Repr

/-- The window of extent 0. -/
def Win.none : Win := ⟨0, 0, 0⟩

/-- A buffer record (R63); `resv` says whether a reserved bit is set. -/
structure Rec where
  esize : Nat
  swz : Nat
  base : Nat
  valid : Bool
  shadow : Bool
  ro : Bool
  comp : Bool
  sbase : Nat
  front : Bool
  ovf : Bool
  stride : Nat
  extent : Nat
  fcnt : Nat
  scnt : Nat
  resv : Bool
  deriving DecidableEq, Repr

/-- A `sigwait` in progress (R283): the snapshot and the element that it reads, whether the value last read
suffices, and the releases which that read observed. -/
structure SigWait where
  pc : Nat
  rid : Nat
  snap : Rec
  elem : Nat
  target : Nat
  lane : Nat
  met : Bool
  saw : List Release
  deriving DecidableEq, Repr

/-- A quad (R121, R187, R188, R310). `stack` and `reps` have the innermost entry first. -/
structure Quad where
  pc : Nat
  lmask : BitVec 4
  stack : List MaskEntry
  fmt : Word
  lc : List Word
  reps : List RepLevel
  calls : List CallEntry
  sgt : Nat
  sup : Bool
  epc : Nat
  emask : BitVec 4
  eflt : BitVec 4
  edepth : Nat
  eclass : Nat
  park : BitVec 4
  released : BitVec 4
  ended : BitVec 4
  held : BitVec 4
  vflags : BitVec 6
  ppc : Nat
  pLmask : BitVec 4
  pPark : BitVec 4
  pSup : Bool
  /-- The sub-gang tag before the pre-emption vector; the model's own. -/
  pSgt : Nat
  exited : Bool
  /-- Arrived and waiting at `bar`, `gsync` (context, R191, R254, R255). -/
  barArrived : Bool
  gsyncArrived : Bool
  /-- Waiting at `regang` (R248), at `gsave.gang` (R321). -/
  atRegang : Bool
  atGsave : Bool
  /-- Waiting at a `yield` for C ≤ n and A ≤ m (R252). -/
  ywait : Option (Nat × Nat)
  /-- Stopped by the `rfe` that ends a pre-emption handler (R326). -/
  stopped : Bool
  /-- Held until a first-touch frame is ready (R189). -/
  poolWait : Bool
  /-- Waiting at a `sigwait` (R283), at `macq` (R292). -/
  sigw : Option SigWait
  atMacq : Bool
  deriving DecidableEq, Repr

/-- A fault found after issue and not yet taken (R185): the number of its command within its class, or of its
batch, the issue number of its instruction, and the record it writes. -/
structure LateFault where
  ord : Nat
  issue : Nat
  lane : Nat
  record : FaultRec
  deriving DecidableEq, Repr

/-- A port descriptor of an exporter (R264). -/
structure KdDesc where
  nbase : Nat
  node : Nat
  rgang : Nat
  deriving DecidableEq, Repr

/-- A gang (R126 to R138, R181, R194). Lane registers, scalars and predicates are keyed by register code. -/
structure Gang where
  core : Nat
  part : Nat
  lanes : FMap Row
  scal : FMap Word
  preds : FMap Word
  /-- The pre-emption banks of hs and hv (R320); those of hs are each quad's, keyed by 1024 × quad + register code. -/
  preScal : FMap Word
  preLanes : FMap Row
  xwin : FMap (Nat × Nat)
  quads : List Quad
  /-- Receive queues 0 to 6 of R322, oldest first, keyed by 32 × queue + lane. -/
  queues : FMap (List Word)
  /-- Bindings of kn, ke, ks, kw, keyed 0 to 3 (R263). -/
  binds : FMap Nat
  kdImport : Option Nat
  kdDesc : Option KdDesc
  kdFree : FMap Nat
  /-- Who pushed each entry of the `kd` receive queues, by lane, oldest first: die, group and gang (R37). -/
  kdFrom : FMap (List (Nat × Nat × Nat))
  c : Nat
  a : Nat
  issuedC : Nat
  issuedA : Nat
  records : FMap FaultRec
  /-- The issue number at which each parked lane parked (R184). -/
  parkedAt : FMap Nat
  issued : Nat
  lateC : List LateFault
  lateA : List LateFault
  lateJ : List LateFault
  /-- Class and issue number of the first fault beyond recovery (R190). -/
  lost : Option (Nat × Nat)
  /-- The gang image has been loaded since the restoring vector (R326). -/
  loaded : Bool
  /-- The gang stood in the acquire queue at the pre-emption vector (R161, R323). -/
  waited : Bool
  /-- How often the last-result file of each quad has shifted; the model's own. -/
  shifts : FMap Nat
  /-- Writes of code that the gang knows of (R79, R208). -/
  know : Know
  deriving DecidableEq, Repr

/-- What a group holds on one of its cores (R129, R131): `g` and its pending values with the gang that wrote
them, windows and pending windows, and the scratchpad area with the inbox. -/
structure GroupCore where
  area : Memory
  g : FMap Word
  gPend : FMap (Nat × Word)
  wins : FMap Win
  winPend : FMap (Nat × Win)
  loaded : Bool
  deriving DecidableEq, Repr

/-- The state of a group on its die (R190, R193). -/
inductive GroupState where
  | running | lost | saved
  deriving DecidableEq, Repr

/-- A write of a line of device memory that a group's gangs do not yet fetch: the line as the write left it, and the
write's number (R208). -/
structure KeptWrite where
  bytes : List Byte
  number : Nat
  deriving DecidableEq, Repr

/-- A line of device memory as a group's gangs go on fetching it, and the later writes, oldest first (R208). -/
structure KeptLine where
  seen : List Byte
  later : List KeptWrite
  deriving DecidableEq, Repr

/-- A group (R97, R106, R113, R310). -/
structure Group where
  launch : Nat
  node : Nat
  block : Nat
  regs : Nat
  spad : Nat
  rsize : Nat
  kids : Nat
  inbox : Nat
  down : Bool
  fpw : Nat
  fph : Nat
  prio : Nat
  placedAt : Nat
  cores : List Nat
  gangs : List Gang
  homes : List GroupCore
  result : Memory
  values : Memory
  state : GroupState
  pre : Bool
  restore : Bool
  pslot : Nat
  /-- Cycles for which the condition of R138 has held. -/
  stalled : Nat
  /-- Lines of device memory that have been written since the group started, the writes not all acquired (R208). -/
  code : FMap KeptLine
  deriving DecidableEq, Repr

/-! ### Engine commands -/

/-- How far an element of an engine command has come. -/
inductive ElemState where
  | waiting
  /-- Held after a page-not-present fault at the address (R189); `seen` once its quad has vectored. -/
  | held (addr : Nat) (seen : Bool)
  /-- Request cells are under way under these tags (R32). -/
  | sent (tags : List Nat)
  | performed
  | faulted (record : FaultRec)
  deriving DecidableEq, Repr

/-- An element of an engine command: its lane, its index as issued and at the present level, the scratchpad offset,
and the data it carries. -/
structure Elem where
  lane : Nat
  issued : Nat
  idx : Nat
  off : Nat
  data : List Byte
  compare : Nat
  level : Nat
  old : Nat
  state : ElemState
  deriving DecidableEq, Repr

/-- The participant's side of a collective (R277). -/
structure CollDesc where
  cid : Nat
  seq : Nat
  rank : Nat
  np : Nat
  kind : Nat
  op : Nat
  next : Nat
  deriving DecidableEq, Repr

/-- What an engine command does, with the snapshots it took (R62, R272). -/
inductive CmdOp where
  | copyIn (rid : Nat) (r : Rec) (w : Win)
  | copyOut (rid : Nat) (r : Rec)
  | copyXc (core size : Nat) (w : Win)
  | copyDd (did : Nat) (d : Rec) (sid : Nat) (s : Rec)
  | gath (ids : List Nat) (rs : List Rec) (w : Win)
  | scat (ids : List Nat) (rs : List Rec)
  | ratom (rid : Nat) (r : Rec) (op : Nat) (ty : Ty) (ord : Nat)
  | coll (did : Nat) (d : Rec) (sid : Nat) (s : Rec) (desc : CollDesc) (ty : Ty)
  | publish (rid : Nat)
  | sigadd (rid : Nat) (r : Rec) (value : Nat)
  | launch (rid : Nat) (r : Rec) (queue : Nat)
  deriving DecidableEq, Repr

/-- What the accesses of an engine command leave behind: its writes that no release covers before the gang sees it
complete, the releases that its reads have observed, and those of a collective's participants (R80, R95). -/
structure Seen where
  own : List Nat
  reads : List Release
  ring : List Release
  deriving DecidableEq, Repr

/-- An engine command (R273). `dest` is the register it lands in, `lanes` the active lanes of its issue; `flag` is
the predicate value it lands. (DESIGN CHOICE: log 96) -/
structure Cmd where
  gid : Nat
  gang : Nat
  isA : Bool
  ord : Nat
  pc : Nat
  opc : Nat
  scope : Nat
  op : CmdOp
  elems : FMap Elem
  dest : Option Nat
  wide : Bool
  lanes : Word
  flag : Bool
  /-- Issued in supervisor state; issued by a pre-emption handler (R191). -/
  sup : Bool
  pre : Bool
  /-- The quads whose last-result file the instruction shifted at issue, each with its number of shifts from then on:
  where the register result stands there when it lands (R127). -/
  marks : FMap Nat
  /-- The issue number of the instruction (R184). -/
  issue : Nat
  /-- Whether it waits for the accesses its release covers (R80). -/
  release : Bool
  /-- The numbers of the issuing gang's earlier commands that the release covers. -/
  covers : List Nat
  seen : Seen
  deriving DecidableEq, Repr

/-! ### The join engine and the cabinet -/

/-- A tile register (R162). -/
structure Tile where
  bytes : Memory
  scale : Word
  dirty : Bool
  inuse : Bool
  deriving DecidableEq, Repr

/-- A tile register at grant (R162). -/
def Tile.empty : Tile := ⟨[], 0x3F800000, false, false⟩

/-- A tray (R163). -/
structure Tray where
  key : Nat
  prod : Bool
  words : FMap Word
  deriving DecidableEq, Repr

/-- A tray at grant (R163). -/
def Tray.empty : Tray := ⟨0xFFFFFFFFFFFFFFFF, false, []⟩

/-- An occupied drawer (R171). -/
structure Drawer where
  key : Nat
  words : List Word
  deriving DecidableEq, Repr

/-- CSTAT without FROZEN (R169). -/
structure Session where
  isOpen : Bool
  block : Bool
  acc : Nat
  pm1 : Nat
  wm1 : Nat
  order : Bool
  annex : Nat
  occ : Nat
  deriving DecidableEq, Repr

/-- The session state at reset (R169). -/
def Session.closed : Session := ⟨false, false, 0, 0, 0, false, 0, 0⟩

/-- JSTEP (R176). (DEDUCED: log 78) -/
structure JStep where
  slot : Nat
  kb : Nat
  apos : Nat
  bpos : Nat
  deriving DecidableEq, Repr

/-- A queued join instruction with its captured operands (R168). Offsets are bytes of the group's area. -/
inductive JoinOp where
  | tfill (tile : Nat) (data : Memory) (hdr : Bool) (scale : Option Word)
  | tzero (tile : Nat)
  | tstore (tile : Nat) (w : Win) (off : Nat) (hdr : Bool)
  | jmm (a b i0 j0 af bf acc kp : Nat)
  | jmms (a b i0 j0 abits bbits af bf acc kp : Nat)
  | jstream (n na nb : Nat) (ta tb : List (List Word))
  | jbatch
  | copen (annex : Nat) (block : Bool) (acc pm1 wm1 : Nat)
  | cacc (n : Nat) (tuples : List (Nat × Nat × List Word))
  | cprobe (keys : List (Nat × Nat)) (word : Option Nat) (active : Word)
  | cdrain (byIndex : Bool) (record : Option (Nat × Rec)) (w : Win) (off : Nat)
  | cclose
  | cstat (v : Nat)
  | tsave (w : Win) (off : Nat)
  | tload (data : Memory)
  | csave (rid : Nat) (r : Rec) (e : Nat)
  | cload (rid : Nat) (r : Rec) (e : Nat)
  deriving DecidableEq, Repr

/-- An entry of the join queue (R168): the batch it belongs to, the executing lanes and all lanes of the quads that
issued it, where its result stands in their last-result files, its lowest active lane, and its destination
register. -/
structure JoinEntry where
  batch : Nat
  lanes : Word
  quads : Word
  marks : FMap Nat
  sup : Bool
  lane : Nat
  pc : Nat
  opc : Nat
  issue : Nat
  op : JoinOp
  dest : Option Nat
  deriving DecidableEq, Repr

/-- The join engine and the cabinet of a core (R160 to R177). `owner` and `waiters` are pairs of group and gang;
`issue` is the session as the owner's instructions issued so far leave it (R290). -/
structure Core where
  owner : Option (Nat × Nat)
  /-- The owner was granted the engine while no quad of it stood at `macq`; the `macq` that it issues takes it. -/
  unclaimed : Bool
  waiters : List (Nat × Nat)
  tiles : FMap Tile
  trays : FMap Tray
  drawers : FMap Drawer
  session : Session
  issue : Session
  frozen : Bool
  freezeAsked : Bool
  cflags : BitVec 5
  spill : Nat
  lost : Nat
  jstep : JStep
  queue : List JoinEntry
  openBatch : Nat
  doneBatch : Nat
  /-- The writes that the releases of former owners cover (R93, R208). -/
  passed : List Nat
  deriving DecidableEq, Repr

/-- A join engine that no gang owns (R160, R162, R163, R169, R176). -/
def Core.empty : Core :=
  ⟨none, false, [], [], [], [], .closed, .closed, false, false, 0, 0, 0, ⟨0, 0, 0, 0⟩, [], 1, 0, []⟩

/-! ### The die -/

/-- A command queue (R46, R47). -/
structure Queue where
  qbase : Nat
  dev : Bool
  en : Bool
  prio : Nat
  log : Nat
  head : Nat
  tail : Nat
  qerr : Nat
  resv : Nat
  committed : List Nat
  /-- A program has submitted to it since EN was last set (R284). -/
  shared : Bool
  /-- The writes of code that happen before a record was submitted, by record number (R96, R284). -/
  told : FMap (List Nat)
  deriving DecidableEq, Repr

/-- A queue at reset (R46). -/
def Queue.empty : Queue := ⟨0, false, false, 0, 4, 0, 0, 0, 0, [], false, []⟩

/-- The phase of a command of the command processor (R48 to R54). -/
inductive CmdPhase where
  /-- Read and not started. -/
  | read
  | started
  /-- Finished with a status code and a count (R50). -/
  | finished (code count : Nat)
  deriving DecidableEq, Repr

/-- A command record that has been read (R48). -/
structure HostCmd where
  queue : Nat
  seq : Nat
  op : Nat
  add : Nat
  intr : Bool
  serial : Bool
  waits : Bool
  wsig : Nat
  wval : Nat
  csig : Nat
  stata : Nat
  p0 : Nat
  p1 : Nat
  p2 : Nat
  phase : CmdPhase
  /-- How far the command has come: bytes of a COPY, pages of a MIGRATE; and whether EARLY has been signalled (R74). -/
  page : Nat
  early : Bool
  /-- The frame that a MIGRATE has taken on its target for the page that it stands at (R74). -/
  frame : Option Nat
  /-- The wait condition has been found met, or its read has been found to fault (R51). -/
  met : Option Bool
  /-- The writes of code that happen before the command's start, and those that it has made (R50, R51, R96). -/
  known : List Nat
  deriving DecidableEq, Repr

/-- A QUIESCE in progress (R54). -/
structure Quiesce where
  offline : Bool
  preempt : Bool
  hold : Bool
  cmds : List Nat
  complete : Bool
  deriving DecidableEq, Repr

/-- Where a node of a launch stands (R102 to R112). -/
inductive NodePhase where
  | unopened
  /-- Downward: the parent has ended and the handed value is held (R104). -/
  | candidate
  | opened
  /-- Ready, its predicate read, waiting for placement since the given moment, with the number of later nodes
  placed past it (R114). -/
  | ready (since passed : Nat)
  | running (gid : Nat)
  /-- Final state of the node itself (R98). -/
  | final (state : Nat)
  deriving DecidableEq, Repr

/-- A node record as the check pass read it (R97); ENTRY as it stands, 32 bits. -/
structure NodeRec where
  parent : Nat
  first : Nat
  kids : Nat
  block : Nat
  rsize : Nat
  fpw : Nat
  fph : Nat
  needU : Nat
  needD : Nat
  entry : BitVec 32
  regs : Nat
  spad : Nat
  args : Nat
  pred : Nat
  resa : Nat
  resv : Bool
  deriving DecidableEq, Repr

/-- A node of a launch: its record, its children in the order of R99, its phase, its exact need, its result slot if
held, its handed value if held, and the writes of code that happen before the end of its group (R94). -/
structure NodeRun where
  node : NodeRec
  order : List Nat
  phase : NodePhase
  need : Nat
  result : Option (List Byte)
  value : Option (List Byte)
  known : List Nat
  deriving DecidableEq, Repr

/-- A launch that its check pass has accepted (R100 to R115). -/
structure Launch where
  base : Nat
  roots : Nat
  cap : Nat
  down : Bool
  cores : Bool
  prio : Nat
  run : FMap NodeRun
  failed : Nat
  /-- The writes of code that happen before its start. -/
  start : List Nat
  deriving DecidableEq, Repr

/-- An export slot (R39). -/
structure Export where
  base : Nat
  len : Nat
  read : Bool
  write : Bool
  atomic : Bool
  port : Bool
  gen : Nat
  filled : Bool
  deriving DecidableEq, Repr

/-- An empty export slot. (DESIGN CHOICE: log 4) -/
def Export.empty : Export := ⟨0, 0, false, false, false, false, 0, false⟩

/-- A migration entry of the target die (R74, R75): the source die, the frames, and the valid and poisoned bits
of the 1,024 lines. -/
structure Migration where
  src : Nat
  cmd : Nat
  oldFrame : Nat
  newFrame : Nat
  oldKey : Nat
  key : Nat
  valid : BitVec 1024
  poisoned : BitVec 1024
  deriving DecidableEq, Repr

/-- A service state (R43). -/
inductive Service where
  | inService | draining | evacuated | retained | poisoned
  deriving DecidableEq, Repr

/-- What `gsave` keeps for the pending section of a gang image (R322). (DESIGN CHOICE: log 86) -/
structure Pending where
  held : FMap Cmd
  queue : List JoinEntry
  openBatch : Nat
  doneBatch : Nat
  jstep : JStep
  issue : Session
  lateC : List LateFault
  lateA : List LateFault
  lateJ : List LateFault
  parkedAt : FMap Nat
  issuedC : Nat
  issuedA : Nat
  issued : Nat
  kdFrom : FMap (List (Nat × Nat × Nat))
  kdDesc : Option KdDesc
  released : List (BitVec 4)
  shifts : FMap Nat
  /-- The owner had still to take its grant at a `macq` (R161). -/
  unclaimed : Bool
  deriving DecidableEq, Repr

/-- The empty pending section (R322). -/
def Pending.empty : Pending where
  held := []
  queue := []
  openBatch := 0
  doneBatch := 0
  jstep := ⟨0, 0, 0, 0⟩
  issue := Session.closed
  lateC := []
  lateA := []
  lateJ := []
  parkedAt := []
  issuedC := 0
  issuedA := 0
  issued := 0
  kdFrom := []
  kdDesc := none
  released := []
  shifts := []
  unclaimed := false

/-- A `kd` cell that waits for a gang that is not resident (R38): half 0 or 1 of a push for the gang of a port
descriptor, its 16 words and which lanes pushed, or with half 2 a return to a gang; and the die, group and gang at
the sending end of the push. (DEDUCED: log 67) -/
structure KdWaiting where
  desc : KdDesc
  half : Nat
  lanes : Word
  words : List Word
  fromDie : Nat
  gid : Nat
  gang : Nat
  deriving DecidableEq, Repr

/-- A compute die. -/
structure Die where
  ready : Bool
  offline : Bool
  quiesced : Bool
  apf : Bool
  apbase : Nat
  apfc : Nat
  apfa : Nat
  queues : FMap Queue
  ptroot : Nat
  rtbase : Nat
  impbase : Nat
  busy : Bool
  ftbase : Nat
  fttail : Nat
  fthead : Nat
  ftready : Nat
  ftempty : Bool
  /-- Index of the next frame to zero (R73). -/
  ftzero : Nat
  trapbase : Nat
  cyc : BitVec 64
  service : Service
  hostCmds : FMap HostCmd
  lastQueue : Nat
  quiesce : Option Quiesce
  keys : FMap (BitVec 512)
  mem : Memory
  /-- The key under which each line was last written, by line number; a line not listed was zero-filled. -/
  lineKeys : FMap (BitVec 512)
  /-- Translation caches (R60), by 64 KiB page: leaf entry and whether its page is 2 MiB. -/
  tlb : FMap (Nat × Bool)
  imports : FMap Nat
  /-- Pages whose invalidation is under way: `none` for all of them (R61). -/
  invalidating : List (Option Nat)
  exports_ : FMap Export
  migrations : FMap Migration
  /-- 64 KiB pages that have migrated away from a 2 MiB page whose entry still stands, each with that entry's physical
  address (R74). -/
  gone : List (Nat × Nat)
  /-- Background pulls under way: tag to page and line (R74). -/
  pulls : FMap (Nat × Nat)
  handles : List (Nat × Nat)
  launches : FMap Launch
  groups : FMap Group
  cores : FMap Core
  cmds : FMap Cmd
  /-- Placement is stopped until this launch's node is placed (R114). -/
  placeOnly : Option (Nat × Nat)
  pendings : FMap Pending
  /-- `kd` pushes waiting for a gang (R38), in order of arrival. -/
  kdWaiting : List KdWaiting
  /-- Request cells sent and not answered: tag to command, element and first byte (R32). -/
  remote : FMap (Nat × Nat × Nat)
  nextId : Nat
  ceiling : Nat
  power : Nat
  filler : Nat
  withheld : Bool
  /-- Number of accesses made, which numbers the free values that other modules and full translation caches give. -/
  accesses : Nat
  /-- The writes of code that the command processor and the sweep unit know of (R50, R94, R208). -/
  commandKnown : List Nat
  sweepKnown : List Nat
  deriving DecidableEq, Repr

/-! ### Links -/

/-- The payload content that the spec does not lay out: what a cell asks or answers (R32). (DESIGN CHOICE: log 15)
-/
inductive CellBody where
  | none
  | readReq (handle off len : Nat)
  | writeReq (handle : Nat) (chunks : List (Nat × List Byte))
  | atomicReq (handle : Nat) (offs : List Nat) (op : Nat) (ty : Ty) (value compare : Nat)
  | pull (page line : Nat)
  | readData (data : List Byte)
  | done
  | atomicResult (old : Nat)
  | fault (cls reason off : Nat)
  | kdPush (desc : KdDesc) (half : Nat) (lanes : Word) (words : List Word) (gid gang : Nat)
  | kdReturn (gid gang : Nat) (lanes : Word)
  deriving DecidableEq, Repr

/-- A cell (R31, R40): header fields, payload bytes, the content of R32, CRC, and the tag of an external cell.
(DESIGN CHOICE: log 15) -/
structure Cell where
  seq : Nat
  ack : Nat
  dst : Nat
  src : Nat
  vc : Nat
  type : Nat
  ks : Nat
  resv : Nat
  csub : Nat
  cvc : Nat
  cred : Nat
  tag : Nat
  payload : List Byte
  body : CellBody
  crc : BitVec 32
  gcm : BitVec 128
  /-- The external port it came or goes through; the model's own. -/
  port : Nat
  deriving DecidableEq, Repr

/-- One direction of a link (R33 to R36). Pools are channels 0, 1, 2 (port), 4 (publish) and 3. -/
structure LinkDir where
  /-- Sender. -/
  nextSeq : Nat
  credits : FMap Nat
  replay : List Cell
  queue : List Cell
  /-- Wire. -/
  wire : List Cell
  /-- Receiver. -/
  expect : Nat
  /-- A run of discarded cells is open; `ahead`, of the cells on the wire, those that stand before the resent ones that
  end it (R35). -/
  discarding : Bool
  ahead : Option Nat
  accepted : Option Nat
  freed : FMap Nat
  ackOwed : Bool
  /-- Failures of the present SEQ. -/
  replays : Nat
  retrains : Nat
  down : Bool
  /-- Switched off with its die (R43). -/
  off : Bool
  deriving DecidableEq, Repr

/-- Credits after link training: 128, 128, 48, 16 on channel 3, and 16 publish buffers (R33). -/
def LinkDir.credits0 : FMap Nat := [(0, 128), (1, 128), (2, 48), (3, 16), (4, 16)]

/-- A link direction after training. (DESIGN CHOICE: log 4) -/
def LinkDir.fresh : LinkDir := ⟨0, LinkDir.credits0, [], [], [], 0, false, none, none, [], false, 0, 0, false, false⟩

/-- A key slot of an external port: key and salt (R40, R41). -/
abbrev PortKey := BitVec 256 × BitVec 32

/-- An external port (R40, R41). -/
structure ExtPort where
  status : Nat
  sendKeys : FMap PortKey
  recvKeys : FMap PortKey
  /-- KS of new cells, and the last SEQ sent under the other slot. -/
  sendSlot : Nat
  oldLast : Option Nat
  recvSlot : Nat
  sendWraps : Nat
  /-- SEQ wraps since each receive slot was loaded, by slot. -/
  recvWraps : FMap Nat
  tagFailures : Nat
  deriving DecidableEq, Repr

/-- A port at power-good: down, its key slots empty. -/
def ExtPort.empty : ExtPort := ⟨0, [], [], 0, none, 0, 0, [], 0⟩

/-! ### The hub -/

/-- A Miotur image slot of the flash (R14). (DESIGN CHOICE: log 16) -/
structure Image where
  length : Nat
  signature : BitVec 3072
  version : Nat
  digest : BitVec 256
  signer : BitVec 256
  deriving DecidableEq, Repr

/-- An empty image slot. -/
def Image.empty : Image := ⟨0, 0, 0, 0, 0⟩

/-- An entry of the NVMe log (R16, R24, R42). -/
inductive LogEntry where
  | bootFailure (code die unit : Nat)
  | alarm (cls : Nat) (reading : Reading) (time : Nat)
  | tagAlarm (port count time : Nat)
  | restagger (base step time : Nat)
  | linkDown (src dst : Nat)
  deriving DecidableEq, Repr

/-- The hub (R14 to R30, R42). -/
structure Hub where
  safe : Bool
  ready : Bool
  slot : Nat
  phase : Nat
  code : Nat
  die : Nat
  unit : Nat
  go : Bool
  mstat : Nat
  limit : Nat
  rpos : Nat
  stagger : Bool
  holding : Bool
  mreq : Memory
  mrsp : Memory
  images : List Image
  flashRpos : Nat
  flashStagger : Bool
  keyDigest : BitVec 256
  floor : Nat
  serial : BitVec 128
  certificate : List Byte
  attestKey : Bool
  alarms2 : Nat
  running : Option Image
  /-- A pending staggered start: moment of arrival, BASE and STEP (R42). -/
  pending : Option (Nat × Nat × Nat)
  /-- Hub time in management cycles, and when the hold began or the last RESTAGGER cell arrived. -/
  time : Nat
  holdSince : Nat
  /-- The moment from which the 90 s of R16 count, and the hub time since then that was spent holding. -/
  bootSince : Nat
  held : Nat
  /-- Power of the hub and the links together (R9, R10). -/
  power : Nat
  log : List LogEntry
  powered : Bool
  /-- The key of this boot (R322). -/
  bootKey : BitVec 512
  ports : FMap ExtPort
  deriving DecidableEq, Repr

/-! ### The whole machine -/

/-- The sub-gang that issues: die, group, gang, and tag (R121, R122). -/
structure SubGang where
  die : Nat
  gid : Nat
  gang : Nat
  sgt : Nat
  deriving DecidableEq, Repr

/-- What may happen next. (DESIGN CHOICE: log 1) -/
inductive Act where
  /-- A step of an agent other than a gang. -/
  | event (i : Instr)
  /-- The sub-gang issues its next instruction. -/
  | issue (g : SubGang)
  /-- Clock cycles pass on a die without an issue (R7). -/
  | tick (die n : Nat)
  /-- Hub time passes, in management cycles (R42). -/
  | hubTime (n : Nat)
  /-- A translation cache gives up an entry of its own accord (R60). -/
  | evict (die page : Nat)
  /-- A cell arrives from the far end of an external port (R40). -/
  | inject (port : Nat) (c : Cell)
  /-- The host writes a byte of MREQ (R27). -/
  | mailbox (off : Nat) (b : Byte)
  /-- The host takes the interrupts raised. -/
  | takeInterrupts
  /-- The host reads the 8-byte word at an offset of a function's control window (R27, R45, R46, R61). -/
  | readWindow (fn off : Nat)
  /-- The host takes the reset reports (R24). -/
  | takeReports
  /-- The model's default order. -/
  | auto
  deriving DecidableEq, Repr

/-- The state of the module. The last fields are the model's own. -/
structure State where
  hub : Hub
  dies : List Die
  links : FMap LinkDir
  /-- MSI-X vectors raised: function and vector (R27, R50, R61). -/
  msix : List (Nat × Nat)
  /-- Compute functions that report a reset to the host (R24). -/
  resetReports : List Nat
  /-- What the host last read: aperture bytes, a RESV number, a word of a control window. -/
  apertureRead : List Byte
  resvRead : Word
  windowRead : DWord
  agenda : List Act
  cur : Option SubGang
  /-- The present step met a link that retrains, and so is not taken (R36). The model's own. -/
  crossed : Bool
  /-- Number of free values taken so far. -/
  free : Nat
  /-- Number of writes of lines so far that groups have kept (R208). -/
  writes : Nat
  notes : List Note
  /-- Writes of code that the host and the peers know of, and those that interrupts raised tell the host of (R77, R96).
  -/
  hostKnown : List Nat
  peerKnown : List Nat
  interruptKnown : List Nat
  trace : Trace
  deriving DecidableEq, Repr

/-- Compute die `d` at reset. (DESIGN CHOICE: log 3) -/
def Die.reset (d : Nat) : Die where
  ready := false
  offline := false
  quiesced := false
  apf := false
  apbase := 0
  apfc := 0
  apfa := 0
  queues := []
  ptroot := 0
  rtbase := 0
  impbase := 0
  busy := false
  ftbase := 0
  fttail := 0
  fthead := 0
  ftready := 0
  ftempty := false
  ftzero := 0
  trapbase := 0
  cyc := 0
  service := .inService
  hostCmds := []
  lastQueue := 0
  quiesce := none
  keys := []
  mem := []
  lineKeys := []
  tlb := []
  imports := []
  invalidating := []
  exports_ := []
  migrations := []
  gone := []
  pulls := []
  handles := []
  launches := []
  groups := []
  cores := []
  cmds := []
  placeOnly := none
  pendings := []
  kdWaiting := []
  remote := []
  nextId := 0
  ceiling := Config.ceiling d
  power := 0
  filler := 0
  withheld := false
  accesses := 0
  commandKnown := []
  sweepKnown := []

/-- The hub at power-good (R18, R27). (DESIGN CHOICE: log 2, 3) -/
def Hub.reset : Hub where
  safe := false
  ready := false
  slot := 0
  phase := 0
  code := 0
  die := 0xF
  unit := 0xFFF
  go := false
  mstat := 0
  limit := 5800
  rpos := 0
  stagger := false
  holding := false
  mreq := []
  mrsp := []
  images := [.empty, .empty]
  flashRpos := 0
  flashStagger := false
  keyDigest := 0
  floor := 0
  serial := 0
  certificate := []
  attestKey := true
  alarms2 := 0
  running := none
  pending := none
  time := 0
  holdSince := 0
  bootSince := 0
  held := 0
  power := 0
  log := []
  powered := true
  bootKey := 0
  ports := []

/-- The module at power-good, before the boot ROM has run. (DESIGN CHOICE: log 2) -/
def State.reset : State where
  hub := Hub.reset
  dies := [Die.reset 0, Die.reset 1, Die.reset 2, Die.reset 3, Die.reset 4, Die.reset 5, Die.reset 6, Die.reset 7]
  links := []
  msix := []
  resetReports := []
  apertureRead := []
  resvRead := 0
  windowRead := 0
  agenda := []
  cur := none
  crossed := false
  free := 0
  writes := 0
  notes := []
  hostKnown := []
  peerKnown := []
  interruptKnown := []
  trace := Trace.none

end Sys2Proof.Machine
end

