-- ==== Sys2Proof/Machine/Know.lean ====
section
/-!
DEFINITION. Which writes of code happen before what an agent does (R77 to R82, R88, R208): the agents within a scope, what
a release covers, what an acquire observes, and how a group's gangs come to see a line that has been written. Every write
of a line that a group keeps has a number; what an agent knows is a list of such numbers. (DESIGN CHOICE: log 124)
-/
namespace Sys2Proof.Machine

/-- The die of an agent of this module (R78). -/
def Agent.die : Agent → Option Nat
  | .gang d _ _ | .sweepUnit d | .commandProcessor d => some d
  | .host | .peer => none

/-- Whether agent `y` lies within a scope of agent `x` (R78). -/
def Agent.reaches (x : Agent) (scope : Nat) (y : Agent) : Bool :=
  x = y || match scope with
    | 0 => false
    | 1 => match x, y with
      | .gang d g _, .gang d' g' _ => d = d' && g = g'
      | _, _ => false
    | 2 => x.die.isSome && x.die = y.die
    | 3 => x.die.isSome && y.die.isSome
    | _ => true

/-- Whether an acquire of an agent at a scope that observes a release synchronises with it (R79). -/
def Release.meets (r : Release) (y : Agent) (scope : Nat) : Bool := r.by_.reaches r.scope y && y.reaches scope r.by_

/-- Numbers joined to others: no number is lost, and of two rising lists the join is rising, each number once. -/
def withAll : List Nat → List Nat → List Nat
  | [], b => b
  | x :: a, b =>
    let rest := b.dropWhile (· < x)
    b.takeWhile (· < x) ++ x :: withAll a (if rest.head? = some x then rest.tail else rest)

/-- The writes that happen before an acquire of an agent at a scope that observes some releases (R79). -/
def acquired (rs : List Release) (y : Agent) (scope : Nat) : List Nat :=
  (rs.filter fun r => r.meets y scope).foldl (fun l r => withAll l r.writes) []

/-! ### What a gang knows -/

/-- Writes that happen before a gang's instructions from number `n` on. -/
def Know.learn (k : Know) (n : Nat) (ws : List Nat) : Know :=
  { k with known := ws.foldl (fun m w => if (m.find? w).isSome then m else m.insert w n) k.known }

/-- The writes that happen before instruction `n` of a gang. -/
def Know.before (k : Know) (n : Nat) : List Nat := k.known.filterMap fun e => if e.2 ≤ n then some e.1 else none

/-- Releases that completed reads of a gang have observed. -/
def Know.observe (k : Know) (rs : List Release) : Know :=
  { k with reads := k.reads ++ rs.filter fun r => !k.reads.contains r }

/-- A release fence at instruction `n` (R79). -/
def Know.fence (k : Know) (scope n : Nat) : Know := { k with fences := (scope, n) :: k.fences }

/-- The releases that a write of a gang's instruction `n` stands for: its own at a scope, if it releases, and the gang's
last fence of each scope before it (R79). -/
def Know.releases (k : Know) (who : Agent) (n : Nat) (own : Option Nat) : List Release :=
  let fence := fun scope => (k.fences.find? fun f => f.1 = scope && f.2 ≤ n).map fun f =>
    (⟨who, scope, k.before f.2⟩ : Release)
  ((own.map fun scope => (⟨who, scope, k.before n⟩ : Release)).toList ++ (List.range 5).filterMap fence).filter fun r =>
    !r.writes.isEmpty

/-- What is seen complete at instruction `n`: the gang's own writes, which its releases cover from then on (R80, R93). -/
def Know.see (k : Know) (n : Nat) (due : Unseen → Bool) : Know :=
  let k' := k.learn n ((k.unseen.filter due).flatMap (·.own))
  { k' with unseen := (k.unseen.map fun u => if due u then { u with own := [] } else u).filter fun u =>
      !(u.own.isEmpty && u.acquired.isEmpty) }

/-- What the collectives that a `wait` finds complete acquire (R95). -/
def Know.due (k : Know) (due : Unseen → Bool) : List Nat := (k.unseen.filter due).flatMap (·.acquired)

/-- The gang once a `wait` has acquired what collectives that it finds complete give. -/
def Know.took (k : Know) (n : Nat) (due : Unseen → Bool) : Know :=
  let k' := k.learn n (k.due due)
  { k' with unseen := k.unseen.filter fun u => !due u }

/-- What a command or a batch leaves to be seen complete. -/
def Know.leave (k : Know) (u : Unseen) : Know :=
  if u.own.isEmpty && u.acquired.isEmpty then k else { k with unseen := k.unseen ++ [u] }

/-- Every write that a gang knows of or has made (R94). -/
def Know.all (k : Know) : List Nat := withAll (k.known.map (·.1)) (k.unseen.flatMap (·.own))

/-! ### What a group sees -/

/-- A group whose gangs go on fetching a line that a write changes as it stood, or as they have kept it (R208). -/
def Group.keepLine (g : Group) (line : Nat) (old new : List Byte) (number : Nat) : Group :=
  let k := (g.code.find? line).getD ⟨old, []⟩
  { g with code := g.code.insert line { k with later := k.later ++ [⟨new, number⟩] } }

/-- A kept line once its group has acquired writes: its gangs fetch it as the last of them left it, and no longer keep it
where that is the last write of all (R208). -/
def KeptLine.acquire (ws : List Nat) : (later : List KeptWrite) → KeptLine → Option KeptLine
  | [], k => if k.later.isEmpty then none else some k
  | w :: r, k => KeptLine.acquire ws r (if ws.contains w.number then ⟨w.bytes, r⟩ else k)

/-- A group one of whose gangs has acquired writes (R81, R208). -/
def Group.acquire (g : Group) (ws : List Nat) : Group :=
  { g with code := g.code.filterMap fun e => (KeptLine.acquire ws e.2.later e.2).map fun k => (e.1, k) }

/-- A group whose lines of a frame have gone to another one, or are kept no more: a frame is 1,024 lines, from the first
on by their keys (R73, R74). -/
def Group.moveFrame (first : Nat) (dest : Option Nat) (g : Group) : Group :=
  let inside := fun (e : Nat × KeptLine) => decide (first ≤ e.1 ∧ e.1 < first + 1024)
  let moved : FMap KeptLine := match dest with
    | some n => (g.code.filter inside).map fun e => (e.1 - first + n, e.2)
    | none => []
  { g with code := moved.foldl (fun m e => m.insert e.1 e.2) (g.code.filter fun e => !inside e) }

/-! ### Where the values of releases stand -/

/-- Addresses by line, each line with the bytes that are meant. -/
def spotsOf (mk : Nat → Spot) (as : List Nat) : List (Spot × BitVec 64) :=
  let line := fun (m : FMap (BitVec 64)) (a : Nat) =>
    m.insert (a / 64) (FMap.get 0 m (a / 64) ||| BitVec.ofNat 64 (2 ^ (a % 64)))
  (as.foldl line []).map fun e => (mk e.1, e.2)

/-- A note without some bytes. -/
def Note.without (spots : List (Spot × BitVec 64)) (n : Note) : Note :=
  { n with bytes := n.bytes.filterMap fun x =>
      let m := spots.foldl (fun m y => if y.1 = x.1 then m &&& ~~~y.2 else m) x.2
      if m = 0 then none else some (x.1, m) }

/-- A note whose bytes of a frame have gone to another one, or are gone: dies and first lines (R73, R74). -/
def Note.moveFrame (dn first : Nat) (dest : Option (Nat × Nat)) (n : Note) : Note :=
  { n with bytes := n.bytes.filterMap fun x => match x.1 with
    | .dram d l =>
      if d = dn && first ≤ l && l < first + 1024 then dest.map fun t => (.dram t.1 (l - first + t.2), x.2) else some x
    | _ => some x }

/-- Whether a note has one of some bytes. -/
def Note.meets (spots : List (Spot × BitVec 64)) (n : Note) : Bool :=
  n.bytes.any fun x => spots.any fun y => x.1 = y.1 && x.2 &&& y.2 ≠ 0

/-- Whether whoever acquires a release acquires another with it, whose writes stand among its own in order. -/
def Release.covers (r q : Release) : Bool := r.by_ = q.by_ && q.scope ≤ r.scope && q.writes.isSublist r.writes

/-- The notes once some bytes have been written, by atomic read-modify-writes or plainly, with the releases that the
write stands for (R79). -/
def noteWrite (notes : List Note) (releases : List Release) (atomic : Bool) (spots : List (Spot × BitVec 64)) :
    List Note :=
  let put := fun (ns : List Note) (r : Release) =>
    ns.map (fun n => if r.covers n.release then n.without spots else n) ++ [⟨r, spots⟩]
  (releases.foldl put (if atomic then notes else notes.map (Note.without spots))).filter fun n => !n.bytes.isEmpty

/-- The releases whose values some bytes hold (R79). -/
def releasesAt (notes : List Note) (spots : List (Spot × BitVec 64)) : List Release :=
  (notes.filter (Note.meets spots)).map (·.release)

/-- A state in which the present step acts for an agent whose writes stand for some releases. -/
def State.acting (s : State) (releases : List Release) : State :=
  { s with trace := { Trace.none with releases := releases } }

/-- A state in which no step is under way. -/
def State.rested (s : State) : State := { s with trace := Trace.none }

/-- An access made as part of an atomic read-modify-write (R79). -/
def State.atomically {α : Type} (s : State) (f : State → α × State) : α × State :=
  let x := f { s with trace := { s.trace with atomic := true } }
  (x.1, { x.2 with trace := { x.2.trace with atomic := false } })

/-- Bytes written: what they hold then (R79). -/
def State.noteWritten (s : State) (mk : Nat → Spot) (as : List Nat) : State :=
  if s.notes.isEmpty && s.trace.releases.isEmpty then s
  else { s with notes := noteWrite s.notes s.trace.releases s.trace.atomic (spotsOf mk as) }

/-- Bytes read: the releases that the step has observed (R79). -/
def State.noteRead (s : State) (mk : Nat → Spot) (as : List Nat) : State :=
  if s.notes.isEmpty then s
  else { s with trace := { s.trace with saw := s.trace.saw ++ releasesAt s.notes (spotsOf mk as) } }

/-- What the peers know when the present step writes to another module (R77, R79). -/
def State.tellPeers (s : State) : State :=
  { s with peerKnown := withAll s.peerKnown (acquired s.trace.releases .peer 4) }

/-- A value read from another module, which its agents may have released at .sys. (DESIGN CHOICE: log 124) -/
def State.hearPeers (s : State) : State :=
  if s.peerKnown.isEmpty then s
  else { s with trace := { s.trace with saw := s.trace.saw ++ [⟨.peer, 4, s.peerKnown⟩] } }

/-- The numbers of what the present step has written. -/
def State.written (s : State) : List Nat := s.trace.wrote.map (·.1)

end Sys2Proof.Machine
end

