-- ==== Sys2Proof/Machine/Mem.lean ====
section
/-!
DEFINITION. Bytes and device memory: dies, page-table walks and the checks of R59, lines and the keys they are
written under (R20 to R22), migration pulls (R75), the peer window (R72) and the exporter's checks (R39).
-/
namespace Sys2Proof.Machine

/-- Bits [hi:lo] of a number. -/
def bits (hi lo v : Nat) : Nat := v / 2 ^ lo % 2 ^ (hi + 1 - lo)

/-- Whether bit `n` is set. -/
def bit (n v : Nat) : Bool := v / 2 ^ n % 2 = 1

/-- The addresses from `a` on, `n` of them. -/
def span (a : Nat) : Nat → List Nat
  | 0 => []
  | n + 1 => a :: span (a + 1) n

/-- A list without repeats, first occurrences kept. -/
def distinct : List Nat → List Nat
  | [] => []
  | x :: xs => x :: (distinct xs).filter (· ≠ x)

/-- Compute die `n`. -/
def State.die (s : State) (n : Nat) : Die := s.dies.getD n (Die.reset n)

/-- The state with compute die `n` replaced. -/
def State.setDie (s : State) (n : Nat) (d : Die) : State := { s with dies := s.dies.set n d }

/-- The state with compute die `n` changed. -/
def State.onDie (s : State) (n : Nat) (f : Die → Die) : State := s.setDie n (f (s.die n))

/-! ### Leaf entries and walks -/

/-- A leaf entry taken apart (R58). -/
structure Leaf where
  kind : Nat
  key : Nat
  mig : Bool
  frame : Nat
  writable : Bool
  big : Bool
  deriving DecidableEq, Repr

/-- The leaf of an entry word (R58). -/
def leafOf (v : Nat) (big : Bool) : Leaf :=
  { kind := bits 63 62 v, key := bits 61 50 v, mig := bit 49 v, frame := bits 43 8 v * 65536,
    writable := bit 1 v, big := big }

/-- The leaf word of R58 with P and LEAF set. -/
def leafWord (kind key : Nat) (mig w : Bool) (frame : Nat) : Nat :=
  kind * 2 ^ 62 + key * 2 ^ 50 + mig.toNat * 2 ^ 49 + frame / 65536 * 256 + 4 + 2 * w.toNat + 1

/-- The 8-byte word at a physical address; tables are read as they stand in DRAM, and one that stands beyond the
installed DRAM as any other address. (DESIGN CHOICE: log 121) -/
def physWord (d : Die) (pa : Nat) : Nat := leNat ((span pa 8).map d.mem.read)

/-- DRAM with bytes written at a physical address by the die itself. -/
def physWrite (d : Die) (pa : Nat) (bs : List Byte) : Die :=
  { d with mem := d.mem.writeAll ((span pa bs.length).zip bs) }

/-- Class and reason of page-not-present, and of the protection causes (R59, R179, R182). -/
def pageAbsent : Cause := (6, 0)
def notWritable : Cause := (7, 1)
def frameRange : Cause := (7, 2)
def keyEmpty : Cause := (7, 3)
def malformed : Cause := (7, 4)
def roRecord : Cause := (7, 5)
def importInvalid : Cause := (7, 6)
def refused : Cause := (7, 7)
def diePoisoned : Cause := (8, 1)
def linePoisoned : Cause := (8, 2)
def linkIsDown : Cause := (9, 1)

/-- Whether a table entry (LEAF = 0) has a reserved bit set (R58). -/
def tableBad (v : Nat) : Bool := bits 63 48 v ≠ 0 || bit 3 v || bit 1 v

/-- Whether a leaf entry is malformed apart from MIG (R58, R59). -/
def leafBad (v : Nat) (big : Bool) : Bool :=
  bits 48 44 v ≠ 0 || bits 7 3 v ≠ 0 || bits 63 62 v = 3 || (big && bits 12 8 v ≠ 0)

/-- Address of the entry for `va` in the table at `base` of level `l` (R57). -/
def entryAddr (l base va : Nat) : Nat :=
  base + 8 * (match l with
    | 1 => bits 55 39 va
    | 2 => bits 38 30 va
    | 3 => bits 29 21 va
    | _ => bits 20 16 va)

/-- The walk from level `l`, `fuel` levels deep: the leaf word and whether it maps 2 MiB; an entry that is not present
at any level comes before a malformed one (R57, R59). -/
def walkFrom (d : Die) (va : Nat) : (fuel l base : Nat) → Except Cause (Nat × Bool)
  | 0, _, _ => .error malformed
  | fuel + 1, l, base =>
    let v := physWord d (entryAddr l base va)
    if !bit 0 v then .error pageAbsent
    else if bit 2 v then
      if l < 3 then .error malformed
      else if leafBad v (l = 3) then .error malformed
      else .ok (v, l = 3)
    else if l = 4 then .error malformed
    else match walkFrom d va fuel (l + 1) (bits 47 4 v * 256) with
      | .error c => .error (if c = pageAbsent then pageAbsent else malformed)
      | .ok e => if tableBad v then .error malformed else .ok e

/-- First address of the peer window (R55). -/
def peerBase : Nat := 0xFF000000000000

/-- Whether an address lies in the peer window (R55). -/
def inPeer (va : Nat) : Bool := peerBase ≤ va

/-- Physical address of the level-3 entry of an address, as its tables stand (R57). -/
def bigEntry (d : Die) (va : Nat) : Nat :=
  let next := fun l base => bits 47 4 (physWord d (entryAddr l base va)) * 256
  entryAddr 3 (next 2 (next 1 d.ptroot)) va

/-- The walk of an address (R57): the level-1 entries of the peer window are never read, so nothing is present there,
and a page that has migrated out of a 2 MiB page is not present (R75). (DEDUCED: log 122) -/
def walk (d : Die) (va : Nat) : Except Cause (Nat × Bool) :=
  if inPeer va then .error pageAbsent
  else match walkFrom d va 4 1 d.ptroot with
    | .ok (v, true) => if d.gone.contains (bigEntry d va, va / 65536) then .error pageAbsent else .ok (v, true)
    | r => r

/-- The migration entry of the page of an address, if it has one (R74). -/
def migrationOf (d : Die) (va : Nat) : Option Migration := d.migrations.find? (va / 65536)

/-- Whether lines of a migration entry are still to come (R74). -/
def Migration.isOpen (m : Migration) : Bool := m.valid ≠ BitVec.allOnes 1024

/-- Whether the migration entry of the page of an address is open (R74). -/
def migrating (d : Die) (va : Nat) : Bool :=
  match migrationOf d va with
  | some m => m.isOpen
  | none => false

/-- The leaf used for an address: a cached entry, or else a walk's (R60). -/
def leafFor (d : Die) (va : Nat) : Except Cause (Nat × Bool) :=
  match d.tlb.find? (va / 65536) with
  | some e => .ok e
  | none => walk d va

/-- The physical address that a leaf gives (R57). -/
def Leaf.phys (l : Leaf) (va : Nat) : Nat := if l.big then l.frame + va % 2097152 else l.frame + va % 65536

/-- Whether the line of `va` is poisoned in its migration entry (R75), which stays with the page's address. (DESIGN
CHOICE: log 142) -/
def migPoisoned (d : Die) (va : Nat) : Bool :=
  match migrationOf d va with
  | some m => m.poisoned.getLsbD (va / 64 % 1024)
  | none => false

/-- The checks of R59 on one access of the mapped region, in their order: the leaf and the physical address. -/
def translate (dn : Nat) (d : Die) (va : Nat) (write : Bool) : Except Cause (Leaf × Nat) :=
  match leafFor d va with
  | .error c => .error c
  | .ok (v, big) =>
    let l := leafOf v big
    if l.mig && !migrating d va then .error malformed
    else if Config.dramBytes dn < l.frame + (if big then 2097152 else 65536) then .error frameRange
    else if (d.keys.find? l.key).isNone then .error keyEmpty
    else if write && !l.writable then .error notWritable
    else if d.service = .poisoned then .error diePoisoned
    else if migPoisoned d va then .error linePoisoned
    else .ok (l, l.phys va)

/-- The entries of the translation cache of a page's slice (R60). (DESIGN CHOICE: log 123) -/
def sliceEntries (d : Die) (page : Nat) : FMap (Nat × Bool) := d.tlb.filter fun e => e.1 % 16 = page % 16

/-- Entries of one slice's translation cache (R60). -/
def sliceSize : Nat := 2048

/-- The translation caches with room for a page in its slice: a full slice gives up an entry, which one is free (R60).
(DESIGN CHOICE: log 123) -/
def roomFor (d : Die) (page : Nat) : FMap (Nat × Bool) :=
  if (d.tlb.find? page).isSome || (sliceEntries d page).length < sliceSize then d.tlb
  else match (sliceEntries d page)[(Config.freeWord d.accesses).toNat % sliceSize]? with
    | some e => d.tlb.erase e.1
    | none => d.tlb

/-- The die with the translation of `va` cached (R60). -/
def cacheLeaf (d : Die) (va : Nat) : Die :=
  match leafFor d va with
  | .ok e => { d with tlb := (roomFor d (va / 65536)).insert (va / 65536) e }
  | .error _ => d

/-! ### Lines and their keys -/

/-- The key that a page's slot holds. -/
def keyOf (d : Die) (slot : Nat) : BitVec 512 := (d.keys.find? slot).getD 0

/-- Whether a line is decrypted rightly under a key: it was written under it, or it was only zero-filled (R22).
(DESIGN CHOICE: log 12) -/
def lineReadable (d : Die) (pa : Nat) (key : BitVec 512) : Bool :=
  match d.lineKeys.find? (pa / 64) with
  | some k => k = key
  | none => true

/-- A byte of a line read under a key: an open byte where the line was written under another (R22). (DESIGN CHOICE:
log 12) -/
def readUnder (d : Die) (key : BitVec 512) (pa : Nat) : Byte :=
  match d.lineKeys.find? (pa / 64) with
  | some k =>
    if k = key then d.mem.read pa else Config.underOtherKey k key pa ((span (pa / 64 * 64) 64).map d.mem.read)
  | none => d.mem.read pa

/-- The die whose line at `pa` is held under `key`, its bytes as a read under `key` gives them. -/
def rekey (d : Die) (pa : Nat) (key : BitVec 512) : Die :=
  let base := pa / 64 * 64
  let d := if lineReadable d pa key then d
    else { d with mem := d.mem.writeAll ((span base 64).map fun a => (a, readUnder d key a)) }
  { d with lineKeys := d.lineKeys.insert (pa / 64) key }

/-- Bytes written at physical addresses under a key. -/
def writeUnder (d : Die) (key : BitVec 512) : List (Nat × Byte) → Die
  | [] => d
  | (pa, b) :: r =>
    let d := rekey d pa key
    writeUnder { d with mem := d.mem.write pa b } key r

/-! ### Migration pulls -/

/-- The next link end on the shorter way round the ring from die `a` to die `b` (R34). -/
def nextHop (a b : Nat) : Nat :=
  if (b + 8 - a) % 8 ≤ 4 then (a + 1) % 8 else (a + 7) % 8

/-- The key of a link direction in the table of links. -/
def linkKey (src dst : Nat) : Nat := 32 * src + dst

/-- Whether a link direction has been reported down, or is off with its die (R36, R43). -/
def State.linkDown (s : State) (src dst : Nat) : Bool :=
  match s.links.find? (linkKey src dst) with
  | some l => l.down || l.off
  | none => false

/-- Whether a link on the way from die `a` to die `b` is down, either direction (R34, R36). -/
def routeDown (s : State) (b : Nat) : (fuel a : Nat) → Bool
  | 0, _ => false
  | fuel + 1, a =>
    if a = b then false
    else
      let n := nextHop a b
      s.linkDown a n || s.linkDown n a || routeDown s b fuel n

/-- Whether a link retrains: of either direction a SEQ has been replayed 16 times without acceptance (R36). -/
def State.linkRetrains (s : State) (a b : Nat) : Bool :=
  let retrains := fun l : Option LinkDir => match l with
    | some l => 17 ≤ l.replays && !l.down
    | none => false
  retrains (s.links.find? (linkKey a b)) || retrains (s.links.find? (linkKey b a))

/-- Whether a link on the way from die `a` to die `b` retrains (R34, R36). -/
def routeRetrains (s : State) (b : Nat) : (fuel a : Nat) → Bool
  | 0, _ => false
  | fuel + 1, a => if a = b then false else s.linkRetrains a (nextHop a b) || routeRetrains s b fuel (nextHop a b)

/-- The state of a step that sends something over a way at once: it is not taken where a link of the way retrains, which
carries nothing (R36). (DEDUCED: log 105) -/
def State.meet (s : State) (retrains : Bool) : State := if retrains then { s with crossed := true } else s

/-- A migrating page with the line of `va` marked arrived, or poisoned, and no pull of it outstanding any more; when all
1,024 lines are there, MIG is cleared, the entry closes and the old frame goes to the source ring (R74, R75). -/
def lineArrived (s : State) (dn va : Nat) (poison : Bool) : State :=
  match migrationOf (s.die dn) va with
  | none => s
  | some m =>
    let i := va / 64 % 1024
    let s := s.onDie dn fun d => { d with pulls := d.pulls.filter fun p => p.2 ≠ (va / 65536, i) }
    let m' := { m with valid := m.valid ||| BitVec.ofNat 1024 (2 ^ i)
                       poisoned := if poison then m.poisoned ||| BitVec.ofNat 1024 (2 ^ i) else m.poisoned }
    if m'.valid = BitVec.allOnes 1024 then
      let page := va / 65536
      let d := s.die dn
      let d := match walkTable d va with
        | some a => physWrite d a (leBytes 8 (clearMig (physWord d a)))
        | none => d
      let d := { d with tlb := d.tlb.erase page
                        migrations := if m'.poisoned = 0 then d.migrations.erase page
                          else d.migrations.insert page m' }
      let s := s.setDie dn d
      s.onDie m.src fun sd =>
        { physWrite sd (sd.ftbase + 8 * sd.fttail) (leBytes 8 (m.oldFrame / 65536 * 65536)) with
          fttail := (sd.fttail + 1) % 4096 }
    else s.onDie dn fun d => { d with migrations := d.migrations.insert (va / 65536) m' }
where
  /-- An entry word with MIG clear. -/
  clearMig (w : Nat) : Nat := if bit 49 w then w - 2 ^ 49 else w
  /-- Physical address of the level-4 entry of an address, when its tables are present. -/
  walkTable (d : Die) (va : Nat) : Option Nat :=
    let e1 := physWord d (entryAddr 1 d.ptroot va)
    if !bit 0 e1 then none else
    let e2 := physWord d (entryAddr 2 (bits 47 4 e1 * 256) va)
    if !bit 0 e2 then none else
    let e3 := physWord d (entryAddr 3 (bits 47 4 e2 * 256) va)
    if !bit 0 e3 || bit 2 e3 then none else some (entryAddr 4 (bits 47 4 e3 * 256) va)

/-- The answer to the pull of a line by cell, where it is on its way to the die: the line's bytes, or none where it is
poisoned (R32, R75). -/
def pullAnswer (s : State) (dn va : Nat) : Option (Option (List Byte)) :=
  match List.find? (fun p => p.2 = (va / 65536, va / 64 % 1024)) (s.die dn).pulls with
  | none => none
  | some (tag, _) =>
    (s.links.flatMap fun l => l.2.queue ++ l.2.replay).findSome? fun c =>
      if c.dst = dn && c.tag = tag && c.vc = 1 then match c.body with
        | .readData bs => some (some bs)
        | .fault _ _ _ => some none
        | _ => none
      else none

/-- The line of `va` pulled from the source die, if its page is migrating in and the line has not arrived: the bytes
are decrypted at the source and encrypted under the page's slot here; a line poisoned at the source, or whose link is
down, is poisoned (R21, R75). A line is pulled once: an answer that is on its way is taken as it is, and a pull by cell
that the source has not yet served is given up. (DEDUCED: log 101) -/
def pullLine (s : State) (dn va : Nat) : State :=
  match migrationOf (s.die dn) va with
  | none => s
  | some m =>
    if m.valid.getLsbD (va / 64 % 1024) then s
    else if routeRetrains s dn 8 m.src then s.meet true
    else
      let off := va % 65536 / 64 * 64
      let src := s.die m.src
      let answer := pullAnswer s dn va
      let put := fun (s : State) bs =>
        lineArrived (s.onDie dn fun d => writeUnder d (keyOf d m.key) ((span (m.newFrame + off) 64).zip bs)) dn va false
      match answer with
      | some (some bs) => put s bs
      | some none => lineArrived s dn va true
      | none =>
      if routeDown s dn 8 m.src || src.service = .poisoned || migPoisoned src va then lineArrived s dn va true
      else
        put s ((span (m.oldFrame + off) 64).map (readUnder src (keyOf src m.oldKey)))

/-! ### Accesses of the mapped region -/

/-- The translations of a list of lines, each under R59; the first that fails decides. -/
def translateLines (dn : Nat) (d : Die) (write : Bool) : List Nat → Except Cause (List (Nat × Leaf × Nat))
  | [] => .ok []
  | l :: ls =>
    match translate dn d (l * 64) write with
    | .error c => .error c
    | .ok x => match translateLines dn d write ls with
      | .error c => .error c
      | .ok r => .ok ((l, x) :: r)

/-- The address of the first line of the list whose translation fails. -/
def faultLine (dn : Nat) (d : Die) (write : Bool) : List Nat → Nat
  | [] => 0
  | l :: ls =>
    match translate dn d (l * 64) write with
    | .error _ => l * 64
    | .ok _ => faultLine dn d write ls

/-- The physical address of a byte whose line has been translated. -/
def physOf (t : List (Nat × Leaf × Nat)) (va : Nat) : Nat × Nat :=
  match t.find? fun x => x.1 = va / 64 with
  | some (_, l, pa) => (l.key, pa + va % 64)
  | none => (0, 0)

/-- An access answers its result, and the faulting address with the cause where it faults. -/
abbrev Access (α : Type) := Except (Cause × Nat) α × State

/-- Bytes of the mapped region read through the page tables: every line is translated first, migrating lines are
pulled (R59, R71, R75). -/
def mappedRead (s : State) (dn : Nat) (vas : List Nat) : Access (List Byte) :=
  let ls := distinct (vas.map (· / 64))
  match translateLines dn (s.die dn) false ls with
  | .error c => (.error (c, faultLine dn (s.die dn) false ls), s)
  | .ok t =>
    let s := ls.foldl (fun s l => pullLine (s.onDie dn fun d => cacheLeaf d (l * 64)) dn (l * 64)) s
    match translateLines dn (s.die dn) false ls with
    | .error c => (.error (c, faultLine dn (s.die dn) false ls), s)
    | .ok _ =>
      let d := s.die dn
      (.ok (vas.map fun va => readUnder d (keyOf d (physOf t va).1) (physOf t va).2),
       (s.setDie dn { d with accesses := d.accesses + 1 }).noteRead (.dram dn) (vas.map fun va => (physOf t va).2))

/-- Whether a list of byte writes covers a whole line. -/
def coversLine (vas : List Nat) (l : Nat) : Bool := (span (l * 64) 64).all vas.contains

/-! ### Code that a group does not yet see -/

/-- The key of a line in the tables of kept lines: its die and its physical line number (R208). -/
def codeKey (dn pa : Nat) : Nat := dn * 2 ^ 48 + pa / 64

/-- The translated lines that a write touches, with their bytes before and after it, and whether they are UO. -/
def linesWritten (dn : Nat) (d : Die) (t : List (Nat × Leaf × Nat)) (ws : List (Nat × Byte)) :
    List (Nat × List Byte × List Byte × Bool) :=
  t.map fun x =>
    let old := (span x.2.2 64).map (readUnder d (keyOf d x.2.1.key))
    (codeKey dn x.2.2, old, (span (x.1 * 64) 64).zipWith (fun va b =>
      ws.foldl (fun b w => if w.1 = va then w.2 else b) b) old, x.2.1.kind = 2)

/-- The groups of every die keep the lines that a write touches as they see them; each line's write has a number (R208).
(DESIGN CHOICE: log 124) -/
def keepCode (s : State) (lines : List (Nat × List Byte × List Byte × Bool)) : State :=
  let xs := lines.zipIdx s.writes
  { s with writes := s.writes + lines.length
           trace := { s.trace with wrote := s.trace.wrote ++ xs.map fun x => (x.2, x.1.2.2.2) }
           dies := s.dies.map fun d =>
             { d with groups := d.groups.map fun e =>
                 (e.1, xs.foldl (fun (g : Group) x => g.keepLine x.1.1 x.1.2.1 x.1.2.2.1 x.2) e.2) } }

/-- The kept lines and the notes of a frame of a die go to a frame of another one, or are gone (R73, R74). -/
def State.moveFrame (s : State) (dn pa : Nat) (dest : Option (Nat × Nat)) : State :=
  { s with notes := (s.notes.map (Note.moveFrame dn (pa / 64) (dest.map fun t => (t.1, t.2 / 64)))).filter fun n =>
             !n.bytes.isEmpty
           dies := s.dies.map fun d => { d with groups := d.groups.map fun e =>
             (e.1, e.2.moveFrame (codeKey dn pa) (dest.map fun t => codeKey t.1 t.2)) } }

/-- The die once physical addresses have been written: a 2 MiB entry among them maps all of its page anew (R60, R74). -/
def Die.remapped (d : Die) (pas : List Nat) : Die :=
  if d.gone.isEmpty then d
  else { d with gone := d.gone.filter fun g => !pas.any fun p => g.1 ≤ p && p < g.1 + 8 }

/-- Bytes written in the mapped region: none is written unless every line translates; a line of a migrating page
that is not covered whole is pulled first, and one covered whole is marked arrived (R71, R75). -/
def mappedWrite (s : State) (dn : Nat) (ws : List (Nat × Byte)) : Access Unit :=
  let ls := distinct (ws.map (·.1 / 64))
  match translateLines dn (s.die dn) true ls with
  | .error c => (.error (c, faultLine dn (s.die dn) true ls), s)
  | .ok t =>
    let whole := coversLine (ws.map (·.1))
    let s := ls.foldl (fun s l =>
      let s := s.onDie dn fun d => cacheLeaf d (l * 64)
      if whole l then s else pullLine s dn (l * 64)) s
    match translateLines dn (s.die dn) true ls with
    | .error c => (.error (c, faultLine dn (s.die dn) true ls), s)
    | .ok _ =>
      let s := if s.dies.all (·.groups.isEmpty) then s else keepCode s (linesWritten dn (s.die dn) t ws)
      let s := s.noteWritten (.dram dn) (ws.map fun w => (physOf t w.1).2)
      let s := s.onDie dn fun d =>
        let d := ws.foldl (fun d w => writeUnder d (keyOf d (physOf t w.1).1) [((physOf t w.1).2, w.2)]) d
        { d.remapped (ws.map fun w => (physOf t w.1).2) with accesses := d.accesses + 1 }
      let fill := fun (s : State) l =>
        match migrationOf (s.die dn) (l * 64) with
        | some m => if m.valid.getLsbD (l % 1024) then s else lineArrived s dn (l * 64) false
        | none => s
      (.ok (), (ls.filter whole).foldl fill s)

/-! ### The peer window and the exporter -/

/-- The import index and the offset of a peer-window address (R55). -/
def peerIndex (va : Nat) : Nat := bits 47 38 va
def peerOffset (va : Nat) : Nat := bits 37 0 va

/-- The handle that import `i` holds: the cached entry, or the one in the table; one whose reserved bits are not zero
is no valid entry (R39, R72). (DESIGN CHOICE: log 61) -/
def importHandle (s : State) (dn i : Nat) : Access Nat :=
  match (s.die dn).imports.find? i with
  | some h => (.ok h, s)
  | none =>
    match mappedRead s dn (span ((s.die dn).impbase + 16 * i) 16) with
    | (.error _, s) => (.error (importInvalid, 0), s)
    | (.ok bs, s) =>
      let h := leNat (bs.take 8)
      let v := leNat (bs.drop 8)
      if v ≠ 1 || h % 65536 ≠ 0 then (.error (importInvalid, 0), s)
      else (.ok h, s.onDie dn fun d => { d with imports := d.imports.insert i h })

/-- Fields of a handle (R39). -/
def handleMod (h : Nat) : Nat := bits 63 48 h
def handleDie (h : Nat) : Nat := bits 47 44 h
def handleSlot (h : Nat) : Nat := bits 43 32 h
def handleGen (h : Nat) : Nat := bits 31 16 h

/-- A handle of this module (R39). -/
def mkHandle (die slot gen : Nat) : Nat := 0xFFFF * 2 ^ 48 + die * 2 ^ 44 + slot * 2 ^ 32 + gen * 65536

/-- The rights of R39. -/
inductive Right where
  | read | write | atomic | port
  deriving DecidableEq, Repr

/-- Whether a slot grants a right. -/
def Export.grants (e : Export) : Right → Bool
  | .read => e.read
  | .write => e.write
  | .atomic => e.atomic
  | .port => e.port

/-- The exporter's check of one access (R39): the virtual address on the exporter. (DEDUCED: log 61) -/
def exporterCheck (d : Die) (h off len : Nat) (r : Right) : Except Cause Nat :=
  match d.exports_.find? (handleSlot h) with
  | some e =>
    if e.filled && e.gen = handleGen h && e.grants r && off + len ≤ e.len then .ok (e.base + off)
    else .error refused
  | none => .error refused

/-- What a fault of the exporter's own translation is to the accessor: a protection fault, unless the memory is
poisoned (R39, R43, R76). (DEDUCED: log 61) -/
def replyCause (c : Cause) : Cause := if c.1 = 8 then c else refused

/-- The bytes of consecutive offsets of an export read at the exporter (R39, R72). -/
def exporterRead (s : State) (h off len : Nat) : Access (List Byte) :=
  match exporterCheck (s.die (handleDie h)) h off len .read with
  | .error c => (.error (c, 0), s)
  | .ok va => match mappedRead s (handleDie h) (span va len) with
    | (.error (c, a), s) => (.error (replyCause c, a), s)
    | r => r

/-- Bytes written at the exporter (R39, R72). -/
def exporterWrite (s : State) (h off : Nat) (bs : List Byte) : Access Unit :=
  match exporterCheck (s.die (handleDie h)) h off bs.length .write with
  | .error c => (.error (c, 0), s)
  | .ok va => match mappedWrite s (handleDie h) ((span va bs.length).zip bs) with
    | (.error (c, a), s) => (.error (replyCause c, a), s)
    | r => r

end Sys2Proof.Machine
end

