-- ==== Sys2Proof/Machine/Links.lean ====
section
/-!
DEFINITION. The cell protocol of the die links and the external ports: CRC, header fields, credits, sequence
numbers, replay, forwarding on the ring, and the key slots of a port (R31 to R36, R40, R41).
-/
namespace Sys2Proof.Machine

/-- One bit of the CRC-32 of IEEE 802.3, in reflected form (R31). -/
def crcBit (c : BitVec 32) : BitVec 32 := if c.getLsbD 0 then (c >>> 1) ^^^ 0xEDB88320 else c >>> 1

/-- Eight bits of it. -/
def crcByte (c : BitVec 32) (b : Byte) : BitVec 32 :=
  crcBit (crcBit (crcBit (crcBit (crcBit (crcBit (crcBit (crcBit (c ^^^ b.setWidth 32))))))))

/-- CRC-32 of a list of bytes (R31). -/
def crc32 (bs : List Byte) : BitVec 32 := ~~~(bs.foldl crcByte 0xFFFFFFFF)

/-- The header of a cell as a 96-bit number (R31). -/
def Cell.header (c : Cell) : Nat :=
  c.seq * 2 ^ 80 + c.ack * 2 ^ 64 + c.dst * 2 ^ 60 + c.src * 2 ^ 56 + c.vc * 2 ^ 54 + c.type * 2 ^ 48 +
  c.ks * 2 ^ 47 + c.resv * 2 ^ 45 + c.csub * 2 ^ 44 + c.cvc * 2 ^ 42 + c.cred * 2 ^ 32 + c.tag

/-- The cell with its CRC over header and payload (R31). -/
def Cell.sealed (c : Cell) : Cell := { c with crc := crc32 (leBytes 12 c.header ++ c.payload) }

/-- The types of each virtual channel (R32). -/
def typesOnVc (vc : Nat) : List Nat :=
  match vc with
  | 0 => [0x00, 0x01, 0x02, 0x03, 0x04]
  | 1 => [0x10, 0x11, 0x12, 0x13]
  | 2 => [0x20, 0x21, 0x22, 0x23]
  | 3 => [0x30, 0x31, 0x32, 0x33, 0x34, 0x35]
  | _ => []

/-- The buffer pool of a cell: its channel, with 4 for the publish buffers of channel 2 (R33). -/
def poolOf (vc type : Nat) : Nat := if vc = 2 ∧ 0x22 ≤ type then 4 else vc

/-- The pool that CRED returns to (R31, R33). -/
def Cell.credPool (c : Cell) : Nat := if c.cvc = 2 ∧ c.csub = 1 then 4 else c.cvc

/-- Whether a cell passes the checks of R31 and R32 on its own content. -/
def Cell.intact (c : Cell) : Bool :=
  c.crc = crc32 (leBytes 12 c.header ++ c.payload) && c.resv = 0 && (c.csub = 0 || c.cvc = 2) &&
  (typesOnVc c.vc).contains c.type

/-- An unused payload (R31). -/
def noPayload : List Byte := List.replicate 64 0

/-- A cell before it is sent on a link: channel, type, ends, tag, payload and content. -/
def mkCell (src dst vc type tag : Nat) (payload : List Byte) (body : CellBody) : Cell :=
  { seq := 0, ack := 0, dst := dst, src := src, vc := vc, type := type, ks := 0, resv := 0, csub := 0, cvc := 0,
    cred := 0, tag := tag % 2 ^ 32, payload := (payload ++ noPayload).take 64, body := body, crc := 0, gcm := 0, port := 0 }

/-- The state with a link direction changed, if it has been trained. -/
def State.onLink (s : State) (src dst : Nat) (f : LinkDir → LinkDir) : State :=
  { s with links := s.links.modify (linkKey src dst) f }

/-- A link direction. -/
def State.link (s : State) (src dst : Nat) : Option LinkDir := s.links.find? (linkKey src dst)

/-- Whether a link carries nothing: either direction has been reported down or is off with its die, or the link retrains
(R36, R43). -/
def State.linkHeld (s : State) (a b : Nat) : Bool := s.linkDown a b || s.linkDown b a || s.linkRetrains a b

/-- The external port of a link end, if it is one. -/
def portEnd (e : Nat) : Option Nat := if 16 ≤ e then some (e - 16) else none

/-- The external port that a link direction belongs to. -/
def linkPort (src dst : Nat) : Option Nat :=
  match portEnd src with
  | some p => some p
  | none => portEnd dst

/-- Port `p` of the hub. -/
def State.port (s : State) (p : Nat) : ExtPort := FMap.get ExtPort.empty s.hub.ports p

/-- The state with a port replaced. -/
def State.setPort (s : State) (p : Nat) (x : ExtPort) : State :=
  { s with hub := { s.hub with ports := FMap.set ExtPort.empty s.hub.ports p x } }

/-- The types a port carries before it holds a key: ACK, NAK, credit-only, RESTAGGER and link status (R42). -/
def keylessTypes : List Nat := [0x30, 0x31, 0x32, 0x33, 0x35]

/-- The count of the IV: 65,536 × wraps + SEQ (R40). -/
def ivCount (wraps seq : Nat) : Nat := 65536 * wraps + seq

/-- The GCM tag of a cell under a port key (R40). (DEDUCED: log 107) -/
def cellTag (key : PortKey) (wraps : Nat) (c : Cell) : BitVec 128 :=
  Config.gcmTag key.1 (BitVec.ofNat 96 (key.2.toNat * 2 ^ 64 + ivCount wraps c.seq)) (leBytes 12 c.header) c.payload

/-- Whether a new cell of a type may leave on a link direction now: it needs a key on an external port, unless
its type is one that goes without, and a count below 2^48 (R41, R42). -/
def mayLeave (s : State) (dst : Nat) (l : LinkDir) (type : Nat) : Bool :=
  match portEnd dst with
  | none => true
  | some p =>
    let x := s.port p
    match x.sendKeys.find? x.sendSlot with
    | none => keylessTypes.contains type
    | some _ => ivCount x.sendWraps l.nextSeq < 2 ^ 48

/-- The pool with freed buffers whose credits the next cell returns, and how many (R31, R33); of several pools the
lowest-numbered comes first. (DESIGN CHOICE: log 125) -/
def creditToReturn (l : LinkDir) : Nat × Nat :=
  match l.freed with
  | [] => (0, 0)
  | (p, n) :: _ => (p, min n 1023)

/-- The first waiting cell that may be sent: its pool has a credit, and no earlier waiting cell is of its pool
(R33, R34). -/
def firstSendable (s : State) (dst : Nat) (l : LinkDir) : List Cell → List Nat → Option Cell
  | [], _ => none
  | c :: cs, blocked =>
    let p := poolOf c.vc c.type
    if !blocked.contains p && 1 ≤ FMap.get 0 l.credits p && mayLeave s dst l c.type then some c
    else firstSendable s dst l cs (p :: blocked)

/-- The key slot, key and wrap count under which a link direction that belongs to an external port sends a new cell, if
it has a key: the hub's own toward the port, and from the far end those that the hub receives under, where a SEQ that
has wrapped and not yet been accepted counts one wrap more (R40, R41). -/
def sendKey (s : State) (src dst : Nat) (l : LinkDir) : Option (Nat × PortKey × Nat) :=
  match portEnd dst, portEnd src with
  | some p, _ =>
    let x := s.port p
    (x.sendKeys.find? x.sendSlot).map fun k => (x.sendSlot, k, x.sendWraps)
  | none, some p =>
    let x := s.port p
    let wraps := FMap.get 0 x.recvWraps x.recvSlot + (if l.nextSeq < l.expect then 1 else 0)
    (x.recvKeys.find? x.recvSlot).map fun k => (x.recvSlot, k, wraps)
  | none, none => none

/-- One new cell put on the wire of a link direction: it takes the next SEQ, carries ACK and returned credits of
the reverse direction, consumes a credit, and stays in the replay buffer (R31, R33, R35, R40). ACK is 0xFFFF before any
cell has been accepted. (DESIGN CHOICE: log 125) -/
def transmit (s : State) (src dst : Nat) (l : LinkDir) (c : Cell) : State :=
  let rev := s.link dst src
  let ack := match rev with
    | some r => r.accepted.getD 0xFFFF
    | none => 0xFFFF
  let (pool, n) := match rev with
    | some r => creditToReturn r
    | none => (0, 0)
  let key : Option (Nat × PortKey × Nat) := sendKey s src dst l
  let c := { c with seq := l.nextSeq, ack := ack, cvc := if pool = 4 then 2 else pool,
                    csub := if pool = 4 then 1 else 0, cred := n,
                    ks := match key with | some (n, _, _) => n | none => 0 }
  let c := match key with
    | some (_, k, wraps) => { c with gcm := cellTag k wraps c }
    | none => c
  let c := c.sealed
  let p := poolOf c.vc c.type
  let l := { l with nextSeq := (l.nextSeq + 1) % 65536
                    credits := FMap.set 0 l.credits p (FMap.get 0 l.credits p - 1)
                    replay := l.replay ++ [c], wire := l.wire ++ [c], queue := l.queue }
  let s := { s with links := s.links.insert (linkKey src dst) l }
  let s := s.onLink dst src fun r =>
    { r with ackOwed := false, freed := FMap.set 0 r.freed pool (FMap.get 0 r.freed pool - n) }
  match portEnd dst with
  | some p => if l.nextSeq = 0 then s.setPort p { s.port p with sendWraps := (s.port p).sendWraps + 1 } else s
  | none => s

/-- The waiting cells of a link direction that can be sent now are sent, up to `fuel` of them; never more than 256
stand unacknowledged, and a link that retrains, is down or is off carries nothing (R33, R35, R36, R43). -/
def pump (src dst : Nat) : (fuel : Nat) → State → State
  | 0, s => s
  | fuel + 1, s =>
    match s.link src dst with
    | none => s
    | some l =>
      if s.linkHeld src dst || 256 ≤ l.replay.length then s
      else match firstSendable s dst l l.queue [] with
        | none => s
        | some c => pump src dst fuel (transmit s src dst { l with queue := l.queue.erase c } c)

/-- A cell handed to a link direction. -/
def enqueue (s : State) (src dst : Nat) (c : Cell) : State :=
  pump src dst 1 (s.onLink src dst fun l => { l with queue := l.queue ++ [c] })

/-- The next end on the way of a cell that stands at end `at_`: the hub for external ends and from the hub, else
the shorter way round the ring (R34). -/
def hop (at_ dst port : Nat) : Nat :=
  if dst = 0xF then (if at_ = 8 then 16 + port else 8)
  else if at_ = 8 ∨ dst = 8 then dst
  else nextHop at_ dst

/-- A cell sent by end `src` toward its DST. -/
def sendCell (s : State) (src : Nat) (c : Cell) : State := enqueue s src (hop src c.dst c.port) c

/-- A NAK that names the SEQ expected on a link direction, in TAG, sent the other way (R35). (DESIGN CHOICE: log 136) -/
def sendNak (s : State) (src dst expect : Nat) : State :=
  enqueue s dst src (mkCell (min dst 15) (min src 15) 3 0x31 expect noPayload .none)

/-- Cells up to an acknowledged SEQ leave the replay buffer (R35). -/
def acked (ack : Nat) (cs : List Cell) : List Cell :=
  if cs.any fun c => c.seq = ack then (cs.dropWhile fun c => c.seq ≠ ack).drop 1 else cs

/-- The sender's side of an accepted cell's ACK and CRED, for the direction that goes the other way: the replay
buffer and the credits, and on a port the old key, erased once the last cell under it is covered, which completes the
rollover (R33, R35, R41). -/
def takeAck (s : State) (src dst : Nat) (c : Cell) : State :=
  let s := s.onLink dst src fun l =>
    { l with replay := acked c.ack l.replay
             credits := FMap.set 0 l.credits c.credPool (FMap.get 0 l.credits c.credPool + c.cred) }
  let s := match portEnd src with
    | none => s
    | some p =>
      let x := s.port p
      match x.oldLast with
      | none => s
      | some q =>
        let left := match s.link dst src with
          | some l => l.replay.any fun e => e.seq = q
          | none => false
        if left then s
        else s.setPort p { x with
          sendKeys := x.sendKeys.erase (1 - x.sendSlot), oldLast := none, status := if x.status = 2 then 1 else x.status }
  pump dst src 8 s

/-- Whether the tag of a cell that arrives on an external port is right; a port without a key takes only the keyless
types, with KS = 0 and no tag check (R40, R42). (DEDUCED: log 107) -/
def tagOk (s : State) (src : Nat) (c : Cell) : Bool :=
  match portEnd src with
  | none => true
  | some p =>
    let x := s.port p
    match x.recvKeys.find? c.ks with
    | some k => c.gcm = cellTag k (FMap.get 0 x.recvWraps c.ks) c
    | none => x.recvKeys.isEmpty && keylessTypes.contains c.type && c.ks = 0

/-- The run of discarded cells as the cell at the head of the wire finds it: it has ended where that cell is the first of
the resent ones (R35). (DEDUCED: log 126) -/
def LinkDir.run (l : LinkDir) : LinkDir :=
  match l.ahead with
  | some 0 => { l with discarding := false, ahead := none }
  | some (n + 1) => { l with ahead := some n }
  | none => l

/-- Cells resent unchanged and in order from a SEQ on, behind those that are on the wire (R35, R40). A SEQ that is no
longer kept, or not yet sent, has nothing to resend; one that 16 replays have not brought across is not replayed once
more, and the link retrains (R36). -/
def resend (s : State) (src dst seq : Nat) : State :=
  s.onLink src dst fun l =>
    let cells := l.replay.dropWhile fun c => c.seq ≠ seq
    if cells.isEmpty then { l with ahead := some l.wire.length }
    else if 16 ≤ l.replays then { l with replays := 17 }
    else { l with wire := l.wire ++ cells, ahead := some l.wire.length, replays := l.replays + 1 }

/-- A port's keys as an accepted cell leaves them: the first under the other slot erases the old key, and a wrap of SEQ
counts for every slot (R40, R41). -/
def ExtPort.accept (x : ExtPort) (c : Cell) : ExtPort :=
  let x := if c.ks ≠ x.recvSlot && (x.recvKeys.find? c.ks).isSome then
    { x with recvKeys := x.recvKeys.erase x.recvSlot, recvSlot := c.ks, recvWraps := x.recvWraps.erase x.recvSlot } else x
  { x with
    tagFailures := 0
    recvWraps := if c.seq = 65535 then x.recvKeys.foldl (fun (m : FMap Nat) k =>
      FMap.set 0 m k.1 (FMap.get 0 m k.1 + 1)) x.recvWraps else x.recvWraps }

/-- A cell accepted on a link direction (R35). -/
def accept (s : State) (src dst : Nat) (c : Cell) : State :=
  let s := s.onLink src dst fun l =>
    { l with expect := (l.expect + 1) % 65536, discarding := false, ahead := none, accepted := some c.seq, replays := 0
             ackOwed := true }
  let s := match portEnd src with
    | none => s
    | some p => s.setPort p ((s.port p).accept c)
  takeAck s src dst c

/-- A cell discarded on a link direction: one NAK goes out for the run of discarded cells (R35). A NAK that is whole is
obeyed though it is out of order. (DEDUCED: log 126) -/
def discard (s : State) (src dst : Nat) (c : Cell) (whole tagFailed : Bool) : State :=
  let s := match portEnd src with
    | some p => if tagFailed then s.setPort p { s.port p with tagFailures := (s.port p).tagFailures + 1 } else s
    | none => s
  let s := if whole && c.type = 0x31 then resend s dst src (c.tag % 65536) else s
  match s.link src dst with
  | none => s
  | some l =>
    if l.discarding then s
    else sendNak (s.onLink src dst fun l => { l with discarding := true }) src dst l.expect

/-- The cell at the head of a link direction's wire received: accepted, with the state after acceptance, or discarded
(R33, R35, R40, R41). A link that retrains, is down or is off carries nothing (R36, R43). `damage` says that the wire
corrupted the cell. -/
def receive (s : State) (src dst : Nat) (damage : Bool) : Option Cell × State :=
  match s.link src dst with
  | none => (none, s)
  | some l => match l.wire with
    | [] => (none, s)
    | c :: rest =>
      if s.linkHeld src dst then (none, s)
      else
        let whole := !damage && c.intact
        let tag := tagOk s src c
        let s := s.onLink src dst fun l => { l.run with wire := rest }
        if whole && c.seq = l.expect && tag then (some c, accept s src dst c)
        else (none, discard s src dst c (whole && tag) (whole && c.seq = l.expect && !tag))

/-- The buffer of an accepted cell freed; its credit returns with a later cell (R33). -/
def freeBuffer (s : State) (src dst : Nat) (c : Cell) : State :=
  let p := poolOf c.vc c.type
  s.onLink src dst fun l => { l with freed := FMap.set 0 l.freed p (FMap.get 0 l.freed p + 1) }

end Sys2Proof.Machine
end

