-- ==== Sys2Proof/Machine/Access.lean ====
section
/-!
DEFINITION. Accesses that an agent makes in one step, of the mapped region or through the peer window (R55, R72), and
the buffer records (R62 to R68). Every agent's access to device memory goes through `memRead` and `memWrite`, but for
engine elements wholly in the peer window, which go by request cells.
-/
namespace Sys2Proof.Machine

/-- Whether the way of die `dn` to an external port is down (R36, R40). -/
def portUnreachable (s : State) (dn p : Nat) : Bool :=
  s.linkDown dn 8 || s.linkDown 8 dn || (s.port p).status = 0 || (s.port p).status = 3

/-- The external port toward another module's export (R39). -/
def handlePort (h : Nat) : Nat := (Config.portOf (BitVec.ofNat 16 (handleMod h))).val

/-- Whether a handle names another module (R39). -/
def elsewhere (h : Nat) : Bool := handleMod h ≠ 0xFFFF

/-- Why no request of die `dn` reaches the exporter of a handle: the handle names a die above 7 of this module, the
exporting die is POISONED, or EVACUATED and so without pages, or a link of the way is down (R36, R39, R43, R76). (DESIGN
CHOICE: log 61) -/
def wayFault (s : State) (dn h : Nat) : Option Cause :=
  if elsewhere h then (if portUnreachable s dn (handlePort h) then some linkIsDown else none)
  else if 7 < handleDie h then some refused
  else if (s.die (handleDie h)).service = .poisoned then some diePoisoned
  else if (s.die (handleDie h)).service = .evacuated then some refused
  else if routeDown s (handleDie h) 8 dn then some linkIsDown
  else none

/-- The reply of another module's exporter to an access of die `dn`: its fault, if any. No agent waits for the answer
cell. (DESIGN CHOICE: log 13) -/
def drawReply (s : State) (dn : Nat) : Option Cause × State :=
  (match (Config.peerReply (s.die dn).accesses).val with
    | 0 | 1 => none
    | 2 => some refused
    | 3 => some diePoisoned
    | _ => some linkIsDown,
   s.onDie dn fun d => { d with accesses := d.accesses + 1 })

/-- The request cell of a one-step access to another module sent through its port (R32, R40); a read there observes
what its agents have released, and a write or an atomic tells them of the releases that it stands for (R79). (DESIGN
CHOICE: log 13) -/
def sendPort (s : State) (dn h type : Nat) (payload : List Byte) (body : CellBody) : State :=
  let tag := (s.die dn).nextId
  let s := s.onDie dn fun d => { d with nextId := tag + 1 }
  let s := if type = 0 then s.hearPeers else s.tellPeers
  sendCell s dn { mkCell dn 0xF 0 type tag payload body with port := handlePort h }

/-- An access to another module in one step: the cell goes out, and the exporter's reply is taken. (DESIGN CHOICE: log
13) -/
def askPort (s : State) (dn h va type : Nat) (payload : List Byte) (body : CellBody) : Access Unit :=
  match drawReply (sendPort s dn h type payload body) dn with
  | (some c, s) => (.error (c, va / 64 * 64), s)
  | (none, s) => (.ok (), s)

/-- The free bytes that another module gives for a read. (DESIGN CHOICE: log 13) -/
def peerBytes (s : State) (dn : Nat) (vas : List Nat) : List Byte :=
  vas.map fun a => Config.freeByte ((s.die dn).accesses * 2 ^ 56 + a)

/-- An answer of the exporter as the accessor takes it: the address is the accessor's own. -/
def atAccessor (va : Nat) : Access α → Access α
  | (.error (c, _), s) => (.error (c, va / 64 * 64), s)
  | r => r

/-- Whether a link on the way of die `dn` to the exporter of a handle retrains (R36). -/
def wayRetrains (s : State) (dn h : Nat) : Bool :=
  if elsewhere h then s.linkRetrains dn 8 || s.linkRetrains 8 (16 + handlePort h) else routeRetrains s (handleDie h) 8 dn

/-- The import of a peer-window address with a way to its exporter (R36, R43, R72). -/
def openImport (s : State) (dn va : Nat) : Access Nat :=
  match importHandle s dn (peerIndex va) with
  | (.error (c, _), s) => (.error (c, va / 64 * 64), s)
  | (.ok h, s) => match wayFault s dn h with
    | some c => (.error (c, va / 64 * 64), s)
    | none => (.ok h, s)

/-- The import of an address that is accessed in one step (R36, R72). -/
def crossImport (s : State) (dn va : Nat) : Access Nat :=
  match openImport s dn va with
  | (.ok h, s) => (.ok h, s.meet (wayRetrains s dn h))
  | r => r

/-- Bytes of any region read by an agent of die `dn` in one step; they lie in one line. -/
def memRead (s : State) (dn : Nat) (vas : List Nat) : Access (List Byte) :=
  match vas with
  | [] => (.ok [], s)
  | va :: _ =>
    if !inPeer va then mappedRead s dn vas
    else match crossImport s dn va with
      | (.error e, s) => (.error e, s)
      | (.ok h, s) =>
        if elsewhere h then
          match askPort s dn h va 0x00 [] (.readReq h (peerOffset va) vas.length) with
          | (.error c, s) => (.error c, s)
          | (.ok _, s) => (.ok (peerBytes s dn vas), s)
        else atAccessor va (exporterRead s h (peerOffset va) vas.length)

/-- Bytes of any region written by an agent of die `dn` in one step; they lie in one line. -/
def memWrite (s : State) (dn : Nat) (ws : List (Nat × Byte)) : Access Unit :=
  match ws with
  | [] => (.ok (), s)
  | (va, _) :: _ =>
    if !inPeer va then mappedWrite s dn ws
    else match crossImport s dn va with
      | (.error e, s) => (.error e, s)
      | (.ok h, s) =>
        if elsewhere h then
          askPort s dn h va 0x01 (ws.map (·.2)) (.writeReq h [(peerOffset va, ws.map (·.2))])
        else atAccessor va (exporterWrite s h (peerOffset va) (ws.map (·.2)))

/-! ### Elements on several lines -/

/-- Consecutive addresses cut at line boundaries: first address, length, and position in the element (R70). (DESIGN
CHOICE: log 60) -/
def lineChunks (as : List Nat) : List (Nat × Nat × Nat) :=
  (as.foldl (fun (x : List (Nat × Nat × Nat) × Nat) a =>
    (match x.1 with
      | (b, n, p) :: r => if b / 64 = a / 64 then (b, n + 1, p) :: r else (a, 1, x.2) :: (b, n, p) :: r
      | [] => [(a, 1, x.2)], x.2 + 1)) ([], 0)).1.reverse

/-- Whether a right lets bytes be written. -/
def Right.writes (r : Right) : Bool := r ≠ .read

/-- Whether an access to bytes of the mapped region faults, and how (R59). -/
def mappedFault (s : State) (dn va n : Nat) (write : Bool) : Option Cause :=
  match translateLines dn (s.die dn) write (distinct ((span va n).map (· / 64))) with
  | .error c => some c
  | .ok _ => none

/-- Whether all of some bytes lie in one export (R72). -/
def oneImport : List Nat → Bool
  | [] => false
  | a :: r => (a :: r).all fun b => inPeer b && peerIndex b = peerIndex a

/-- Whether the exporter refuses an access to `n` bytes of an export, or cannot make it, and how (R39, R72). -/
def exportFault (s : State) (h off n : Nat) (right : Right) : Option Cause :=
  match exporterCheck (s.die (handleDie h)) h off n right with
  | .error c => some c
  | .ok va => (mappedFault s (handleDie h) va n right.writes).map replyCause

/-- Whether an access with a right to the part of a line that starts at `va` faults, and how (R39, R59, R72). -/
def accessFault (s : State) (dn : Nat) (right : Right) (va n : Nat) : Option Cause :=
  if !inPeer va then mappedFault s dn va n right.writes
  else match openImport s dn va with
    | (.error (c, _), _) => some c
    | (.ok h, _) =>
      if elsewhere h then none else exportFault s h (peerOffset va) n right

/-- The die and the mapped address that an address leads to, if that is a die of this module; an export's rights are not
looked at. -/
def placeOf (s : State) (dn va : Nat) : Option (Nat × Nat) :=
  if !inPeer va then some (dn, va)
  else match (openImport s dn va).1 with
    | .ok h =>
      if elsewhere h then none
      else (s.die (handleDie h)).exports_.find? (handleSlot h) |>.map fun e => (handleDie h, e.base + peerOffset va)
    | .error _ => none

/-- The line that holds a part of an access pulled on its die, unless the part is the whole line and is written (R75). -/
def pullPart (s : State) (d va n : Nat) (right : Right) : State :=
  if right = .write && n = 64 then s else pullLine s d va

/-- The lines of an element's parts pulled before any of its bytes moves (R71, R75). -/
def pullChunks (s : State) (dn : Nat) (right : Right) (chunks : List (Nat × Nat × Nat)) : State :=
  chunks.foldl (fun s ch => match placeOf s dn ch.1 with
    | some (d, v) => pullPart s d v ch.2.1 right
    | none => s) s

/-- The state of a step that accesses parts through the peer window at once (R36). -/
def meetChunks (s : State) (dn : Nat) (chunks : List (Nat × Nat × Nat)) : State :=
  s.meet (chunks.any fun ch => inPeer ch.1 && (match (openImport s dn ch.1).1 with
    | .ok h => wayRetrains s dn h
    | .error _ => false))

/-- The first fault of an element's parts. -/
def chunksFault (s : State) (dn : Nat) (right : Right) (chunks : List (Nat × Nat × Nat)) : Option (Cause × Nat) :=
  chunks.findSome? fun ch => (accessFault s dn right ch.1 ch.2.1).map fun c => (c, ch.1 / 64 * 64)

/-- The checks of an element on every line that it touches, before any of its bytes moves, those of the lines that it
pulls too (R71, R75); a part in another module takes that module's reply. (DESIGN CHOICE: log 13) -/
def elementCheck (s : State) (dn : Nat) (right : Right) (chunks : List (Nat × Nat × Nat)) : Access Unit :=
  match chunksFault s dn right chunks with
  | some e => (.error e, s)
  | none =>
    let s := pullChunks (meetChunks s dn chunks) dn right chunks
    match chunksFault s dn right chunks with
    | some e => (.error e, s)
    | none => match chunks.find? fun ch => (placeOf s dn ch.1).isNone with
      | none => (.ok (), s)
      | some ch => match drawReply s dn with
        | (some c, s) => (.error (c, ch.1 / 64 * 64), s)
        | (none, s) => (.ok (), s)

/-- A part of an element that has been checked, read. -/
def chunkRead (s : State) (dn va n : Nat) : Access (List Byte) :=
  match placeOf s dn va with
  | some (d, v) => atAccessor va (mappedRead s d (span v n))
  | none => match openImport s dn va with
    | (.ok h, s) => (.ok (peerBytes s dn (span va n)), sendPort s dn h 0x00 [] (.readReq h (peerOffset va) n))
    | (.error e, s) => (.error e, s)

/-- A part of an element that has been checked, written. -/
def chunkWrite (s : State) (dn va : Nat) (bs : List Byte) : Access Unit :=
  match placeOf s dn va with
  | some (d, v) => atAccessor va (mappedWrite s d ((span v bs.length).zip bs))
  | none => match openImport s dn va with
    | (.ok h, s) => (.ok (), sendPort s dn h 0x01 bs (.writeReq h [(peerOffset va, bs)]))
    | (.error e, s) => (.error e, s)

/-- The parts of a checked element read. -/
def chunksRead (dn : Nat) : List (Nat × Nat × Nat) → State → Access (List Byte)
  | [], s => (.ok [], s)
  | ch :: r, s => match chunkRead s dn ch.1 ch.2.1 with
    | (.error e, s) => (.error e, s)
    | (.ok bs, s) => match chunksRead dn r s with
      | (.ok cs, s) => (.ok (bs ++ cs), s)
      | x => x

/-- The parts of a checked element written. -/
def chunksWrite (dn : Nat) (bs : List Byte) : List (Nat × Nat × Nat) → State → Access Unit
  | [], s => (.ok (), s)
  | ch :: r, s => match chunkWrite s dn ch.1 ((bs.drop ch.2.2).take ch.2.1) with
    | (.error e, s) => (.error e, s)
    | (.ok _, s) => chunksWrite dn bs r s

/-- Bytes at any addresses, read by an agent in one step. -/
def readElem (s : State) (dn : Nat) (vas : List Nat) : Access (List Byte) :=
  if vas.all (fun a => !inPeer a) then mappedRead s dn vas
  else match elementCheck s dn .read (lineChunks vas) with
    | (.error e, s) => (.error e, s)
    | (.ok _, s) => chunksRead dn (lineChunks vas) s

/-- Bytes at any addresses, written by an agent in one step: none is written unless all can be (R71). -/
def writeElem (s : State) (dn : Nat) (ws : List (Nat × Byte)) : Access Unit :=
  if ws.all (fun w => !inPeer w.1) then mappedWrite s dn ws
  else match elementCheck s dn .write (lineChunks (ws.map (·.1))) with
    | (.error e, s) => (.error e, s)
    | (.ok _, s) => chunksWrite dn (ws.map (·.2)) (lineChunks (ws.map (·.1))) s

/-- The value at any addresses changed in one step by an agent: the old value (R39, R89). Its lines are checked as
those of a write, before any of them is pulled (R59, R75). Through the peer window it needs the atomic right alone, and
to another module it goes as one atomic cell, whose old value is open (R32). (DESIGN CHOICE: log 13) -/
def atomicElem (s : State) (dn : Nat) (vas : List Nat) (request : Nat → CellBody) (f : Nat → Nat) : Access Nat :=
  if vas.all (fun a => !inPeer a) then
    let ls := distinct (vas.map (· / 64))
    match translateLines dn (s.die dn) true ls with
    | .error c => (.error (c, faultLine dn (s.die dn) true ls), s)
    | .ok _ => match mappedRead s dn vas with
    | (.error e, s) => (.error e, s)
    | (.ok bs, s) => match s.atomically fun s => mappedWrite s dn (vas.zip (leBytes vas.length (f (leNat bs)))) with
      | (.error e, s) => (.error e, s)
      | (.ok _, s) => (.ok (leNat bs), s)
  else match elementCheck s dn .atomic (lineChunks vas) with
    | (.error e, s) => (.error e, s)
    | (.ok _, s) => match openImport s dn (vas.headD 0), oneImport vas && (placeOf s dn (vas.headD 0)).isNone with
      | (.ok h, s), true => (.ok (leNat (peerBytes s dn vas)), (sendPort s dn h 0x02 [] (request h)).hearPeers)
      | _, _ => match chunksRead dn (lineChunks vas) s with
        | (.error e, s) => (.error e, s)
        | (.ok bs, s) => match s.atomically (chunksWrite dn (leBytes vas.length (f (leNat bs))) (lineChunks vas)) with
          | (.error e, s) => (.error e, s)
          | (.ok _, s) => (.ok (leNat bs), s)

/-! ### Parts of an element at its exporter -/

/-- The first part of an element, by offset and length, that its exporter refuses or cannot reach (R39, R71). -/
def partFault (s : State) (h : Nat) (right : Right) (parts : List (Nat × Nat)) : Option (Cause × Nat) :=
  parts.findSome? fun p => (exportFault s h p.1 p.2 right).map fun c => (c, p.1)

/-- The checks of an element at its exporter before any of its bytes moves, those of the lines that it pulls too (R39,
R71, R75). -/
def partsCheck (s : State) (h : Nat) (right : Right) (parts : List (Nat × Nat)) : Access Unit :=
  match partFault s h right parts with
  | some e => (.error e, s)
  | none =>
    let s := parts.foldl (fun s p => match exporterCheck (s.die (handleDie h)) h p.1 p.2 right with
      | .ok va => pullPart s (handleDie h) va p.2 right
      | .error _ => s) s
    match partFault s h right parts with
    | some e => (.error e, s)
    | none => (.ok (), s)

/-- The parts of a checked element written at its exporter. -/
def partsWrite (h : Nat) : List (Nat × List Byte) → State → Access Unit
  | [], s => (.ok (), s)
  | p :: r, s => match exporterWrite s h p.1 p.2 with
    | (.error (c, _), s) => (.error (c, p.1), s)
    | (.ok _, s) => partsWrite h r s

/-! ### Words -/

/-- A little-endian word of `n` bytes read at a virtual address. -/
def readWord (s : State) (dn va n : Nat) : Access Nat :=
  match memRead s dn (span va n) with
  | (.ok bs, s) => (.ok (leNat bs), s)
  | (.error c, s) => (.error c, s)

/-- A little-endian word of `n` bytes written at a virtual address. -/
def writeWord (s : State) (dn va n v : Nat) : Access Unit := memWrite s dn ((span va n).zip (leBytes n v))

/-! ### Buffer records -/

/-- The record of its 32 bytes (R63). -/
def recOf (bs : List Byte) : Rec :=
  let w0 := leNat (bs.take 8)
  let w1 := leNat ((bs.drop 8).take 8)
  let w2 := leNat ((bs.drop 16).take 8)
  let w3 := leNat ((bs.drop 24).take 8)
  { esize := bits 63 60 w0, swz := bits 59 56 w0, base := bits 55 6 w0 * 64, valid := bit 5 w0,
    shadow := bit 4 w0, ro := bit 3 w0, comp := bit 2 w0, sbase := bits 55 6 w1 * 64,
    front := bit 63 w2, ovf := bit 62 w2, stride := bits 55 32 w2, extent := bits 31 0 w2,
    fcnt := bits 63 32 w3, scnt := bits 31 0 w3,
    resv := bits 1 0 w0 ≠ 0 || bits 63 56 w1 ≠ 0 || bits 5 0 w1 ≠ 0 || bits 61 56 w2 ≠ 0 }

/-- Element size in bytes (R63). -/
def Rec.size (r : Rec) : Nat := 2 ^ r.esize

/-- Distance of elements in bytes (R63, R65). -/
def Rec.step (r : Rec) : Nat := if r.stride = 0 then r.size else r.stride

/-- Whether a record is invalid (R64). -/
def Rec.invalid (r : Rec) : Bool :=
  !r.valid || r.resv || 8 < r.esize || 7 < r.swz || (r.stride ≠ 0 && r.stride < r.size) ||
  (r.shadow && r.sbase = r.base) || 2 ^ 48 < r.extent * r.step

/-- The base of the front, and of the side that writes go to (R66). -/
def Rec.frontBase (r : Rec) : Nat := if r.shadow && r.front then r.sbase else r.base
def Rec.writeBase (r : Rec) : Nat := if r.shadow && !r.front then r.sbase else r.base

/-- The swizzle of a byte's offset; it moves bytes within their KiB, and twice it moves nothing (R65). -/
def Rec.swizzle (r : Rec) (off : Nat) : Nat := if r.swz = 0 then off else off ^^^ (off / 2 ^ (r.swz + 3) &&& 0x3C0)

/-- The address of byte `b` of element `e` (R65), modulo 2^56. (DESIGN CHOICE: log 140) -/
def Rec.addr (r : Rec) (base e b : Nat) : Nat := (base + r.swizzle (e * r.step + b)) % 2 ^ 56

/-- Whether an address is of an element of a record, on the side at `base` (R65). -/
def Rec.holds (r : Rec) (base a : Nat) : Bool :=
  let off := r.swizzle ((a + 2 ^ 56 - base) % 2 ^ 56)
  off / r.step < r.extent && off % r.step < r.size

/-- Bytes from its base on that a record's elements fill, swizzled within themselves (R65). -/
def Rec.filled (r : Rec) : Nat := if r.swz = 0 then r.extent * r.step else r.extent * r.step / 1024 * 1024

/-- The addresses of a record's elements in the KiB that a swizzle leaves partly filled (R65). -/
def Rec.tail (r : Rec) (base : Nat) : List Nat :=
  if r.swz = 0 then [] else (span (base + r.filled) 1024).filterMap fun a =>
    if r.holds base (a % 2 ^ 56) then some (a % 2 ^ 56) else none

/-- Whether a record may take compressed output of images (R170, R173, R302). -/
def Rec.takesImages (r : Rec) : Bool := !r.invalid && !r.ro && r.comp && r.esize = 6

/-- The addresses of element `e` on the front and on the write side (R65, R66). -/
def Rec.frontAddrs (r : Rec) (e : Nat) : List Nat := (span 0 r.size).map (r.addr r.frontBase e)
def Rec.writeAddrs (r : Rec) (e : Nat) : List Nat := (span 0 r.size).map (r.addr r.writeBase e)

/-- The address of a record in the table (R62). -/
def recAddr (d : Die) (id : Nat) : Nat := d.rtbase + 32 * id

/-- The record of an id as the table holds it; a record that cannot be read is not valid (R62, R64). -/
def readRec (s : State) (dn id : Nat) : Rec × State :=
  match memRead s dn (span (recAddr (s.die dn) id) 32) with
  | (.ok bs, s) => (recOf bs, s)
  | (.error _, s) => (recOf [], s)

/-- The effect of a publish on a record (R67): whether FRONT flipped. -/
def publishRecord (s : State) (dn id : Nat) : Access Bool :=
  let (r, s) := readRec s dn id
  if !r.shadow || r.ovf then (.ok false, s)
  else
    let w2 := (!r.front).toNat * 2 ^ 63 + r.ovf.toNat * 2 ^ 62 + r.stride * 2 ^ 32 + r.extent
    let w3 := (if r.comp then r.scnt else r.fcnt) * 2 ^ 32
    match memWrite s dn ((span (recAddr (s.die dn) id + 16) 16).zip (leBytes 8 w2 ++ leBytes 8 w3)) with
    | (.ok _, s) => (.ok true, s)
    | (.error c, s) => (.error c, s)

/-- The state with SCNT and OVF of a record rewritten (R68); a write that faults is dropped. (DESIGN CHOICE: log 141) -/
def writeCounts (s : State) (dn id : Nat) (scnt : Nat) (ovf : Bool) : State :=
  let (r, s) := readRec s dn id
  let w2 := r.front.toNat * 2 ^ 63 + ovf.toNat * 2 ^ 62 + r.stride * 2 ^ 32 + r.extent
  let w3 := r.fcnt * 2 ^ 32 + scnt
  (memWrite s dn ((span (recAddr (s.die dn) id + 16) 16).zip (leBytes 8 w2 ++ leBytes 8 w3))).2

end Sys2Proof.Machine
end

