-- ==== Sys2Proof/Machine/Typed.lean ====
section
/-!
DEFINITION. Small operations on the types of the syntax: register numbers and pairs (R126), port numbers (R135),
and the integers that operands of each type stand for (R217, R226, R229).
-/
namespace Sys2Proof

/-- Whether lane `l` is in a mask. -/
def inMask (m : Word) (l : Nat) : Bool := m.getLsbD l

/-- The number of a register within its file. -/
def Reg.number : Reg → Nat
  | .v n | .o n | .t n | .s n | .x n | .p n | .g n | .hs n | .hv n | .resv n => n
  | .idx _ c => c
  | .con _ => 0
  | .port _ => 0

/-- Whether an odd number of the register makes an illegal pair (R126, R226). -/
def Reg.oddPair : Reg → Bool
  | .v n | .o n | .t n | .s n | .x n | .g n | .hs n | .hv n => n % 2 = 1
  | _ => false

/-- Number of a port: le, lw, kn, ke, ks, kw, kd. -/
def Port.number : Port → Nat
  | .le => 0 | .lw => 1 | .kn => 2 | .ke => 3 | .ks => 4 | .kw => 5 | .kd => 6

/-- The register of a position moved by `n` within its file: the second of a pair, the registers of `.x4`. -/
def Reg.plus (r : Reg) (n : Nat) : Reg :=
  match r with
  | .v m => .v (m + n)
  | .o m => .o (m + n)
  | .t m => .t (m + n)
  | .s m => .s (m + n)
  | .x m => .x (m + n)
  | .g m => .g (m + n)
  | .hs m => .hs (m + n)
  | .hv m => .hv (m + n)
  | r => r

/-- Width of a type in bits (R217). -/
def Ty.width : Ty → Nat
  | .i32 | .n32 | .f32 | .b32 => 32
  | .i16 | .n16 | .f16 | .bf16 => 16
  | .i8 | .n8 | .e4m3 | .e5m2 | .bp => 8
  | .i64 | .n64 => 64
  | .f6 => 6

/-- Whether an integer type is signed. -/
def Ty.signed (t : Ty) : Bool := [Ty.i32, .i16, .i8, .i64].contains t

/-- The integer that an operand of a type stands for (R226). -/
def Ty.int (t : Ty) (v : DWord) : Int :=
  let n := v.toNat % 2 ^ t.width
  if t.signed && 2 ^ (t.width - 1) ≤ n then (n : Int) - 2 ^ t.width else n

/-- The least and greatest integers of a type. -/
def Ty.least (t : Ty) : Int := if t.signed then -(2 ^ (t.width - 1)) else 0
def Ty.greatest (t : Ty) : Int := if t.signed then 2 ^ (t.width - 1) - 1 else 2 ^ t.width - 1

/-- A register value of a type from an integer, modulo 2^w: bits above w are copies of the sign for signed types
and zeros for the others (R226, R229). -/
def Ty.wrap (t : Ty) (n : Int) : DWord :=
  let m := (n % 2 ^ t.width).toNat
  if t.width = 64 then BitVec.ofNat 64 m
  else if t.signed && 2 ^ (t.width - 1) ≤ m then (BitVec.ofInt 32 ((m : Int) - 2 ^ t.width)).setWidth 64
  else BitVec.ofNat 64 m

/-- A row with new values in the lanes of a mask. -/
def Row.put (r : Row) (m : Word) (f : Nat → Word) : Row := rowOf fun l => if inMask m l then f l else r.lane l

/-- The receive queue that reading a port pops, in the order of R322: from east, from west, kn, ke, ks, kw, kd. -/
def Port.own (p : Port) : Nat := p.number

/-- The register a source reads, for ports and interlocks. -/
def Src.regs : Src → List Reg
  | .reg r _ => [r]
  | .idx k _ => [.x k]
  | .imm _ => []

/-- The register of a descriptor. -/
def Desc.regs : Desc → List Reg
  | .reg _ r => [r]
  | .win _ r => [r]
  | _ => []

/-- The window number of a descriptor. -/
def Desc.window : Desc → Nat
  | .win n _ => n
  | _ => 0

/-- The record id of a descriptor. -/
def Desc.rid : Desc → Nat
  | .record id => id
  | _ => 0

/-- The number of a tile descriptor. -/
def Desc.tileNo : Desc → Nat
  | .tile n => n
  | _ => 0

/-- The register of a register descriptor. -/
def Desc.theReg : Desc → Reg
  | .reg _ r => r
  | _ => .v 0

/-- The number of an A-operand in immediate form. -/
def AOpd.number : AOpd → Nat
  | .imm n => n
  | .reg _ => 0

/-- Whether the guard is unguarded (R216, R245). -/
def Head.unguarded (h : Head) : Bool := h.pred = 7 && !h.neg

end Sys2Proof
end

