-- ==== Sys2Proof/Machine/Ops.lean ====
section
/-!
DEFINITION. The shared operations over gangs and quads: masks of lanes, the registers of a gang under its
register codes, PC advance with the counted loops (R250), parting (R122), parking (R183), TAKING A TRAP as one
operation (R187, R190, R309) and the return from one beside it (R188, R316).
-/
namespace Sys2Proof.Machine

/-! ### Lane masks -/

/-- The mask of the lanes that satisfy `f`. -/
def maskOf (f : Nat → Bool) : Word :=
  laneList.foldl (fun m l => if f l then m ||| BitVec.ofNat 32 (2 ^ l) else m) 0

/-- The lanes of a mask, ascending. -/
def lanesOf (m : Word) : List Nat := laneList.filter (inMask m)

/-- The four bits of quad `q` in a mask. -/
def quadBits (m : Word) (q : Nat) : BitVec 4 := (m >>> (4 * q)).setWidth 4

/-- A quad's four bits as a mask of the gang. -/
def spread (b : BitVec 4) (q : Nat) : Word := (b.setWidth 32) <<< (4 * q)

/-- The lanes of quads. -/
def quadLanes (qs : List Nat) : Word := qs.foldl (fun m q => m ||| spread 0xF q) 0

/-! ### Gangs and quads -/

/-- A quad at a group's start (R121), lanes existing, at an entry PC and sub-gang tag. -/
def Quad.start (pc sgt : Nat) : Quad where
  pc := pc
  lmask := 0xF
  stack := []
  fmt := 0xBB384000
  lc := [0, 0, 0]
  reps := []
  calls := []
  sgt := sgt
  sup := false
  epc := 0
  emask := 0
  eflt := 0
  edepth := 0
  eclass := 0
  park := 0
  released := 0
  ended := 0
  held := 0
  vflags := 0
  ppc := 0
  pLmask := 0
  pPark := 0
  pSup := false
  pSgt := 0
  exited := false
  barArrived := false
  gsyncArrived := false
  atRegang := false
  atGsave := false
  ywait := none
  stopped := false
  poolWait := false
  sigw := none
  atMacq := false

/-- A gang with no register set and no quads (R126, R128, R133). -/
def Gang.empty : Gang :=
  ⟨0, 0, [], [], [], [], [], [], [], [], [], none, none, [], [], 0, 0, 0, 0, [], [], 0, [], [], [], none, false, false, [],
    Know.empty⟩

/-- Quad `q` of a gang. -/
def Gang.quad (k : Gang) (q : Nat) : Quad := k.quads.getD q { Quad.start 0 0 with exited := true }

/-- The gang with quad `q` changed. -/
def Gang.onQuad (k : Gang) (q : Nat) (f : Quad → Quad) : Gang := { k with quads := k.quads.modify q f }

/-- The quads that exist and have not exited. -/
def Gang.liveQuads (k : Gang) : List Nat := (List.range k.quads.length).filter fun q => !(k.quad q).exited

/-- The quads of the sub-gang of a tag (R121, R122). -/
def Gang.members (k : Gang) (sgt : Nat) : List Nat := k.liveQuads.filter fun q => (k.quad q).sgt = sgt

/-- The lanes a quad runs: in user state those of LMASK that are not parked (R183, R245); in supervisor state
LMASK is the faulters' mask, whose lanes the handler runs in (R187). -/
def Quad.running (q : Quad) : BitVec 4 := if q.sup then q.lmask else q.lmask &&& ~~~q.park

/-- The live lanes of R245. (DEDUCED: log 32) -/
def Quad.live (q : Quad) : BitVec 4 := q.running

/-- Whether all lanes of a quad are ended (R188, R309). -/
def Quad.allEnded (q : Quad) : Bool := q.ended = 0xF

/-- Group `gid` of a die. -/
def Die.group (d : Die) (gid : Nat) : Option Group := d.groups.find? gid

/-- Gang `i` of a group. -/
def Group.gang (g : Group) (i : Nat) : Gang := g.gangs.getD i Gang.empty

/-- The group with gang `i` changed. -/
def Group.onGang (g : Group) (i : Nat) (f : Gang → Gang) : Group := { g with gangs := g.gangs.modify i f }

/-- Whether a group runs: resident, and no gang of it beyond recovery (R190). -/
def Group.runs (g : Group) : Bool := g.state = .running && g.gangs.all fun k => k.lost.isNone

/-- What the group holds on its core `j`. -/
def Group.home (g : Group) (j : Nat) : GroupCore := g.homes.getD j ⟨[], [], [], [], [], false⟩

/-- The group with what it holds on core `j` changed. -/
def Group.onHome (g : Group) (j : Nat) (f : GroupCore → GroupCore) : Group := { g with homes := g.homes.modify j f }

/-- The state with group `gid` of die `dn` replaced. -/
def State.putGroup (s : State) (dn gid : Nat) (g : Group) : State :=
  s.onDie dn fun d => { d with groups := d.groups.insert gid g }

/-- The state with group `gid` of die `dn`, if there, changed. -/
def State.onGroup (s : State) (dn gid : Nat) (f : Group → Group) : State :=
  s.onDie dn fun d => { d with groups := d.groups.modify gid f }

/-- The state with gang `gi` of a group changed. -/
def State.onGang (s : State) (dn gid gi : Nat) (f : Gang → Gang) : State :=
  s.onGroup dn gid fun g => g.onGang gi f

/-- Core `n` of a die. -/
def Die.core (d : Die) (n : Nat) : Core := FMap.get Core.empty d.cores n

/-- The die with core `n` replaced. -/
def Die.setCore (d : Die) (n : Nat) (c : Core) : Die := { d with cores := FMap.set Core.empty d.cores n c }

/-- Queue `q` of a die. -/
def Die.queue (d : Die) (q : Nat) : Queue := FMap.get Queue.empty d.queues q

/-- The die with queue `q` replaced. -/
def Die.setQueue (d : Die) (q : Nat) (v : Queue) : Die := { d with queues := FMap.set Queue.empty d.queues q v }

/-- Number of gangs of a group, ⌈BLOCK ÷ 32⌉ (R107, R113). -/
def gangCount (block : Nat) : Nat := (block + 31) / 32

/-- The helper lanes of gang `gi`: threads at BLOCK and above (R125). -/
def helperMask (block gi : Nat) : Word := maskOf fun l => block ≤ 32 * gi + l

/-! ### The issuing sub-gang -/

/-- What becomes of a quad after an instruction. -/
inductive QOut where
  /-- PC + 1, or what a counted loop makes of it (R250). -/
  | adv
  /-- A transfer of control. -/
  | jump (pc : Nat)
  /-- PC stays. -/
  | hold
  /-- A quad-scope cause: class, reason and VALUE. -/
  | trap (cls reason : Nat) (value : Word)
  deriving DecidableEq, Repr

/-- The issuing sub-gang opened up: its group and gang as they stand in the instruction, its quads, the lanes of the
guard, and what becomes of each quad. -/
structure Cx where
  s : State
  dn : Nat
  gid : Nat
  gi : Nat
  sgt : Nat
  grp : Group
  k : Gang
  qs : List Nat
  sup : Bool
  pc : Nat
  op : Nat
  nh : Bool
  /-- The active lanes, and those of them whose guard is true (R200, R245). -/
  act : Word
  em : Word
  helpers : Word
  /-- Values popped by this instruction, by 32 × port + lane (R137). -/
  pops : FMap Word
  out : FMap QOut
  /-- Lanes that park, with their records (R183). -/
  parks : FMap FaultRec
  deriving DecidableEq, Repr

/-- The lanes of the sub-gang's quads. -/
def Cx.gangLanes (c : Cx) : Word := quadLanes c.qs

/-- The lanes in which the instruction executes, stores and pushes: not helper lanes, not lanes that park. -/
def Cx.parked (c : Cx) : Word := maskOf fun l => (c.parks.find? l).isSome

/-- The executing lanes that are not helper lanes. -/
def Cx.solid (c : Cx) : Word := c.em &&& ~~~c.helpers

/-- The sub-gang of `sg` opened up, for opcode `op` under head `h`. (DESIGN CHOICE: log 8; DEDUCED: log 32, 37) -/
def openCx (s : State) (sg : SubGang) (op : Nat) (h : Head) : Option Cx :=
  match (s.die sg.die).group sg.gid with
  | none => none
  | some grp =>
    let k := grp.gang sg.gang
    let ms := k.members sg.sgt
    match ms with
    | [] => none
    | q0 :: _ =>
      let act := ms.foldl (fun m q => m ||| spread (k.quad q).running q) 0
      let p : Word := if h.pred = 7 then 0xFFFFFFFF else FMap.get 0 k.preds (712 + h.pred)
      let em := act &&& (if h.neg then ~~~p else p)
      some { s := s, dn := sg.die, gid := sg.gid, gi := sg.gang, sgt := sg.sgt, grp := grp, k := k,
             qs := ms, sup := (k.quad q0).sup, pc := (k.quad q0).pc, op := op, nh := h.nh, act := act, em := em,
             helpers := helperMask grp.block sg.gang, pops := [], out := [], parks := [] }

/-! ### Fault records and parking -/

/-- The LOC (WHERE) of a fault that names nothing (R181). -/
def noLoc : Nat := 0xFFFF

/-- A record of lane `l` of the issuing gang (R181). -/
def Cx.record (c : Cx) (l cls reason addr loc : Nat) (value : Word) : FaultRec :=
  ⟨cls, reason, c.gi, l, c.op % 256, c.pc, addr, loc, value⟩

/-- The gang with the record of a lane written, unless it still holds one (R181). -/
def Gang.putRecord (k : Gang) (l : Nat) (r : FaultRec) : Gang :=
  if (FMap.get FaultRec.none k.records l).cls = 0 then { k with records := FMap.set FaultRec.none k.records l r }
  else k

/-- The gang with lane `l` parked by a fault of its instruction number `n`; of a lane parked already the earlier number
stays, as its record does (R181, R183, R184). -/
def Gang.parkLane (k : Gang) (l n : Nat) (r : FaultRec) : Gang :=
  let k := k.putRecord l r
  let k := k.onQuad (l / 4) fun q => { q with park := q.park ||| BitVec.ofNat 4 (2 ^ (l % 4)) }
  if (k.parkedAt.find? l).isSome then k else { k with parkedAt := k.parkedAt.insert l n }

/-- The context with lane `l` to park. -/
def Cx.park (c : Cx) (l : Nat) (r : FaultRec) : Cx :=
  if (c.parks.find? l).isSome then c else { c with parks := c.parks.insert l r }

/-! ### Taking a trap -/

/-- The first PC of handler `n` of the trap table, if its entry is valid; an entry that cannot be read is not
(R186, R187). -/
def handlerPc (s : State) (dn n : Nat) : Option Nat × State :=
  match readWord s dn ((s.die dn).trapbase + 16 * n) 8 with
  | (.ok v, s) => (if bit 0 v then some (5 * bits 55 6 v) else none, s)
  | (.error _, s) => (none, s)

/-- The gang beyond recovery with a class, at its present instruction (R190); an earlier one stays. -/
def Gang.loseTo (k : Gang) (cls : Nat) : Gang :=
  match k.lost with
  | some _ => k
  | none => { k with lost := some (cls, k.issued) }

/-- The gang beyond recovery with a class, by a fault of its instruction number `n`; an earlier one in issue order stays
(R190). -/
def Gang.loseAt (k : Gang) (cls n : Nat) : Gang :=
  match k.lost with
  | some (_, m) => if n < m then { k with lost := some (cls, n) } else k
  | none => { k with lost := some (cls, n) }

/-- Quad `q` of gang `k` takes a trap of a class with faulters' mask `mask`, EPC `epc` (R187): it saves EPC, EMASK,
EDEPTH and ECLASS, sets SUP, runs the faulters, leaves its sub-gang, and stands at the handler. In supervisor state, or
where the entry is not valid, the fault is beyond recovery, as `lose` has it (R187, R190). (DEDUCED: log 31, 33, 53) -/
def takeTrapOr (lose : Gang → Gang) (s : State) (dn : Nat) (k : Gang) (q cls : Nat) (mask : BitVec 4) (epc : Nat) :
    State × Gang :=
  if (k.quad q).sup then (s, lose k)
  else
    match handlerPc s dn cls with
    | (none, s) => (s, lose k)
    | (some pc, s) =>
      (s, k.onQuad q fun u =>
        { u with epc := epc, emask := u.lmask, eflt := mask, edepth := u.stack.length, eclass := cls,
                 sup := true, lmask := mask, pc := pc, sgt := q, atRegang := false, poolWait := false,
                 barArrived := false, gsyncArrived := false, sigw := none, atMacq := false })

/-- Quad `q` takes a trap of the instruction that its gang issues. -/
def takeTrap (s : State) (dn : Nat) (k : Gang) (q cls : Nat) (mask : BitVec 4) (epc : Nat) : State × Gang :=
  takeTrapOr (·.loseTo cls) s dn k q cls mask epc

/-- The lane whose record a quad-scope fault writes: the lowest of a mask of the quad. -/
def lowestLane (mask : BitVec 4) (q : Nat) : Nat :=
  4 * q + (if mask.getLsbD 0 then 0 else if mask.getLsbD 1 then 1 else if mask.getLsbD 2 then 2 else 3)

/-- The faulters of a quad-scope cause (R309): the active lanes whose guard is true, or else the live lanes, or
else the lanes that are not ended. -/
def faulters (c : Cx) (q : Nat) : BitVec 4 :=
  if quadBits c.em q ≠ 0 then quadBits c.em q
  else if (c.k.quad q).live ≠ 0 then (c.k.quad q).live
  else ~~~(c.k.quad q).ended

/-- Quad `q` takes a quad-scope trap, with ADDR `addr`, of the instruction that the sub-gang issues (R180, R309).
(DEDUCED: log 34) -/
def quadTrapAt (c : Cx) (q cls reason addr : Nat) (value : Word) : Cx :=
  let m := faulters c q
  let l := lowestLane m q
  let k := c.k.putRecord l (c.record l cls reason addr noLoc value)
  let epc := if cls = 14 ∨ cls = 15 then (c.pc + 1) % Config.pcModulus else c.pc
  let (s, k) := takeTrap c.s c.dn k q cls m epc
  { c with s := s, k := k }

/-- A quad-scope trap whose class gives ADDR no value. -/
def quadTrap (c : Cx) (q cls reason : Nat) (value : Word) : Cx := quadTrapAt c q cls reason 0 value

/-! ### Parked lanes at a convergence point -/

/-- The parked lanes of quad `q`, by their places in it. -/
def Gang.parkedIn (k : Gang) (q : Nat) : List Nat := [0, 1, 2, 3].filter fun i => (k.quad q).park.getLsbD i

/-- The parked lane of quad `q` with the earliest fault in issue order, the lowest among those of one instruction
(R184). -/
def Gang.firstParked (k : Gang) (q : Nat) : Option Nat :=
  let at_ := fun i => FMap.get 0 k.parkedAt (4 * q + i)
  match k.parkedIn q with
  | [] => none
  | i0 :: r => some (r.foldl (fun b i => if at_ i < at_ b then i else b) i0)

/-- The parked lanes of quad `q` of the class that R184 selects, with that class. -/
def parkedClass (k : Gang) (q : Nat) : Option (Nat × BitVec 4) :=
  let cls := fun i => (FMap.get FaultRec.none k.records (4 * q + i)).cls
  (k.firstParked q).map fun first =>
    (cls first, (k.parkedIn q).foldl (fun (m : BitVec 4) i =>
      if cls i = cls first then m ||| BitVec.ofNat 4 (2 ^ i) else m) 0)

/-- A quad with parked lanes vectors at a convergence point that stands at its PC; where it cannot, the fault beyond
recovery is that of its earliest parked lane (R184, R190). (DEDUCED: log 33) -/
def vectorParked (s : State) (dn : Nat) (k : Gang) (q : Nat) : State × Gang :=
  match parkedClass k q with
  | none => (s, k)
  | some (cls, m) =>
    takeTrapOr (·.loseAt cls (FMap.get 0 k.parkedAt (4 * q + (k.firstParked q).getD 0))) s dn k q cls m (k.quad q).pc

/-! ### Returning from supervisor state -/

/-- Whether a PC lies in the body of a level (R250). -/
def RepLevel.holds (r : RepLevel) (pc : Nat) : Bool := r.first ≤ pc && pc < r.stop

/-- A quad that transfers control to `pc`: it closes the levels whose bodies it leaves (R250). -/
def Quad.jumpTo (u : Quad) (pc : Nat) : Quad :=
  let pc := pc % Config.pcModulus
  { u with pc := pc, reps := u.reps.filter fun r => !(r.holds u.pc && !r.holds pc) }

/-- A lane ended (R188): out of LMASK, EMASK and every mask-stack entry; its park and record stay. (DEDUCED: log 26)
-/
def Quad.endLanes (u : Quad) (m : BitVec 4) : Quad :=
  { u with ended := u.ended ||| m, lmask := u.lmask &&& ~~~m
           stack := u.stack.map fun e => { e with mask := e.mask &&& ~~~m } }

/-- The gang with the record of a lane cleared (R181, R316). -/
def Gang.clearRecord (k : Gang) (l : Nat) : Gang :=
  let r := FMap.get FaultRec.none k.records l
  { k with records := FMap.set FaultRec.none k.records l { r with cls := 0 }, parkedAt := k.parkedAt.erase l }

/-- The return of R316 with PRE = 0, mask-stack depth equal to EDEPTH: faulters that are parked and not released are
ended, the records of the others are cleared, LMASK is EMASK without ended lanes, and PC is EPC, which closes the `rep`
levels of the handler whose bodies it leaves (R250). (DEDUCED: log 26, 119) -/
def returnQuad (k : Gang) (q : Nat) : Gang :=
  let u := k.quad q
  let dead := u.eflt &&& u.park &&& ~~~u.released
  let back := u.eflt &&& ~~~dead
  let k := [0, 1, 2, 3].foldl (fun (k : Gang) i => if back.getLsbD i then k.clearRecord (4 * q + i) else k) k
  k.onQuad q fun u =>
    let u := (u.endLanes dead).jumpTo u.epc
    { u with park := u.park &&& ~~~back &&& ~~~dead, released := u.released &&& ~~~back
             lmask := u.emask &&& ~~~u.ended, sup := false }

/-! ### PC, counted loops and parting -/

/-- The end of the body of the innermost open level at `pc`, and so on outward while ends agree (R250): the
quad's PC, levels and counters afterwards. -/
def completeBodies (lc : List Word) : (reps : List RepLevel) → (pc : Nat) → Nat × List RepLevel × List Word
  | [], pc => (pc, [], lc)
  | r :: rs, pc =>
    if r.stop = pc then
      let n := lc.getD rs.length 0 - 1
      let lc := lc.set rs.length n
      if n = 0 then completeBodies lc rs pc else (r.first, r :: rs, lc)
    else (pc, r :: rs, lc)

/-- A quad whose instruction completes with no transfer of control (R250). -/
def Quad.advance (u : Quad) : Quad :=
  let (pc, reps, lc) := completeBodies u.lc u.reps ((u.pc + 1) % Config.pcModulus)
  { u with pc := pc, reps := reps, lc := lc }

/-- Quads of a sub-gang grouped by PC, each group under the tag of its lowest quad (R122). -/
def part (k : Gang) (qs : List Nat) : Gang :=
  qs.foldl (fun k q =>
    let tag := (qs.filter fun p => (k.quad p).pc = (k.quad q).pc).foldl min q
    k.onQuad q fun u => { u with sgt := tag }) k

/-! ### The end of an instruction -/

/-- What becomes of quad `q`: its trap is taken, or its PC advances or moves; a trap means nothing to a quad whose
lanes are all ended (R309). -/
def settleQuad (c : Cx) (q : Nat) : Cx :=
  match FMap.get .adv c.out q with
  | .trap cls reason value =>
    if (c.k.quad q).allEnded then { c with k := c.k.onQuad q Quad.advance } else quadTrap c q cls reason value
  | .adv => { c with k := c.k.onQuad q Quad.advance }
  | .jump pc => { c with k := c.k.onQuad q fun u => u.jumpTo pc }
  | .hold => c

/-- Whether quad `q` is still of the sub-gang after the instruction: it has not vectored, nor exited. -/
def Cx.stays (c : Cx) (q : Nat) : Bool :=
  (match FMap.get .adv c.out q with
    | .trap _ _ _ => (c.k.quad q).allEnded
    | _ => true) && !(c.k.quad q).exited && (c.k.quad q).sgt = c.sgt

/-- What becomes of the quads: traps are taken, PCs advance or move, and the rest of the sub-gang parts. -/
def settle (c : Cx) : Cx :=
  let c := c.qs.foldl settleQuad c
  { c with k := part c.k (c.qs.filter c.stays) }

/-- Lanes park; in supervisor state the fault writes the lane's record and is beyond recovery (R181, R183, R187). -/
def parkAll (c : Cx) : Cx :=
  { c with k := c.parks.foldl (fun k e =>
      if c.sup then (k.putRecord e.1 e.2).loseTo e.2.cls else k.parkLane e.1 k.issued e.2) c.k }

/-- The state with the context's group and gang put back. -/
def Cx.close (c : Cx) : State :=
  c.s.putGroup c.dn c.gid { c.grp with gangs := c.grp.gangs.set c.gi c.k }

/-- The state after an instruction: lanes park, quads settle, and the gang has issued one more instruction. -/
def Cx.finished (c : Cx) : State :=
  let c := settle (parkAll c)
  { c with k := { c.k with issued := c.k.issued + 1 }, grp := { c.grp with stalled := 0 } }.close

/-- The instruction is complete. -/
def complete (c : Cx) : Host.Outcome State Fault Refusal := .next c.finished

/-- Every quad of the sub-gang takes a quad-scope cause. -/
def trapAll (c : Cx) (cause : Cause) (value : Word) : Host.Outcome State Fault Refusal :=
  complete { c with out := c.qs.map fun q => (q, .trap cause.1 cause.2 value) }

end Sys2Proof.Machine
end

