-- ==== Sys2Proof/Machine/Operands.lean ====
section
/-!
DEFINITION. Operands: which registers each position of each instruction may name (R126, R136, R187, R213 to R215
and the rules of the reference chapters), how sources are read (R123, R211, R213, R214, R225, R226, R269), how
results are written and enter the last-result file (R127, R129), and the ports' queues (R135 to R137).
-/
namespace Sys2Proof.Machine

/-! ### Releases and acquires of the gang itself -/

/-- The gang of an instruction as an agent (R77). -/
def Cx.agent (c : Cx) : Agent := .gang c.dn c.gid c.gi

/-- The context with what its gang knows changed. -/
def Cx.onKnow (c : Cx) (f : Know → Know) : Cx := { c with k := { c.k with know := f c.k.know } }

/-- The gang issues a release fence at a scope (R79). -/
def Cx.fenceAt (c : Cx) (scope : Nat) : Cx := c.onKnow fun k => k.fence scope c.k.issued

/-- The gang acquires writes, and its group sees them (R81, R208). -/
def Cx.acquire (c : Cx) (ws : List Nat) : Cx :=
  { c.onKnow (fun k => k.learn c.k.issued ws) with grp := c.grp.acquire ws }

/-- Where the bytes of the area on the gang's core stand. -/
def Cx.spot (c : Cx) (line : Nat) : Spot := .area c.dn c.gid c.k.core line

/-- The gang has loaded bytes of its core's area (R79, R84). -/
def Cx.sees (c : Cx) (as : List Nat) : Cx :=
  if c.s.notes.isEmpty then c else c.onKnow fun k => k.observe (releasesAt c.s.notes (spotsOf c.spot as))

/-- The gang has stored bytes of its core's area, in an instruction that releases at a scope or in none, plainly or by an
atomic (R79, R83). -/
def Cx.stores (c : Cx) (own : Option Nat) (atomic : Bool) (as : List Nat) : Cx :=
  let rs := c.k.know.releases c.agent c.k.issued own
  if c.s.notes.isEmpty && rs.isEmpty then c
  else { c with s := { c.s with notes := noteWrite c.s.notes rs atomic (spotsOf c.spot as) } }

/-! ### Register positions -/

/-- Classes of registers that a position can admit. -/
structure Admits where
  v : Bool
  o : Bool
  t : Bool
  s : Bool
  x : Bool
  p : Bool
  g : Bool
  /-- Constants: zero, one, ones and gang; then lane and quad. -/
  k : Bool
  lq : Bool
  port : Bool
  idx : Bool
  deriving DecidableEq, Repr

/-- Every code that R215 allows as a source; index windows only in RRR and RRI. -/
def anySource (idx : Bool) : Admits := ⟨true, true, true, true, true, true, true, true, true, true, idx⟩
/-- A condition: any vector source but a port (R244). -/
def conditionSource : Admits := ⟨true, true, true, true, true, true, true, true, true, false, false⟩
/-- A vector destination (R225). -/
def vectorDest : Admits := ⟨true, true, false, false, true, true, true, false, false, true, true⟩
/-- A destination that must be v, o or x. -/
def laneDest (idx : Bool) : Admits := ⟨true, true, false, false, true, false, false, false, false, false, idx⟩
/-- s alone. -/
def sOnly : Admits := ⟨false, false, false, true, false, false, false, false, false, false, false⟩
/-- s, g, zero, one, ones and gang: the sources of a scalar instruction (R236). -/
def scalarSource : Admits := ⟨false, false, false, true, false, false, true, true, false, false, false⟩
/-- A uniform operand: s, g or a constant (R269). (DEDUCED: log 18) -/
def uniform : Admits := { scalarSource with lq := true }
/-- The code 728 in the window of `wset`, which takes no offset (R268). -/
def zeroOnly (r : Reg) : Admits := ⟨false, false, false, false, false, false, false, r = .con .zero, false, false, false⟩
/-- v or o. -/
def voOnly : Admits := ⟨true, true, false, false, false, false, false, false, false, false, false⟩

/-- Whether a position admits a register; hs counts as s and hv as v (R308). (DEDUCED: log 18) -/
def Admits.ok (a : Admits) : Reg → Bool
  | .v _ => a.v
  | .o _ => a.o
  | .t _ => a.t
  | .s _ => a.s
  | .hs _ => a.s
  | .x _ => a.x
  | .p _ => a.p
  | .g _ => a.g
  | .hv _ => a.v
  | .con .lane => a.lq
  | .con .quad => a.lq
  | .con _ => a.k
  | .port _ => a.port
  | .idx _ _ => a.idx
  | .resv _ => false

/-- A register position of an instruction, in the order of R223. -/
structure Pos where
  reg : Reg
  admits : Admits
  dst : Bool
  pair : Bool
  /-- Permutation bits stand on it. -/
  permuted : Bool
  /-- The reason of a code that cannot be written, in a destination (R215, R308). -/
  fixed : Nat
  deriving DecidableEq, Repr

/-- Whether a port may be pushed or popped: le and lw always, a core port when bound, `kd` when bound (R136). -/
def portBound (k : Gang) : Port → Bool
  | .le | .lw => true
  | .kd => k.kdImport.isSome
  | p => (k.binds.find? (p.number - 2)).isSome

/-- The illegal-register reason that the code of a position has, whatever files the position admits: reserved, of
supervisor state, indexed where that is not possible, or at or above `.regs` (R126, R187, R214, R215). -/
def codeFault (regs : Nat) (sup : Bool) (p : Pos) : Option Nat :=
  match p.reg with
  | .resv _ => some 1
  | .hs _ | .hv _ => if sup then none else some 1
  | .idx _ _ => if p.admits.idx then none else some 1
  | .v n => if 32 * regs ≤ n then some 2 else none
  | _ => none

/-- Whether a position is a destination that cannot be written (R126, R215). -/
def Pos.unwritable (p : Pos) : Bool :=
  p.dst && (match p.reg with
    | .t _ | .con _ | .p 7 => true
    | _ => false)

/-- The illegal-register reason of one position, if any, in the order reserved or misplaced code, `.regs`,
permuted port, non-writable destination, file, odd pair, unbound port (R126, R136, R182, R187, R213 to R215). (DEDUCED:
log 48) -/
def posFault (k : Gang) (regs : Nat) (sup : Bool) (p : Pos) : Option Nat :=
  let permutedPort := match p.reg with
    | .port _ => p.permuted
    | _ => false
  codeFault regs sup p <|>
  if permutedPort then some 5
  else if p.unwritable then some p.fixed
  else if !p.admits.ok p.reg then some 1
  else if p.pair && p.reg.oddPair then some 4
  else match p.reg with
    | .port q => if portBound k q then none else some 5
    | _ => none

/-- A source position. (DEDUCED: log 48) -/
def srcPos (a : Admits) (pair : Bool) : Src → List Pos
  | .reg r p => [⟨r, a, false, pair, p ≠ .rot 0, 3⟩]
  | .idx k c => [⟨.idx k c, a, false, pair, false, 3⟩]
  | .imm _ => []

/-- A destination position. -/
def destPos (a : Admits) (pair : Bool) (r : Reg) : Pos := ⟨r, a, true, pair, false, 3⟩

/-- A destination position whose rule gives reason 1 to every code that it does not list, as R236, R270, R289 and R308
do; else a code that cannot be written has reason 3 (R215). (DEDUCED: log 47) -/
def listedDest (a : Admits) (pair : Bool) (r : Reg) : Pos := { destPos a pair r with fixed := 1 }

/-- The destination of an instruction that reads it: a predicate has reason 1, p7 too (R230, R239, R240, R243). -/
def readDest (pair : Bool) (r : Reg) : Pos :=
  match r with
  | .p _ => listedDest (laneDest true) pair r
  | _ => destPos (laneDest true) pair r

/-- A plain register position. -/
def regPos (a : Admits) (pair : Bool) (r : Reg) : List Pos := [⟨r, a, false, pair, false, 3⟩]

/-- p0 to p6 alone. -/
def predOnly (r : Reg) : Admits := ⟨false, false, false, false, false, r ≠ .p 7, false, false, false, false, false⟩

/-- A predicate position, where code 0 stands for none (R257, R268). -/
def predPos (r : Reg) : List Pos := if r = .v 0 then [] else regPos (predOnly r) false r

/-- Whether opcode `op` is a scalar instruction (R236). -/
def isScalar (op : Nat) : Bool := 0x060 ≤ op && op ≤ 0x06B

/-- Opcodes that read their destination and admit only v, o or x there: `vbfi`, `vmovi.lo` and `.hi`, `vpack`,
`vpli` (R230, R239, R240). -/
def readsDest (op variant : Nat) : Bool :=
  op = 0x014 || (op = 0x018 && variant ≠ 0) || op = 0x083 || op = 0x086

/-- The positions of an RRR or RRI instruction. (DEDUCED: log 51) -/
def positionsR (op : Nat) (o : OpsR) : List Pos :=
  let f := formR op o.m.variant
  let w := o.m.ty.wide
  let dw := w && !([0x015, 0x068, 0x104, 0x105].contains op)
  let dest := if isScalar op then listedDest (if op = 0x068 then { sOnly with p := true } else sOnly) dw o.d
    else if readsDest op o.m.variant then readDest dw o.d else destPos vectorDest dw o.d
  let d := if f.dest then [dest] else []
  let srcA := if isScalar op then scalarSource else anySource true
  let one := fun (used : Bool) a pair s => if used then srcPos a pair s else []
  if op = 0x108 then
    let kd := o.a = .reg (.port .kd) (.rot 0)
    let ones : Bool := match o.b with
      | .reg (.con .ones) _ => true
      | _ => false
    one true (if kd then sOnly else { scalarSource with k := ones }) kd o.b
  else if op = 0x109 ∨ op = 0x10A then d
  else if op = 0x10B then match o.b with
    | .imm _ => []
    | b => srcPos uniform false b ++ srcPos uniform false o.c
  else if op = 0x102 then
    d ++ one true srcA w o.a ++ one true srcA false o.b ++
      (match o.c with
        | .reg r .. => (predPos r).map fun x => { x with permuted := o.c ≠ .reg r (.rot 0) }
        | .idx k c => regPos (predOnly (.v 0)) false (.idx k c)
        | .imm _ => [])
  else
    let aw := (w && op ≠ 0x081) || (op = 0x082 && 6 ≤ o.m.variant)
    let bw := w && !([0x100, 0x103, 0x107].contains op)
    d ++ one (1 ≤ f.n) srcA aw o.a ++ one (2 ≤ f.n) srcA bw o.b ++
      one (3 ≤ f.n) srcA (w && op ≠ 0x016 && op ≠ 0x06B) o.c

/-- The positions of a control instruction (R244). -/
def positionsC (op : Nat) (o : OpsC) : List Pos :=
  match o.a with
  | .imm _ => []
  | .reg r =>
    if conditionOps.contains op then regPos conditionSource false r
    else if op = 0x0CC then
      regPos ⟨false, false, false, true, false, false, true, r ≠ .con .gang, false, false, false⟩ false r
    else if (op = 0x0C8 ∨ op = 0x0CA) ∧ o.m.variant = 1 then regPos sOnly true r
    else []

/-- The registers that the data of a scratchpad instruction names: with `.x4` four codes (R270). -/
def dataRegs (m : Mods) (r : Reg) : List Reg :=
  if m.variant = 1 then [r, regOf (r.code + 1), regOf (r.code + 2), regOf (r.code + 3)] else [r]

/-- The positions of a scratchpad instruction (R269 to R271). -/
def positionsM (op : Nat) (o : OpsM) : List Pos :=
  let w := o.m.ty.wide
  (if op = 0x140 then [listedDest (laneDest false) w o.d] else if (formM op).1 then [destPos (laneDest false) w o.d] else []) ++ regPos (anySource false) false o.roff ++
  (if (formM op).2 then (if op = 0x141 then dataRegs o.m o.data else [o.data]).flatMap (regPos (anySource false) w)
   else [])

/-- The register of a descriptor with the positions it makes: its own or its window's offset. -/
def descPos (a : Admits) (pair : Bool) : Desc → List Pos
  | .reg _ r => regPos a pair r
  | .win _ r => regPos a pair r
  | _ => []

/-- The positions of an ENG instruction (R268, R269, R288, R289). -/
def positionsE (op : Nat) (o : OpsE) : List Pos :=
  let v := o.m.variant
  let lane := anySource false
  let w := o.m.ty.wide
  match op with
  | 0x143 => (match o.a with
    | .win _ r => regPos (zeroOnly r) false r
    | _ => []) ++ descPos uniform false o.b ++ descPos uniform false o.c
  | 0x144 =>
    (if v = 2 then regPos uniform false o.d else []) ++ descPos lane false o.a ++ descPos lane false o.b ++
      descPos lane false o.c
  | 0x145 | 0x146 =>
    (if v = 0 then [] else regPos sOnly false o.d) ++ descPos lane false o.a ++ descPos lane false o.b ++
      descPos lane false o.c
  | 0x147 => [destPos (laneDest false) w o.d] ++ descPos lane false o.b ++ descPos lane w o.c
  | 0x148 => descPos lane false o.c
  | 0x14A => match o.b with
    | .reg _ r => predPos r
    | _ => []
  | 0x14C | 0x14D => descPos uniform false o.b ++ descPos sOnly true o.c
  | 0x14E => predPos o.d ++ descPos uniform false o.b ++ descPos uniform false o.c
  | 0x14F => descPos lane false o.a ++ descPos lane w o.b
  | 0x150 => descPos lane false o.a ++ descPos lane false o.b ++ descPos lane w o.c
  | 0x182 => descPos uniform false o.b ++ (if o.c = Desc.zero then [] else descPos sOnly false o.c)
  | 0x184 => descPos uniform false o.a
  | 0x185 => regPos uniform false o.d ++ descPos uniform false o.c
  | 0x186 => regPos sOnly false o.d ++ descPos sOnly true o.c
  | 0x187 => descPos uniform false o.a ++ descPos uniform false o.b ++ descPos sOnly true o.c
  | 0x188 => [listedDest sOnly false o.d]
  | 0x18D => [listedDest sOnly false o.d] ++ descPos uniform false o.a
  | 0x18F => [listedDest sOnly true o.d]
  | 0x189 => descPos uniform false o.a
  | 0x18A => descPos uniform false o.b ++ descPos uniform false o.c
  | 0x18B => descPos voOnly true o.a ++ descPos voOnly false o.b
  | 0x18C => [destPos (laneDest false) false o.d] ++ descPos voOnly true o.a
  | 0x190 | 0x191 => descPos uniform false o.a
  | 0x192 | 0x193 => descPos uniform false o.b
  | _ => []

/-- The scope of a special register (R310). -/
inductive SrScope where
  | lane | quad | gang | group | die
  deriving DecidableEq, Repr

/-- Scope of a listed special register, its width and its access: user read, supervisor read, supervisor write
(R310). -/
def srInfo (n : Nat) : Option (SrScope × Bool × Bool × Bool) :=
  match n with
  | 0x000 => some (.lane, false, true, false)
  | 0x001 => some (.die, true, true, false)
  | 0x002 => some (.quad, false, true, true)
  | 0x003 => some (.quad, false, true, false)
  | 0x004 | 0x005 | 0x006 => some (.quad, false, true, true)
  | 0x007 | 0x008 | 0x009 => some (.quad, false, true, false)
  | 0x00A => some (.die, false, true, false)
  | 0x00B => some (.gang, false, false, false)
  | 0x010 => some (.quad, true, false, true)
  | 0x011 | 0x012 => some (.quad, false, false, true)
  | 0x013 | 0x014 => some (.quad, false, false, false)
  | 0x015 => some (.group, false, false, false)
  | 0x016 => some (.quad, true, false, true)
  | 0x017 => some (.quad, false, false, false)
  | 0x100 | 0x101 | 0x102 | 0x103 | 0x104 | 0x105 | 0x106 => some (.die, true, false, true)
  | _ => none

/-- The positions of a system instruction (R308). -/
def positionsS (op : Nat) (o : OpsS) : List Pos :=
  let aReg := match o.a with
    | .reg r => some r
    | .imm _ => none
  let at_ := fun a pair => match aReg with
    | some r => regPos a pair r
    | none => []
  match op with
  | 0x1C2 =>
    let info := match o.a with
      | .imm n => srInfo n
      | .reg _ => none
    match info with
    | none => [listedDest { laneDest false with s := true } false o.d]
    | some (sc, wide, _, _) =>
      [listedDest { laneDest false with s := sc ≠ .lane && sc ≠ .quad } wide o.d]
  | 0x1C3 =>
    let info := match o.a with
      | .imm n => srInfo n
      | .reg _ => none
    match info with
    | none => regPos { uniform with v := true, o := true } false o.b
    | some (sc, wide, _, _) => regPos (if sc = .lane then voOnly else uniform) wide o.b
  | 0x1C4 => [listedDest voOnly true o.d] ++ at_ { voOnly with lq := aReg = some (.con .lane) } false
  | 0x1C6 => [listedDest (laneDest false) false o.d] ++ at_ { voOnly with lq := aReg = some (.con .lane) } true ++
      regPos uniform false o.b
  | 0x1C7 => if o.m.variant = 0 then at_ uniform true else []
  | 0x1C8 | 0x1C9 => at_ uniform false ++ regPos uniform false o.b
  | _ => []

/-- The positions of an instruction in the order DEST, A, B, C (R223). -/
def positions (op : Nat) : Ops → List Pos
  | .r o => positionsR op o
  | .c o => positionsC op o
  | .m o => positionsM op o
  | .e o => positionsE op o
  | .s o => positionsS op o

/-- The further register cause of an instruction: a port or an x register that is named (R257, R263), the four
registers of `.x4` (R270), the three registers of `jmms` (R289), and the value registers of `cacc` (R289). (DEDUCED:
log 47) -/
def extraRegFault (regs : Nat) (op : Nat) : Ops → Option Nat
  | .r o =>
    let permuted : Bool := match o.a with
      | .reg _ p => p ≠ .rot 0
      | _ => false
    if op = 0x108 then match o.a with
      | .reg (.port .le) _ | .reg (.port .lw) _ => some 5
      | .reg (.port _) _ => if permuted then some 5 else none
      | _ => some 1
    else if op = 0x109 ∨ (op = 0x10A ∧ o.m.variant = 0) then match o.a with
      | .reg (.port _) _ => if permuted then some 5 else none
      | _ => some 1
    else if op = 0x10B then match o.a with
      | .reg (.x _) _ => none
      | .reg (.port _) _ => if permuted then some 5 else some 1
      | _ => some 1
    else none
  | .m o =>
    if o.m.variant = 1 then
      let r := if op = 0x140 then o.d else o.data
      if r.code % 4 ≠ 0 then some 1
      else match r with
        | .v n => if n + 4 ≤ 32 * regs then none else some 1
        | _ => none
    else none
  | .e o =>
    if op = 0x186 then match o.d with
      | .s n => if n ≤ 61 then none else some 1
      | .hs n => if n ≤ 5 then none else some 1
      | _ => none
    else if op = 0x18B then match o.b with
      | .reg _ (.v n) => if n + o.m.variant + 1 ≤ 32 * regs then none else some 2
      | .reg _ (.o n) => if n + o.m.variant + 1 ≤ 48 then none else some 1
      | .reg _ (.hv n) => if n + o.m.variant + 1 ≤ 8 then none else some 1
      | _ => none
    else none
  | _ => none

/-- How many positions come before the further cause, in the order DEST, A, B, C (R223): none before the named SRCA of
`pbind` and `xwin`, the DEST before its own further cause in `ld` and `jmms`. -/
def extraPlace (op : Nat) : Nat :=
  if op = 0x108 ∨ op = 0x10B then 0 else if op = 0x140 ∨ op = 0x186 then 1 else 8

/-- The first illegal-register reason of an instruction, in the order DEST, A, B, C (R223). -/
def regFault (k : Gang) (regs : Nat) (sup : Bool) (op : Nat) (ops : Ops) : Option Nat :=
  let own := (positions op ops).map (posFault k regs sup)
  (own.take (extraPlace op) ++ [extraRegFault regs op ops] ++ own.drop (extraPlace op)).findSome? id

/-- The first illegal-register reason that the word itself gives, by R126, R187, R214 and R215: the part of R223 that
comes before the ownership of a join instruction (R290); the values of `cacc` are register positions too. (DEDUCED: log
69) -/
def wordRegFault (regs : Nat) (sup : Bool) (op : Nat) (ops : Ops) : Option Nat :=
  ((positions op ops).findSome? fun p =>
    codeFault regs sup p <|> if p.unwritable then some p.fixed else none) <|>
  if op = 0x18B then (extraRegFault regs op ops).filter (· = 2) else none

/-! ### Reading registers -/

/-- A scalar register of the gang under its code; in a pre-emption hs names the pre-emption bank of
the quad, the lowest where several have come together (R320). (DEDUCED: log 89) -/
def Cx.scalar (c : Cx) (code : Nat) : Word :=
  if c.grp.pre && 744 ≤ code then FMap.get 0 c.k.preScal (1024 * c.qs.headD 0 + code) else FMap.get 0 c.k.scal code

/-- A lane register of the gang under its code; in a pre-emption hv names the pre-emption bank (R320). -/
def Cx.row (c : Cx) (code : Nat) : Row :=
  if c.grp.pre && 752 ≤ code then FMap.get zeroRow c.k.preLanes code else FMap.get zeroRow c.k.lanes code

/-- A g register as the gang's core holds it (R129). -/
def Cx.gReg (c : Cx) (n : Nat) : Word := FMap.get 0 (c.grp.home c.k.core).g n

/-- The value of a predicate in a lane: 0 or 1 (R126, R225). -/
def Cx.pred (c : Cx) (n l : Nat) : Word :=
  if n = 7 then 1 else if inMask (FMap.get 0 c.k.preds (712 + n)) l then 1 else 0

/-- The value of a constant in a lane (R126). -/
def constVal (gang l : Nat) : Const → Word
  | .zero => 0
  | .one => 1
  | .ones => 0xFFFFFFFF
  | .lane => BitVec.ofNat 32 l
  | .quad => BitVec.ofNat 32 (l / 4)
  | .gang => BitVec.ofNat 32 gang

/-- The main register that `v[xk+c]` names in a lane, or none outside the window (R128). (DEDUCED: log 19) -/
def Cx.indexed (c : Cx) (k off l : Nat) : Option Nat :=
  let i := (((c.row (704 + k)).lane l).toNat + off) % 4294967296
  let (base, count) := FMap.get (0, 0) c.k.xwin k
  if i < count then some (base + i) else none

/-- The first register of the pair that `v[xk+c]` names in a lane, if it names one: it is even (R126). (DEDUCED: log 132)
-/
def Cx.indexedPair (c : Cx) (k off l : Nat) : Option Nat := (c.indexed k off l).filter (· % 2 = 0)

/-- The 32-bit value of a register in lane `l`, without permutation (R225). -/
def Cx.reg (c : Cx) (r : Reg) (l : Nat) : Word :=
  match r with
  | .v _ | .o _ | .t _ | .x _ | .hv _ => (c.row r.code).lane l
  | .s _ | .hs _ => c.scalar r.code
  | .p n => c.pred n l
  | .g n => c.gReg n
  | .con k => constVal c.gi l k
  | .port q => FMap.get 0 c.pops (32 * q.number + l)
  | .idx k off => match c.indexed k off l with
    | some n => (c.row n).lane l
    | none => 0
  | .resv _ => 0

/-- The 64-bit value of a register pair in a lane, low register first; a constant, a predicate and a port give their
32 bits extended with zeros (R126). (DEDUCED: log 17) -/
def Cx.reg64 (c : Cx) (r : Reg) (l : Nat) : DWord :=
  match r with
  | .v _ | .o _ | .t _ | .x _ | .hv _ | .s _ | .hs _ | .g _ =>
    (c.reg (r.plus 1) l).setWidth 64 <<< 32 ||| (c.reg r l).setWidth 64
  | .idx k off => match c.indexedPair k off l with
    | some n => ((c.row (n + 1)).lane l).setWidth 64 <<< 32 ||| ((c.row n).lane l).setWidth 64
    | none => 0
  | r => (c.reg r l).setWidth 64

/-- The lane that a permutation reads in lane `l` (R213). -/
def permLane (p : Perm) (l : Nat) : Nat :=
  match p with
  | .rot n => (l + n) % 32
  | .bc n => n
  | .bf n => l ^^^ n
  | .mi n => (n + 32 - l) % 32

/-- An RRI immediate as a 64-bit operand: sign-extended for i64, zero-extended for n64 (R211). -/
def immVal (ty : Ty) (v : Word) : DWord := if ty = .i64 then v.signExtend 64 else v.setWidth 64

/-- The operand values of a source in the 32 lanes of the gang: a permuted read of a lane outside the sub-gang gives
zero (R123, R213, R225). (DEDUCED: log 17) -/
def Cx.src (c : Cx) (ty : Ty) (wide : Bool) : Src → List DWord
  | .imm v => laneList.map fun _ => immVal ty v
  | .idx k off => laneList.map fun l =>
      if wide then c.reg64 (.idx k off) l else (c.reg (.idx k off) l).setWidth 64
  | .reg r p => laneList.map fun l =>
      let m := if r.permutes true then permLane p l else l
      if r.permutes true && m ≠ l && !inMask c.gangLanes m then 0
      else if wide then c.reg64 r m else (c.reg r m).setWidth 64

/-- A lane's value in a list of operand values. -/
def at64 (vs : List DWord) (l : Nat) : DWord := vs.getD l 0

/-- A lane's 32-bit value in a list of operand values. -/
def at32 (vs : List DWord) (l : Nat) : Word := (at64 vs l).setWidth 32

/-- The highest lane of a mask. -/
def highest (m : Word) : Option Nat := (lanesOf m).getLast?

/-- The lowest lane of a mask. -/
def lowest (m : Word) : Option Nat := (lanesOf m).head?

/-- The lane in which a uniform operand is read: the lowest active one whose guard is true; only `lane` and `quad` differ
from lane to lane (R269). (DEDUCED: log 18) -/
def Cx.lead (c : Cx) : Nat := (lowest c.em).getD 0

/-- The value of a uniform operand: a register, or an immediate descriptor (R269). -/
def Cx.uniform (c : Cx) : Desc → Nat
  | .imm v => v
  | .reg _ r => (c.reg r c.lead).toNat
  | _ => 0

/-- A 64-bit uniform operand: an s pair, or an immediate extended with zeros (R269). -/
def Cx.uniform64 (c : Cx) : Desc → Nat
  | .imm v => v
  | .reg _ r => (c.reg64 r c.lead).toNat
  | _ => 0

/-- An A-operand as a uniform value. -/
def Cx.aVal (c : Cx) : AOpd → Nat
  | .imm v => v
  | .reg r => (c.reg r c.lead).toNat

/-! ### Writing results -/

/-- The gang of a context with lane register `code` written in the lanes of a mask. -/
def Cx.setRow (c : Cx) (code : Nat) (m : Word) (f : Nat → Word) : Cx :=
  let r := Row.put (c.row code) m f
  if c.grp.pre && 752 ≤ code then { c with k := { c.k with preLanes := FMap.set zeroRow c.k.preLanes code r } }
  else { c with k := { c.k with lanes := FMap.set zeroRow c.k.lanes code r } }

/-- A scalar register written; in a pre-emption hs names the pre-emption banks of the quads (R320). -/
def Cx.setScalar (c : Cx) (code : Nat) (v : Word) : Cx :=
  if c.grp.pre && 744 ≤ code then
    { c with k := { c.k with preScal := c.qs.foldl (fun m q => FMap.set 0 m (1024 * q + code) v) c.k.preScal } }
  else { c with k := { c.k with scal := FMap.set 0 c.k.scal code v } }

/-- A g register written on the gang's core: gangs of the core read it from then on, and it is pending for the
group, where the highest-numbered gang that wrote it prevails (R129). -/
def Cx.setG (c : Cx) (n : Nat) (v : Word) : Cx :=
  { c with grp := c.grp.onHome c.k.core fun h =>
      { h with g := FMap.set 0 h.g n v
               gPend := match h.gPend.find? n with
                 | some (gi, w) => if c.gi < gi then h.gPend.insert n (gi, w) else h.gPend.insert n (c.gi, v)
                 | none => h.gPend.insert n (c.gi, v) } }

/-- A predicate written in the lanes of a mask. -/
def Cx.setPred (c : Cx) (n : Nat) (m : Word) (f : Nat → Bool) : Cx :=
  let old : Word := FMap.get 0 c.k.preds (712 + n)
  let new := (old &&& ~~~m) ||| (maskOf f &&& m)
  { c with k := { c.k with preds := FMap.set 0 c.k.preds (712 + n) new } }

/-- A destination register written with 32-bit values in the lanes of a mask; helper lanes write their own
registers but not g; a port is written elsewhere (R125, R129, R225). -/
def Cx.setReg (c : Cx) (r : Reg) (m : Word) (f : Nat → Word) : Cx :=
  match r with
  | .v _ | .o _ | .t _ | .x _ | .hv _ => c.setRow r.code m f
  | .s _ | .hs _ => match highest m with
    | some l => c.setScalar r.code (f l)
    | none => c
  | .p n => c.setPred n m fun l => f l ≠ 0
  | .g n => match highest (m &&& ~~~c.helpers) with
    | some l => c.setG n (f l)
    | none => c
  | .idx k off => (lanesOf m).foldl (fun c l => match c.indexed k off l with
      | some n => c.setRow n (BitVec.ofNat 32 (2 ^ l)) f
      | none => c) c
  | .con _ | .port _ | .resv _ => c

/-- One shift of the last-result file in every lane of the sub-gang's quads, where t0 takes the value given (R127). -/
def Cx.shiftOne (c : Cx) (value : Nat → Word) : Cx :=
  let m := c.gangLanes
  let c := { c with k := { c.k with shifts := c.qs.foldl (fun n q => FMap.set 0 n q (FMap.get 0 n q + 1)) c.k.shifts } }
  let c := (List.range 15).foldl (fun (c : Cx) j =>
    let i := 15 - j
    c.setRow (624 + i) m fun l => (c.row (624 + i - 1)).lane l) c
  c.setRow 624 m value

/-- Whether results shift the last-result file: not under `%nh` and not in supervisor state (R127, R187). -/
def Cx.shifts (c : Cx) : Bool := !c.nh && !c.sup

/-- The open value that an inactive or helper lane gives the last-result file where its index lies outside the window:
one for each instruction, lane and index. (DESIGN CHOICE: log 20) -/
def Cx.openResult (c : Cx) (k off l half : Nat) : Word :=
  let i := (((c.row (704 + k)).lane l).toNat + off) % 4294967296
  Config.freeWord (((c.pc * 4294967296 + i) * 32 + l) * 2 + half)

/-- The value of a destination in a lane for the last-result file; a g register, like s, gives every lane the value
that it then holds (R127). (DESIGN CHOICE: log 20, 146) -/
def Cx.lastResult (c : Cx) (r : Reg) (l : Nat) : Word :=
  match r with
  | .idx k off => match c.indexed k off l with
    | some n => (c.row n).lane l
    | none => c.openResult k off l 0
  | r => c.reg r l

/-- A 32-bit result written and entered in the last-result file (R127). -/
def Cx.result (c : Cx) (r : Reg) (m : Word) (f : Nat → Word) : Cx :=
  let c' := c.setReg r m f
  match r with
  | .port _ => c'
  | _ => if c.shifts then c'.shiftOne (c'.lastResult r) else c'

/-- Both halves of an indexed pair written in the lanes of a mask where the index names one (R126). -/
def Cx.setIndexedPair (c : Cx) (k off : Nat) (m : Word) (lo hi : Nat → Word) : Cx :=
  (lanesOf m).foldl (fun c l => match c.indexedPair k off l with
    | some n => (c.setRow n (BitVec.ofNat 32 (2 ^ l)) lo).setRow (n + 1) (BitVec.ofNat 32 (2 ^ l)) hi
    | none => c) c

/-- The half of an indexed pair in a lane for the last-result file. (DESIGN CHOICE: log 20) -/
def Cx.lastHalf (c : Cx) (k off half l : Nat) : Word :=
  match c.indexedPair k off l with
  | some n => (c.row (n + half)).lane l
  | none => c.openResult k off l half

/-- A 64-bit result written to a pair: two shifts, t1 the low half and t0 the high half (R127). (DESIGN CHOICE: log
20) -/
def Cx.result64 (c : Cx) (r : Reg) (m : Word) (f : Nat → DWord) : Cx :=
  let lo := fun l => (f l).setWidth 32
  let hi := fun l => ((f l) >>> 32).setWidth 32
  match r with
  | .p n => c.result (.p n) m fun l => if f l = 0 then 0 else 1
  | .port _ => c.setReg r m lo
  | .idx k off =>
    let c' := c.setIndexedPair k off m lo hi
    if c.shifts then (c'.shiftOne (c'.lastHalf k off 0)).shiftOne (c'.lastHalf k off 1) else c'
  | r =>
    let c' := (c.setReg r m lo).setReg (r.plus 1) m hi
    if c.shifts then (c'.shiftOne (c'.reg r)).shiftOne (c'.reg (r.plus 1)) else c'

/-- A result of either width. -/
def Cx.resultTy (c : Cx) (wide : Bool) (r : Reg) (m : Word) (f : Nat → DWord) : Cx :=
  if wide then c.result64 r m f else c.result r m fun l => (f l).setWidth 32

/-! ### Results that land later -/

/-- The last-result file shifted at the issue of an instruction whose result lands later: t0 (and t1) hold the old value
of the destination until it does (R127, R276, R291). (DEDUCED: log 131) -/
def Cx.shiftAhead (c : Cx) (wide : Bool) (r : Reg) : Cx := c.resultTy wide r 0 fun _ => 0

/-- The quads of the sub-gang with their numbers of shifts, where a result shifts at all. -/
def Cx.marks (c : Cx) : FMap Nat := if c.shifts then c.qs.map fun q => (q, FMap.get 0 c.k.shifts q) else []

/-- The code of the last-result register of quad `q` that holds a result shifted in at a mark, its high half first; none
once it has left the file (R127). -/
def Gang.lastCode (k : Gang) (q mark half : Nat) : Option Nat :=
  let i := FMap.get 0 k.shifts q - mark + half
  if i < 16 then some (624 + i) else none

/-- The halves of a result in the order of the last-result file, t0 first. -/
def halves (wide : Bool) : List Nat := if wide then [0, 1] else [0]

/-- The codes of the last-result file that hold, in quads of a gang, a result that has still to land (R130). (DEDUCED:
log 131) -/
def Gang.openLast (k : Gang) (qs : List Nat) (wide : Bool) (marks : FMap Nat) : List Nat :=
  (marks.filter fun e => qs.contains e.1).flatMap fun e => (halves wide).filterMap (k.lastCode e.1 e.2)

/-- A result entered in the last-result file where its instruction shifted it, in the lanes of a mask (R127). (DEDUCED:
log 131) -/
def Cx.landLast (c : Cx) (wide : Bool) (marks : FMap Nat) (m : Word) (f : Nat → DWord) : Cx :=
  marks.foldl (fun (c : Cx) e => (halves wide).foldl (fun (c : Cx) half =>
    match c.k.lastCode e.1 e.2 half with
    | some code => c.setRow code (m &&& spread 0xF e.1) fun l =>
        (f l >>> (if wide && half = 0 then 32 else 0)).setWidth 32
    | none => c) c) c

/-- A result that lands: written to its destination in the lanes of a mask, and entered in the last-result file there, a
scalar in every lane of the quads that issued it (R127, R276, R291). -/
def Cx.land (c : Cx) (wide : Bool) (r : Reg) (marks : FMap Nat) (m : Word) (f : Nat → DWord) : Cx :=
  let all : Word := match r with
    | .s _ | .hs _ => 0xFFFFFFFF
    | _ => m
  ({ c with nh := true }.resultTy wide r m f).landLast wide marks all f

/-! ### Ports -/

/-- A receive queue of a lane, oldest first. -/
def Gang.port (k : Gang) (j l : Nat) : List Word := FMap.get [] k.queues (32 * j + l)

/-- The gang with a receive queue replaced. -/
def Gang.setPort (k : Gang) (j l : Nat) (q : List Word) : Gang :=
  { k with queues := FMap.set [] k.queues (32 * j + l) q }

/-- Where a push through a port by lane `l` goes: the gang, its queue, its lane (R135). -/
def pushTarget (k : Gang) (gi : Nat) (p : Port) (l : Nat) : Option (Nat × Nat × Nat) :=
  match p with
  | .le => some (gi, 1, (l + 1) % 32)
  | .lw => some (gi, 0, (l + 31) % 32)
  | .kn => (k.binds.find? 0).map fun g => (g, 4, l)
  | .ke => (k.binds.find? 1).map fun g => (g, 5, l)
  | .ks => (k.binds.find? 2).map fun g => (g, 2, l)
  | .kw => (k.binds.find? 3).map fun g => (g, 3, l)
  | .kd => none

/-- A gang of the issuing group, the issuing one as it stands in the instruction. -/
def Cx.gangOf (c : Cx) (g : Nat) : Gang := if g = c.gi then c.k else c.grp.gang g

/-- Whether every popping lane's own queue holds an entry (R137). -/
def canPop (c : Cx) (p : Port) (m : Word) : Bool := (lanesOf m).all fun l => !(c.k.port p.own l).isEmpty

/-- Free entries of the target of a push; for `kd` the free count (R37, R265). -/
def freeEntries (c : Cx) (p : Port) (l : Nat) : Nat :=
  match p with
  | .kd => if c.k.kdImport.isSome then FMap.get 4 c.k.kdFree l else 0
  | p => match pushTarget c.k c.gi p l with
    | some (g, j, t) => 4 - ((c.gangOf g).port j t).length
    | none => 0

/-- Whether every pushing lane's target has room (R137). (DEDUCED: log 22) -/
def canPush (c : Cx) (p : Port) (m : Word) : Bool := (lanesOf m).all fun l => 1 ≤ freeEntries c p l

/-- The `kd` return cell of one entry taken from lane `l`'s queue, sent to the gang that pushed it (R37). -/
def kdReturnCell (s : State) (dn : Nat) (rcv : Nat × Nat × Nat) (l : Nat) : State :=
  sendCell s dn (mkCell dn rcv.1 2 0x21 0 noPayload (.kdReturn rcv.2.1 rcv.2.2 (BitVec.ofNat 32 (2 ^ l))))

/-- The oldest entry taken from queue `j` of lane `l`; an entry of the `kd` queue sends a return cell (R37). -/
def Cx.takeEntry (c : Cx) (j l : Nat) : Cx :=
  let c := { c with k := c.k.setPort j l (c.k.port j l).tail }
  if j = 6 then
    match FMap.get [] c.k.kdFrom l with
    | rcv :: r => { c with k := { c.k with kdFrom := FMap.set [] c.k.kdFrom l r }, s := kdReturnCell c.s c.dn rcv l }
    | [] => c
  else c

/-- The context with the lanes of `m` having read the oldest entry of a port, which stays (R137). -/
def Cx.peekPort (c : Cx) (m : Word) (p : Port) : Cx :=
  (lanesOf m).foldl (fun (c : Cx) l =>
    match c.k.port p.own l with
    | v :: _ => { c with pops := FMap.set 0 c.pops (32 * p.number + l) v }
    | [] => c) c

/-- The context with the lanes of `m` having popped a port once. -/
def Cx.popPort (c : Cx) (m : Word) (p : Port) : Cx := (lanesOf m).foldl (fun c l => c.takeEntry p.own l) c

/-- One value pushed into a core port or a lane neighbour. -/
def Cx.pushOne (c : Cx) (p : Port) (l : Nat) (v : Word) : Cx :=
  match pushTarget c.k c.gi p l with
  | none => c
  | some (g, j, t) =>
    if g = c.gi then { c with k := c.k.setPort j t (c.k.port j t ++ [v]) }
    else { c with grp := c.grp.onGang g fun k => k.setPort j t (k.port j t ++ [v]) }

/-- The values of the lanes of `m` pushed through a core port or a lane neighbour, in lane order. -/
def Cx.pushPort (c : Cx) (p : Port) (m : Word) (f : Nat → Word) : Cx :=
  (lanesOf m).foldl (fun c l => c.pushOne p l (f l)) c

/-- The distinct ports among registers. -/
def portsAmong (rs : List Reg) : List Port :=
  rs.foldl (fun ps r => match r with
    | .port p => if ps.contains p then ps else ps ++ [p]
    | _ => ps) []

/-- Lane-scope index-bound faults of `v[xk+c]` operands: every executing lane whose index lies outside the window
parks, but for helper lanes (R125, R128). (DEDUCED: log 21) -/
def Cx.indexFaults (c : Cx) (ops : List (Nat × Nat)) : Cx :=
  (lanesOf c.solid).foldl (fun (c : Cx) l =>
    match ops.find? fun o => (c.indexed o.1 o.2 l).isNone with
    | some (k, off) =>
      let x := (c.row (704 + k)).lane l
      c.park l (c.record l 4 0 ((x.toNat + off) % 4294967296) k x)
    | none => c) c

end Sys2Proof.Machine
end

