-- ==== Sys2Proof/Machine/Flags.lean ====
section
/-!
DEFINITION. The flags: the bits of VFLAGS and CFLAGS (R150), the flags an operation raises together with its
result, and how a quad and a sub-gang take them (R150, R228, R236, R256).
-/
namespace Sys2Proof.Machine

/-- Bits of R150. -/
def flagX : BitVec 6 := 1
def flagU : BitVec 6 := 2
def flagO : BitVec 6 := 4
def flagZ : BitVec 6 := 8
def flagI : BitVec 6 := 16
def flagE : BitVec 6 := 32

/-- A flag if a condition holds. -/
def flagIf (b : Bool) (f : BitVec 6) : BitVec 6 := if b then f else 0

/-- A lane's result with the flags it raises. -/
abbrev Flagged := DWord × BitVec 6

/-- A result that raises nothing. -/
def plain (v : DWord) : Flagged := (v, 0)

/-- The context with the flags of the executing lanes raised in their quads; helper lanes raise none (R150). -/
def Cx.raise (c : Cx) (m : Word) (f : Nat → BitVec 6) : Cx :=
  let m := m &&& ~~~c.helpers
  { c with k := c.qs.foldl (fun k q =>
      k.onQuad q fun u =>
        { u with vflags := (lanesOf (m &&& spread 0xF q)).foldl (fun v l => v ||| f l) u.vflags }) c.k }

/-- The context with flags raised in every quad of the sub-gang (R236, R256). -/
def Cx.raiseAll (c : Cx) (v : BitVec 6) : Cx :=
  { c with k := c.qs.foldl (fun k q => k.onQuad q fun u => { u with vflags := u.vflags ||| v }) c.k }

/-- An exact integer brought to a type: wrapped, or under `.sat` clamped with O raised when it clamps (R148, R229). -/
def finishInt (t : Ty) (sat : Bool) (n : Int) : Flagged :=
  if sat then
    if n < t.least then (t.wrap t.least, flagO)
    else if t.greatest < n then (t.wrap t.greatest, flagO)
    else plain (t.wrap n)
  else plain (t.wrap n)

end Sys2Proof.Machine
end

