-- ==== Sys2Proof/Machine/Kd.lean ====
section
/-!
DEFINITION. The `kd` port (R37, R38, R139, R263, R264): which die a core faces, the port descriptor read at the
first push after a binding, and the two cells of a push.
-/
namespace Sys2Proof.Machine

/-- Whether a core of die `dn` faces die `next`: a core at column 0 the previous die, one at the last column the
next (R139). -/
def faces (dn core next : Nat) : Bool :=
  (core % Config.meshW dn = 0 && next = (dn + 7) % 8) ||
  (core % Config.meshW dn = Config.meshW dn - 1 && next = (dn + 1) % 8)

/-- Whether a core of die `dn` faces another die at all (R139). -/
def edgeCore (dn core : Nat) : Bool :=
  core % Config.meshW dn = 0 || core % Config.meshW dn = Config.meshW dn - 1

/-- The die core that a gang stands on. -/
def Cx.coreOf (c : Cx) : Nat := c.grp.cores.getD c.k.core 0

/-- The port descriptor of its 16 bytes (R264). -/
def kdDescOf (bs : List Byte) : KdDesc :=
  ⟨leNat (bs.take 8), leNat ((bs.drop 8).take 4), leNat ((bs.drop 12).take 2)⟩

/-- The descriptor of the gang's binding: held, or read from the exporter at the first push, which waits while a link of
the way retrains; every push meets the checks of R39 and the port right, and an import that names another module by then
is no valid one (R36, R264). (DEDUCED: log 64) -/
def kdDescriptor (c : Cx) : Except Cause KdDesc × Cx :=
  match c.k.kdImport with
  | none => (.error importInvalid, c)
  | some i =>
    match importHandle c.s c.dn i with
    | (.error (e, _), s) => (.error e, { c with s := s })
    | (.ok h, s) =>
      if handleMod h ≠ 0xFFFF then (.error importInvalid, { c with s := s })
      else match wayFault s c.dn h with
      | some e => (.error e, { c with s := s })
      | none => match exporterCheck (s.die (handleDie h)) h 0 16 .port, c.k.kdDesc with
        | .error e, _ => (.error e, { c with s := s })
        | .ok _, some d => (.ok d, { c with s := s })
        | .ok va, none => match mappedRead (s.meet (wayRetrains s c.dn h)) (handleDie h) (span va 16) with
          | (.error (e, _), s) => (.error (replyCause e), { c with s := s })
          | (.ok bs, s) =>
            let d := kdDescOf bs
            (.ok d, { c with s := s, k := { c.k with kdDesc := some d } })

/-- The words of 16 lanes as payload bytes (R37). -/
def halfPayload (half : Nat) (f : Nat → Word) : List Byte :=
  (List.range 16).flatMap fun i => leBytes 4 (f (16 * half + i)).toNat

/-- The lanes of a mask that push through `kd` park with a protection fault where the descriptor or the exporter's check
fails (R37, R264). (DEDUCED: log 64) -/
def Cx.parkKd (c : Cx) (m : Word) : Cx :=
  if m = 0 then c
  else match kdDescriptor c with
    | (.error e, c) =>
      (lanesOf m).foldl (fun (c : Cx) l =>
        c.park l (c.record l e.1 e.2 (peerBase + (c.k.kdImport.getD 0) * 2 ^ 38) noLoc 0)) c
    | (.ok _, c) => c

/-- The lanes of a mask push through `kd`: each lane's free count falls by one and two cells leave, for lanes 0 to
15 and 16 to 31 (R37, R264). (DEDUCED: log 64) -/
def pushKd (c : Cx) (m : Word) (f : Nat → Word) : Cx :=
  if m = 0 then c
  else match c.k.kdDesc with
  | none => c
  | some d =>
    let h := match importHandle c.s c.dn (c.k.kdImport.getD 0) with
      | (.ok h, _) => h
      | (.error _, _) => 0
    let k := (lanesOf m).foldl (fun (k : Gang) l =>
      { k with kdFree := FMap.set 4 k.kdFree l (FMap.get 4 k.kdFree l - 1) }) c.k
    let cell := fun half =>
      mkCell c.dn (handleDie h) 2 0x20 0 (halfPayload half f)
        (.kdPush d half m ((List.range 16).map fun i => f (16 * half + i)) c.gid c.gi)
    let s := sendCell (sendCell c.s c.dn (cell 0)) c.dn (cell 1)
    { c with k := k, s := s }

/-! ### Cells that arrive -/

/-- The state with a buffer of a pool of a link direction freed (R33). -/
def freePool (s : State) (src dst pool : Nat) : State :=
  s.onLink src dst fun l => { l with freed := FMap.set 0 l.freed pool (FMap.get 0 l.freed pool + 1) }

/-- Whether a group takes `kd` cells: it is resident and not pre-empted (R38). -/
def Group.takesKd (g : Group) : Bool := g.runs && !g.pre

/-- The gang that a port descriptor names, if its group is resident: group and gang (R38, R264). -/
def kdReceiver (d : Die) (x : KdDesc) : Option (Nat × Nat) :=
  d.groups.findSome? fun e =>
    let base := match d.launches.find? e.2.launch with
      | some l => l.base
      | none => 0
    if e.2.takesKd && base = x.nbase && e.2.node = x.node && x.rgang < e.2.gangs.length then some (e.1, x.rgang) else none

/-- Word `l` of the two halves of a push (R37). -/
def halfWord (a b : List Word) (l : Nat) : Word := if l < 16 then a.getD l 0 else b.getD (l - 16) 0

/-- The `kd` queue is receive queue 6 (R322). -/
def kdQueue : Nat := 6

/-- A push entered into the `kd` queues of the receiving lanes (R37). -/
def Gang.takePush (k : Gang) (w v : KdWaiting) : Gang :=
  (lanesOf w.lanes).foldl (fun (k : Gang) l =>
    let q := 32 * kdQueue + l
    { k with queues := FMap.set [] k.queues q (FMap.get [] k.queues q ++ [halfWord w.words v.words l])
             kdFrom := FMap.set [] k.kdFrom l (FMap.get [] k.kdFrom l ++ [(w.fromDie, w.gid, w.gang)]) }) k

/-- Free entries counted back for the lanes of a return (R37). -/
def Gang.takeReturn (k : Gang) (m : Word) : Gang :=
  (lanesOf m).foldl (fun (k : Gang) l =>
    { k with kdFree := FMap.set 4 k.kdFree l (min 4 (FMap.get 4 k.kdFree l + 1)) }) k

/-- Whether two waiting cells are halves of one push. -/
def KdWaiting.pairs (w v : KdWaiting) : Bool :=
  w.half = 0 && v.half = 1 && w.desc = v.desc && w.fromDie = v.fromDie && w.gid = v.gid && w.gang = v.gang

/-- A waiting cell taken, if its gang can take it now; a return to a group that has ended is dropped (R37, R38).
(DEDUCED: log 67) -/
def deliverOne (s : State) (dn : Nat) (w : KdWaiting) : Option State :=
  let d := s.die dn
  let drop := fun (s : State) (v : KdWaiting) =>
    freePool (s.onDie dn fun d => { d with kdWaiting := d.kdWaiting.erase v }) v.fromDie dn 2
  if w.half = 2 then
    match d.group w.gid with
    | none => some (drop s w)
    | some g => if g.takesKd then some ((drop s w).onGang dn w.gid w.gang fun k => k.takeReturn w.lanes) else none
  else if w.half = 0 then
    match d.kdWaiting.find? (KdWaiting.pairs w), kdReceiver d w.desc with
    | some v, some (gid, gi) => some ((drop (drop s w) v).onGang dn gid gi fun k => k.takePush w v)
    | _, _ => none
  else none

/-- The `kd` cells that wait on a die taken by the gangs that can take them, in order of arrival (R38). -/
def deliverKd (dn : Nat) : (fuel : Nat) → State → State
  | 0, s => s
  | fuel + 1, s => match (s.die dn).kdWaiting.findSome? (deliverOne s dn) with
    | some t => deliverKd dn fuel t
    | none => s

/-- All that can be taken now. -/
def deliverAll (s : State) (dn : Nat) : State := deliverKd dn ((s.die dn).kdWaiting.length) s

end Sys2Proof.Machine
end

