-- ==== Sys2Proof/Machine/Issue.lean ====
section
/-!
DEFINITION. The issue of an instruction by the sub-gang `cur`: which sub-gangs are held back (R119), convergence
(R184), the checks of R223 that come after decoding, the interlocks (R130, R276, R291), and the shape that lane
instructions share: pops and pushes together or not at all (R137), index-bound faults, the results of the
executing lanes, their flags and the last-result file.
-/
namespace Sys2Proof.Machine

/-- Whether a quad waits at an instruction that it has issued. The arrivals of the interrupted program do not hold
a pre-emption handler (R191). -/
def Quad.blocked (pre : Bool) (u : Quad) : Bool :=
  u.stopped || u.atGsave || (!pre && (u.barArrived || u.gsyncArrived)) || u.atRegang || u.atMacq

/-- Whether the counts of a `wait` or a `yield` hold: C ≤ n and A ≤ m (R133). -/
def Gang.countsHold (k : Gang) (v : Nat × Nat) : Bool := k.c ≤ v.1 && k.a ≤ v.2

/-- Whether an element of a lane of quad `q` is held after a page-not-present fault for which the quad has not yet
vectored (R189). -/
def quadHeld (d : Die) (gid gi q : Nat) : Bool :=
  d.cmds.any fun c => c.2.gid = gid && c.2.gang = gi && c.2.elems.any fun e =>
    e.2.lane / 4 = q && (match e.2.state with
      | .held _ seen => !seen
      | _ => false)

/-- Whether the sub-gang of a context is held back (R119, R189). -/
def Cx.blocked (c : Cx) : Bool :=
  !c.grp.runs || c.qs.any fun q =>
    (c.k.quad q).blocked c.grp.pre ||
    (!c.sup && ((c.k.quad q).ywait.isSome || ((c.k.quad q).poolWait && (c.s.die c.dn).ftready = 0) ||
      quadHeld (c.s.die c.dn) c.gid c.gi q))

/-- The opcodes at which a quad with parked lanes vectors (R184). -/
def convergenceOps : List Nat := [0x0C2, 0x0C6, 0x0C7, 0x0D0, 0x0CD]

/-- The register codes that an instruction reads or writes, its guard included. -/
def touched (op : Nat) (ops : Ops) (h : Head) : List Nat :=
  let ps := (positions op ops).flatMap fun p =>
    match p.reg with
    | .idx k _ => [704 + k]
    | r => r.code :: (if p.pair then [r.code + 1] else [])
  let extra : List Nat := match ops with
    | .m o => if o.m.variant = 1 then
        (let r := if op = 0x140 then o.d.code else o.data.code
         [r + 1, r + 2, r + 3]) else []
    | .e o =>
      if op = 0x186 then [o.d.code + 1, o.d.code + 2]
      else if op = 0x18B then match o.b with
        | .reg _ r => (span r.code (o.m.variant + 1))
        | _ => []
      else []
    | _ => []
  ps ++ extra ++ (if h.pred < 7 then [712 + h.pred] else [])

/-- Whether an instruction has an indexed operand. -/
def usesIndex (op : Nat) (ops : Ops) : Bool := (positions op ops).any fun p =>
  match p.reg with
  | .idx _ _ => true
  | _ => false

/-- Whether the destination of a queued instruction is a pair (R301). -/
def JoinOp.wide : JoinOp → Bool
  | .cstat _ => true
  | _ => false

/-- The register codes that commands and queued join instructions of the gang have still to land in, those of the
last-result file too (R276, R281, R284, R291). (DEDUCED: log 131) -/
def pendingDests (c : Cx) : List Nat :=
  let d := c.s.die c.dn
  let cmds := d.cmds.flatMap fun e =>
    if e.2.gid = c.gid && e.2.gang = c.gi then
      match e.2.dest with
      | some r => r :: (if e.2.wide then [r + 1] else []) ++ c.k.openLast c.qs e.2.wide e.2.marks
      | none => []
    else []
  let co := d.core (c.grp.cores.getD c.k.core 0)
  let jq := if co.owner = some (c.gid, c.gi) then co.queue.flatMap fun e =>
      match e.dest with
      | some r => r :: (if e.op.wide then [r + 1] else []) ++ c.k.openLast c.qs e.op.wide e.marks
      | none => []
    else []
  cmds ++ jq

/-- The quads in which an executing lane, a helper lane too, names an odd register as the first of a pair through an
index: an illegal register, as where a code names it (R125, R126, R223). (DEDUCED: log 132) -/
def Cx.oddQuads (c : Cx) (op : Nat) (ops : Ops) : List Nat :=
  let odd : Pos → Nat → Bool := fun p l => match p.reg with
    | .idx k off => p.pair && (match c.indexed k off l with
      | some n => n % 2 = 1
      | none => false)
    | _ => false
  c.qs.filter fun q => (lanesOf (c.em &&& spread 0xF q)).any fun l => (positions op ops).any fun p => odd p l

/-- The quads of a list take an illegal-register trap with reason 4; the others of the sub-gang stay at the instruction.
-/
def Cx.trapOdd (c : Cx) (qs : List Nat) : Cx :=
  { c with out := c.qs.map fun q => (q, if qs.contains q then .trap clsRegister 4 0 else .hold) }

/-- Whether the instruction waits for a register (R130). (DEDUCED: log 118) -/
def interlocked (c : Cx) (op : Nat) (ops : Ops) (h : Head) : Bool :=
  let p := pendingDests c
  if p.isEmpty then false
  else (touched op ops h).any p.contains || (usesIndex op ops && p.any (· < 576))

/-- The quads with parked lanes vector (R184); the others are left to execute the instruction. -/
def converge (c : Cx) : Cx :=
  if c.sup then c
  else c.qs.foldl (fun c q =>
    if (c.k.quad q).park ≠ 0 then
      let (s, k) := vectorParked c.s c.dn c.k q
      { c with s := s, k := k, qs := c.qs.filter (· ≠ q)
               act := c.act &&& ~~~spread 0xF q, em := c.em &&& ~~~spread 0xF q }
    else c) c

/-- The sub-gang leaves a wait for first-touch frames (R189). -/
def Cx.enter (c : Cx) : Cx :=
  if c.sup then c
  else { c with k := c.qs.foldl (fun k q => k.onQuad q fun u => { u with poolWait := false }) c.k }

/-! ### Faults found after issue -/

/-- The faults of commands of one class that a condition "count ≤ n" requires complete (R185): every command but the
last n issued. -/
def dueFaults (late : List LateFault) (issued n : Nat) : List LateFault := late.filter fun f => f.ord + n < issued

/-- The gang with a late fault taken: its lane parks, unless it has ended; in supervisor state the fault is beyond
recovery, its record written all the same (R181, R185, R187). (DEDUCED: log 35, 36) -/
def Gang.takeOne (sup : Bool) (k : Gang) (f : LateFault) : Gang :=
  let u := k.quad (f.lane / 4)
  if u.ended.getLsbD (f.lane % 4) || u.exited then k
  else if sup && u.sup then (k.putRecord f.lane f.record).loseAt f.record.cls f.issue
  else k.parkLane f.lane f.issue f.record

/-- What a condition c ≤ n, a ≤ m lets a gang see complete (R80). -/
def Gang.seesDone (k : Gang) (v : Nat × Nat) (u : Unseen) : Bool :=
  (u.cls = 0 && u.ord + v.1 < k.issuedC) || (u.cls = 1 && u.ord + v.2 < k.issuedA)

/-- The gang with the faults taken that a condition c ≤ n, a ≤ m requires, and with what it sees complete then (R80,
R185). (DEDUCED: log 36) -/
def Gang.takeLate (k : Gang) (sup : Bool) (v : Nat × Nat) : Gang :=
  let due := dueFaults k.lateC k.issuedC v.1 ++ dueFaults k.lateA k.issuedA v.2
  let k := { k with lateC := k.lateC.filter fun f => !(f.ord + v.1 < k.issuedC)
                    lateA := k.lateA.filter fun f => !(f.ord + v.2 < k.issuedA)
                    know := k.know.see k.issued (k.seesDone v) }
  due.foldl (Gang.takeOne sup) k

/-- The quads whose `yield` condition has come to hold leave it, and the faults that it requires are taken (R185,
R252). A quad in supervisor state looks again when it returns. (DEDUCED: log 53) -/
def Gang.wake (k : Gang) : Gang :=
  k.liveQuads.foldl (fun (k : Gang) q =>
    match (k.quad q).ywait with
    | some v =>
      if !(k.quad q).sup && k.countsHold v then (k.onQuad q fun u => { u with ywait := none }).takeLate false v
      else k
    | none => k) k

/-- The register cause of an instruction (R223). -/
def Cx.regCause (c : Cx) (op : Nat) (ops : Ops) : Option Cause :=
  (regFault c.k c.grp.regs c.sup op ops).map fun r => (clsRegister, r)

/-- The issue of an instruction whose effect on the sub-gang is `body`, with the checks that come after decoding and
privilege in their order, each cause with its VALUE (R181, R223, R290); `none` of the body is a stall, which leaves
everything as it is. (DESIGN CHOICE: log 8; DEDUCED: log 118) -/
def issueChecked (op : Nat) (ops : Ops) (h : Head) (s : State) (checks : Cx → Option (Cause × Word))
    (body : Cx → Option Cx) : Host.Outcome State Fault Refusal :=
  match s.cur with
  | none => .next s
  | some sg => match openCx s sg op h with
    | none => .next s
    | some c =>
      if c.blocked then .next s
      else
        let c := c.enter
        let c := if convergenceOps.contains op then converge c else c
        if c.qs.isEmpty then .next c.close
        else if privileged op && !c.sup then trapAll c (clsIllegal, 5) 0
        else match checks c with
          | some (cause, value) => trapAll c cause value
          | none =>
            if interlocked c op ops h then .next s
            else if !(c.oddQuads op ops).isEmpty then complete (c.trapOdd (c.oddQuads op ops))
            else match body c with
              | none => .next s
              | some c => complete c

/-- The issue of an instruction whose only such check is that of its registers. -/
def issueWith (op : Nat) (ops : Ops) (h : Head) (s : State) (body : Cx → Option Cx) :
    Host.Outcome State Fault Refusal :=
  issueChecked op ops h s (fun c => (c.regCause op ops).map (·, 0)) body

/-! ### Lane instructions -/

/-- The registers that the positions of an instruction read. -/
def sourceRegs (op : Nat) (ops : Ops) : List Reg :=
  (positions op ops).filterMap fun p => if p.dst then none else some p.reg

/-- The indexed operands of an instruction, destination first. -/
def indexOperands (op : Nat) (ops : Ops) : List (Nat × Nat) :=
  (positions op ops).filterMap fun p =>
    match p.reg with
    | .idx k c => some (k, c)
    | _ => none

/-- The port that a destination pushes. -/
def destPort : Reg → Option Port
  | .port p => some p
  | _ => none

/-- The lanes that execute, pop and push: not those that park at an index window. -/
def Cx.runs (c : Cx) : Word := c.em &&& ~~~c.parked

/-- Index-bound faults taken and the source ports read without being popped; `none` where a pop must wait (R128, R137).
(DEDUCED: log 22, 63) -/
def Cx.peekPorts (c : Cx) (op : Nat) (ops : Ops) : Option Cx :=
  let c := c.indexFaults (indexOperands op ops)
  let m := c.solid &&& ~~~c.parked
  let ports := portsAmong (sourceRegs op ops)
  if ports.all fun p => canPop c p m then some (ports.foldl (Cx.peekPort · m) c) else none

/-- The source ports popped in the lanes that do not park (R137, R183). (DEDUCED: log 63) -/
def Cx.popPeeked (c : Cx) (op : Nat) (ops : Ops) : Cx :=
  (portsAmong (sourceRegs op ops)).foldl (Cx.popPort · (c.solid &&& ~~~c.parked)) c

/-- Index-bound faults taken, the pushing lanes of a `kd` port that faults parked, and the source ports popped in the
lanes that do not park; `none` where a pop or the push must wait (R128, R137, R183). (DEDUCED: log 22, 63) -/
def Cx.prepare (c : Cx) (op : Nat) (ops : Ops) (dest : Option Port) : Option Cx :=
  match c.peekPorts op ops with
  | none => none
  | some c =>
    let m := c.solid &&& ~~~c.parked
    match dest with
    | none => some (c.popPeeked op ops)
    | some p =>
      if canPush c p m then some ((if p = .kd then c.parkKd m else c).popPeeked op ops) else none

/-- Values pushed through a port by the lanes of a mask that are not helper lanes (R125, R137). -/
def Cx.push (c : Cx) (p : Port) (m : Word) (f : Nat → Word) : Cx :=
  let m := m &&& ~~~c.helpers
  if p = .kd then pushKd c m f else c.pushPort p m f

/-- The end of a lane instruction: results of the executing lanes written or pushed, and their flags raised. A
helper lane writes its own registers but pushes nothing (R125). -/
def Cx.finishLanes (c : Cx) (wide : Bool) (d : Reg) (f : Nat → Flagged) : Cx :=
  let m := c.runs
  let c := match d with
    | .port p => c.push p m fun l => ((f l).1).setWidth 32
    | d => c.resultTy wide d m fun l => (f l).1
  c.raise c.runs fun l => (f l).2

end Sys2Proof.Machine
end

