-- ==== Sys2Proof/Machine/Control.lean ====
section
/-!
DEFINITION. The control instructions, opcodes 0x0C0 to 0x0D1 (R244 to R255).
-/
namespace Sys2Proof.Machine

/-- The lanes of a quad where a condition register is nonzero (R244). -/
def Cx.trueIn (c : Cx) (r : Reg) (q : Nat) : BitVec 4 :=
  quadBits (maskOf fun l => c.reg r l ≠ 0) q

/-- The condition of an A-operand. -/
def Cx.condition (c : Cx) (a : AOpd) (q : Nat) : BitVec 4 :=
  match a with
  | .reg r => c.trueIn r q
  | .imm _ => 0

/-- The target of an offset (R210, R244). -/
def Cx.target (c : Cx) (off : Int) : Nat := ((c.pc + off) % Config.pcModulus).toNat

/-- The live lanes among a mask of a quad: in user state those that are not parked (R245). -/
def Quad.liveIn (u : Quad) (m : BitVec 4) : BitVec 4 := if u.sup then m else m &&& ~~~u.park

/-- The context with quad `q` changed and told what becomes of it. -/
def Cx.quadDo (c : Cx) (q : Nat) (out : QOut) (f : Quad → Quad) : Cx :=
  { c with k := c.k.onQuad q f, out := c.out ++ [(q, out)] }

/-- An instruction that acts on each quad of the sub-gang whatever LMASK holds. -/
def Cx.eachQuad (c : Cx) (f : Cx → Nat → Cx) : Cx := c.qs.foldl f c

/-- A control instruction of opcode `op` that acts on each quad. -/
def quadOp (op : Nat) (o : OpsC) (f : Cx → Nat → Cx) (s : State) : Host.Outcome State Fault Refusal :=
  issueWith op (.c o) o.h s fun c => some (c.eachQuad f)

/-- Whether an instruction under its guard acts on quad `q` (R245). -/
def Cx.acts (c : Cx) (h : Head) (q : Nat) : Bool := h.unguarded || quadBits c.em q ≠ 0

/-- A control instruction that acts on each quad where its guard lets it (R245). -/
def guardedQuadOp (op : Nat) (o : OpsC) (f : Cx → Nat → Cx) : State → Host.Outcome State Fault Refusal :=
  quadOp op o fun c q => if c.acts o.h q then f c q else c

/-- Stack overflow and the mask-stack cause (R179, R182). -/
def stackOverflow : QOut := .trap 13 0 0
def stackMisuse : QOut := .trap clsIllegal 6 0

/-- The quad goes to the target when no lane is live in its new LMASK (R246, R247). -/
def skipIf (u : Quad) (m : BitVec 4) (target : Nat) : QOut := if u.liveIn m = 0 then .jump target else .adv

/-! ### Structured divergence -/

/-- `if` (R246). -/
def execIfMask (o : OpsC) : State → Host.Outcome State Fault Refusal := quadOp 0x0C0 o fun c q =>
  let u := c.k.quad q
  if u.stack.length = 32 then c.quadDo q stackOverflow id
  else
    let parked := if u.sup then 0 else u.park
    let m := u.lmask &&& (c.condition o.a q ||| parked)
    c.quadDo q (skipIf u m (c.target o.off)) fun u =>
      { u with stack := ⟨u.fmt, 0, u.lmask⟩ :: u.stack, lmask := m }

/-- `else` (R246). -/
def execElseMask (o : OpsC) : State → Host.Outcome State Fault Refusal := quadOp 0x0C1 o fun c q =>
  let u := c.k.quad q
  match u.stack with
  | e :: r =>
    if e.kind ≠ 0 then c.quadDo q stackMisuse id
    else
      let m := e.mask &&& ~~~u.lmask
      c.quadDo q (skipIf u m (c.target o.off)) fun u =>
        { u with stack := { e with kind := 1 } :: r, fmt := e.fmt, lmask := m }
  | [] => c.quadDo q stackMisuse id

/-- `endif` (R246). -/
def execEndif (o : OpsC) : State → Host.Outcome State Fault Refusal := quadOp 0x0C2 o fun c q =>
  match (c.k.quad q).stack with
  | e :: r =>
    if 2 ≤ e.kind then c.quadDo q stackMisuse id
    else c.quadDo q .adv fun u => { u with stack := r, fmt := e.fmt, lmask := e.mask }
  | [] => c.quadDo q stackMisuse id

/-- `loop` (R247). -/
def execLoop (o : OpsC) : State → Host.Outcome State Fault Refusal := quadOp 0x0C3 o fun c q =>
  let u := c.k.quad q
  if 31 ≤ u.stack.length then c.quadDo q stackOverflow id
  else c.quadDo q (skipIf u u.lmask (c.target o.off)) fun u =>
    { u with stack := ⟨u.fmt, 2, u.lmask⟩ :: ⟨u.fmt, 2, u.lmask⟩ :: u.stack }

/-- The stack with lanes taken out of every entry above the innermost live entry, and out of that entry too under
`brk`; `none` where there is no live entry (R247). (DEDUCED: log 38) -/
def leaveLoop (brk : Bool) (b : BitVec 4) : List MaskEntry → Option (List MaskEntry)
  | [] => none
  | e :: r =>
    if e.kind = 2 then some ((if brk then { e with mask := e.mask &&& ~~~b } else e) :: r)
    else (leaveLoop brk b r).map fun r => { e with mask := e.mask &&& ~~~b } :: r

/-- `brk` and `cont` (R247). (DEDUCED: log 38) -/
def leaveOp (op : Nat) (brk : Bool) (o : OpsC) : State → Host.Outcome State Fault Refusal := quadOp op o fun c q =>
  let u := c.k.quad q
  let b := u.liveIn u.lmask &&& c.condition o.a q
  match leaveLoop brk b u.stack with
  | none => c.quadDo q stackMisuse id
  | some st =>
    let m := u.lmask &&& ~~~b
    c.quadDo q (skipIf u m (c.target o.off)) fun u => { u with stack := st, lmask := m }

/-- `brk`. -/
def execBrk (o : OpsC) : State → Host.Outcome State Fault Refusal := leaveOp 0x0C4 true o
/-- `cont`. -/
def execCont (o : OpsC) : State → Host.Outcome State Fault Refusal := leaveOp 0x0C5 false o

/-- `endloop` (R247). -/
def execEndloop (o : OpsC) : State → Host.Outcome State Fault Refusal := quadOp 0x0C6 o fun c q =>
  match (c.k.quad q).stack with
  | y :: x :: r =>
    if y.kind ≠ 2 ∨ x.kind ≠ 2 then c.quadDo q stackMisuse id
    else if y.mask ≠ 0 then
      c.quadDo q (.jump (c.target (o.off + 1))) fun u => { u with lmask := y.mask, fmt := y.fmt }
    else c.quadDo q .adv fun u => { u with stack := r, lmask := x.mask, fmt := x.fmt }
  | _ => c.quadDo q stackMisuse id

/-! ### Regang, jumps and calls -/

/-- `regang`: the quads wait; a quad in supervisor state has not arrived, and waits all the same: it never joins (R248).
(DEDUCED: log 41) -/
def execRegang (o : OpsC) : State → Host.Outcome State Fault Refusal := quadOp 0x0C7 o fun c q =>
  c.quadDo q .hold fun u => { u with atRegang := true }

/-- The target of `jmp` and `call`, and the odd-pair cause of `.r` (R244). -/
def Cx.jumpTarget (c : Cx) (o : OpsC) : Nat :=
  if o.m.variant = 1 then match o.a with
    | .reg r => (c.reg64 r 0).toNat % Config.pcModulus
    | .imm _ => 0
  else c.target o.off

/-- `jmp` (R249). -/
def execJmp (o : OpsC) : State → Host.Outcome State Fault Refusal := guardedQuadOp 0x0C8 o fun c q =>
  c.quadDo q (.jump (c.jumpTarget o)) id

/-- `bra`: only live lanes whose guard is true count (R249). -/
def execBra (o : OpsC) : State → Host.Outcome State Fault Refusal := guardedQuadOp 0x0C9 o fun c q =>
  let m := quadBits c.em q
  let t := c.condition o.a q
  let taken : Bool := if o.m.variant = 0 then m &&& t ≠ 0 else m ≠ 0 && m &&& ~~~t = 0
  if taken then c.quadDo q (.jump (c.target o.off)) id else c

/-- `call` (R249). -/
def execCall (o : OpsC) : State → Host.Outcome State Fault Refusal := guardedQuadOp 0x0CA o fun c q =>
  if (c.k.quad q).calls.length = 16 then c.quadDo q stackOverflow id
  else c.quadDo q (.jump (c.jumpTarget o)) fun u =>
    { u with calls := ⟨(c.pc + 1) % Config.pcModulus, u.stack.length⟩ :: u.calls }

/-- `ret` (R249). -/
def execRet (o : OpsC) : State → Host.Outcome State Fault Refusal := guardedQuadOp 0x0CB o fun c q =>
  let u := c.k.quad q
  match u.calls with
  | e :: r =>
    if e.depth ≠ u.stack.length then c.quadDo q stackMisuse id
    else c.quadDo q (.jump e.ret) fun u => { u with calls := r }
  | [] => c.quadDo q stackMisuse id

/-! ### Counted loops, exit, yield and nop -/

/-- A `rep` of count 0, or one that skips its body, whose end equals the end of the innermost open level completes
that level's body (R250). (DEDUCED: log 40) -/
def Quad.skipTo (u : Quad) (stop : Nat) : Quad :=
  match u.reps with
  | r :: _ =>
    if r.stop = stop then
      let (pc, reps, lc) := completeBodies u.lc u.reps stop
      { u with pc := pc, reps := reps, lc := lc }
    else { u with pc := stop }
  | [] => { u with pc := stop }

/-- `rep` (R250); an offset outside 2 to 257 is a body over the limit (R134, R266), and a quad with no live lane
skips the body (R266). (DEDUCED: log 39, 40) -/
def execRep (o : OpsC) : State → Host.Outcome State Fault Refusal := quadOp 0x0CC o fun c q =>
  let u := c.k.quad q
  let n := c.aVal o.a
  let e := c.target o.off
  if u.reps.length = 3 then c.quadDo q stackOverflow id
  else if o.off < 2 ∨ 257 < o.off ∨ u.reps.any (fun r => r.stop < e) then
    c.quadDo q (.trap clsIllegal 7 (BitVec.ofInt 32 o.off)) id
  else if n = 0 then c.quadDo q .hold fun u => u.skipTo e
  else if u.live = 0 then c.quadDo q .hold fun u =>
    { u with lc := u.lc.set u.reps.length (BitVec.ofNat 32 n) }.skipTo e
  else c.quadDo q .hold fun u =>
    { u with lc := u.lc.set u.reps.length (BitVec.ofNat 32 n)
             reps := ⟨(c.pc + 1) % Config.pcModulus, e⟩ :: u.reps, pc := (c.pc + 1) % Config.pcModulus }

/-- A quad ended by `exit`: stacks and levels are discarded (R251). -/
def Quad.end_ (u : Quad) : Quad := { u with exited := true, stack := [], calls := [], reps := [] }

/-- The earliest of some faults in issue order, the lowest lane's among those of one instruction (R184, R190). -/
def earliest : List LateFault → Option LateFault
  | [] => none
  | f :: fs => match earliest fs with
    | none => some f
    | some g => some (if g.issue < f.issue || (g.issue = f.issue && g.lane < f.lane) then g else f)

/-- The earliest fault found after issue that is still to be taken by the gang, if there is one (R185, R190). -/
def Gang.owed (k : Gang) : Option LateFault := earliest (k.lateC ++ k.lateA ++ k.lateJ)

/-- A gang beyond recovery by the earliest fault that it owes, if it owes one (R185, R190). -/
def Gang.loseOwed (k : Gang) : Gang :=
  match k.owed with
  | some f => (k.putRecord f.lane f.record).loseAt f.record.cls f.issue
  | none => k

/-- A gang that has exited leaves the acquire queue of its core (R161). -/
def Cx.leaveQueue (c : Cx) : Cx :=
  if !c.k.liveQuads.isEmpty then c
  else
    let out : Core → Core := fun j => { j with waiters := j.waiters.filter (· ≠ (c.gid, c.gi)) }
    { c with s := c.s.onDie c.dn fun d => d.setCore c.coreOf (out (d.core c.coreOf)) }

/-- `exit`: the quad ends; in supervisor state the trap is beyond recovery; a gang that ends owing a fault is beyond
recovery too (R185, R251). The implicit `mrel` of an owner comes when its batches have completed (R161). (DEDUCED:
log 35) -/
def execExit (o : OpsC) : State → Host.Outcome State Fault Refusal := guardedQuadOp 0x0CD o fun c q =>
  if c.sup then c.quadDo q (.trap clsIllegal 4 0) id
  else
    let c := (c.quadDo q .hold Quad.end_).leaveQueue
    if c.k.liveQuads.isEmpty then { c with k := c.k.loseOwed } else c

/-- The number of a pair of counts in the immediate of `wait` and `yield`: C first (R244, R279). -/
def countsOf (v : Nat) : Nat × Nat := (v % 64, v / 64 % 64)

/-- `yield`: every quad goes to the label and waits for its condition; where it holds already, the faults of the
commands that it requires are taken (R185, R252). In supervisor state the sub-gang waits before it goes, since the
quad's waiting state is the interrupted program's. (DEDUCED: log 41) -/
def execYield (o : OpsC) (s : State) : Host.Outcome State Fault Refusal :=
  issueWith 0x0CE (.c o) o.h s fun c =>
    if !o.h.unguarded && c.em = 0 then some c
    else
      let v := countsOf (c.aVal o.a)
      let holds := c.k.countsHold v
      if c.sup && !holds then none else
      let c := c.eachQuad fun c q => c.quadDo q (.jump (c.target o.off)) fun u =>
        { u with ywait := if c.sup then u.ywait else if holds then none else some v }
      some (if holds then { c with k := c.k.takeLate c.sup v } else c)

/-- `nop` (R253). -/
def execNop (o : OpsC) (s : State) : Host.Outcome State Fault Refusal :=
  issueWith 0x0CF (.c o) o.h s some

/-! ### Barriers -/

/-- A sub-gang arrives as a whole (R245, R254, R255). -/
def arriveOp (op : Nat) (o : OpsC) (f : Quad → Quad) (s : State) : Host.Outcome State Fault Refusal :=
  issueWith op (.c o) o.h s fun c =>
    if !o.h.unguarded && c.em = 0 then some c else some (c.eachQuad fun c q => c.quadDo q .hold f)

/-- `bar` (R254). -/
def execBar (o : OpsC) : State → Host.Outcome State Fault Refusal :=
  arriveOp 0x0D0 o fun u => { u with barArrived := true }

/-- `gsync` (R255). -/
def execGsync (o : OpsC) : State → Host.Outcome State Fault Refusal :=
  arriveOp 0x0D1 o fun u => { u with gsyncArrived := true }

end Sys2Proof.Machine
end

