-- ==== Sys2Proof/Machine/Float.lean ====
section
/-!
DEFINITION. Floating-point arithmetic: the formats of R141, exact values, one rounding (R145), subnormals and `.fz`
(R146), NaN (R147), overflow of conversions (R148), minimum and maximum (R149), the special operands of R233, and
the correctly rounded functions of R232.
-/
namespace Sys2Proof.Machine

/-- A floating-point format (R141): exponent bits, mantissa bits, bias, whether all-ones exponents are infinity and
NaN, and the canonical NaN. -/
structure FFmt where
  eb : Nat
  mb : Nat
  bias : Int
  hasInf : Bool
  narrow : Bool
  nan : Nat
  deriving DecidableEq, Repr

/-- The formats of R141. -/
def ffmt : Ty → FFmt
  | .f16 => ⟨5, 10, 15, true, false, 0x7E00⟩
  | .bf16 => ⟨8, 7, 127, true, false, 0x7FC0⟩
  | .e4m3 => ⟨4, 3, 7, false, true, 0x7F⟩
  | .e5m2 => ⟨5, 2, 15, true, true, 0x7E⟩
  | .f6 => ⟨3, 2, 3, true, true, 0x1E⟩
  | _ => ⟨8, 23, 127, true, false, 0x7FC00000⟩

/-- FP32. -/
def f32 : FFmt := ffmt .f32

/-- An exact value: NaN, infinity, or sign, integer and power of two. -/
inductive FVal where
  | nan (signalling : Bool)
  | inf (neg : Bool)
  | fin (neg : Bool) (m : Nat) (e : Int)
  deriving DecidableEq, Repr

/-- The value of a bit pattern (R141, R147). -/
def fval (f : FFmt) (v : Nat) : FVal :=
  let v := v % 2 ^ (1 + f.eb + f.mb)
  let m := v % 2 ^ f.mb
  let x := v / 2 ^ f.mb % 2 ^ f.eb
  let neg : Bool := v / 2 ^ (f.mb + f.eb) = 1
  if x = 2 ^ f.eb - 1 && f.hasInf then
    if m = 0 then .inf neg else .nan (!f.narrow && m < 2 ^ (f.mb - 1))
  else if x = 2 ^ f.eb - 1 && m = 2 ^ f.mb - 1 then .nan false
  else if x = 0 then .fin neg m (1 - f.bias - f.mb)
  else .fin neg (m + 2 ^ f.mb) ((x : Int) - f.bias - f.mb)

/-- Whether a bit pattern is a nonzero subnormal. -/
def isSubnormal (f : FFmt) (v : Nat) : Bool := v / 2 ^ f.mb % 2 ^ f.eb = 0 && v % 2 ^ f.mb ≠ 0

/-- Sign bit of a format. -/
def signBit (f : FFmt) (neg : Bool) : Nat := if neg then 2 ^ (f.eb + f.mb) else 0

/-- Infinity, zero and the largest finite value of a sign. -/
def infOf (f : FFmt) (neg : Bool) : Nat := signBit f neg + (2 ^ f.eb - 1) * 2 ^ f.mb
def zeroOf (f : FFmt) (neg : Bool) : Nat := signBit f neg
def maxOf (f : FFmt) (neg : Bool) : Nat :=
  signBit f neg + (if f.hasInf then (2 ^ f.eb - 1) * 2 ^ f.mb - 1 else 2 ^ (f.eb + f.mb) - 2)

/-- A bit pattern and the flags it raises. -/
abbrev FRes := Nat × BitVec 6

/-- An integer quotient by a power of two rounded under a mode: 0 nearest even, 1 toward zero, 2 down, 3 up (R151);
the second part says whether it was exact. -/
def roundShift (mode : Nat) (neg : Bool) (m k : Nat) : Nat × Bool :=
  let n := m / 2 ^ k
  let r := m % 2 ^ k
  let up : Bool := match mode with
    | 0 => 2 ^ k < 2 * r || (2 ^ k = 2 * r && n % 2 = 1)
    | 1 => false
    | 2 => neg && r ≠ 0
    | _ => !neg && r ≠ 0
  (if up then n + 1 else n, r = 0)

/-- A nonzero magnitude m × 2^e rounded so that its last place is 2^q. -/
def roundAt (mode : Nat) (neg : Bool) (m : Nat) (e q : Int) : Nat × Bool :=
  if q ≤ e then (m * 2 ^ (e - q).toNat, true) else roundShift mode neg m (q - e).toNat

/-- What an overflow gives under a mode where infinities exist (R148, R232). -/
def overflowTo (f : FFmt) (mode : Nat) (neg : Bool) : Nat :=
  let away : Bool := mode = 0 || (mode = 2 && neg) || (mode = 3 && !neg)
  if away then infOf f neg else maxOf f neg

/-- Rounding an exact value m × 2^e once into a format (R145, R232): overflow raises O and X, an inexact result
X, and U when the result is tiny after rounding. `none` for the pattern is an overflow, left to the caller. -/
def roundTo (f : FFmt) (mode : Nat) (neg : Bool) (m : Nat) (e : Int) : Option Nat × BitVec 6 :=
  if m = 0 then (some (zeroOf f neg), 0)
  else
    let top : Int := (Nat.log2 m : Int) + e
    let emin : Int := 1 - f.bias
    let q : Int := (if top < emin then emin else top) - f.mb
    let (n, exact) := roundAt mode neg m e q
    let (n, q) := if n = 2 ^ (f.mb + 1) then (2 ^ f.mb, q + 1) else (n, q)
    -- tiny after rounding: as rounded with an unbounded exponent
    let (n2, _) := roundAt mode neg m e (top - f.mb)
    let tiny := top < emin && !(n2 = 2 ^ (f.mb + 1) && top + 1 = emin)
    let x : Int := if n < 2 ^ f.mb then 0 else q + f.mb + f.bias
    let bits := x.toNat * 2 ^ f.mb + n % 2 ^ f.mb
    if maxOf f false < bits then (none, flagO ||| flagX)
    else (some (signBit f neg + bits), if exact then 0 else if tiny then flagU ||| flagX else flagX)

/-- A result of an arithmetic instruction: overflow as IEEE 754 prescribes, and a subnormal result flushed under
`.fz`, raising U and X (R146, R232). -/
def finishF (f : FFmt) (mode : Nat) (fz neg : Bool) (m : Nat) (e : Int) : FRes :=
  match roundTo f mode neg m e with
  | (none, fl) => (overflowTo f mode neg, fl)
  | (some v, fl) => if fz && isSubnormal f v then (zeroOf f neg, flagU ||| flagX) else (v, fl)

/-- A NaN result, canonical, raising I if asked (R147). -/
def nanRes (f : FFmt) (i : Bool) : FRes := (f.nan, flagIf i flagI)

/-- An operand, a subnormal treated as zero of its sign under `.fz` (R146). -/
def operandF (f : FFmt) (fz : Bool) (v : Nat) : FVal :=
  match fval f v with
  | .fin neg m e => if fz && isSubnormal f v then .fin neg 0 e else .fin neg m e
  | x => x

/-- Whether a value is a signalling NaN. -/
def FVal.snan : FVal → Bool
  | .nan s => s
  | _ => false

/-- Whether a value is a NaN. -/
def FVal.isNan : FVal → Bool
  | .nan _ => true
  | _ => false

/-- The sign of a value. -/
def FVal.neg : FVal → Bool
  | .nan _ => false
  | .inf n => n
  | .fin n _ _ => n

/-- A value with the sign turned. -/
def FVal.negate : FVal → FVal
  | .nan s => .nan s
  | .inf n => .inf (!n)
  | .fin n m e => .fin (!n) m e

/-- The exact signed integer of a finite value scaled to exponent `e0`, at most its own. -/
def scaled (neg : Bool) (m : Nat) (e e0 : Int) : Int :=
  let v : Int := (m * 2 ^ (e - e0).toNat : Nat)
  if neg then -v else v

/-- The sign of an exact zero sum: that of the terms if they agree, else + but − when rounding down (IEEE 754). -/
def zeroSign (mode : Nat) (a b : Bool) : Bool := if a = b then a else mode = 2

/-- A sum of two finite values rounded once. -/
def sumF (f : FFmt) (mode : Nat) (fz : Bool) (na : Bool) (ma : Nat) (ea : Int) (nb : Bool) (mb : Nat)
    (eb : Int) : FRes :=
  let e0 := min ea eb
  let t := scaled na ma ea e0 + scaled nb mb eb e0
  if t = 0 then (zeroOf f (zeroSign mode na nb), 0) else finishF f mode fz (t < 0) t.natAbs e0

/-- Addition of two values (R232, R233). -/
def addF (f : FFmt) (mode : Nat) (fz : Bool) (a b : FVal) : FRes :=
  match a, b with
  | .nan s, y => nanRes f (s || y.snan)
  | _, .nan s => nanRes f s
  | .inf n, .inf k => if n = k then (infOf f n, 0) else nanRes f true
  | .inf n, _ => (infOf f n, 0)
  | _, .inf n => (infOf f n, 0)
  | .fin na ma ea, .fin nb mb eb => sumF f mode fz na ma ea nb mb eb

/-- The exact product of two values that are not NaN; `none` for 0 × Inf. -/
def productF (a b : FVal) : Option FVal :=
  match a, b with
  | .fin na ma ea, .fin nb mb eb => some (.fin (na != nb) (ma * mb) (ea + eb))
  | .inf n, .fin k m _ => if m = 0 then none else some (.inf (n != k))
  | .fin k m _, .inf n => if m = 0 then none else some (.inf (n != k))
  | .inf n, .inf k => some (.inf (n != k))
  | .nan s, _ => some (.nan s)
  | _, .nan s => some (.nan s)

/-- Multiplication (R232, R233). -/
def mulF (f : FFmt) (mode : Nat) (fz : Bool) (a b : FVal) : FRes :=
  if a.isNan || b.isNan then nanRes f (a.snan || b.snan)
  else match productF a b with
    | none => nanRes f true
    | some (.fin n m e) => if m = 0 then (zeroOf f n, 0) else finishF f mode fz n m e
    | some (.inf n) => (infOf f n, 0)
    | some (.nan _) => nanRes f false

/-- a × b + c rounded once (R145, R233). -/
def fmaF (f : FFmt) (mode : Nat) (fz : Bool) (a b c : FVal) : FRes :=
  if a.isNan || b.isNan then nanRes f (a.snan || b.snan || c.snan)
  else match productF a b with
    | none => nanRes f true
    | some p => addF f mode fz p c

/-- The quotient of two positive integers to at least 64 significant bits, the last bits saying whether a
remainder is left: a number and its power of two. -/
def quotient (a b : Nat) : Nat × Int :=
  let k := Nat.log2 b + 66
  let q := a * 2 ^ k / b
  (4 * q + (if a * 2 ^ k % b = 0 then 0 else 1), -(k : Int) - 2)

/-- Division (R232, R233). -/
def divF (f : FFmt) (mode : Nat) (fz : Bool) (a b : FVal) : FRes :=
  match a, b with
  | .nan s, y => nanRes f (s || y.snan)
  | _, .nan s => nanRes f s
  | .inf _, .inf _ => nanRes f true
  | .inf n, .fin k _ _ => (infOf f (n != k), 0)
  | .fin n _ _, .inf k => (zeroOf f (n != k), 0)
  | .fin na ma ea, .fin nb mb eb =>
    let n := na != nb
    if mb = 0 then if ma = 0 then nanRes f true else (infOf f n, flagZ)
    else if ma = 0 then (zeroOf f n, 0)
    else let (q, k) := quotient ma mb
      finishF f mode fz n q (k + ea - eb)

/-- The integer square root, bit by bit from bit `n` down. -/
def isqrtFrom (v : Nat) : (n acc : Nat) → Nat
  | 0, acc => if (acc + 1) * (acc + 1) ≤ v then acc + 1 else acc
  | n + 1, acc =>
    let t := acc + 2 ^ (n + 1)
    isqrtFrom v n (if t * t ≤ v then t else acc)

/-- The integer square root. -/
def isqrt (v : Nat) : Nat := isqrtFrom v (Nat.log2 v / 2 + 1) 0

/-- A magnitude with an even exponent. -/
def evenExp (m : Nat) (e : Int) : Nat × Int := if e % 2 = 0 then (m, e) else (2 * m, e - 1)

/-- Square root (R232, R233). -/
def sqrtF (f : FFmt) (mode : Nat) (fz : Bool) (a : FVal) : FRes :=
  match a with
  | .nan s => nanRes f s
  | .inf true => nanRes f true
  | .inf false => (infOf f false, 0)
  | .fin n m e =>
    if m = 0 then (zeroOf f n, 0)
    else if n then nanRes f true
    else
      let (m, e) := evenExp m e
      let v := m * 2 ^ 128
      let r := isqrt v
      finishF f mode fz false (4 * r + (if r * r = v then 0 else 1)) (e / 2 - 64 - 2)

/-- Reciprocal square root (R232, R233). -/
def rsqrtF (f : FFmt) (mode : Nat) (fz : Bool) (a : FVal) : FRes :=
  match a with
  | .nan s => nanRes f s
  | .inf true => nanRes f true
  | .inf false => (zeroOf f false, 0)
  | .fin n m e =>
    if m = 0 then (infOf f n, flagZ)
    else if n then nanRes f true
    else
      let (m, e) := evenExp m e
      let k := Nat.log2 m + 64
      let r := isqrt (2 ^ (2 * k) / m)
      finishF f mode fz false (4 * r + (if r * r * m = 2 ^ (2 * k) then 0 else 1)) (-(e / 2) - k - 2)

/-! ### 2^a and log2 a: fixed point with `prec` bits, never near a rounding boundary for these formats -/

/-- Bits of the fixed-point numbers. -/
def prec : Nat := 320

/-- 2 × atanh(z) for a fixed-point z of `prec` bits, by `n` terms of its series. -/
def atanhFrom (z2 : Nat) : (n k : Nat) → (pow : Nat) → Nat
  | 0, _, _ => 0
  | n + 1, k, pow => 2 * pow / (2 * k + 1) + atanhFrom z2 n (k + 1) (pow * z2 / 2 ^ prec)

/-- ln((1 + z) ÷ (1 − z)) in fixed point. -/
def lnRatio (z : Nat) : Nat := atanhFrom (z * z / 2 ^ prec) 110 0 z

/-- ln 2 in fixed point. -/
def ln2 : Nat := lnRatio (2 ^ prec / 3)

/-- exp(y) for a fixed-point y below 1, by `n` terms. -/
def expFrom (y : Nat) : (n k : Nat) → (term : Nat) → Nat
  | 0, _, _ => 0
  | n + 1, k, term => term + expFrom y n (k + 1) (term * y / 2 ^ prec / (k + 1))

/-- 2^a (R232, R233): exact for an integer, else inexact. (DEDUCED: log 25) -/
def exp2F (f : FFmt) (mode : Nat) (fz : Bool) (a : FVal) : FRes :=
  match a with
  | .nan s => nanRes f s
  | .inf true => (zeroOf f false, 0)
  | .inf false => (infOf f false, 0)
  | .fin n m e =>
    if m = 0 then finishF f mode fz false 1 0
    else if 12 ≤ (Nat.log2 m : Int) + e then
      finishF f mode fz false 5 (if n then -100000 else 100000)
    else
      let fx : Int := if 0 ≤ e + prec then (m * 2 ^ (e + prec).toNat : Nat) else (m / 2 ^ (-(e + prec)).toNat : Nat)
      let fx := if n then -fx else fx
      let i := fx / 2 ^ prec
      let r := (fx % 2 ^ prec).toNat
      if r = 0 then finishF f mode fz false 1 i
      else
        let y := r * ln2 / 2 ^ prec
        finishF f mode fz false (4 * expFrom y 90 0 (2 ^ prec) + 1) (i - prec - 2)

/-- log2 a (R232, R233): exact for a power of two, else inexact. (DEDUCED: log 25) -/
def log2F (f : FFmt) (mode : Nat) (fz : Bool) (a : FVal) : FRes :=
  match a with
  | .nan s => nanRes f s
  | .inf true => nanRes f true
  | .inf false => (infOf f false, 0)
  | .fin n m e =>
    if m = 0 then (infOf f true, flagZ)
    else if n then nanRes f true
    else
      let top := Nat.log2 m
      let k : Int := (top : Int) + e
      if m = 2 ^ top then
        if k = 0 then (zeroOf f false, 0) else finishF f mode fz (k < 0) k.natAbs 0
      else
        -- m / 2^top lies in (1, 2); above 3/2 take half of it and k + 1
        let high : Bool := 3 * 2 ^ top < 2 * m
        let den := if high then 2 ^ (top + 1) else 2 ^ top
        let k := if high then k + 1 else k
        let below := m < den
        let z := (if below then den - m else m - den) * 2 ^ prec / (m + den)
        let l := lnRatio z * 2 ^ prec / ln2
        let t : Int := k * 2 ^ prec + (if below then -(l : Int) else l)
        finishF f mode fz (t < 0) (4 * t.natAbs + 1) (-(prec : Int) - 2)

/-! ### Comparison, minimum and maximum -/

/-- Order of two values that are not NaN, −0 equal to +0: whether a < b. -/
def ltF (a b : FVal) : Bool :=
  match a, b with
  | .inf n, .inf k => n && !k
  | .inf n, _ => n
  | _, .inf k => !k
  | .fin na ma ea, .fin nb mb eb => scaled na ma ea (min ea eb) < scaled nb mb eb (min ea eb)
  | _, _ => false

/-- Equality of two values that are not NaN, −0 equal to +0. -/
def eqF (a b : FVal) : Bool := !ltF a b && !ltF b a

/-- a below b where −0 is below +0 (R149). -/
def belowF (a b : FVal) : Bool := ltF a b || (eqF a b && a.neg && !b.neg)

/-- Minimum or maximum of R149 on bit patterns; under `.fz` a subnormal is compared as zero of its sign and the
operand is returned unchanged (R232). (DEDUCED: log 24) -/
def minmaxF (f : FFmt) (fz wantMax : Bool) (a b : Nat) : FRes :=
  let va := operandF f fz a
  let vb := operandF f fz b
  let fl := flagIf (va.snan || vb.snan) flagI
  let w := 2 ^ (1 + f.eb + f.mb)
  if va.isNan && vb.isNan then (f.nan, fl)
  else if va.isNan then (b % w, fl)
  else if vb.isNan then (a % w, fl)
  else if wantMax then (if belowF va vb then b % w else a % w, fl)
  else (if belowF vb va then b % w else a % w, fl)

/-- The comparison of R234. -/
def compareF (cc : Nat) (a b : FVal) : Bool × BitVec 6 :=
  let un := a.isNan || b.isNan
  let s := a.snan || b.snan
  match cc with
  | 0 => (!un && eqF a b, flagIf s flagI)
  | 1 => (un || !eqF a b, flagIf s flagI)
  | 2 => (!un && ltF a b, flagIf un flagI)
  | 3 => (!un && !ltF b a, flagIf un flagI)
  | 4 => (!un && ltF b a, flagIf un flagI)
  | 5 => (!un && !ltF a b, flagIf un flagI)
  | _ => (un, flagIf s flagI)

/-- The class mask of R235. -/
def classF (f : FFmt) (fz : Bool) (v : Nat) : Nat :=
  match operandF f fz v with
  | .nan s => if s then 2 ^ 8 else 2 ^ 9
  | .inf n => if n then 1 else 2 ^ 7
  | .fin n m _ =>
    if m = 0 then (if n then 2 ^ 3 else 2 ^ 4)
    else if isSubnormal f v then (if n then 2 ^ 2 else 2 ^ 5)
    else if n then 2 else 2 ^ 6

/-! ### Conversions -/

/-- A finite value rounded into a conversion's destination (R148, R238): narrow destinations saturate under SATC and
ignore `.fz`. (DEDUCED: log 23) -/
def convertFin (f : FFmt) (mode : Nat) (fz satc neg : Bool) (m : Nat) (e : Int) : FRes :=
  match roundTo f mode neg m e with
  | (none, fl) =>
    if f.narrow && satc then (maxOf f neg, fl)
    else if !f.hasInf then (f.nan, fl ||| flagI)
    else (overflowTo f mode neg, fl)
  | (some v, fl) =>
    if fz && !f.narrow && isSubnormal f v then (zeroOf f neg, flagU ||| flagX) else (v, fl)

/-- Float-to-float conversion (R148, R238); Inf stays Inf, with no flag, where the destination has it. (DEDUCED: log 23;
DESIGN CHOICE: log 147) -/
def convertF (src dst : FFmt) (mode : Nat) (fz satc : Bool) (v : Nat) : FRes :=
  match operandF src (fz && !src.narrow) v with
  | .nan s => nanRes dst s
  | .inf n =>
    if dst.hasInf then (infOf dst n, 0) else if satc then (maxOf dst n, 0) else (dst.nan, flagI)
  | .fin n m e => if m = 0 then (zeroOf dst n, 0) else convertFin dst mode fz satc n m e

/-- The integer that a finite value rounds to, and whether exactly. -/
def toIntegral (mode : Nat) (neg : Bool) (m : Nat) (e : Int) : Int × Bool :=
  if 0 ≤ e then (let v : Int := (m * 2 ^ e.toNat : Nat); (if neg then -v else v, true))
  else
    let (n, exact) := roundShift mode neg m (-e).toNat
    (if neg then -(n : Int) else n, exact)

/-- Float-to-integer conversion (R148, R238). -/
def convertToInt (src : FFmt) (t : Ty) (mode : Nat) (fz : Bool) (v : Nat) : Flagged :=
  match operandF src (fz && !src.narrow) v with
  | .nan _ => (0, flagI)
  | .inf n => (t.wrap (if n then t.least else t.greatest), flagI)
  | .fin n m e =>
    let (i, exact) := toIntegral mode n m e
    if i < t.least then (t.wrap t.least, flagI)
    else if t.greatest < i then (t.wrap t.greatest, flagI)
    else (t.wrap i, flagIf (!exact) flagX)

/-- Integer-to-float conversion (R148, R238). -/
def convertFromInt (dst : FFmt) (mode : Nat) (satc : Bool) (i : Int) : FRes :=
  if i = 0 then (zeroOf dst false, 0) else convertFin dst mode false satc (i < 0) i.natAbs 0

end Sys2Proof.Machine
end

