-- ==== Sys2Proof/Machine/LaneInt.lean ====
section
/-!
DEFINITION. The integer vector instructions, opcodes 0x000 to 0x01B (R225, R226, R229 to R231).
-/
namespace Sys2Proof.Machine

/-- A lane instruction of opcode `op`: `f` gives the result and flags of a lane from its operands a, b, c as
64-bit values; `wd`, `wa`, `wb` say which of destination and operands are pairs (R225). -/
def laneOp (op : Nat) (o : OpsR) (wd wa wb wc : Bool) (f : Cx → Nat → DWord → DWord → DWord → Flagged)
    (s : State) : Host.Outcome State Fault Refusal :=
  issueWith op (.r o) o.h s fun c =>
    (c.prepare op (.r o) (destPort o.d)).map fun c =>
      let a := c.src o.m.ty wa o.a
      let b := c.src o.m.ty wb o.b
      let e := c.src o.m.ty wc o.c
      c.finishLanes wd o.d fun l => f c l (at64 a l) (at64 b l) (at64 e l)

/-- A lane instruction of a typed integer operation, exact before it is wrapped or clamped (R229). -/
def intOp (op : Nat) (o : OpsR) (f : Int → Int → Int → Int) : State → Host.Outcome State Fault Refusal :=
  let w := o.m.ty.wide
  laneOp op o w w w w fun _ _ a b c =>
    finishInt o.m.ty (o.m.flags % 2 = 1) (f (o.m.ty.int a) (o.m.ty.int b) (o.m.ty.int c))

/-- A lane instruction on bit patterns of 32 bits or of a pair. -/
def bitOp (op : Nat) (o : OpsR) (f : DWord → DWord → DWord) : State → Host.Outcome State Fault Refusal :=
  let w := o.m.ty.wide
  laneOp op o w w w w fun _ _ a b _ => plain (f a b)

/-- A lane instruction on 32-bit words. -/
def wordOp (op : Nat) (o : OpsR) (f : Word → Word → Word → Word) : State → Host.Outcome State Fault Refusal :=
  laneOp op o false false false false fun _ _ a b c =>
    plain ((f (a.setWidth 32) (b.setWidth 32) (c.setWidth 32)).setWidth 64)

/-- The comparison of R229. -/
def compareInt (cc : Nat) (a b : Int) : Bool :=
  match cc with
  | 0 => a = b
  | 1 => a ≠ b
  | 2 => a < b
  | 3 => a ≤ b
  | 4 => b < a
  | _ => b ≤ a

/-- 1 or 0. -/
def boolVal (b : Bool) : DWord := if b then 1 else 0

/-- Left shift by `n` of a value of width `w` (R230). -/
def shiftLeft (ty : Ty) (a : DWord) (n : Nat) : DWord :=
  if ty.width ≤ n then 0 else ty.wrap ((a.toNat % 2 ^ ty.width) * 2 ^ n)

/-- Right shift by `n`: arithmetic for i types, logical for n types (R230). -/
def shiftRight (ty : Ty) (a : DWord) (n : Nat) : DWord :=
  let n := if ty.width ≤ n then ty.width - 1 + (!ty.signed).toNat else n
  ty.wrap (ty.int a / 2 ^ n)

/-- Number of one bits of a word. -/
def popCount (v : Word) : Nat := (laneList.filter fun i => v.getLsbD i).length

/-- Leading zeros of a word; 32 for 0. -/
def leadingZeros (v : Word) : Nat := if v = 0 then 32 else 31 - Nat.log2 v.toNat

/-- Bits reversed. -/
def bitReverse (v : Word) : Word := maskOf fun i => v.getLsbD (31 - i)

/-- The field that `vbfx` extracts (R230). -/
def extractField (ty : Ty) (a b c : Word) : Word :=
  let pos := b.toNat % 32
  let len := min (c.toNat % 64) (32 - pos)
  let f := a.toNat / 2 ^ pos % 2 ^ len
  if ty = .i32 && 0 < len && 2 ^ (len - 1) ≤ f then BitVec.ofInt 32 ((f : Int) - 2 ^ len) else BitVec.ofNat 32 f

/-- `d` with the field that `vbfi` inserts (R230). -/
def insertField (d a b c : Word) : Word :=
  let pos := b.toNat % 32
  let len := min (c.toNat % 64) (32 - pos)
  let m : Word := BitVec.ofNat 32 ((2 ^ len - 1) * 2 ^ pos)
  (d &&& ~~~m) ||| (BitVec.ofNat 32 (a.toNat * 2 ^ pos) &&& m)

/-- The move of `vmovi` and `smovi` (R230). -/
def moveHalf (variant : Nat) (d v : Word) : Word :=
  match variant with
  | 1 => (d &&& 0xFFFF0000) ||| (v &&& 0xFFFF)
  | 2 => (d &&& 0xFFFF) ||| (v <<< 16)
  | _ => v

/-- Element `j` of `n` bits of a word, signed or not (R231). -/
def elemOf (n : Nat) (signed : Bool) (v : Word) (j : Nat) : Int :=
  let x := v.toNat / 2 ^ (n * j) % 2 ^ n
  if signed && 2 ^ (n - 1) ≤ x then (x : Int) - 2 ^ n else x

/-- The exact sum of products of `32 / n` elements; sg gives the signs of a and of b (R157, R231). -/
def dotSum (n sg : Nat) (a b : Word) : Int :=
  (List.range (32 / n)).foldl (fun (t : Int) j =>
    t + elemOf n (sg = 0 || sg = 1) a j * elemOf n (sg = 0 || sg = 2) b j) 0

/-- `vadd`. -/
def execVadd (o : OpsR) : State → Host.Outcome State Fault Refusal := intOp 0x000 o fun a b _ => a + b
/-- `vsub`. -/
def execVsub (o : OpsR) : State → Host.Outcome State Fault Refusal := intOp 0x001 o fun a b _ => a - b
/-- `vmul`. -/
def execVmul (o : OpsR) : State → Host.Outcome State Fault Refusal := intOp 0x002 o fun a b _ => a * b
/-- `vmulhi`: bits [63:32] of the exact product. -/
def execVmulhi (o : OpsR) : State → Host.Outcome State Fault Refusal := intOp 0x003 o fun a b _ => a * b / 2 ^ 32
/-- `vmad`. -/
def execVmad (o : OpsR) : State → Host.Outcome State Fault Refusal := intOp 0x004 o fun a b c => a * b + c
/-- `vneg`. -/
def execVneg (o : OpsR) : State → Host.Outcome State Fault Refusal := intOp 0x005 o fun a _ _ => -a
/-- `vabs`. -/
def execVabs (o : OpsR) : State → Host.Outcome State Fault Refusal := intOp 0x006 o fun a _ _ => a.natAbs
/-- `vmin`. -/
def execVmin (o : OpsR) : State → Host.Outcome State Fault Refusal := intOp 0x007 o fun a b _ => min a b
/-- `vmax`. -/
def execVmax (o : OpsR) : State → Host.Outcome State Fault Refusal := intOp 0x008 o fun a b _ => max a b
/-- `vand`. -/
def execVand (o : OpsR) : State → Host.Outcome State Fault Refusal := bitOp 0x009 o fun a b => a &&& b
/-- `vor`. -/
def execVor (o : OpsR) : State → Host.Outcome State Fault Refusal := bitOp 0x00A o fun a b => a ||| b
/-- `vxor`. -/
def execVxor (o : OpsR) : State → Host.Outcome State Fault Refusal := bitOp 0x00B o fun a b => a ^^^ b
/-- `vnot`. -/
def execVnot (o : OpsR) : State → Host.Outcome State Fault Refusal := bitOp 0x00C o fun a _ => ~~~a
/-- `vshl`. -/
def execVshl (o : OpsR) : State → Host.Outcome State Fault Refusal :=
  bitOp 0x00D o fun a b => shiftLeft o.m.ty a (b.toNat % 2 ^ 32)
/-- `vshr`. -/
def execVshr (o : OpsR) : State → Host.Outcome State Fault Refusal :=
  bitOp 0x00E o fun a b => shiftRight o.m.ty a (b.toNat % 2 ^ 32)
/-- `vrot`. -/
def execVrot (o : OpsR) : State → Host.Outcome State Fault Refusal :=
  wordOp 0x00F o fun a b _ => a.rotateLeft (b.toNat % 32)
/-- `vpopc`. -/
def execVpopc (o : OpsR) : State → Host.Outcome State Fault Refusal :=
  wordOp 0x010 o fun a _ _ => BitVec.ofNat 32 (popCount a)
/-- `vclz`. -/
def execVclz (o : OpsR) : State → Host.Outcome State Fault Refusal :=
  wordOp 0x011 o fun a _ _ => BitVec.ofNat 32 (leadingZeros a)
/-- `vbrev`. -/
def execVbrev (o : OpsR) : State → Host.Outcome State Fault Refusal := wordOp 0x012 o fun a _ _ => bitReverse a
/-- `vbfx`. -/
def execVbfx (o : OpsR) : State → Host.Outcome State Fault Refusal := wordOp 0x013 o (extractField o.m.ty)
/-- `vbfi`: reads its destination. -/
def execVbfi (o : OpsR) : State → Host.Outcome State Fault Refusal :=
  laneOp 0x014 o false false false false fun cx l a b c =>
    plain ((insertField (cx.reg o.d l) (a.setWidth 32) (b.setWidth 32) (c.setWidth 32)).setWidth 64)
/-- `vcmp`: a 32-bit result of 1 or 0. -/
def execVcmp (o : OpsR) : State → Host.Outcome State Fault Refusal :=
  laneOp 0x015 o false o.m.ty.wide o.m.ty.wide false fun _ _ a b _ =>
    plain (boolVal (compareInt o.m.variant (o.m.ty.int a) (o.m.ty.int b)))
/-- `vsel`: c is read as 32 bits. -/
def execVsel (o : OpsR) : State → Host.Outcome State Fault Refusal :=
  laneOp 0x016 o o.m.ty.wide o.m.ty.wide o.m.ty.wide false fun _ _ a b c =>
    plain (if c.setWidth 32 ≠ (0 : Word) then a else b)
/-- `vmov`. -/
def execVmov (o : OpsR) : State → Host.Outcome State Fault Refusal := bitOp 0x017 o fun a _ => a
/-- `vmovi`: `.lo` and `.hi` read the destination. -/
def execVmovi (o : OpsR) : State → Host.Outcome State Fault Refusal :=
  laneOp 0x018 o false false false false fun cx l a _ _ =>
    plain ((moveHalf o.m.variant (if o.m.variant = 0 then 0 else cx.reg o.d l) (a.setWidth 32)).setWidth 64)
/-- `vdot4`. -/
def execVdot4 (o : OpsR) : State → Host.Outcome State Fault Refusal :=
  laneOp 0x019 o false false false false fun _ _ a b c =>
    finishInt .i32 (o.m.flags % 2 = 1) (Ty.i32.int c + dotSum 8 o.m.variant (a.setWidth 32) (b.setWidth 32))
/-- `vdot8`. -/
def execVdot8 (o : OpsR) : State → Host.Outcome State Fault Refusal :=
  laneOp 0x01A o false false false false fun _ _ a b c =>
    finishInt .i32 (o.m.flags % 2 = 1) (Ty.i32.int c + dotSum 4 o.m.variant (a.setWidth 32) (b.setWidth 32))
/-- `vlea`. -/
def execVlea (o : OpsR) : State → Host.Outcome State Fault Refusal :=
  wordOp 0x01B o fun a b c => a + (b <<< (c.toNat % 32))

end Sys2Proof.Machine
end

