-- ==== Sys2Proof/Machine/LaneFloat.lean ====
section
/-!
DEFINITION. The floating-point vector instructions, opcodes 0x040 to 0x04D (R145, R218, R228, R232 to R235).
-/
namespace Sys2Proof.Machine

/-- The `fmt` of the quad of lane `l` (R228). (DEDUCED: log 27) -/
def Cx.fmt (c : Cx) (l : Nat) : Word := (c.k.quad (l / 4)).fmt

/-- The rounding mode of a lane: the instruction's, or RND of its quad's `fmt` (R145, R218). -/
def Cx.mode (c : Cx) (m : Mods) (l : Nat) : Nat :=
  if m.flags % 4 = 0 then bits 18 16 (c.fmt l).toNat else m.flags % 4

/-- Whether subnormals are flushed in a lane: `.fz`, or FZ of its quad's `fmt` (R146). -/
def Cx.flush (c : Cx) (m : Mods) (l : Nat) : Bool := 4 ≤ m.flags || bit 15 (c.fmt l).toNat

/-- SATC of the `fmt` of a lane's quad (R148, R151). -/
def Cx.satc (c : Cx) (l : Nat) : Bool := bit 14 (c.fmt l).toNat

/-- A float result as a lane's result. -/
def flagged (r : FRes) : Flagged := (BitVec.ofNat 64 r.1, r.2)

/-- A lane instruction of a floating-point operation on the exact operands. -/
def floatOp (op : Nat) (o : OpsR) (f : FFmt → Nat → Bool → FVal → FVal → FVal → FRes) :
    State → Host.Outcome State Fault Refusal :=
  let t := ffmt o.m.ty
  laneOp op o false false false false fun c l x y z =>
    let fz := c.flush o.m l
    flagged (f t (c.mode o.m l) fz (operandF t fz x.toNat) (operandF t fz y.toNat) (operandF t fz z.toNat))

/-- `vfadd`. -/
def execVfadd (o : OpsR) : State → Host.Outcome State Fault Refusal :=
  floatOp 0x040 o fun f m z a b _ => addF f m z a b
/-- `vfsub`. -/
def execVfsub (o : OpsR) : State → Host.Outcome State Fault Refusal :=
  floatOp 0x041 o fun f m z a b _ => addF f m z a b.negate
/-- `vfmul`. -/
def execVfmul (o : OpsR) : State → Host.Outcome State Fault Refusal :=
  floatOp 0x042 o fun f m z a b _ => mulF f m z a b
/-- `vffma`. -/
def execVffma (o : OpsR) : State → Host.Outcome State Fault Refusal :=
  floatOp 0x043 o fun f m z a b c => fmaF f m z a b c
/-- `vfmin`. -/
def execVfmin (o : OpsR) : State → Host.Outcome State Fault Refusal :=
  laneOp 0x044 o false false false false fun c l a b _ =>
    flagged (minmaxF (ffmt o.m.ty) (c.flush o.m l) false a.toNat b.toNat)
/-- `vfmax`. -/
def execVfmax (o : OpsR) : State → Host.Outcome State Fault Refusal :=
  laneOp 0x045 o false false false false fun c l a b _ =>
    flagged (minmaxF (ffmt o.m.ty) (c.flush o.m l) true a.toNat b.toNat)
/-- `vfcmp`. -/
def execVfcmp (o : OpsR) : State → Host.Outcome State Fault Refusal :=
  laneOp 0x046 o false false false false fun c l a b _ =>
    let f := ffmt o.m.ty
    let fz := c.flush o.m l
    let (r, fl) := compareF o.m.variant (operandF f fz a.toNat) (operandF f fz b.toNat)
    (boolVal r, fl)
/-- `vfrcp`: the quotient of 1 by a. -/
def execVfrcp (o : OpsR) : State → Host.Outcome State Fault Refusal :=
  floatOp 0x047 o fun f m z a _ _ => divF f m z (.fin false 1 0) a
/-- `vfrsq`. -/
def execVfrsq (o : OpsR) : State → Host.Outcome State Fault Refusal :=
  floatOp 0x048 o fun f m z a _ _ => rsqrtF f m z a
/-- `vfsqrt`. -/
def execVfsqrt (o : OpsR) : State → Host.Outcome State Fault Refusal :=
  floatOp 0x049 o fun f m z a _ _ => sqrtF f m z a
/-- `vfexp2`. -/
def execVfexp2 (o : OpsR) : State → Host.Outcome State Fault Refusal :=
  floatOp 0x04A o fun f m z a _ _ => exp2F f m z a
/-- `vflog2`. -/
def execVflog2 (o : OpsR) : State → Host.Outcome State Fault Refusal :=
  floatOp 0x04B o fun f m z a _ _ => log2F f m z a
/-- `vfclass`: raises no flag. -/
def execVfclass (o : OpsR) : State → Host.Outcome State Fault Refusal :=
  laneOp 0x04C o false false false false fun c l a _ _ =>
    plain (BitVec.ofNat 64 (classF (ffmt o.m.ty) (c.flush o.m l) a.toNat))
/-- `vfdiv`. -/
def execVfdiv (o : OpsR) : State → Host.Outcome State Fault Refusal :=
  floatOp 0x04D o fun f m z a b _ => divF f m z a b

end Sys2Proof.Machine
end

