-- ==== Sys2Proof/Machine/Convert.lean ====
section
/-!
DEFINITION. Conversions, packing, planes and `fmt`, opcodes 0x080 to 0x089 (R238 to R242).
-/
namespace Sys2Proof.Machine

/-- The source format of a conversion's VARIANT (R238). -/
def convSource (v : Nat) : Ty :=
  match v with
  | 0 => .f32 | 1 => .f16 | 2 => .bf16 | 3 => .e4m3 | 4 => .e5m2 | _ => .f6

/-- The integer source of `vicvtf` (R238). -/
def intSource (v : Nat) : Ty :=
  match v with
  | 0 => .i32 | 1 => .n32 | 2 => .i16 | 3 => .n16 | 4 => .i8 | 5 => .n8 | 6 => .i64 | _ => .n64

/-- `vcvt`. -/
def execVcvt (o : OpsR) : State → Host.Outcome State Fault Refusal :=
  laneOp 0x080 o false false false false fun c l a _ _ =>
    flagged (convertF (ffmt (convSource o.m.variant)) (ffmt o.m.ty) (c.mode o.m l) (c.flush o.m l) (c.satc l) a.toNat)

/-- `vfcvti`. -/
def execVfcvti (o : OpsR) : State → Host.Outcome State Fault Refusal :=
  laneOp 0x081 o o.m.ty.wide false false false fun c l a _ _ =>
    convertToInt (ffmt (convSource o.m.variant)) o.m.ty (c.mode o.m l) (c.flush o.m l) a.toNat

/-- `vicvtf`: an immediate stands for the source under the source's type. -/
def execVicvtf (o : OpsR) (s : State) : Host.Outcome State Fault Refusal :=
  let t := intSource o.m.variant
  issueWith 0x082 (.r o) o.h s fun c =>
    (c.prepare 0x082 (.r o) (destPort o.d)).map fun c =>
      let a := c.src t t.wide o.a
      c.finishLanes false o.d fun l =>
        flagged (convertFromInt (ffmt o.m.ty) (c.mode o.m l) (c.satc l) (t.int (at64 a l)))

/-- Width of the field of `vpack` and `vunpk`: 4 with `.q`, else the type's (R239). -/
def packWidth (m : Mods) : Nat := if m.flags / 2 % 2 = 1 then 4 else m.ty.width

/-- `vpack`: narrows a into field N of the destination, the rest kept; a clamp raises O. -/
def execVpack (o : OpsR) : State → Host.Outcome State Fault Refusal :=
  laneOp 0x083 o false false false false fun c l a _ _ =>
    let w := packWidth o.m
    let lo : Int := if o.m.ty.signed then -(2 ^ (w - 1)) else 0
    let hi : Int := if o.m.ty.signed then 2 ^ (w - 1) - 1 else 2 ^ w - 1
    let x := if o.m.ty.signed then Ty.i32.int a else Ty.n32.int a
    let clamped := o.m.flags % 2 = 1 && (x < lo || hi < x)
    let y := if o.m.flags % 2 = 1 then max lo (min hi x) else x
    let f := (y % 2 ^ w).toNat
    let m : Word := BitVec.ofNat 32 ((2 ^ w - 1) * 2 ^ (w * o.m.variant))
    let d := (c.reg o.d l &&& ~~~m) ||| BitVec.ofNat 32 (f * 2 ^ (w * o.m.variant))
    (d.setWidth 64, flagIf clamped flagO)

/-- `vunpk`: extracts field N, extended by the type. -/
def execVunpk (o : OpsR) : State → Host.Outcome State Fault Refusal :=
  laneOp 0x084 o false false false false fun _ _ a _ _ =>
    let w := packWidth o.m
    let f := a.toNat / 2 ^ (w * o.m.variant) % 2 ^ w
    plain (if o.m.ty.signed && 2 ^ (w - 1) ≤ f then (BitVec.ofInt 32 ((f : Int) - 2 ^ w)).setWidth 64
      else BitVec.ofNat 64 f)

/-- The lanes that are present for a cross-lane instruction: active, and not helper lanes (R240, R256). -/
def Cx.present (c : Cx) : Word := c.runs &&& ~~~c.helpers

/-- `vplx`: each lane takes the plane word of its own plane index over the present lanes. -/
def execVplx (o : OpsR) (s : State) : Host.Outcome State Fault Refusal :=
  issueWith 0x085 (.r o) o.h s fun c =>
    (c.prepare 0x085 (.r o) (destPort o.d)).map fun c =>
      let a := c.src .i32 false o.a
      let b := c.src .i32 false o.b
      let p := c.present
      c.finishLanes false o.d fun l =>
        let plane := (at32 b l).toNat % 8
        plain ((maskOf fun i => inMask p i && (at32 a i).getLsbD (7 - plane)).setWidth 64)

/-- `vpli`: inserts the lane's bit of a as plane p of the destination, extended from bit 7. -/
def execVpli (o : OpsR) : State → Host.Outcome State Fault Refusal :=
  laneOp 0x086 o false false false false fun c l a b _ =>
    let plane := b.toNat % 8
    let d := (c.reg o.d l).toNat % 256
    let m := 2 ^ (7 - plane)
    let d := (if d / m % 2 = 1 then d - m else d) + (if a.getLsbD l then m else 0)
    plain ((BitVec.ofInt 32 (if 128 ≤ d then (d : Int) - 256 else d)).setWidth 64)

/-- `vsplit6`: sign and exponent, or the mantissa. -/
def execVsplit6 (o : OpsR) : State → Host.Outcome State Fault Refusal :=
  wordOp 0x087 o fun a _ _ => BitVec.ofNat 32 (if o.m.variant = 0 then bits 5 2 a.toNat else bits 1 0 a.toNat)

/-- `vjoin6`. -/
def execVjoin6 (o : OpsR) : State → Host.Outcome State Fault Refusal :=
  wordOp 0x088 o fun a b _ => BitVec.ofNat 32 (bits 3 0 a.toNat * 4 + bits 1 0 b.toNat)

/-- Fields of `fmt` (R151). -/
def fmtAF (v : Word) : Nat := bits 31 28 v.toNat
def fmtBF (v : Word) : Nat := bits 27 24 v.toNat
def fmtACC (v : Word) : Nat := bits 23 22 v.toNat
def fmtKP (v : Word) : Nat := bits 21 19 v.toNat
def fmtRND (v : Word) : Nat := bits 18 16 v.toNat

/-- Whether the bits that a variant of `sfmt` writes hold allowed values (R242). -/
def fmtOk (variant : Nat) (v : Word) : Bool :=
  let afs := [4, 9, 10, 11, 12, 13]
  (variant = 2 || fmtRND v ≤ 3) &&
  (variant = 1 || (afs.contains (fmtAF v) && (afs.contains (fmtBF v) || fmtBF v = 14) && fmtACC v ≠ 3 &&
    fmtKP v ≠ 0)) &&
  (variant ≠ 0 || bits 13 0 v.toNat = 0)

/-- The bits that a variant of `sfmt` writes (R242). -/
def fmtMask (variant : Nat) : Word :=
  match variant with
  | 0 => 0xFFFFFFFF
  | 1 => 0x0007C000
  | _ => 0xFFF80000

/-- The value that `sfmt` gives a quad: that of its lowest active lane, if it has one. -/
def sfmtValue (c : Cx) (a : List DWord) (q : Nat) : Option Word := (lowest (c.runs &&& spread 0xF q)).map (at32 a)

/-- `sfmt`: each quad takes the value from its lowest active lane; in a quad whose value fails a check, which traps, no
lane parks and no port is popped (R180, R242). -/
def execSfmt (o : OpsR) (s : State) : Host.Outcome State Fault Refusal :=
  issueWith 0x089 (.r o) o.h s fun c =>
    (c.peekPorts 0x089 (.r o)).map fun c =>
      let v := sfmtValue c (c.src .i32 false o.a)
      let bad := c.qs.filter fun q => (v q).any fun x => !fmtOk o.m.variant x
      let em := c.em
      let c := { c with parks := c.parks.filter fun e => !inMask (quadLanes bad) e.1, em := em &&& ~~~quadLanes bad }
      let c := { c.popPeeked 0x089 (.r o) with em := em }
      let m := fmtMask o.m.variant
      c.qs.foldl (fun (c : Cx) q =>
        match v q with
        | none => c
        | some x =>
          if bad.contains q then { c with out := c.out.insert q (.trap 1 4 x) }
          else { c with k := c.k.onQuad q fun u => { u with fmt := (u.fmt &&& ~~~m) ||| (x &&& m) } }) c

end Sys2Proof.Machine
end

