-- ==== Sys2Proof/Machine/CrossLane.lean ====
section
/-!
DEFINITION. The cross-lane instructions, opcodes 0x100 to 0x107 (R158, R159, R256 to R262).
-/
namespace Sys2Proof.Machine

/-- The end of a cross-lane instruction: the results of the lanes of `m` are written or pushed, and the flags are
raised in every quad of the sub-gang (R256). (DEDUCED: log 28) -/
def Cx.finishCross (c : Cx) (wide : Bool) (d : Reg) (m : Word) (f : Nat → DWord) (fl : BitVec 6) : Cx :=
  let c := match d with
    | .port p => c.push p m fun l => (f l).setWidth 32
    | d => c.resultTy wide d m f
  c.raiseAll fl

/-- A cross-lane instruction that raises no flag: `f` gives a lane's result from the operands (R256). -/
def crossOp (op : Nat) (o : OpsR) (wd wa : Bool) (f : Cx → List DWord → List DWord → Nat → DWord) (s : State) :
    Host.Outcome State Fault Refusal :=
  issueWith op (.r o) o.h s fun c =>
    (c.prepare op (.r o) (destPort o.d)).map fun c =>
      let a := c.src o.m.ty wa o.a
      let b := c.src .i32 false o.b
      c.finishCross wd o.d c.runs (f c a b) 0

/-- The operand value of a lane read across lanes: 0 from a lane outside the sub-gang (R123). -/
def Cx.across (c : Cx) (a : List DWord) (l : Nat) : DWord := if inMask c.gangLanes l then at64 a l else 0

/-- The source lane of `vshfl` (R258). -/
def shuffleLane (variant l o : Nat) : Nat :=
  match variant with
  | 0 => o
  | 1 => if l < o then l else l - o
  | 2 => if 31 < l + o then l else l + o
  | _ => l ^^^ o

/-- `vshfl`. -/
def execVshfl (o : OpsR) : State → Host.Outcome State Fault Refusal :=
  crossOp 0x100 o o.m.ty.wide o.m.ty.wide fun c a b l =>
    c.across a (shuffleLane o.m.variant l ((at64 b l).toNat % 32))

/-- The lanes that lane `l`'s combination covers: the present lanes of its set (R256). -/
def Cx.covered (c : Cx) (set : List DWord) (l : Nat) : Word := c.present &&& at32 set l

/-- The vote of R259 over the covered lanes. -/
def vote (variant : Nat) (cov : Word) (a : Nat → Word) : Word :=
  let ls := lanesOf cov
  match variant with
  | 0 => if ls.any fun m => a m ≠ 0 then 1 else 0
  | 1 => if ls.all fun m => a m ≠ 0 then 1 else 0
  | 2 => cov &&& maskOf fun m => a m ≠ 0
  | _ => match ls with
    | [] => 1
    | m0 :: r => if r.all fun m => a m = a m0 then 1 else 0

/-- `vvote`. -/
def execVvote (o : OpsR) : State → Host.Outcome State Fault Refusal :=
  crossOp 0x101 o false false fun c a b l => (vote o.m.variant (c.covered b l) (at32 a)).setWidth 64

/-! ### Reductions -/

/-- The combination of two operands of a reduction (R145, R149, R260), under a `fmt` for RM = 00 and for FZ. -/
def combine (m : Mods) (fmt : Word) (a b : DWord) : Flagged :=
  let ty := m.ty
  if ty.isFloat then
    let f := ffmt ty
    let mode := if m.flags % 4 = 0 then bits 18 16 fmt.toNat else m.flags % 4
    let fz := 4 ≤ m.flags || bit 15 fmt.toNat
    let r := match m.variant with
      | 0 => addF f mode fz (operandF f fz a.toNat) (operandF f fz b.toNat)
      | 1 => minmaxF f fz false a.toNat b.toNat
      | _ => minmaxF f fz true a.toNat b.toNat
    (BitVec.ofNat 64 r.1, r.2)
  else plain (match m.variant with
    | 0 => ty.wrap (ty.int a + ty.int b)
    | 1 => ty.wrap (min (ty.int a) (ty.int b))
    | 2 => ty.wrap (max (ty.int a) (ty.int b))
    | 3 => a &&& b
    | 4 => a ||| b
    | _ => a ^^^ b)

/-- The identity of a reduction (R260). -/
def identity (m : Mods) : DWord :=
  let ty := m.ty
  if ty.isFloat then match m.variant with
    | 0 => 0
    | 1 => BitVec.ofNat 64 (infOf (ffmt ty) false)
    | _ => BitVec.ofNat 64 (infOf (ffmt ty) true)
  else match m.variant with
    | 1 => ty.wrap ty.greatest
    | 2 => ty.wrap ty.least
    | 3 => ty.wrap (-1)
    | _ => 0

/-- A tree node's value, absent or not, with the flags raised on the way. -/
abbrev Node := Option DWord × BitVec 6

/-- A node that combines two: one absent operand passes the other, two are absent (R158). -/
def joinNodes (f : DWord → DWord → Flagged) (a b : Node) : Node :=
  match a, b with
  | (some x, p), (some y, q) => let (v, r) := f x y; (some v, p ||| q ||| r)
  | (some x, p), (none, q) => (some x, p ||| q)
  | (none, p), (y, q) => (y, p ||| q)

/-- The node of the fixed tree over the 2^n lanes from `start` (R158). -/
def treeNode (f : DWord → DWord → Flagged) (leaf : Nat → Option DWord) : (n start : Nat) → Node
  | 0, start => (leaf start, 0)
  | n + 1, start => joinNodes f (treeNode f leaf n start) (treeNode f leaf n (start + 2 ^ n))

/-- The scan of R159 up to lane `l`: the aligned nodes that cover lanes 0 to `l`, in ascending order. (DEDUCED: log
29) -/
def scanFrom (f : DWord → DWord → Flagged) (leaf : Nat → Option DWord) (l : Nat) : (n start : Nat) → Node → Node
  | 0, start, acc => if start + 1 ≤ l + 1 then joinNodes f acc (treeNode f leaf 0 start) else acc
  | n + 1, start, acc =>
    if start + 2 ^ (n + 1) ≤ l + 1 then
      scanFrom f leaf l n (start + 2 ^ (n + 1)) (joinNodes f acc (treeNode f leaf (n + 1) start))
    else scanFrom f leaf l n start acc

/-- An operand of a reduction as a result of its type: the bits above the width are ignored (R226). -/
def operandOf (ty : Ty) (a : DWord) : DWord :=
  if ty.isFloat then BitVec.ofNat 64 (a.toNat % 2 ^ ty.width) else ty.wrap (ty.int a)

/-- The leaves of a combination: the operand values of its lanes. -/
def leaves (ty : Ty) (a : List DWord) (m : Word) (l : Nat) : Option DWord :=
  if inMask m l then some (operandOf ty (at64 a l)) else none

/-- The `fmt` of the quad whose number is SGT (R256). (DEDUCED: log 27) -/
def Cx.gangFmt (c : Cx) : Word := (c.k.quad c.sgt).fmt

/-- The flags that the combinations of the present lanes raise, E among them for an empty one, or where no lane is
present (R150, R158, R260). (DEDUCED: log 28) -/
def Cx.nodeFlags (c : Cx) (node : Nat → Node) : BitVec 6 :=
  (lanesOf c.present).foldl (fun v l => v ||| (node l).2 ||| flagIf (node l).1.isNone flagE) (flagIf (c.present = 0) flagE)

/-- A reduction of opcode `op`: `node` gives each lane's combination; an empty one writes the identity (R260). -/
def reduceOp (op : Nat) (o : OpsR) (node : Cx → List DWord → List DWord → Nat → Node) (pred : Option Nat)
    (s : State) : Host.Outcome State Fault Refusal :=
  issueWith op (.r o) o.h s fun c =>
    (c.prepare op (.r o) (destPort o.d)).map fun c =>
      let w := o.m.ty.wide
      let n := node c (c.src o.m.ty w o.a) (c.src .i32 false o.b)
      let c' := c.finishCross w o.d c.runs (fun l => (n l).1.getD (identity o.m)) (c.nodeFlags n)
      match pred with
      | some p => c'.setPred p c.runs fun l => (n l).1.isSome
      | none => c'

/-- The predicate that `vred` names, if any (R257). -/
def reducePred (o : OpsR) : Option Nat :=
  match o.c with
  | .reg (.p n) _ => some n
  | _ => none

/-- `vred`. -/
def execVred (o : OpsR) : State → Host.Outcome State Fault Refusal :=
  reduceOp 0x102 o (fun c a s l => treeNode (combine o.m c.gangFmt) (leaves o.m.ty a (c.covered s l)) 5 0) (reducePred o)

/-- `vscan`: a lane whose combination is empty keeps its destination (R260). (DEDUCED: log 29) -/
def execVscan (o : OpsR) (s : State) : Host.Outcome State Fault Refusal :=
  issueWith 0x103 (.r o) o.h s fun c =>
    (c.prepare 0x103 (.r o) (destPort o.d)).map fun c =>
      let w := o.m.ty.wide
      let a := c.src o.m.ty w o.a
      let st := c.src .i32 false o.b
      let n := fun l => scanFrom (combine o.m c.gangFmt) (leaves o.m.ty a (c.covered st l)) l 5 0 (none, 0)
      let m := c.runs &&& maskOf fun l => (n l).1.isSome
      c.finishCross w o.d m (fun l => (n l).1.getD 0) (c.nodeFlags n)

/-- Where the segment of lane `l` begins: lane 0, or the last lane up to `l` that is a head (R260). -/
def segmentStart (head : Nat → Bool) (l : Nat) : Nat :=
  laneList.foldl (fun b m => if m ≤ l && head m then m else b) 0

/-- `vsegred`. -/
def execVsegred (o : OpsR) : State → Host.Outcome State Fault Refusal :=
  reduceOp 0x107 o (fun c a b l =>
    let head := fun m => inMask c.gangLanes m && at32 b m ≠ 0
    let seg := c.present &&& maskOf fun m => segmentStart head m = segmentStart head l
    treeNode (combine o.m c.gangFmt) (leaves o.m.ty a seg) 5 0) none

/-- `vmatch`. -/
def execVmatch (o : OpsR) : State → Host.Outcome State Fault Refusal :=
  crossOp 0x104 o false o.m.ty.wide fun c a _ l =>
    (c.present &&& maskOf fun m => at64 a m = at64 a l).setWidth 64

/-- `vconf`. -/
def execVconf (o : OpsR) : State → Host.Outcome State Fault Refusal :=
  crossOp 0x105 o false o.m.ty.wide fun c a _ l =>
    (c.present &&& maskOf fun m => m < l && at64 a m = at64 a l).setWidth 64

/-- `vquad`. -/
def execVquad (o : OpsR) : State → Host.Outcome State Fault Refusal :=
  crossOp 0x106 o o.m.ty.wide o.m.ty.wide fun _ a _ l => at64 a (l ^^^ (o.m.variant + 1))

end Sys2Proof.Machine
end

