-- ==== Sys2Proof/Machine/Order.lean ====
section
/-!
DEFINITION. What orders the accesses of a gang (R79 to R81, R85 to R91): the bytes that an element of an engine
command touches, the ordering kinds of their pages, what a release waits for, and what an acquire holds back.
-/
namespace Sys2Proof.Machine

/-- The address of record `r` of a ring, which can lie past 2^56 - 1 (R47). (DESIGN CHOICE: log 98) -/
def ringAddr (q : Queue) (r : Nat) : Nat := q.qbase + 64 * (r % 2 ^ q.log)

/-- The addresses of the slot that a submission to a queue writes next (R47, R284). -/
def slotAddrs (d : Die) (qn : Nat) : List Nat :=
  if 63 < qn then [] else span (ringAddr (d.queue qn) (d.queue qn).resv) 64

/-- Whether the present level of an element writes memory. -/
def elemWrites (op : CmdOp) (e : Elem) : Bool :=
  match op with
  | .copyOut _ _ | .ratom _ _ _ _ _ | .sigadd _ _ _ | .publish _ => true
  | .copyDd _ _ _ _ => e.level = 1
  | .launch _ _ _ => 1 ≤ e.level
  | .scat _ _ => e.level = 0
  | .coll _ _ _ _ _ _ => e.level = 2
  | _ => false

/-- The addresses that an element touches at its present level (R65, R66, R275). -/
def elemAddrs (d : Die) (op : CmdOp) (e : Elem) : List Nat :=
  match op with
  | .copyIn _ r _ => r.frontAddrs e.idx
  | .copyOut _ r => r.writeAddrs e.idx
  | .copyXc _ _ _ => []
  | .copyDd _ dr _ sr => if e.level = 0 then sr.frontAddrs e.idx else dr.writeAddrs e.idx
  | .gath _ rs _ => (rs.getD e.level (recOf [])).frontAddrs e.idx
  | .scat _ rs =>
    let r := rs.getD e.level (recOf [])
    if e.level = 0 then r.writeAddrs e.idx else r.frontAddrs e.idx
  | .ratom _ r _ _ _ => r.writeAddrs e.idx
  | .sigadd _ r _ => r.writeAddrs e.idx
  | .publish rid => span (recAddr d rid + 16) 16
  | .launch _ r q => if e.level = 0 then r.frontAddrs e.idx else slotAddrs d q
  | .coll _ dr _ sr _ _ =>
    if e.level = 0 then (List.range sr.extent).flatMap sr.frontAddrs
    else if e.level = 2 then (List.range dr.extent).flatMap dr.writeAddrs
    else []

/-- The record through which an element makes its access at its present level: none where a ring slot is written, or a
collective's mailbox (R181, R277, R284). -/
def elemRecord (op : CmdOp) (e : Elem) : Nat :=
  match op with
  | .copyIn r _ _ | .copyOut r _ | .ratom r _ _ _ _ | .sigadd r _ _ | .publish r => r
  | .launch r _ _ => if e.level = 0 then r else noLoc
  | .copyXc _ _ _ => noLoc
  | .copyDd d _ s _ => if e.level = 0 then s else d
  | .gath ids _ _ | .scat ids _ => ids.getD e.level noLoc
  | .coll d _ s _ _ _ => if e.level = 0 then s else if e.level = 1 then noLoc else d

/-- The addresses, known already, that an element writes at a later level (R274, R277, R284). -/
def laterWrites (d : Die) (op : CmdOp) (e : Elem) : List Nat :=
  match op with
  | .copyDd _ dr _ _ => if e.level = 0 then dr.writeAddrs e.idx else []
  | .coll _ dr _ _ _ _ => if e.level < 2 then (List.range dr.extent).flatMap dr.writeAddrs else []
  | .launch _ _ q => if e.level = 0 then slotAddrs d q else []
  | _ => []

/-- The records, each with the base of a side, in which an element makes its later accesses where their index is not
known yet: those of the levels to come (R275). -/
def laterRecs (op : CmdOp) (e : Elem) : List (Rec × Nat) :=
  match op with
  | .gath _ rs _ => (rs.take e.level).map fun r => (r, r.frontBase)
  | .scat _ rs => (rs.take e.level).zipIdx.map fun x => (x.1, if x.2 = 0 then x.1.writeBase else x.1.frontBase)
  | _ => []

/-- The ordering kind of the page of an address: through a peer window, that of the exporter's page, which another module
keeps to itself (R58, R72, R85). (DESIGN CHOICE: log 13) -/
def kindAt (s : State) (dn va : Nat) : Nat :=
  if inPeer va then
    match (importHandle s dn (peerIndex va)).1 with
    | .ok h =>
      if elsewhere h then (Config.peerKind h (peerOffset va / 65536)).val
      else match (s.die (handleDie h)).exports_.find? (handleSlot h) with
        | some e => kindOf (s.die (handleDie h)) (e.base + peerOffset va)
        | none => 0
    | .error _ => 0
  else kindOf (s.die dn) va
where
  /-- The kind of a mapped page. -/
  kindOf (d : Die) (va : Nat) : Nat :=
    match leafFor d va with
    | .ok (v, b) => (leafOf v b).kind
    | .error _ => 0

/-- Where a virtual address of die `dn` leads: a die and a physical address on it; a place of its own for each address
that leads to no memory of this module (R57, R72). -/
def homeOf (s : State) (dn va : Nat) : Nat × Nat :=
  if inPeer va then
    match (importHandle s dn (peerIndex va)).1 with
    | .ok h =>
      if elsewhere h then (16, h * 2 ^ 38 + peerOffset va)
      else match (s.die (handleDie h)).exports_.find? (handleSlot h) with
        | some e => mapped (handleDie h) (e.base + peerOffset va)
        | none => (8 + dn, va)
    | .error _ => (8 + dn, va)
  else mapped dn va
where
  /-- The home of a mapped address. -/
  mapped (d va : Nat) : Nat × Nat :=
    match leafFor (s.die d) va with
    | .ok (v, b) => (d, (leafOf v b).phys va)
    | .error _ => (8 + d, va)

/-- The pages of some addresses. -/
def pagesOf (as : List Nat) : List Nat := distinct (as.map (· / 65536))

/-- Whether two lists of addresses have a byte in common, through whatever mappings (R85, R89). -/
def meetAt (s : State) (dn : Nat) (as bs : List Nat) : Bool :=
  as.any bs.contains ||
  (!(pagesOf as = pagesOf bs && (pagesOf as).length ≤ 1) &&
    (let hs := bs.map (homeOf s dn)
     as.any fun a => hs.contains (homeOf s dn a)))

/-- The pages of a record on the side at a base. -/
def recPages (x : Rec × Nat) : List Nat :=
  let n := x.1.filled
  (if n = 0 then [] else (List.range ((x.2 + n - 1) / 65536 + 1 - x.2 / 65536)).map fun i => (x.2 / 65536 + i) % 2 ^ 40) ++
    pagesOf (x.1.tail x.2)

/-- Whether two lists of pages have a frame in common under different addresses. -/
def framesMeet (s : State) (dn : Nat) (ps qs : List Nat) : Bool :=
  ps.any fun p => qs.any fun q => p ≠ q &&
    ((homeOf s dn (p * 65536)).1, (homeOf s dn (p * 65536)).2 / 65536) =
      ((homeOf s dn (q * 65536)).1, (homeOf s dn (q * 65536)).2 / 65536)

/-- Whether an element may still write a byte that some addresses lead to, at its present level or later; where the index
of a later level is open, a byte of the record or, through another mapping, of its frames (R85, R89). (DEDUCED: log 55)
-/
def mayWrite (s : State) (dn : Nat) (op : CmdOp) (e : Elem) (as : List Nat) : Bool :=
  (elemWrites op e && meetAt s dn (elemAddrs (s.die dn) op e) as) || meetAt s dn (laterWrites (s.die dn) op e) as ||
  (match op, laterRecs op e with
    | .scat _ _, (r, base) :: _ => as.any (r.holds base) || framesMeet s dn (recPages (r, base)) (pagesOf as)
    | _, _ => false)

/-- The kinds of the pages that hold some addresses. -/
def kindsOf (s : State) (dn : Nat) (as : List Nat) : List Nat :=
  (distinct (as.map (· / 65536))).map fun p => kindAt s dn (p * 65536)

/-- The kinds of the pages that an element touches at its present level. -/
def elemKinds (s : State) (dn : Nat) (op : CmdOp) (e : Elem) : List Nat := kindsOf s dn (elemAddrs (s.die dn) op e)

/-- Whether a page of a record, on the side at a base, is of a kind that satisfies `f`. -/
def recHas (s : State) (dn : Nat) (f : Nat → Bool) (x : Rec × Nat) : Bool :=
  (recPages x).any fun p => f (kindAt s dn (p * 65536))

/-- Whether an element touches, now or later, a page of a kind that satisfies `f` (R85, R87). (DEDUCED: log 68) -/
def touches (s : State) (dn : Nat) (f : Nat → Bool) (op : CmdOp) (e : Elem) : Bool :=
  (elemKinds s dn op e).any f || (kindsOf s dn (laterWrites (s.die dn) op e)).any f ||
  (laterRecs op e).any (recHas s dn f)

/-- Whether an element has still to be performed. -/
def Elem.pending (e : Elem) : Bool :=
  match e.state with
  | .performed | .faulted _ => false
  | _ => true

/-- Whether a command is an atomic with declared use `.nor` (R91). -/
def Cmd.isNor (c : Cmd) : Bool :=
  match c.op with
  | .ratom _ _ _ _ ord => ord = 2
  | _ => false

/-- Whether a command has an access that a release covers and that has not been performed: an element with a part, of its
present level or of one to come, on an SO or RC page (R80, R87). (DEDUCED: log 68) -/
def Cmd.covered (s : State) (dn : Nat) (c : Cmd) : Bool :=
  !c.isNor && c.elems.any fun e => e.2.pending && touches s dn (· ≠ 2) c.op e.2

/-- The commands of a gang. -/
def gangCmds (d : Die) (gid gi : Nat) : List (Nat × Cmd) := d.cmds.filter fun c => c.2.gid = gid && c.2.gang = gi

/-- Whether a release of the gang must wait, whatever its scope (R78, R80). (DEDUCED: log 68; DESIGN CHOICE: log 128) -/
def releasePending (s : State) (dn gid gi : Nat) : Bool :=
  (gangCmds (s.die dn) gid gi).any fun c => c.2.covered s dn

/-- Whether an access of the gang on an SO page has not been performed: a later one of its accesses there must wait
(R85). -/
def soPending (s : State) (dn gid gi : Nat) : Bool :=
  (gangCmds (s.die dn) gid gi).any fun c =>
    !c.2.isNor && c.2.elems.any fun e => e.2.pending && touches s dn (· = 0) c.2.op e.2

/-- Whether an ORD code has acquire order (R219). -/
def acquires (ord : Nat) : Bool := ord = 3 || ord = 5

/-- A fence with an ORD code and a scope: an acquire of the releases that the gang's completed reads have observed, and a
release by the gang's later writes (R79, R88, R219). -/
def Cx.ordered (c : Cx) (ord scope : Nat) : Cx :=
  let c := if acquires ord then c.acquire (acquired c.k.know.reads c.agent scope) else c
  if 4 ≤ ord then c.fenceAt scope else c

/-- Whether a command acquires at its completion (R81). -/
def Cmd.acquires (c : Cmd) : Bool :=
  match c.op with
  | .ratom _ _ _ _ ord => Sys2Proof.Machine.acquires ord
  | _ => false

/-- Whether a command is a collective, whose completion is an acquire (R95). -/
def Cmd.isColl (c : Cmd) : Bool :=
  match c.op with
  | .coll _ _ _ _ _ _ => true
  | _ => false

/-- Whether an acquire of the gang is not yet satisfied: an `ratom` with `.acq` or `.ar` that has not completed
(R81). -/
def acquirePending (s : State) (dn gid gi : Nat) : Bool :=
  (gangCmds (s.die dn) gid gi).any fun c => c.2.acquires

/-! ### Accesses of the join engine -/

/-- The session that queued instructions leave of one, as later checks at issue take it (R290). -/
def issueAfter (q : List JoinEntry) (se : Session) : Session :=
  q.foldl (fun se e => match e.op with
    | .copen annex block acc pm1 wm1 => ⟨true, block, acc, pm1, wm1, false, annex, 0⟩
    | .cclose => { se with isOpen := false }
    | _ => se) se

/-- The accesses that a queued join instruction may make to device memory: to a record on the side at a base, as a
write or a read, and to the counts of a record that takes compressed output (R66, R68). -/
structure JoinReach where
  side : Option (Rec × Nat)
  writes : Bool
  counts : Option Nat
  deriving DecidableEq, Repr

/-- What a queued join instruction may reach under the session that those before it leave: its own record, or the annex
as it stands (R173, R302, R305). -/
def joinReach (s : State) (dn : Nat) (se : Session) (e : JoinEntry) : JoinReach :=
  let annex : JoinReach :=
    let r := (readRec s dn se.annex).1
    if se.isOpen && r.takesImages then ⟨some (r, r.writeBase), true, some (recAddr (s.die dn) se.annex)⟩
    else ⟨none, false, none⟩
  match e.op with
  | .cdrain _ (some (id, r)) _ _ => ⟨some (r, r.writeBase), true, some (recAddr (s.die dn) id)⟩
  | .csave _ r _ => ⟨some (r, r.writeBase), true, none⟩
  | .cload _ r _ => ⟨some (r, r.frontBase), false, none⟩
  | .jmm _ _ _ _ _ _ _ _ | .jmms _ _ _ _ _ _ _ _ _ _ | .jstream _ _ _ _ _ | .cacc _ _ | .jbatch | .cclose => annex
  | _ => ⟨none, false, none⟩

/-- The bytes of SCNT, OVF and their words that compressed output rewrites. -/
def JoinReach.countAddrs (x : JoinReach) : List Nat :=
  match x.counts with
  | some a => span (a + 16) 16
  | none => []

/-- Whether a reach touches a page of a kind that satisfies `f`. -/
def JoinReach.has (s : State) (dn : Nat) (f : Nat → Bool) (x : JoinReach) : Bool :=
  x.side.any (recHas s dn f) || (kindsOf s dn x.countAddrs).any f

/-- The pages that a reach may write. -/
def JoinReach.pages (x : JoinReach) : List Nat :=
  (match x.side with
    | some r => if x.writes then recPages r else []
    | none => []) ++ pagesOf x.countAddrs

/-- Whether a reach may write a byte that an address leads to, or, through another mapping, a byte of its frame. -/
def JoinReach.mayWrite (s : State) (dn : Nat) (x : JoinReach) (a : Nat) : Bool :=
  (x.writes && x.side.any fun r => r.1.holds r.2 a) || x.countAddrs.contains a ||
  framesMeet s dn x.pages [a / 65536]

/-- The queued join instructions of a gang that is not frozen, each with what it may reach (R77). -/
def joinQueued (s : State) (dn gid gi : Nat) : List (JoinEntry × JoinReach) :=
  (s.die dn).cores.flatMap fun n =>
    let c := n.2
    if c.owner = some (gid, gi) && !c.frozen then
      c.queue.zipIdx.map fun e => (e.1, joinReach s dn (issueAfter (c.queue.take e.2) c.session) e.1)
    else []

/-- Whether a queued join instruction of the gang may access an SO page: a later access of the gang there must wait (R77,
R85, R93). -/
def soQueued (s : State) (dn gid gi : Nat) : Bool := (joinQueued s dn gid gi).any fun j => j.2.has s dn (· = 0)

/-- Whether a pending element must come before a later join instruction of its gang: on SO pages accesses keep issue
order, and where both may write a byte of a page that is not UO the later write remains (R77, R85, R93). (DEDUCED: log
133) -/
def elemBeforeJoin (s : State) (dn : Nat) (c : Cmd) (e : Elem) (x : JoinReach) : Bool :=
  let d := s.die dn
  let now := if elemWrites c.op e then elemAddrs d c.op e else []
  !c.isNor &&
    ((x.has s dn (· = 0) && touches s dn (· = 0) c.op e) ||
     ((now ++ laterWrites d c.op e).any fun a => kindAt s dn a ≠ 2 && x.mayWrite s dn a) ||
     (match c.op, laterRecs c.op e, x.side with
      | .scat _ _, (r, b) :: _, some (q, b') =>
        x.writes && recHas s dn (· ≠ 2) (q, b') &&
          ((b < b' + q.extent * q.step + 1024 && b' < b + r.extent * r.step + 1024) ||
           framesMeet s dn (recPages (r, b)) (recPages (q, b')))
      | _, _, _ => false))

/-- Whether a join instruction must come before a later pending element of its gang (R77, R85, R93). (DEDUCED: log 133)
-/
def joinBeforeElem (s : State) (dn : Nat) (x : JoinReach) (c : Cmd) (e : Elem) : Bool :=
  let d := s.die dn
  !c.isNor &&
    ((x.has s dn (· = 0) && (elemKinds s dn c.op e).contains 0) ||
     (elemWrites c.op e && (elemAddrs d c.op e).any fun a => kindAt s dn a ≠ 2 && x.mayWrite s dn a))

/-- Whether an access of a join instruction still waits for elements of its gang's earlier commands. -/
def joinWaits (s : State) (dn gid gi : Nat) (e : JoinEntry) (x : JoinReach) : Bool :=
  (gangCmds (s.die dn) gid gi).any fun c =>
    c.2.issue < e.issue && c.2.elems.any fun y => y.2.pending && elemBeforeJoin s dn c.2 y.2 x

/-- A memory instruction: it waits for the gang's acquires (R81). -/
def memOp (op : Nat) (ops : Ops) (h : Head) (s : State) (body : Cx → Option Cx) :
    Host.Outcome State Fault Refusal :=
  issueWith op ops h s fun c => if acquirePending c.s c.dn c.gid c.gi then none else body c

end Sys2Proof.Machine
end

