-- ==== Sys2Proof/Machine/Scratch.lean ====
section
/-!
DEFINITION. The scratchpad: windows (R131, R132), `ld`, `st`, `atom` and `wset` (R270 to R272), and the node's
result and handed values (R285).
-/
namespace Sys2Proof.Machine

/-- The swizzle of R132 on a byte's offset. (DEDUCED: log 52) -/
def Win.swizzle (w : Win) (o : Nat) : Nat :=
  if w.swz = 0 then o else o ^^^ (o / 2 ^ (w.swz + 7) % 64 * 4)

/-- The area addresses of `n` bytes at offset `off` of a window; the swizzle applies to each byte's offset (R132,
R273). (DEDUCED: log 52) -/
def Win.bytes (w : Win) (off n : Nat) : List Nat := (span off n).map fun o => w.base + w.swizzle o

/-- The reason of a window-bound fault of an access of `n` bytes at `off` (R132, R182, R273). -/
def Win.fault (w : Win) (off n : Nat) : Option Nat :=
  if off % min n 64 ≠ 0 then some 1 else if w.extent < off + n then some 2 else Option.none

/-- Window `n` as the gang's core holds it (R131, R272). -/
def Cx.window (c : Cx) (n : Nat) : Win := FMap.get Win.none (c.grp.home c.k.core).wins n

/-- The group's area on the gang's core. -/
def Cx.area (c : Cx) : Memory := (c.grp.home c.k.core).area

/-- The context with bytes of the area written, in an instruction that releases at a scope or in none, plainly or by an
atomic. -/
def Cx.storeArea (c : Cx) (ws : List (Nat × Byte)) (own : Option Nat := none) (atomic : Bool := false) : Cx :=
  let c := { c with grp := c.grp.onHome c.k.core fun h => { h with area := h.area.writeAll ws } }
  c.stores own atomic (ws.map (·.1))

/-- A lane parked for a window-bound fault (R181). (DEDUCED: log 21) -/
def Cx.parkWindow (c : Cx) (l n off reason : Nat) (value : Word) : Cx :=
  c.park l (c.record l 3 reason off n value)

/-- The executing lanes whose access of `n` bytes faults park; `off` is their offset (R132). -/
def Cx.checkWindow (c : Cx) (win n : Nat) (off : Nat → Nat) : Cx :=
  (lanesOf (c.solid &&& ~~~c.parked)).foldl (fun (c : Cx) l =>
    match (c.window win).fault (off l) n with
    | some r => c.parkWindow l win (off l) r (BitVec.ofNat 32 (off l))
    | none => c) c

/-- The byte offset of a lane: the register plus the immediate, modulo 2^32 (R270). -/
def Cx.memOffset (c : Cx) (o : OpsM) (l : Nat) : Nat := (((c.reg o.roff l).toNat + o.disp) % 4294967296).toNat

/-- The value that a load of a type gives (R226, R270). -/
def loadValue (ty : Ty) (bs : List Byte) : DWord :=
  if ty = .i8 ∨ ty = .i16 then ty.wrap (ty.int (BitVec.ofNat 64 (leNat bs))) else BitVec.ofNat 64 (leNat bs)

/-- Bytes of an access of a type, 16 with `.x4` (R270). -/
def accessBytes (m : Mods) : Nat := if m.variant = 1 then 16 else m.ty.width / 8

/-- The parts of a scratchpad access that all lanes share: ports, offsets and window checks. -/
def scratchOp (op : Nat) (o : OpsM) (n : Nat) (body : Cx → Option Cx) (s : State) :
    Host.Outcome State Fault Refusal :=
  memOp op (.m o) o.h s fun c =>
    match c.peekPorts op (.m o) with
    | none => none
    | some c => body ((c.checkWindow o.win n (c.memOffset o)).popPeeked op (.m o))

/-- The bytes that a lane loads; a helper lane loads zeros (R125). -/
def Cx.loadBytes (c : Cx) (o : OpsM) (n l : Nat) : List Byte :=
  if inMask c.helpers l then List.replicate n 0
  else c.area.readAll ((c.window o.win).bytes (c.memOffset o l) n)

/-- `ld`; with `.x4` four registers in ascending order (R127, R270). -/
def execLd (o : OpsM) : State → Host.Outcome State Fault Refusal :=
  let n := accessBytes o.m
  scratchOp 0x140 o n fun c =>
    let v := fun l => c.loadBytes o n l
    let c := (lanesOf (c.solid &&& ~~~c.parked)).foldl (fun c' l =>
      c'.sees ((c.window o.win).bytes (c.memOffset o l) n)) c
    if o.m.variant = 1 then
      some ((List.range 4).foldl (fun (c' : Cx) i =>
        c'.result (o.d.plus i) c.runs fun l => BitVec.ofNat 32 (leNat (((v l).drop (4 * i)).take 4))) c)
    else some (c.resultTy o.m.ty.wide o.d c.runs fun l => loadValue o.m.ty (v l))

/-- The bytes that a lane stores. -/
def Cx.storeBytes (c : Cx) (o : OpsM) (n l : Nat) : List Byte :=
  if o.m.variant = 1 then (List.range 4).flatMap fun i => leBytes 4 (c.reg (o.data.plus i) l).toNat
  else if o.m.ty.wide then leBytes n (c.reg64 o.data l).toNat
  else leBytes n (c.reg o.data l).toNat

/-- `st`: lanes in ascending order (R270). -/
def execSt (o : OpsM) : State → Host.Outcome State Fault Refusal :=
  let n := accessBytes o.m
  scratchOp 0x141 o n fun c =>
    some ((lanesOf (c.solid &&& ~~~c.parked)).foldl (fun c' l =>
      c'.storeArea (((c.window o.win).bytes (c.memOffset o l) n).zip (c.storeBytes o n l))) c)

/-- The step of an atomic operation: the new value from the old one, the data, and the value compared (R271, R92). -/
def atomStep (ty : Ty) (opx : Nat) (old a d : DWord) : DWord :=
  if opx = 6 then a
  else if opx = 7 then if old = d then a else old
  else if ty = .f32 then BitVec.ofNat 64 (match opx with
    | 0 => (addF f32 0 false (fval f32 old.toNat) (fval f32 a.toNat)).1
    | 1 => (minmaxF f32 false false old.toNat a.toNat).1
    | _ => (minmaxF f32 false true old.toNat a.toNat).1)
  else match opx with
    | 0 => BitVec.ofNat 64 ((old.toNat + a.toNat) % 2 ^ ty.width)
    | 1 => if ty.int old ≤ ty.int a then old else a
    | 2 => if ty.int a ≤ ty.int old then old else a
    | 3 => old &&& a
    | 4 => old ||| a
    | _ => old ^^^ a

/-- The flags that the step of an atomic operation raises (R92, R149, R150). -/
def atomFlags (ty : Ty) (opx : Nat) (old a : DWord) : BitVec 6 :=
  if ty ≠ .f32 then 0
  else match opx with
    | 0 => (addF f32 0 false (fval f32 old.toNat) (fval f32 a.toNat)).2
    | 1 => (minmaxF f32 false false old.toNat a.toNat).2
    | 2 => (minmaxF f32 false true old.toNat a.toNat).2
    | _ => 0

/-- The operand values of an atomic in the 32 lanes. -/
def Cx.atomData (c : Cx) (ty : Ty) (r : Reg) (l : Nat) : DWord :=
  if ty.wide then c.reg64 r l else (c.reg r l).setWidth 64

/-- `atom`: one step for each lane in ascending order; a release waits for the accesses it covers (R80, R271), an
acquire is of the releases whose values it reads (R79), and the quads take the flags of their lanes' steps (R150).
(DEDUCED: log 129) -/
def execAtom (o : OpsM) : State → Host.Outcome State Fault Refusal :=
  let n := o.m.ty.width / 8
  scratchOp 0x142 o n fun c =>
    if 4 ≤ o.m.variant && c.em ≠ 0 && releasePending c.s c.dn c.gid c.gi then none
    else
      let m := c.solid &&& ~~~c.parked
      let at_ := fun l => (c.window o.win).bytes (c.memOffset o l) n
      let c := (lanesOf m).foldl (fun c' l => c'.sees (at_ l)) c
      let found := (lanesOf m).flatMap fun l => releasesAt c.s.notes (spotsOf c.spot (at_ l))
      let c := if acquires o.m.variant then c.acquire (acquired found c.agent o.m.flags) else c
      let own := if 4 ≤ o.m.variant then some o.m.flags else none
      let (c', old) := (lanesOf m).foldl (fun (x : Cx × FMap DWord) l =>
        let as := at_ l
        let v : DWord := BitVec.ofNat 64 (leNat (x.1.area.readAll as))
        let w := atomStep o.m.ty o.opx v (c.atomData o.m.ty o.data l) (c.atomData o.m.ty o.d l)
        (x.1.storeArea (as.zip (leBytes n w.toNat)) own true, x.2.insert l v)) (c, [])
      some ((c'.resultTy o.m.ty.wide o.d m fun l => FMap.get 0 old l).raise m fun l =>
        atomFlags o.m.ty o.opx (FMap.get 0 old l) (c.atomData o.m.ty o.data l))

/-! ### Windows -/

/-- A window descriptor set on the gang's core; it is pending for the group's other cores, where the
highest-numbered gang prevails (R129, R272). (DEDUCED: log 66) -/
def Cx.setWindow (c : Cx) (n : Nat) (w : Win) : Cx :=
  { c with grp := c.grp.onHome c.k.core fun h =>
      { h with wins := FMap.set Win.none h.wins n w
               winPend := match h.winPend.find? n with
                 | some (gi, v) => if c.gi < gi then h.winPend.insert n (gi, v) else h.winPend.insert n (c.gi, w)
                 | none => h.winPend.insert n (c.gi, w) } }

/-- `wset` (R272). -/
def execWset (o : OpsE) (s : State) : Host.Outcome State Fault Refusal :=
  memOp 0x143 (.e o) o.h s fun c =>
    match o.a, lowest c.em with
    | .win n _, some l =>
      let base := c.uniform o.b
      let ext := c.uniform o.c
      if base % 64 ≠ 0 ∨ 4096 * c.grp.spad < base + ext then
        some (c.parkWindow l n (base + ext) 2 (BitVec.ofNat 32 base))
      else some (c.setWindow n ⟨base, ext, o.m.variant⟩)
    | _, _ => some c

/-! ### Node results and handed values -/

/-- The per-lane 32-bit value of a descriptor's register. -/
def Cx.descLane (c : Cx) (d : Desc) (l : Nat) : Nat :=
  match d with
  | .reg _ r => (c.reg r l).toNat
  | .win _ r => (c.reg r l).toNat
  | .imm v => v
  | _ => 0

/-- The per-lane value of a descriptor of a width. -/
def Cx.descData (c : Cx) (wide : Bool) (d : Desc) (l : Nat) : DWord :=
  match d with
  | .reg _ r => if wide then c.reg64 r l else (c.reg r l).setWidth 64
  | _ => 0

/-- `nres` and `nhand`: `slot` puts a lane's bytes at an offset of the result, or of the value for a child (R285).
(DESIGN CHOICE: log 42) -/
def nodeOp (op : Nat) (o : OpsE) (child off val : Desc) (hand : Bool)
    (slot : Group → Nat → List (Nat × Byte) → Group) (s : State) : Host.Outcome State Fault Refusal :=
  memOp op (.e o) o.h s fun c =>
    if hand && !c.grp.down then
      some { c with out := (c.qs.filter fun q => quadBits c.solid q ≠ 0).map fun q => (q, .trap clsIllegal 4 0) }
    else match c.peekPorts op (.e o) with
      | none => none
      | some c =>
        let n := if o.m.ty.wide then 8 else 4
        let check := fun l =>
          let k := c.descLane child l
          let f := c.descLane off l
          if hand && c.grp.kids ≤ k then some (2, k)
          else if f % n ≠ 0 then some (1, f)
          else if c.grp.rsize < f + n then some (2, f)
          else none
        let c := (lanesOf c.solid).foldl (fun (c : Cx) l =>
          match check l with
          | some (r, v) => c.parkWindow l noLoc v r (BitVec.ofNat 32 v)
          | none => c) c
        let ws := fun l => (span (c.descLane off l) n).zip (leBytes n (c.descData o.m.ty.wide val l).toNat)
        let g := (lanesOf (c.solid &&& ~~~c.parked)).foldl (fun g l => slot g (c.descLane child l) (ws l)) c.grp
        some ({ c with grp := g }.popPeeked op (.e o))

/-- `nres`. -/
def execNres (o : OpsE) : State → Host.Outcome State Fault Refusal :=
  nodeOp 0x14F o Desc.zero o.a o.b false fun g _ ws => { g with result := g.result.writeAll ws }

/-- `nhand`: the value slots stand one after another, RSIZE bytes each. (DESIGN CHOICE: log 42) -/
def execNhand (o : OpsE) : State → Host.Outcome State Fault Refusal :=
  nodeOp 0x150 o o.a o.b o.c true fun g k ws =>
    { g with values := g.values.writeAll (ws.map fun w => (g.rsize * k + w.1, w.2)) }

end Sys2Proof.Machine
end

