-- ==== Sys2Proof/Machine/Engines.lean ====
section
/-!
DEFINITION. The issue of engine commands and of the waits and fences (R268, R269, R273 to R284): the checks at
issue, the snapshots, and the counters. Commands are carried out by the steps of `EngineSteps`.
-/
namespace Sys2Proof.Machine

/-- Record `id` read at issue, with the context afterwards (R62, R79). -/
def Cx.record_ (c : Cx) (id : Nat) : Rec × Cx :=
  let (r, s) := readRec c.s.rested c.dn id
  (r, ({ c with s := s.rested } : Cx).onKnow (·.observe s.trace.saw))

/-- A lane parked for a record-bound fault: ADDR and VALUE are the index (R181, R273). -/
def Cx.parkRecord (c : Cx) (l id reason idx : Nat) : Cx :=
  c.park l (c.record l 5 reason idx id (BitVec.ofNat 32 idx))

/-- Whether a counter stands at 63 (R133, R273). -/
def Cx.full (c : Cx) (isA : Bool) : Bool := 63 ≤ (if isA then c.k.a else c.k.c)

/-- The context with a command issued: its counter moves. A command of which no element survives completes at once, or,
since completions reach the counter in issue order, behind the earlier commands of its class (R133, R273). (DEDUCED: log
56) -/
def Cx.command (c : Cx) (isA : Bool) (op : CmdOp) (elems : FMap Elem) (scope : Nat := 0) (dest : Option Nat := none)
    (wide : Bool := false) (release : Bool := false) : Cx :=
  let ord := if isA then c.k.issuedA else c.k.issuedC
  let k := if isA then { c.k with issuedA := c.k.issuedA + 1 } else { c.k with issuedC := c.k.issuedC + 1 }
  let d := c.s.die c.dn
  if elems.isEmpty && !(gangCmds d c.gid c.gi).any (fun x => x.2.isA = isA) then { c with k := k }
  else
    let cmd : Cmd :=
      { gid := c.gid, gang := c.gi, isA := isA, ord := ord, pc := c.pc, opc := c.op % 256, scope := scope, op := op,
        elems := elems, dest := dest, wide := wide, lanes := c.em, flag := false, sup := c.sup, pre := c.grp.pre,
        marks := if dest.isSome then c.marks else [], issue := c.k.issued, release := release,
        covers := if release then (gangCmds d c.gid c.gi).map (·.1) else [], seen := ⟨[], [], []⟩ }
    { c with k := if isA then { k with a := k.a + 1 } else { k with c := k.c + 1 }
             s := c.s.setDie c.dn { d with cmds := d.cmds.insert d.nextId cmd, nextId := d.nextId + 1 } }

/-- A lane's element as it is issued. -/
def mkElem (lane idx off level : Nat) (data : List Byte) (compare : Nat) : Elem :=
  ⟨lane, idx, idx, off, data, compare, level, 0, .waiting⟩

/-- A window side of an element: window number, descriptor, offset per lane and size. -/
abbrev Side := Nat × Win × (Nat → Nat) × Nat

/-- The checks of R273 in each executing lane: an invalid record, the indexes against the extents, and the
scratchpad sides; then the elements of the lanes that pass. -/
def Cx.checkElems (c : Cx) (bad : Option Nat) (bounds : List (Nat × Rec)) (idx : Nat → Nat) (sides : List Side)
    (mk : Nat → Elem) : Cx × FMap Elem :=
  let c := (lanesOf c.solid).foldl (fun (c : Cx) l =>
    match bad with
    | some id => c.parkRecord l id 2 (idx l)
    | none => match bounds.find? fun b => b.2.extent ≤ idx l with
      | some b => c.parkRecord l b.1 1 (idx l)
      | none => match sides.find? fun s => (s.2.1.fault (s.2.2.1 l) s.2.2.2).isSome with
        | some s => c.parkWindow l s.1 (s.2.2.1 l) ((s.2.1.fault (s.2.2.1 l) s.2.2.2).getD 0)
            (BitVec.ofNat 32 (s.2.2.1 l))
        | none => c) c
  (c, (lanesOf (c.solid &&& ~~~c.parked)).map fun l => (l, mk l))

/-- The id of the first record of a list that is invalid. -/
def badRecord (rs : List (Nat × Rec)) : Option Nat := (rs.find? fun r => r.2.invalid).map (·.1)

/-- An engine command of the lane class: it stalls at a full counter and where a port must wait; `body` gives the
context after the checks and the command. -/
def laneCommand (op : Nat) (o : OpsE) (isA : Bool) (body : Cx → Cx) (s : State) : Host.Outcome State Fault Refusal :=
  memOp op (.e o) o.h s fun c =>
    if c.full isA then none
    else (c.peekPorts op (.e o)).map fun c => (body c).popPeeked op (.e o)

/-- A context that has checked its elements issues its command, with no active lane too (R200, R273). -/
def issueElems (x : Cx × FMap Elem) (isA : Bool) (op : CmdOp) : Cx := x.1.command isA op x.2

/-- Checked elements whose window sides the engine reads at issue, as loads of the gang (R84). -/
def loadsSides (x : Cx × FMap Elem) (w : Win) (off : Nat → Nat) (n : Nat) : Cx × FMap Elem :=
  (x.2.foldl (fun c e => c.sees (w.bytes (off e.1) n)) x.1, x.2)

/-! ### Copies -/

/-- `copy.in`. -/
def copyIn (o : OpsE) (c : Cx) : Cx :=
  let (r, c) := c.record_ o.b.rid
  let w := c.window o.a.window
  let off := c.descLane o.a
  let idx := c.descLane o.c
  issueElems (c.checkElems (badRecord [(o.b.rid, r)]) [(o.b.rid, r)] idx [(o.a.window, w, off, r.size)]
    fun l => mkElem l (idx l) (off l) 0 [] 0) false (.copyIn o.b.rid r w)

/-- `copy.out`: the window bytes are read at issue (R84). -/
def copyOut (o : OpsE) (c : Cx) : Cx :=
  let (r, c) := c.record_ o.a.rid
  let w := c.window o.c.window
  let off := c.descLane o.c
  let idx := c.descLane o.b
  issueElems (loadsSides (c.checkElems (badRecord [(o.a.rid, r)]) [(o.a.rid, r)] idx [(o.c.window, w, off, r.size)]
    fun l => mkElem l (idx l) (off l) 0 (c.area.readAll (w.bytes (off l) r.size)) 0) w off r.size) false
    (.copyOut o.a.rid r)

/-- `copy.xc`: into window N as the destination core holds it (R274). -/
def copyXc (o : OpsE) (c : Cx) : Cx :=
  let core := (c.reg o.d c.lead).toNat
  let size := c.uniform o.c
  let dst := FMap.get Win.none (c.grp.home core).wins o.a.window
  let src := c.window o.b.window
  let off := c.descLane o.a
  let from_ := c.descLane o.b
  if c.grp.cores.length ≤ core then
    (lanesOf c.solid).foldl (fun (c : Cx) l => c.parkWindow l o.a.window (off l) 2 (BitVec.ofNat 32 core)) c
      |>.command false (.copyXc core size dst) []
  else
    issueElems (loadsSides (c.checkElems none [] (fun _ => 0)
      [(o.a.window, dst, off, size), (o.b.window, src, from_, size)]
      fun l => mkElem l 0 (off l) 0 (c.area.readAll (src.bytes (from_ l) size)) 0) src from_ size) false
      (.copyXc core size dst)

/-- `copy.dd`: records of equal element size; the index is checked against D, then S (R274). -/
def copyDd (o : OpsE) (c : Cx) : Cx :=
  let (d, c) := c.record_ o.a.rid
  let (r, c) := c.record_ o.c.rid
  let idx := c.descLane o.b
  let rs := [(o.a.rid, d), (o.c.rid, r)]
  let bad := match badRecord rs with
    | some i => some i
    | none => if d.esize = r.esize then none else some o.a.rid
  issueElems (c.checkElems bad rs idx [] fun l => mkElem l (idx l) 0 0 [] 0) false (.copyDd o.a.rid d o.c.rid r)

/-- `copy` (R274). -/
def execCopy (o : OpsE) : State → Host.Outcome State Fault Refusal :=
  laneCommand 0x144 o false (match o.m.variant with
    | 0 => copyIn o
    | 1 => copyOut o
    | 2 => copyXc o
    | _ => copyDd o)

/-! ### Gathers, scatters and atomics -/

/-- The records of a gather or scatter, outermost first: A, then B and C out of the s register; inner ones must
have ESIZE 2 (R275). -/
def Cx.levels (c : Cx) (variant a : Nat) (d : Reg) : List (Nat × Rec) × Option Nat × Cx :=
  let v := if variant = 0 then 0 else (c.reg d c.lead).toNat
  let (ra, c) := c.record_ a
  if variant = 0 then ([(a, ra)], badRecord [(a, ra)], c)
  else
    let (rb, c) := c.record_ (v % 65536)
    if variant = 1 then
      let rs := [(a, ra), (v % 65536, rb)]
      (rs, inner rs, c)
    else
      let (rc, c) := c.record_ (v / 65536)
      let rs := [(a, ra), (v % 65536, rb), (v / 65536, rc)]
      (rs, inner rs, c)
where
  /-- The first invalid record, or inner record of another element size. -/
  inner (rs : List (Nat × Rec)) : Option Nat :=
    match badRecord rs with
    | some i => some i
    | none => ((rs.drop 1).find? fun r => r.2.esize ≠ 2).map (·.1)

/-- `gath` (R275). -/
def execGath (o : OpsE) : State → Host.Outcome State Fault Refusal :=
  laneCommand 0x145 o false fun c =>
    let (rs, bad, c) := c.levels o.m.variant o.b.rid o.d
    let w := c.window o.a.window
    let off := c.descLane o.a
    let idx := c.descLane o.c
    let size := ((rs.map (·.2)).getD 0 (recOf [])).size
    issueElems (c.checkElems bad (rs.drop o.m.variant) idx [(o.a.window, w, off, size)]
      fun l => mkElem l (idx l) (off l) o.m.variant [] 0) false (.gath (rs.map (·.1)) (rs.map (·.2)) w)

/-- `scat` (R275). -/
def execScat (o : OpsE) : State → Host.Outcome State Fault Refusal :=
  laneCommand 0x146 o false fun c =>
    let (rs, bad, c) := c.levels o.m.variant o.a.rid o.d
    let w := c.window o.c.window
    let off := c.descLane o.c
    let idx := c.descLane o.b
    let size := ((rs.map (·.2)).getD 0 (recOf [])).size
    issueElems (loadsSides (c.checkElems bad (rs.drop o.m.variant) idx [(o.c.window, w, off, size)]
      fun l => mkElem l (idx l) 0 o.m.variant (c.area.readAll (w.bytes (off l) size)) 0) w off size) false
      (.scat (rs.map (·.1)) (rs.map (·.2)))

/-- `ratom`: the old values land in the destination at completion (R276). -/
def execRatom (o : OpsE) : State → Host.Outcome State Fault Refusal :=
  laneCommand 0x147 o true fun c =>
    let (r, c) := c.record_ o.a.rid
    let idx := c.descLane o.b
    let wide := o.m.ty.wide
    let (opx, data) : Nat × (Nat → DWord) := match o.c with
      | .reg x rg => (x, c.atomData o.m.ty rg)
      | _ => (0, fun _ => 0)
    let (c, es) := c.checkElems (badRecord [(o.a.rid, r)]) [(o.a.rid, r)] idx []
      fun l => mkElem l (idx l) 0 0 (leBytes 8 (data l).toNat) (c.atomData o.m.ty o.d l).toNat
    let c := c.shiftAhead wide o.d
    if r.size = o.m.ty.width / 8 then
      c.command true (.ratom o.a.rid r opx o.m.ty o.m.variant) es o.m.flags (some o.d.code) wide
        (4 ≤ o.m.variant)
    else (es.foldl (fun (c : Cx) e => c.parkRecord e.1 o.a.rid 2 (idx e.1)) c).command true
        (.ratom o.a.rid r opx o.m.ty o.m.variant) []

/-! ### Gang instructions -/

/-- A gang instruction that writes memory: skipped when no lane executes or only helper lanes are active (R269).
(DEDUCED: log 37, 56) -/
def gangCommand (op : Nat) (o : OpsE) (isA : Bool) (body : Cx → Nat → Option Cx) (s : State) :
    Host.Outcome State Fault Refusal :=
  memOp op (.e o) o.h s fun c =>
    match lowest c.solid with
    | none => some c
    | some l => if c.full isA then none else body c l

/-- The fields of a collective descriptor, if its reserved parts are zero (R277). -/
def collDescOf (bs : List Byte) : Option CollDesc :=
  let at_ := fun i n => leNat ((bs.drop i).take n)
  let d : CollDesc := ⟨at_ 0 4, at_ 4 4, at_ 8 2, at_ 10 2, at_ 12 1 / 16, at_ 12 1 % 16, at_ 16 2 % 1024⟩
  if at_ 13 3 = 0 ∧ at_ 16 2 / 1024 = 0 ∧ at_ 18 14 = 0 then some d else none

/-- Whether a participant's own values keep the rules of R277. -/
def collOk (d : CollDesc) (ty : Ty) (dr sr : Rec) : Bool :=
  let reduces : Bool := d.kind ≤ 1
  2 ≤ d.np && d.np ≤ 4096 && d.rank < d.np && d.kind ≤ 3 && (!reduces || d.op ≤ 5) &&
  (ty ≠ .b32 || !reduces) && (!reduces || d.op ≤ 2 || ty = .i32 || ty = .n32) &&
  dr.size = ty.width / 8 && sr.size = ty.width / 8 &&
  (match d.kind with
    | 1 => sr.extent = d.np * dr.extent
    | 2 => dr.extent = d.np * sr.extent
    | _ => dr.extent = sr.extent)

/-- `coll` (R277, R95): a release of the gang's accesses to its input. -/
def execColl (o : OpsE) : State → Host.Outcome State Fault Refusal :=
  gangCommand 0x148 o false fun c l =>
    (c.peekPorts 0x148 (.e o)).map fun c =>
      let (dr, c) := c.record_ o.a.rid
      let (sr, c) := c.record_ o.b.rid
      let w := c.window o.c.window
      let off := c.descLane o.c l
      let desc := if w.extent < off + 32 then none else collDescOf (c.area.readAll (w.bytes off 32))
      let c := if w.extent < off + 32 then c else c.sees (w.bytes off 32)
      let good : Option CollDesc := match desc with
        | some d => if !dr.invalid && !sr.invalid && collOk d o.m.ty dr sr then some d else none
        | none => none
      let c := match good with
        | some d => c.command false (.coll o.a.rid dr o.b.rid sr d o.m.ty) [(l, mkElem l 0 0 0 [] 0)] o.m.flags none
            false true
        | none => (c.park l (c.record l 5 2 0 o.a.rid (BitVec.ofNat 32 off))).command false
            (.coll o.a.rid dr o.b.rid sr ⟨0, 0, 0, 0, 0, 0, 0⟩ o.m.ty) []
      c.popPeeked 0x148 (.e o)

/-- The code of a predicate destination, if one is given (R268). -/
def predCode (r : Reg) : Option Nat :=
  match r with
  | .p n => some (712 + n)
  | _ => none

/-- The last-result file shifted for a predicate destination, if one is given (R127). -/
def Cx.shiftPred (c : Cx) (r : Reg) : Cx := if (predCode r).isSome then c.shiftAhead false r else c

/-- `publish` (R281). -/
def execPublish (o : OpsE) : State → Host.Outcome State Fault Refusal :=
  gangCommand 0x14A o true fun c l =>
    let (r, c) := c.record_ o.a.rid
    let c := c.shiftPred o.b.theReg
    if r.invalid then some ((c.parkRecord l o.a.rid 2 0).command true (.publish o.a.rid) [])
    else some (c.command true (.publish o.a.rid) [(l, mkElem l 0 0 0 [] 0)] o.m.flags (predCode o.b.theReg) false true)

/-- The record-bound reason of a signal element: an invalid record or another element size, or an element beyond
EXTENT (R282, R283, R284). -/
def elementFault (r : Rec) (esize e : Nat) : Option Nat :=
  if r.invalid || r.esize ≠ esize then some 2 else if r.extent ≤ e then some 1 else none

/-- `sigadd` (R282). -/
def execSigadd (o : OpsE) : State → Host.Outcome State Fault Refusal :=
  gangCommand 0x14C o true fun c l =>
    let (r, c) := c.record_ o.a.rid
    let e := c.uniform o.b
    let op := CmdOp.sigadd o.a.rid r (c.uniform64 o.c)
    match elementFault r 3 e with
    | some n => some ((c.parkRecord l o.a.rid n e).command true op [])
    | none => some (c.command true op [(l, mkElem l e 0 0 [] 0)] o.m.flags none false (o.m.variant = 4))

/-- `launch`: first as a release fence (R284). -/
def execLaunch (o : OpsE) : State → Host.Outcome State Fault Refusal :=
  gangCommand 0x14E o true fun c l =>
    if releasePending c.s c.dn c.gid c.gi then none
    else
      let (r, c) := (c.fenceAt 2).record_ o.a.rid
      let e := c.uniform o.b
      let op := CmdOp.launch o.a.rid r (c.uniform o.c)
      let c := c.shiftPred o.d
      match elementFault r 6 e with
      | some n => some ((c.parkRecord l o.a.rid n e).command true op [])
      | none => some (c.command true op [(l, mkElem l e 0 0 [] 0)] 2 (predCode o.d) false true)

/-- The gang acquires what the collectives give that a `wait` finds complete (R95). -/
def Cx.collects (c : Cx) (v : Nat × Nat) : Cx :=
  { c.onKnow (fun k => k.took c.k.issued (c.k.seesDone v)) with grp := c.grp.acquire (c.k.know.due (c.k.seesDone v)) }

/-- `wait`: holds until both counts do, takes the faults of the commands that they require, and sees those commands
complete (R80, R95, R185, R279). -/
def execWait (o : OpsE) (s : State) : Host.Outcome State Fault Refusal :=
  issueWith 0x149 (.e o) o.h s fun c =>
    let v := countsOf (c.uniform o.a)
    if c.em = 0 then some c
    else if c.k.countsHold v then some (({ c with k := c.k.takeLate c.sup v } : Cx).collects v)
    else none

/-- `fence` (R280). -/
def execFence (o : OpsE) (s : State) : Host.Outcome State Fault Refusal :=
  issueWith 0x14B (.e o) o.h s fun c =>
    if c.em ≠ 0 && 4 ≤ o.m.variant && releasePending c.s c.dn c.gid c.gi then none
    else if c.em ≠ 0 then some (c.ordered o.m.variant o.m.flags)
    else some c

/-- Every quad of the sub-gang but quad `q` stays at the instruction. -/
def Cx.holdAll (c : Cx) : Cx := { c with out := c.qs.map fun q => (q, .hold) }

/-- The quad of lane `l` vectors for a page-not-present fault of the lane; the others stay at the instruction
(R189). -/
def Cx.pageTrap (c : Cx) (l addr loc : Nat) (value : Word) : Cx :=
  let q := l / 4
  let k := c.k.putRecord l (c.record l 6 0 addr loc value)
  let (s, k) := takeTrap c.s c.dn k q 6 (BitVec.ofNat 4 (2 ^ (l % 4))) c.pc
  { c with s := s, k := k, qs := c.qs.filter (· ≠ q) }.holdAll

/-- `sigwait` (R283): the first issue takes the snapshot and reads the element, on an SO page after the gang's earlier
accesses of such pages (R85); the sub-gang then waits until a read suffices. (DEDUCED: log 65) -/
def execSigwait (o : OpsE) (s : State) : Host.Outcome State Fault Refusal :=
  memOp 0x14D (.e o) o.h s fun c =>
    match lowest c.em with
    | none => some c
    | some l =>
      let waits := c.qs.map fun q => (c.k.quad q).sigw
      let leave : Cx → List Release → Cx := fun c rs =>
        (({ c with k := c.qs.foldl (fun k q => k.onQuad q fun u => { u with sigw := none }) c.k } : Cx).onKnow (·.observe rs)).acquire
          (acquired rs c.agent o.m.flags)
      match waits.head? with
      | some (some w) =>
        if waits.all (· = some w) && w.pc = c.pc then (if w.met then some (leave c w.saw) else none)
        else first c l
      | _ => first c l
where
  /-- The first issue. -/
  first (c : Cx) (l : Nat) : Option Cx :=
    let (r, c) := c.record_ o.a.rid
    let e := c.uniform o.b
    let target := c.uniform64 o.c
    match elementFault r 3 e with
    | some n => some (c.parkRecord l o.a.rid n e)
    | none =>
      if (kindsOf c.s c.dn (r.frontAddrs e)).contains 0 &&
          (soPending c.s c.dn c.gid c.gi || soQueued c.s c.dn c.gid c.gi) then none
      else match readElem c.s.rested c.dn (r.frontAddrs e) with
      | (.error (cause, a), s) =>
        let c := { c with s := s.rested }
        if cause.1 = 6 then some (c.pageTrap l (a / 64 * 64) o.a.rid (BitVec.ofNat 32 e))
        else some (c.park l (c.record l cause.1 cause.2 (a / 64 * 64) o.a.rid (BitVec.ofNat 32 e)))
      | (.ok bs, s) =>
        let c := { c with s := s.rested }
        if target ≤ leNat bs then
          some ((c.onKnow (·.observe s.trace.saw)).acquire (acquired s.trace.saw c.agent o.m.flags))
        else
          let w : SigWait := ⟨c.pc, o.a.rid, r, e, target, l, false, []⟩
          some { c with k := c.qs.foldl (fun k q => k.onQuad q fun u => { u with sigw := some w }) c.k }.holdAll

end Sys2Proof.Machine
end

