-- ==== Sys2Proof/Machine/EngineSteps.lean ====
section
/-!
DEFINITION. How engine commands are carried out: elements are performed at the memory slices, or through request
cells at an exporter (R32, R71, R72), in any order that R70, R85 and R89 to R91 allow; commands complete in issue
order within their class (R133), and their results land.
-/
namespace Sys2Proof.Machine

/-- A step of another agent on a die. (DESIGN CHOICE: log 10) -/
def onDieStep (s : State) (dn : Nat) (f : State → State) : Host.Outcome State Fault Refusal :=
  if dn < 8 then .next (f s) else .fault .noSuchDie

/-- An element of a command replaced. -/
def putElem (s : State) (dn cid eid : Nat) (e : Elem) : State :=
  s.onDie dn fun d => { d with cmds := d.cmds.modify cid fun c => { c with elems := c.elems.insert eid e } }

/-- The gang of a command changed. -/
def onCmdGang (s : State) (dn : Nat) (cmd : Cmd) (f : Gang → Gang) : State := s.onGang dn cmd.gid cmd.gang f

/-- Gang `gi` of a group, if it is there. -/
def groupGang (s : State) (dn gid gi : Nat) : Gang :=
  match (s.die dn).group gid with
  | some g => g.gang gi
  | none => Gang.empty

/-- The gang of a command. -/
def cmdGang (s : State) (dn : Nat) (cmd : Cmd) : Gang := groupGang s dn cmd.gid cmd.gang

/-- Whether quad `q` of a gang can take no fault any more: it has exited (R185, R189). (DEDUCED: log 62) -/
def Gang.goneQuad (k : Gang) (q : Nat) : Bool := (k.quad q).exited

/-- The record of an element's fault (R181). -/
def elemFaultRec (cmd : Cmd) (e : Elem) (cause : Cause) (addr loc : Nat) : FaultRec :=
  ⟨cause.1, cause.2, cmd.gang, e.lane, cmd.opc, cmd.pc, addr, loc, BitVec.ofNat 32 e.issued⟩

/-- An element whose access faults: held for a page that is not present, else faulted. A page fault of a quad that
has exited, or of a command issued in supervisor state, is beyond recovery (R71, R187, R189). (DEDUCED: log 62) -/
def failElem (s : State) (dn cid eid : Nat) (cmd : Cmd) (e : Elem) (cause : Cause) (addr : Nat) : State :=
  let line := addr / 64 * 64
  if cause.1 = 6 then
    let s := putElem s dn cid eid { e with state := .held line false }
    if cmd.sup || (cmdGang s dn cmd).goneQuad (e.lane / 4) then
      onCmdGang s dn cmd fun k => (k.putRecord e.lane (elemFaultRec cmd e cause line (elemRecord cmd.op e))).loseAt 6 cmd.issue
    else s
  else putElem s dn cid eid { e with state := .faulted (elemFaultRec cmd e cause line (elemRecord cmd.op e)) }

/-! ### What an access of a command leaves -/

/-- The agent of a command (R77). -/
def Cmd.agent (cmd : Cmd) (dn : Nat) : Agent := .gang dn cmd.gid cmd.gang

/-- The scope at which a command's own write releases, if it does; a collective releases at its issue (R88, R95). -/
def Cmd.releases (cmd : Cmd) : Option Nat := if cmd.release && !cmd.isColl then some cmd.scope else none

/-- What a step has done for a command: its gang knows of the writes that its releases cover, and the command keeps the
others and what it has observed (R79, R80). -/
def State.credit (s : State) (dn cid : Nat) (cmd : Cmd) : State :=
  let late := fun (w : Nat × Bool) => w.2 || cmd.isNor
  let now := (s.trace.wrote.filter fun w => !late w).map (·.1)
  let own := (s.trace.wrote.filter late).map (·.1)
  let s' := onCmdGang s dn cmd fun k => { k with know := k.know.learn (cmd.issue + 1) now }
  (s'.onDie dn fun d => { d with cmds := d.cmds.modify cid fun c => { c with
    seen := { c.seen with own := withAll c.seen.own own, reads := c.seen.reads ++ s.trace.saw } } }).rested

/-- A step that makes accesses for a command. An atomic that acquires and releases covers with its write what it acquires
(R79, R89). -/
def actFor (s : State) (dn cid : Nat) (cmd : Cmd) (f : State → State) : State :=
  let know := (cmdGang s dn cmd).know
  let go := fun ws => f (s.acting ((know.learn cmd.issue ws).releases (cmd.agent dn) cmd.issue cmd.releases))
  let t := go []
  let ws := if cmd.acquires && cmd.release then acquired t.trace.saw (cmd.agent dn) cmd.scope else []
  (if ws.isEmpty then t else go ws).credit dn cid cmd

/-! ### Whether an element may be performed now -/

/-- Whether a command is an atomic read-modify-write. -/
def CmdOp.isAtomic : CmdOp → Bool
  | .ratom _ _ _ _ _ => true
  | .sigadd _ _ _ => true
  | _ => false

/-- Whether an earlier pending element must be performed before a later one of the same gang. On SO pages accesses keep
issue order, those of levels to come too; a write waits for an earlier one to a common byte, if one instruction
supplied both, or the page is not UO, or both are atomics, through whatever mappings they reach it. `.nor` keeps the
lanes of one instruction alone in order (R70, R85, R89, R91, R92). (DEDUCED: log 55) -/
def mustPrecede (s : State) (dn : Nat) (same : Bool) (c1 : Cmd) (e1 : Elem) (c2 : Cmd) (e2 : Elem) : Bool :=
  let d := s.die dn
  let k2 := elemKinds s dn c2.op e2
  if (c1.isNor || c2.isNor) && !same then false
  else
    (!c1.isNor && k2.contains 0 && touches s dn (· = 0) c1.op e1) ||
    (elemWrites c2.op e2 && (same || k2.any (· ≠ 2) || (c1.op.isAtomic && c2.op.isAtomic)) &&
      mayWrite s dn c1.op e1 (elemAddrs d c2.op e2))

/-- Whether a command's release still waits for what it covers (R80). -/
def releaseWaits (s : State) (dn : Nat) (cmd : Cmd) : Bool :=
  cmd.release && cmd.covers.any fun i => match (s.die dn).cmds.find? i with
    | some c => c.covered s dn
    | none => false

/-- Whether a command is recorded and held: its group has been pre-empted, a quad of its gang is there to save it, and
the command is not one of the pre-emption handler. Those of a gang that has exited run to completion (R191, R360). -/
def heldBack (s : State) (dn : Nat) (cmd : Cmd) : Bool :=
  match (s.die dn).group cmd.gid with
  | some g => g.pre && g.runs && !cmd.pre && !(g.gang cmd.gang).liveQuads.isEmpty
  | none => false

/-- Whether an element still waits for join instructions that its gang issued before its command. -/
def waitsForJoin (s : State) (dn : Nat) (cmd : Cmd) (e : Elem) : Bool :=
  (joinQueued s dn cmd.gid cmd.gang).any fun j => j.1.issue < cmd.issue && joinBeforeElem s dn j.2 cmd e

/-- Whether an element may be performed now. (DEDUCED: log 55, 133) -/
def mayPerform (s : State) (dn cid eid : Nat) (cmd : Cmd) (e : Elem) : Bool :=
  !heldBack s dn cmd && !releaseWaits s dn cmd &&
  !((gangCmds (s.die dn) cmd.gid cmd.gang).any fun c =>
    c.1 ≤ cid && c.2.elems.any fun x =>
      (c.1 < cid || x.1 < eid) && x.2.pending && mustPrecede s dn (c.1 = cid) c.2 x.2 cmd e) &&
  !waitsForJoin s dn cmd e

/-! ### What an element becomes when its access has been performed -/

/-- An element after its read at the present level (R274, R275, R284). -/
def afterRead (cmd : Cmd) (e : Elem) (bs : List Byte) : Elem :=
  let next := fun (ids : List Nat) (rs : List Rec) =>
    let j := leNat bs
    if (rs.getD (e.level - 1) (recOf [])).extent ≤ j then
      { e with state := .faulted ⟨5, 1, cmd.gang, e.lane, cmd.opc, cmd.pc, j, ids.getD (e.level - 1) noLoc,
                                  BitVec.ofNat 32 e.issued⟩ }
    else { e with idx := j, level := e.level - 1, state := .waiting }
  match cmd.op with
  | .copyDd _ _ _ _ | .launch _ _ _ | .coll _ _ _ _ _ _ => { e with data := bs, level := 1, state := .waiting }
  | .gath ids rs _ => if e.level = 0 then { e with data := bs, state := .performed } else next ids rs
  | .scat ids rs => next ids rs
  | _ => { e with data := bs, state := .performed }

/-- Whether a command may not write through a record with RO = 1 (R66). (DEDUCED: log 58) -/
def readOnly (cmd : Cmd) : Bool :=
  match cmd.op with
  | .copyOut _ r | .ratom _ r _ _ _ | .sigadd _ r _ => r.ro
  | .copyDd _ r _ _ | .coll _ r _ _ _ _ => r.ro
  | .scat _ rs => (rs.getD 0 (recOf [])).ro
  | _ => false

/-- The bytes an element writes at its present level. -/
def writeData (e : Elem) : List Byte := e.data

/-! ### Requests to an exporter -/

/-- The handle of a peer-window address whose exporter can be reached, with the destination and port of a request
cell (R36, R39, R43, R72). -/
def reach (s : State) (dn va : Nat) : Access (Nat × Nat × Nat) :=
  match openImport s dn va with
  | (.error (c, _), s) => (.error (c, va), s)
  | (.ok h, s) => (.ok (if elsewhere h then (h, 0xF, handlePort h) else (h, handleDie h, 0)), s)

/-- The request cells of an element that lies in one export: each takes a tag of its own, and the element waits for their
answers (R32). A request is its first address, its position in the element, type, payload and content. (DESIGN CHOICE:
log 13, 60) -/
def sendRequests (s : State) (dn cid eid : Nat) (cmd : Cmd) (e : Elem) (as : List Nat)
    (mk : Nat → List (Nat × Nat × List Byte × CellBody)) : State :=
  match reach s dn (as.headD 0) with
  | (.error (c, a), s) => failElem s dn cid eid cmd e c a
  | (.ok (h, dst, port), s) =>
    let (s, tags) := (mk h).foldl (fun (x : State × List Nat) t =>
      let (pos, ty, pay, body) := t
      let d := x.1.die dn
      let tag := d.nextId
      let s := x.1.setDie dn { d with nextId := tag + 1, remote := d.remote.insert (tag % 2 ^ 32) (cid, eid, pos) }
      (sendCell s dn { mkCell dn dst 0 ty tag pay body with port := port }, x.2 ++ [tag % 2 ^ 32]))
      (if elsewhere h && !((mk h).all fun t => t.2.1 = 0x00) then s.tellPeers else s, [])
    putElem s dn cid eid { e with state := .sent tags, data := if e.data.isEmpty then as.map fun _ => 0 else e.data }

/-- The read requests of an element, one for each line. -/
def readRequests (as : List Nat) (h : Nat) : List (Nat × Nat × List Byte × CellBody) :=
  (lineChunks as).map fun ch => (ch.2.2, 0x00, noPayload, .readReq h (peerOffset ch.1) ch.2.1)

/-- The write requests of an element, one for each line. The exporter keeps the bytes of the earlier cells, and the last
cell has it write them all (R71). (DESIGN CHOICE: log 60) -/
def writeRequests (as : List Nat) (data : List Byte) (h : Nat) : List (Nat × Nat × List Byte × CellBody) :=
  let part := fun (ch : Nat × Nat × Nat) => (data.drop ch.2.2).take ch.2.1
  let all := (lineChunks as).map fun ch => (peerOffset ch.1, part ch)
  (lineChunks as).zipIdx.map fun x =>
    (x.1.2.2, 0x01, part x.1, .writeReq h (if x.2 + 1 = (lineChunks as).length then all else []))

/-! ### Performing -/

/-- The read of an element at its present level. -/
def performRead (s : State) (dn cid eid : Nat) (cmd : Cmd) (e : Elem) : State :=
  let as := elemAddrs (s.die dn) cmd.op e
  if oneImport as then sendRequests s dn cid eid cmd { e with data := [] } as (readRequests as)
  else match readElem s dn as with
    | (.error (c, a), s) => failElem s dn cid eid cmd e c a
    | (.ok bs, s) => putElem s dn cid eid (afterRead cmd e bs)

/-- The write of an element. (DEDUCED: log 58) -/
def performWrite (s : State) (dn cid eid : Nat) (cmd : Cmd) (e : Elem) : State :=
  let as := elemAddrs (s.die dn) cmd.op e
  if readOnly cmd then failElem s dn cid eid cmd e roRecord (as.headD 0)
  else if oneImport as then sendRequests s dn cid eid cmd e as (writeRequests as (writeData e))
  else match writeElem s dn (as.zip (writeData e)) with
    | (.error (c, a), s) => failElem s dn cid eid cmd e c a
    | (.ok _, s) => putElem s dn cid eid { e with state := .performed }

/-- An atomic of an element at its home slice: the old value is kept for the destination (R89, R276, R282).
(DEDUCED: log 117, 129) -/
def performAtomic (s : State) (dn cid eid : Nat) (cmd : Cmd) (e : Elem) (ty : Ty) (opx : Nat) (v : DWord) : State :=
  let n := ty.width / 8
  let as := (elemAddrs (s.die dn) cmd.op e).take n
  if readOnly cmd then failElem s dn cid eid cmd e roRecord (as.headD 0)
  else
  let request := fun h => CellBody.atomicReq h (as.map peerOffset) opx ty v.toNat e.compare
  if oneImport as then
    sendRequests s dn cid eid cmd e as fun h => [(0, 0x02, leBytes 8 v.toNat, request h)]
  else match atomicElem s dn as request fun old =>
      (atomStep ty opx (BitVec.ofNat 64 old) v (BitVec.ofNat 64 e.compare)).toNat with
    | (.error (c, a), s) => failElem s dn cid eid cmd e c a
    | (.ok old, s) => putElem s dn cid eid { e with old := old, state := .performed }

/-- The record write of a publish (R67, R281). -/
def performPublish (s : State) (dn cid eid rid : Nat) (cmd : Cmd) (e : Elem) : State :=
  match publishRecord s dn rid with
  | (.error (c, a), s) => failElem s dn cid eid cmd e c a
  | (.ok b, s) =>
    (putElem s dn cid eid { e with state := .performed }).onDie dn fun d =>
      { d with cmds := d.cmds.modify cid fun c => { c with flag := b } }

/-! ### Submitting a command record -/

/-- Free slots of a ring: the condition of a reservation (R47). -/
def ringRoom (q : Queue) : Bool := (q.resv + 4294967296 - q.head) % 4294967296 < 2 ^ q.log

/-- TAIL advanced over the records that have been committed in order (R47). -/
def advanceTail (q : Queue) : (fuel : Nat) → Queue
  | 0 => q
  | n + 1 =>
    if q.committed.contains q.tail then
      advanceTail { q with tail := (q.tail + 1) % 4294967296, committed := q.committed.erase q.tail } n
    else q

/-- A record committed (R47). (DEDUCED: log 49) -/
def commitRecord (q : Queue) (r : Nat) : Queue :=
  advanceTail { q with committed := r :: q.committed } (q.committed.length + 1)

/-- The submission of `launch`: refused, waiting for a slot, or reserved, written and committed in one step, which is the
release that the command's start observes; once the queue has been found able to take it, only the slot is waited for
(R284). (DEDUCED: log 49) -/
def performSubmit (s : State) (dn cid eid qn : Nat) (cmd : Cmd) (e : Elem) : State :=
  let done := fun (s : State) (b : Bool) =>
    (putElem s dn cid eid { e with state := .performed }).onDie dn fun d =>
      { d with cmds := d.cmds.modify cid fun c => { c with flag := b } }
  let q := (s.die dn).queue qn
  if e.level = 1 && (63 < qn || !q.en || q.qerr ≠ 0) then done s false
  else if !ringRoom q then
    if e.level = 1 then putElem s dn cid eid { e with level := 2 } else s
  else match writeElem s dn ((span (ringAddr q q.resv) 64).zip e.data) with
    | (.error (c, a), s) => failElem s dn cid eid cmd e c a
    | (.ok _, s) =>
      done (s.onDie dn fun d =>
        d.setQueue qn (commitRecord { q with
          resv := (q.resv + 1) % 4294967296, shared := true
          told := q.told.insert q.resv (acquired s.trace.releases (.commandProcessor dn) 2) } q.resv)) true

/-! ### Collectives -/

/-- A collective command: its die, number and parts. -/
structure CollCmd where
  dn : Nat
  cid : Nat
  cmd : Cmd
  d : CollDesc
  ty : Ty
  dr : Rec
  sr : Rec
  e : Elem
  deriving DecidableEq, Repr

/-- The collective commands of a die. -/
def collsOn (s : State) (dn : Nat) : List CollCmd :=
  (s.die dn).cmds.filterMap fun c => match c.2.op, c.2.elems with
    | .coll _ dr _ sr d ty, (_, e) :: _ => some ⟨dn, c.1, c.2, d, ty, dr, sr, e⟩
    | _, _ => none

/-- The collective commands of a die that have still to take part in their ring, in order of issue. -/
def collsOpen (s : State) (dn : Nat) : List CollCmd := (collsOn s dn).filter fun x => x.e.level < 2 && x.e.pending

/-- The participant that NEXT names, on that import's die: of the same CID with the next rank, the first command of one
rank with the first of the other, and so on; or else one whose own values give it no place in the ring: of the same CID
with another NP, or with the next rank under another CID for the same mailbox (R277, R278). (DESIGN CHOICE: log 57, 120)
-/
def collNext (s : State) (x : CollCmd) : Option CollCmd :=
  match (importHandle s x.dn x.d.next).1 with
  | .ok h =>
    if elsewhere h then none
    else
      let ys := collsOpen s (handleDie h)
      let next := (x.d.rank + 1) % x.d.np
      let before := (collsOpen s x.dn).filter fun y => y.d.cid = x.d.cid && y.d.rank = x.d.rank && y.cid < x.cid
      (ys.filter fun y => y.d.cid = x.d.cid && y.d.rank = next)[before.length]? <|>
      (ys.find? fun y => y.d.cid = x.d.cid && y.d.np ≠ x.d.np) <|>
      ys.find? fun y => y.d.cid ≠ x.d.cid && y.d.rank = next && Config.sharesMailbox x.d.cid y.d.cid
  | .error _ => none

/-- The participants from one on, if every participant has issued, and whether they close in a ring. (DESIGN CHOICE: log
57) -/
def collRing (s : State) (x0 : CollCmd) : (fuel : Nat) → CollCmd → List CollCmd → Option (List CollCmd × Bool)
  | 0, _, acc => some (acc, false)
  | n + 1, x, acc =>
    match collNext s x with
    | none => none
    | some y =>
      if y.dn = x0.dn ∧ y.cid = x0.cid then some (acc ++ [x], true)
      else if (acc ++ [x]).any fun z => z.dn = y.dn && z.cid = y.cid then some (acc ++ [x], false)
      else collRing s x0 n y (acc ++ [x])

/-- n of R277. -/
def CollCmd.n (x : CollCmd) : Nat := if x.d.kind = 1 then x.dr.extent else x.sr.extent

/-- Whether two neighbours agree (R278). -/
def CollCmd.agrees (x y : CollCmd) : Bool :=
  x.d.cid = y.d.cid && x.d.seq = y.d.seq && x.d.np = y.d.np && x.d.kind = y.d.kind &&
  (2 ≤ x.d.kind || x.d.op = y.d.op) && x.ty = y.ty && x.n = y.n

/-- The step of a reduction on bit patterns of the type (R278). -/
def collStep (ty : Ty) (op : Nat) (a b : Nat) : Nat :=
  if ty.isFloat then
    let f := ffmt ty
    match op with
    | 0 => (addF f 0 false (fval f a) (fval f b)).1
    | 1 => (minmaxF f false false a b).1
    | _ => (minmaxF f false true a b).1
  else (atomStep ty op (BitVec.ofNat 64 a) (BitVec.ofNat 64 b) 0).toNat

/-- Element `i` of the source of a participant. -/
def CollCmd.elem (x : CollCmd) (i : Nat) : Nat :=
  leNat ((x.e.data.drop (x.sr.size * i)).take x.sr.size)

/-- Element `i` of the all-reduce, ranks in ascending order (R278). -/
def reduceElem (ring : List CollCmd) (ty : Ty) (op i : Nat) : Nat :=
  match ring with
  | [] => 0
  | x :: r => r.foldl (fun acc y => collStep ty op acc (y.elem i)) (x.elem i)

/-- The bytes of D of a participant of the ring, which is sorted by rank (R278). -/
def collResult (ring : List CollCmd) (x : CollCmd) : List Byte :=
  let size := x.dr.size
  match x.d.kind with
  | 0 => (List.range x.n).flatMap fun i => leBytes size (reduceElem ring x.ty x.d.op i)
  | 1 => (List.range x.n).flatMap fun i => leBytes size (reduceElem ring x.ty x.d.op (x.d.rank * x.n + i))
  | 2 => ring.flatMap fun y => y.e.data
  | _ => match ring with
    | y :: _ => y.e.data
    | [] => []

/-- The commands whose way round the ring leads to a participant of a list: all that a mismatch sent round it reaches. -/
def collReached (s : State) (ring : List CollCmd) : List CollCmd :=
  ring ++ ((List.range 8).flatMap (collsOpen s)).filter fun w =>
    !ring.contains w && (match collRing s w 4096 w [] with
      | some (ws, _) => ws.any ring.contains
      | none => false)

/-- Why a participant's data cannot reach the mailbox that NEXT names: the import, the way, or the exporter's check of
the 64 KiB that it writes (R36, R39, R277). (DESIGN CHOICE: log 57) -/
def CollCmd.fault (s : State) (x : CollCmd) : Option Cause :=
  match (importHandle s x.dn x.d.next).1 with
  | .error (c, _) => some c
  | .ok h => match wayFault s x.dn h with
    | some c => some c
    | none =>
      if elsewhere h then none
      else match exporterCheck (s.die (handleDie h)) h 0 65536 .write with
        | .error c => some c
        | .ok _ => none

/-- Whether a link on a participant's way to the next one retrains (R36). -/
def CollCmd.held (s : State) (x : CollCmd) : Bool :=
  match (importHandle s x.dn x.d.next).1 with
  | .ok h => wayRetrains s x.dn h
  | .error _ => false

/-- The release that a participant's issue is (R95). -/
def CollCmd.issued (s : State) (x : CollCmd) : Release :=
  ⟨x.cmd.agent x.dn, x.cmd.scope, (cmdGang s x.dn x.cmd).know.before x.cmd.issue⟩

/-- The collective step: a participant that cannot reach the next one faults; once every participant has issued and its
source has been read, each takes its result and observes the others' issues, or all fault where two neighbours disagree
(R36, R39, R278). (DESIGN CHOICE: log 57) -/
def performRing (s : State) (dn cid : Nat) : State :=
  match (collsOpen s dn).find? fun x => x.cid = cid with
  | none => s
  | some x => match x.fault s with
    | some c => failElem s dn cid x.e.lane x.cmd x.e c (peerBase + x.d.next * 2 ^ 38)
    | none => match collRing s x 4096 x [] with
    | none => s
    | some (ring, closed) =>
      let bad := !closed || (ring.zip (ring.drop 1 ++ ring.take 1)).any fun p => !p.1.agrees p.2
      if ring.any (CollCmd.held s) || ring.any (fun y => (y.fault s).isSome) then s
      else if bad then
        (collReached s ring).foldl (fun s y =>
          let r : FaultRec := ⟨5, 2, y.cmd.gang, y.e.lane, y.cmd.opc, y.cmd.pc, 0,
            elemRecord y.cmd.op { y.e with level := 2 }, BitVec.ofNat 32 y.e.issued⟩
          putElem s y.dn y.cid y.e.lane { y.e with state := .faulted r }) s
      else if ring.all fun y => y.e.level = 1 && y.e.state = .waiting then
        let sorted := (List.range x.d.np).filterMap fun r => ring.find? fun y => y.d.rank = r
        let rels := ring.map (CollCmd.issued s)
        ring.foldl (fun s y =>
          (putElem s y.dn y.cid y.e.lane { y.e with level := 2, data := collResult sorted y }).onDie y.dn fun d =>
            { d with cmds := d.cmds.modify y.cid fun c => { c with seen := { c.seen with ring := rels } } }) s
      else s

/-! ### The element step -/

/-- An element performed. (DEDUCED: log 117) -/
def performElem (s : State) (dn cid eid : Nat) (cmd : Cmd) (e : Elem) : State :=
  match cmd.op with
  | .copyXc _ _ _ => putElem s dn cid eid { e with state := .performed }
  | .ratom _ _ opx ty _ => performAtomic s dn cid eid cmd e ty opx (BitVec.ofNat 64 (leNat e.data))
  | .sigadd _ _ v => performAtomic s dn cid eid cmd e .n64 0 (BitVec.ofNat 64 v)
  | .publish rid => performPublish s dn cid eid rid cmd e
  | .launch _ _ q => if e.level = 0 then performRead s dn cid eid cmd e else performSubmit s dn cid eid q cmd e
  | .coll _ _ _ _ _ _ =>
    if e.level = 0 then performRead s dn cid eid cmd e
    else if e.level = 1 then performRing s dn cid
    else performWrite s dn cid eid cmd e
  | op => if elemWrites op e then performWrite s dn cid eid cmd e else performRead s dn cid eid cmd e

/-- The engine-element step (R71); the elements of an ended lane cease (R188). -/
def execEngineElementPerformed (d c e : Nat) (s : State) : Host.Outcome State Fault Refusal :=
  onDieStep s d fun s =>
    match (s.die d).cmds.find? c with
    | none => s
    | some cmd => match cmd.elems.find? e with
      | none => s
      | some el =>
        if el.state ≠ .waiting then s
        else if (((cmdGang s d cmd).quad (el.lane / 4)).ended).getLsbD (el.lane % 4) then
          putElem s d c e { el with state := .faulted FaultRec.none }
        else if mayPerform s d c e cmd el then
          actFor s d c cmd fun s => performElem s d c e cmd el
        else s

/-! ### Completion -/

/-- Whether a command is the oldest of its gang and class (R133). -/
def oldest (d : Die) (cmd : Cmd) : Bool :=
  (gangCmds d cmd.gid cmd.gang).all fun c => c.2.isA ≠ cmd.isA || cmd.ord ≤ c.2.ord

/-- The scratchpad bytes that land at completion: on which group core, and what, in lane order (R70, R84, R274).
(DESIGN CHOICE: log 54) -/
def landBytes (k : Gang) (cmd : Cmd) : Nat × List (Nat × Byte) :=
  let of := fun (w : Win) (n : Nat) => cmd.elems.flatMap fun e =>
    match e.2.state with
    | .performed => (w.bytes e.2.off n).zip e.2.data
    | _ => []
  match cmd.op with
  | .copyIn _ r w => (k.core, of w r.size)
  | .gath _ rs w => (k.core, of w (rs.getD 0 (recOf [])).size)
  | .copyXc core size w => (core, of w size)
  | _ => (0, [])

/-- The lanes whose elements have been performed. -/
def doneLanes (cmd : Cmd) : Word := maskOf fun l => match cmd.elems.find? l with
  | some e => e.state = .performed
  | none => false

/-- The quads whose lanes a mask holds. -/
def quadsOf (m : Word) : List Nat := (List.range 8).filter fun q => quadBits m q ≠ 0

/-- A command's register result written, entering the last-result file where its instruction shifted it (R127, R276,
R281, R284). (DEDUCED: log 59, 131) -/
def landRegister (s : State) (dn : Nat) (g : Group) (cmd : Cmd) : State × Group :=
  match cmd.dest with
  | none => (s, g)
  | some code =>
    let k := g.gang cmd.gang
    let c : Cx :=
      { s := s, dn := dn, gid := cmd.gid, gi := cmd.gang, sgt := 0, grp := g, k := k, qs := quadsOf cmd.lanes,
        sup := cmd.sup, pc := cmd.pc, op := cmd.opc, nh := true, act := cmd.lanes, em := cmd.lanes,
        helpers := helperMask g.block cmd.gang, pops := [], out := [], parks := [] }
    let old := fun l => match cmd.elems.find? l with
      | some e => BitVec.ofNat 64 e.old
      | none => 0
    let faulted := cmd.elems.any fun e => e.2.state ≠ .performed
    let c := match regOf code with
      | .p n => c.land false (.p n) cmd.marks (if faulted then 0 else cmd.lanes) fun _ => if cmd.flag then 1 else 0
      | r => c.land cmd.wide r cmd.marks (doneLanes cmd) old
    (c.s, c.grp.onGang cmd.gang fun _ => c.k)

/-- The faults of a command's elements, to be taken at a wait, or beyond recovery where the gang has exited (R185). -/
def landFaults (k : Gang) (cmd : Cmd) : Gang :=
  cmd.elems.foldl (fun (k : Gang) e =>
    match e.2.state with
    | .faulted r =>
      if r.cls = 0 then k
      else if k.liveQuads.isEmpty then (k.putRecord r.lane r).loseAt r.cls cmd.issue
      else
        let f : LateFault := ⟨cmd.ord, cmd.issue, r.lane, r⟩
        if cmd.isA then { k with lateA := k.lateA ++ [f] } else { k with lateC := k.lateC ++ [f] }
    | _ => k) k

/-- What the completion of a command has its gang know: what its reads observed, what its acquire is of, and what the
gang has still to see complete (R79 to R81, R95). -/
def completeKnow (k : Know) (dn : Nat) (cmd : Cmd) : Know × List Nat :=
  let got := if cmd.acquires then acquired cmd.seen.reads (cmd.agent dn) cmd.scope else []
  let ring := acquired cmd.seen.ring (cmd.agent dn) cmd.scope
  (((k.observe cmd.seen.reads).learn cmd.issue got).leave ⟨if cmd.isA then 1 else 0, cmd.ord, cmd.seen.own, ring⟩, got)

/-- The bytes that an engine writes into the area of a group's core: the notes they leave (R79, R84). -/
def landNotes (s : State) (dn : Nat) (g : Group) (cmd : Cmd) (core : Nat) (as : List Nat) : State :=
  let rs := (g.gang cmd.gang).know.releases (cmd.agent dn) cmd.issue none
  if s.notes.isEmpty && rs.isEmpty then s
  else { s with notes := noteWrite s.notes rs false (spotsOf (.area dn cmd.gid core) as) }

/-- The completion of a command (R133, R185): results land, an acquire is satisfied, the counter falls, and a `yield`
whose condition now holds ends. (DESIGN CHOICE: log 54) -/
def completeCmd (s : State) (dn cid : Nat) (cmd : Cmd) : State :=
  let s := s.onDie dn fun d => { d with cmds := d.cmds.erase cid }
  match (s.die dn).group cmd.gid with
  | none => s
  | some g =>
    let (core, bs) := landBytes (g.gang cmd.gang) cmd
    let s := landNotes s dn g cmd core (bs.map (·.1))
    let g := g.onHome core fun h => { h with area := h.area.writeAll bs }
    let (know, got) := completeKnow (g.gang cmd.gang).know dn cmd
    let g := (g.acquire got).onGang cmd.gang fun k => { k with know := know }
    let (s, g) := landRegister s dn g cmd
    let g := g.onGang cmd.gang fun k =>
      let k := landFaults k cmd
      let k := if cmd.isA then { k with a := k.a - 1 } else { k with c := k.c - 1 }
      if g.pre then k else k.wake
    s.putGroup dn cmd.gid g

/-- The engine-command completion step. -/
def execEngineCommandCompletion (d c : Nat) (s : State) : Host.Outcome State Fault Refusal :=
  onDieStep s d fun s =>
    match (s.die d).cmds.find? c with
    | none => s
    | some cmd =>
      if oldest (s.die d) cmd && !heldBack s d cmd && !(cmd.elems.any fun e => e.2.pending) then completeCmd s d c cmd else s

/-- The re-read of a `sigwait` element at its home slice: the waiter is released when the value suffices; a read
that faults makes it issue again (R283). (DEDUCED: log 65) -/
def execSigwaitReread (d g k q : Nat) (s : State) : Host.Outcome State Fault Refusal :=
  onDieStep s d fun s =>
    match (s.die d).group g with
    | none => s
    | some grp => match ((grp.gang k).quad q).sigw with
      | none => s
      | some w =>
        if w.met then s
        else
          let put := fun (s : State) (x : Option SigWait) =>
            let new : Quad → Quad := fun u => if u.sigw = some w then { u with sigw := x } else u
            s.onGang d g k fun gang => { gang with quads := gang.quads.map new }
          match readElem s.rested d (w.snap.frontAddrs w.elem) with
          | (.error _, s) => put s none
          | (.ok bs, t) =>
            if w.target ≤ leNat bs then (put t (some { w with met := true, saw := t.trace.saw })).rested else s

end Sys2Proof.Machine
end

