-- ==== Sys2Proof/Machine/Window.lean ====
section
/-!
DEFINITION. The memory-management registers of a die's control window (R61, R186, R310) as the host and the
supervisor write and read them, the dropping of translations (R60, R61), and the first-touch take of `pmap` (R73,
R318).
-/
namespace Sys2Proof.Machine

/-- A translation-cache or import-cache entry dropped when the page containing `va` is invalidated: the 64 KiB page,
every entry of the 2 MiB page that a cached leaf maps there, and in the peer window the import (R60, R61, R72). -/
def dropPage (d : Die) (va : Nat) : Die :=
  { d with tlb := d.tlb.filter fun e => !(e.1 = va / 65536 || (e.2.2 && e.1 / 32 = va / 2097152))
           imports := if inPeer va then d.imports.erase (peerIndex va) else d.imports }

/-- The entries that an invalidation covers dropped: one page, or all. -/
def dropCovered (d : Die) : Option Nat → Die
  | some va => dropPage d va
  | none => { d with tlb := [], imports := [] }

/-- An invalidation started: BUSY until every slice and engine has dropped the entries (R61). -/
def startInvalidation (d : Die) (what : Option Nat) : Die :=
  { d with busy := true, invalidating := d.invalidating ++ [what] }

/-- The translation and import entries covered by the invalidations under way dropped, and BUSY clear (R61). -/
def finishInvalidation (d : Die) : Die :=
  { d.invalidating.foldl dropCovered d with busy := false, invalidating := [] }

/-- An interrupt vector of a function raised (R50, R61). -/
def State.raiseMsix (s : State) (fn vec : Nat) : State := { s with msix := s.msix ++ [(fn, vec)] }

/-- The word of a memory-management register as a read gives it (R61, R186). -/
def ctlRead (d : Die) (off : Nat) : Nat :=
  match off with
  | 0x2000 => d.ptroot
  | 0x2008 => d.rtbase
  | 0x2010 => d.impbase
  | 0x2018 => d.busy.toNat * 2 ^ 62
  | 0x2020 => d.ftbase
  | 0x2028 => d.fttail + d.fthead * 2 ^ 16 + d.ftready * 2 ^ 32 + d.ftempty.toNat * 2 ^ 63
  | 0x3000 => d.trapbase
  | _ => 0

/-- A memory-management register written whole; bits that are reserved or read-only are ignored (R61, R312). -/
def ctlWrite (d : Die) (off v : Nat) : Die :=
  match off with
  | 0x2000 => { d with ptroot := bits 51 20 v * 2 ^ 20 }
  | 0x2008 => { d with rtbase := bits 55 21 v * 2 ^ 21 }
  | 0x2010 => { d with impbase := bits 55 16 v * 2 ^ 16 }
  | 0x2018 => startInvalidation d (if bit 63 v then none else some (bits 55 16 v * 2 ^ 16))
  | 0x2020 => { d with ftbase := bits 51 15 v * 2 ^ 15 }
  | 0x2028 => { d with fttail := bits 11 0 v, ftempty := if bit 63 v then false else d.ftempty }
  | 0x3000 => { d with trapbase := bits 55 8 v * 2 ^ 8 }
  | _ => d

/-- What the tables of a die hold for the page of an address, read at the page-table home (R318). -/
inductive PageState where
  /-- A present leaf, or another present entry in a leaf's place. -/
  | present
  /-- A table of level 1 to 3 is not present. -/
  | noTable
  /-- The level-4 entry at a physical address is not present. -/
  | free (leafAddr : Nat)
  deriving DecidableEq, Repr

/-- The state of a page from level `l` on; a page that has migrated out of a 2 MiB page whose leaf stands is present.
(DESIGN CHOICE: log 101) -/
def pageState (d : Die) (va : Nat) : (fuel l base : Nat) → PageState
  | 0, _, _ => .present
  | fuel + 1, l, base =>
    let a := entryAddr l base va
    let v := physWord d a
    if !bit 0 v then (if l = 4 then .free a else .noTable)
    else if l = 4 || bit 2 v then .present
    else pageState d va fuel (l + 1) (bits 47 4 v * 256)

/-- A ready frame taken from the first-touch pool: its physical address (R73). -/
def takeFrame (d : Die) : Nat × Die :=
  let frame := bits 51 16 (physWord d (d.ftbase + 8 * d.fthead)) * 65536
  (frame, { d with fthead := (d.fthead + 1) % 4096, ftready := d.ftready - 1 })

/-- FTEMPTY set; the die raises vector 64 of its function when it becomes 1 (R61, R73). -/
def setFtempty (s : State) (dn : Nat) : State :=
  let s' := s.onDie dn fun d => { d with ftempty := true }
  if (s.die dn).ftempty then s' else s'.raiseMsix dn 64

/-- The step of `pmap` in one lane (R318): the result code. -/
def pmapLane (s : State) (dn va b : Nat) : Nat × State :=
  let page := bits 55 16 va * 65536
  let kind := bits 1 0 b
  if 2 ^ 56 ≤ va ∨ inPeer va ∨ kind = 3 ∨ bits 31 15 b ≠ 0 then (4, s)
  else match pageState (s.die dn) page 4 1 (s.die dn).ptroot with
    | .present => (1, s)
    | .noTable => (3, s)
    | .free a =>
      if (s.die dn).ftready = 0 then (2, setFtempty s dn)
      else
        let (frame, d) := takeFrame (s.die dn)
        (0, s.setDie dn (physWrite d a (leBytes 8 (leafWord kind (bits 13 2 b) false (bit 14 b) frame))))

end Sys2Proof.Machine
end

