-- ==== Sys2Proof/Machine/HostPort.lean ====
section
/-!
DEFINITION. The host's side of a compute die: the aperture (R44, R45), the queues and their doorbells (R46, R47), and the
memory-management registers of the control window (R61, R73, R312).
-/
namespace Sys2Proof.Machine

/-! ### The aperture -/

/-- The first fault of an aperture access recorded (R44, R45). -/
def recordApf (d : Die) (cls va : Nat) : Die :=
  if d.apf then d else { d with apf := true, apfc := cls, apfa := va / 64 * 64 }

/-- Addresses cut into the lines that hold them. -/
def byLine (vas : List Nat) : List (List Nat) :=
  (distinct (vas.map (· / 64))).map fun l => vas.filter fun a => a / 64 = l

/-- The addresses of an aperture access (R44, R45). -/
def apertureAddrs (d : Die) (off len : Nat) : List Nat := (span (d.apbase + off) len).map (· % 2 ^ 56)

/-- Size of the aperture (R44). -/
def apertureBytes : Nat := 2 ^ 36

/-- Why no host traffic reaches a die: it is POISONED, or a link between the hub and it is down (R34, R36, R43). Host
traffic makes no cell of its own. (DESIGN CHOICE: log 127) -/
def hostWayFault (s : State) (dn : Nat) : Option Cause :=
  if (s.die dn).service = .poisoned then some diePoisoned
  else if s.linkDown 8 dn || s.linkDown dn 8 then some linkIsDown
  else none

/-- One line of an aperture read; it acquires the releases at .sys whose values it returns (R44, R332). -/
def apertureLine (s : State) (dn : Nat) (vas : List Nat) : List Byte × State :=
  let faulted := fun (s : State) (c : Cause) =>
    (vas.map fun _ => 0xFF, s.onDie dn fun d => recordApf d c.1 (vas.headD 0))
  match hostWayFault s dn with
  | some c => faulted s c
  | none => match memRead (s.meet (s.linkRetrains 8 dn)).rested dn vas with
    | (.ok bs, s) => (bs, { s with hostKnown := withAll s.hostKnown (acquired s.trace.saw .host 4) }.rested)
    | (.error (c, _), s) => faulted s.rested c

/-- One line of an aperture write (R44). -/
def apertureStore (s : State) (dn : Nat) (ws : List (Nat × Byte)) : State :=
  let faulted := fun (s : State) (c : Cause) => s.onDie dn fun d => recordApf d c.1 ((ws.map (·.1)).headD 0)
  match hostWayFault s dn with
  | some c => faulted s c
  | none => match memWrite (s.meet (s.linkRetrains 8 dn)).rested dn ws with
    | (.ok _, s) => { s with hostKnown := withAll s.hostKnown s.written }.rested
    | (.error (c, _), s) => faulted s.rested c

/-- A host read through BAR2: a faulted line reads all-ones (R44). -/
def execApertureRead (d off len : Nat) (s : State) : Host.Outcome State Fault Refusal :=
  onDieStep s d fun s =>
    if apertureBytes < off + len then s
    else
      let x := (byLine (apertureAddrs (s.die d) off len)).foldl (fun (x : List Byte × State) vas =>
        let y := apertureLine x.2 d vas
        (x.1 ++ y.1, y.2)) ([], s)
      { x.2 with apertureRead := x.1 }

/-- A host write through BAR2: a write to a faulted line is dropped (R44). -/
def execApertureWrite (d off : Nat) (data : List Byte) (s : State) : Host.Outcome State Fault Refusal :=
  onDieStep s d fun s =>
    if apertureBytes < off + data.length then s
    else
      let ws := (apertureAddrs (s.die d) off data.length).zip data
      (byLine (ws.map (·.1))).foldl (fun s vas => apertureStore s d (ws.filter fun w => vas.contains w.1)) s

/-- A write of 1 to DSTAT.APF (R45). -/
def execApfClear (d : Nat) (s : State) : Host.Outcome State Fault Refusal :=
  onDieStep s d fun s => s.onDie d fun die => { die with apf := false, apfc := 0, apfa := 0 }

/-! ### Queues -/

/-- A queue of a die changed. -/
def State.onQueue (s : State) (dn q : Nat) (f : Queue → Queue) : State :=
  s.onDie dn fun d => d.setQueue q (f (d.queue q))

/-- Whether a queue has records that are not read, or a reservation outstanding (R46). -/
def Queue.busy (q : Queue) : Bool := q.head ≠ q.tail || q.resv ≠ q.tail

/-- The configuration word's fields put into a queue (R46). -/
def Queue.configure (q : Queue) (v : Nat) (log : Nat) : Queue :=
  { q with dev := bit 8 v, en := bit 7 v, prio := bits 6 5 v, log := log }

/-- A configuration write that leaves EN set (R46). -/
def execQueueConfigWrite (d q : Nat) (v : DWord) (s : State) : Host.Outcome State Fault Refusal :=
  onDieStep s d fun s =>
    if 63 < q || !bit 7 v.toNat then s
    else s.onQueue d q fun u =>
      let u' := u.configure v.toNat (bits 4 0 v.toNat)
      if u'.log < 4 || 16 < u'.log then { u with qerr := 5 }
      else if u.busy && { u' with en := u.en } ≠ u then { u with qerr := 5 }
      else u'

/-- A configuration write that clears EN: unread records, and records read but not started, are discarded (R46).
(DEDUCED: log 98) -/
def execQueueDisable (d q : Nat) (v : DWord) (s : State) : Host.Outcome State Fault Refusal :=
  onDieStep s d fun s =>
    if 63 < q || bit 7 v.toNat then s
    else
      let log := bits 4 0 v.toNat
      let s := s.onQueue d q fun u =>
        { u.configure v.toNat (if log < 4 ∨ 16 < log then u.log else log) with
          head := 0, tail := 0, resv := 0, qerr := 0, committed := [], shared := false, told := [] }
      s.onDie d fun die => { die with hostCmds := die.hostCmds.filter fun c => !(c.2.queue = q && c.2.phase = .read) }

/-- The distance of two counts modulo 2^32 (R47). -/
def countDiff (a b : Nat) : Nat := (a + 4294967296 - b) % 4294967296

/-- A queue with `n` records from a number on submitted by the host, whose writes before the doorbell they cover (R96).
-/
def Queue.tell (q : Queue) (first n : Nat) (ws : List Nat) : Queue :=
  if ws.isEmpty then q
  else { q with told := (List.range n).foldl (fun m i => m.insert ((first + i) % 4294967296) ws) q.told }

/-- A direct write of TAIL (R47). (DEDUCED: log 97) -/
def execTail (d q : Nat) (v : Word) (s : State) : Host.Outcome State Fault Refusal :=
  onDieStep s d fun s =>
    if 63 < q then s
    else s.onQueue d q fun u =>
      if u.dev then { u with qerr := 4 }
      else if u.resv ≠ u.tail || u.shared then { u with qerr := 6 }
      else if 2 ^ u.log < countDiff v.toNat u.head ∨ 2 ^ u.log < countDiff v.toNat u.tail then { u with qerr := 3 }
      else { u.tell u.tail (countDiff v.toNat u.tail) s.hostKnown with tail := v.toNat, resv := v.toNat }

/-- A read of RESV (R47). (DEDUCED: log 97) -/
def execResv (d q : Nat) (s : State) : Host.Outcome State Fault Refusal :=
  onDieStep s d fun s =>
    if 63 < q then s
    else
      let u := (s.die d).queue q
      let refuse := { s with resvRead := 0xFFFFFFFF }
      if u.dev then refuse.onQueue d q fun u => { u with qerr := 4 }
      else if !u.en || u.qerr ≠ 0 || !ringRoom u then refuse
      else { s with resvRead := BitVec.ofNat 32 u.resv }.onQueue d q fun u =>
        { u with resv := (u.resv + 1) % 4294967296 }

/-- A write of COMMIT (R47). -/
def execCommit (d q : Nat) (v : Word) (s : State) : Host.Outcome State Fault Refusal :=
  onDieStep s d fun s =>
    if 63 < q then s
    else s.onQueue d q fun u =>
      if u.dev then { u with qerr := 4 }
      else if countDiff v.toNat u.tail < countDiff u.resv u.tail && !u.committed.contains v.toNat then
        commitRecord (u.tell v.toNat 1 s.hostKnown) v.toNat
      else u

/-! ### Memory management -/

/-- A write of 1 to TLBCTL.ALL (R61). -/
def execTlbctlAll (d : Nat) (s : State) : Host.Outcome State Fault Refusal :=
  onDieStep s d fun s => s.onDie d fun die => ctlWrite die 0x2018 (2 ^ 63)

/-- A write of TLBCTL.PAGE (R61). -/
def execTlbctlPage (d : Nat) (v : DWord) (s : State) : Host.Outcome State Fault Refusal :=
  onDieStep s d fun s => s.onDie d fun die => ctlWrite die 0x2018 (v.toNat % 2 ^ 63)

/-- The end of an invalidation (R61). -/
def execInvalidationDone (d : Nat) (s : State) : Host.Outcome State Fault Refusal :=
  onDieStep s d fun s => if (s.die d).busy then s.onDie d finishInvalidation else s

/-- A write of FTTAIL (R61, R73). (DEDUCED: log 102) -/
def execFttail (d : Nat) (v : DWord) (s : State) : Host.Outcome State Fault Refusal :=
  onDieStep s d fun s => s.onDie d fun die => ctlWrite die 0x2028 (v.toNat % 2 ^ 63)

/-- Memory with `n` bytes from an address on zero-filled. -/
def zeroFill (d : Die) (pa n : Nat) : Die :=
  { d with mem := d.mem.filter fun e => e.1 < pa || pa + n ≤ e.1
           lineKeys := d.lineKeys.filter fun e => e.1 < pa / 64 || (pa + n) / 64 ≤ e.1 }

/-- The next supplied frame zeroed and counted into FTREADY (R73). -/
def execFrameZeroed (d : Nat) (s : State) : Host.Outcome State Fault Refusal :=
  onDieStep s d fun s =>
    let die := s.die d
    if die.ftzero = die.fttail then s
    else
      let frame := bits 51 16 (physWord die (die.ftbase + 8 * die.ftzero)) * 65536
      (s.setDie d { zeroFill die frame 65536 with ftzero := (die.ftzero + 1) % 4096, ftready := die.ftready + 1 }).moveFrame d
        frame none

/-- A write of 1 to FTEMPTY (R61). (DEDUCED: log 102) -/
def execFtemptyClear (d : Nat) (s : State) : Host.Outcome State Fault Refusal :=
  onDieStep s d fun s => s.onDie d fun die => { die with ftempty := false }

/-- Offsets of the registers that a host write replaces whole, beside those of a queue (R45, R61, R186). -/
def plainRegisters : List Nat := [0x2000, 0x2008, 0x2010, 0x2020, 0x3000]

/-- A host write to a register with no behaviour of its own (R45, R46, R61, R312). Function 8 has none that the host
may write. -/
def execControlRegisterWrite (fn off : Nat) (v : DWord) (s : State) : Host.Outcome State Fault Refusal :=
  if fn = 8 then .next s
  else onDieStep s fn fun s =>
    if off = 0x10 then s.onDie fn fun d => { d with apbase := bits 55 36 v.toNat * 2 ^ 36 }
    else if 0x1000 ≤ off ∧ off < 0x2000 ∧ off % 64 = 0 then
      s.onQueue fn ((off - 0x1000) / 64) fun q => { q with qbase := bits 55 6 v.toNat * 64 }
    else if plainRegisters.contains off then s.onDie fn fun d => ctlWrite d off v.toNat
    else s

/-! ### Reading the control window -/

/-- The word of a queue register as a read gives it, apart from RESV (R46). -/
def Queue.read (q : Queue) (off : Nat) : Nat :=
  match off with
  | 0x00 => q.qbase
  | 0x08 => q.dev.toNat * 256 + q.en.toNat * 128 + q.prio * 32 + q.log
  | 0x10 => q.head
  | 0x18 => q.tail
  | 0x20 => q.qerr
  | _ => 0

/-- The word at an offset of a die's control window as a read gives it (R45, R46, R61, R186). -/
def dieWord (d : Die) (off : Nat) : Nat :=
  if 0x2000 ≤ off then ctlRead d off
  else if 0x1000 ≤ off then (d.queue ((off - 0x1000) / 64)).read (off % 64)
  else match off with
    | 0x000 => d.apf.toNat * 8 + d.offline.toNat * 4 + d.quiesced.toNat * 2 + d.ready.toNat
    | 0x010 => d.apbase
    | 0x018 => d.apfc * 2 ^ 56 + d.apfa
    | _ => 0

end Sys2Proof.Machine
end

