-- ==== Sys2Proof/Machine/Cabinet.lean ====
section
/-!
DEFINITION. The arithmetic and the tables of the join engine and the cabinet: tile elements (R142, R144, R162, R293),
tray updates (R154, R155), the accumulate rule and spills (R172, R173), retirement (R166), and the images of drawers
and trays (R171, R304, R305).
-/
namespace Sys2Proof.Machine

/-- A map of `n` entries from a function. -/
def FMap.table {α : Type} [DecidableEq α] (d : α) (n : Nat) (f : Nat → α) : FMap α :=
  ((List.range n).map fun i => (i, f i)).filter fun e => e.2 ≠ d

/-- Memory of consecutive bytes from 0 on. -/
def bytesFrom0 (bs : List Byte) : Memory := ((List.range bs.length).zip bs).filter fun e => e.2 ≠ Memory.unlisted

/-! ### Tile elements -/

/-- Byte `i` of a tile register. -/
def Tile.byte (t : Tile) (i : Nat) : Nat := (Memory.read t.bytes i).toNat

/-- The bit pattern of element `e` of the block that starts at a slot (R142, R162, R293). -/
def Tile.elem (ty : Ty) (t : Tile) (slot e : Nat) : Nat :=
  let b := 256 * slot
  match ty with
  | .f16 | .bf16 => t.byte (b + 2 * e) + 256 * t.byte (b + 2 * e + 1)
  | .f6 => t.byte (b + e / 2) / 16 ^ (e % 2) % 16 * 4 + t.byte (b + 128 + e / 4) / 4 ^ (e % 4) % 4
  | _ => t.byte (b + e)

/-- The reading of `k` planes of a bit-plane element (R144). -/
def Tile.planes (t : Tile) (slot e k : Nat) : Int :=
  let q := (List.range k).foldl (fun q p => 2 * q + t.byte (256 * slot + 32 * p + e / 8) / 2 ^ (e % 8) % 2) 0
  if 2 ^ (k - 1) ≤ q then (q : Int) - 2 ^ k else q

/-- Whether a format takes two slots a block (R162). -/
def twoSlots (t : Ty) : Bool := t = .f16 || t = .bf16

/-- First slot of block (r, kb) of an A tile and of block (kb, n) of a B tile (R293). -/
def slotA (ty : Ty) (r kb : Nat) : Nat := if twoSlots ty then 2 * (4 * r + kb) else 8 * r + kb
def slotB (ty : Ty) (kb n : Nat) : Nat := if twoSlots ty then 2 * (4 * kb + n) else 4 * kb + n

/-! ### Tray updates -/

/-- The exact sum of two finite values, and of two values of which neither is NaN; `none` for +Inf and −Inf. -/
def exactAdd (a b : FVal) : Option FVal :=
  match a, b with
  | .fin na ma ea, .fin nb mb eb =>
    let e0 := min ea eb
    let t := scaled na ma ea e0 + scaled nb mb eb e0
    some (if t = 0 then .fin (zeroSign 0 na nb) 0 e0 else .fin (t < 0) t.natAbs e0)
  | .inf n, .inf k => if n = k then some (.inf n) else none
  | .inf n, _ => some (.inf n)
  | _, y => some y

/-- The exact product of two values; `none` where an operand is NaN, or Inf meets 0 (R154). -/
def exactMul (a b : FVal) : Option FVal := if a.isNan || b.isNan then none else productF a b

/-- The exact sum of products (R154). -/
def exactDot : List (FVal × FVal) → Option FVal
  | [] => some (.fin false 0 0)
  | [p] => exactMul p.1 p.2
  | p :: ps =>
    match exactMul p.1 p.2, exactDot ps with
    | some x, some y => exactAdd x y
    | _, _ => none

/-- A result rounded to nearest even, subnormals kept, or the canonical NaN with I (R154). (DEDUCED: log 79) -/
def trayNan : FRes := nanRes f32 true

/-- The float tray update (R154). (DEDUCED: log 79) -/
def trayUpdateF (tray : Word) (ps : List (FVal × FVal)) (sA sB : FVal) : FRes :=
  let t := fval f32 tray.toNat
  if t.isNan then trayNan
  else match exactDot ps, exactMul sA sB with
    | some sum, some sc => match exactMul sc sum with
      | some x => match exactAdd t x with
        | some _ => addF f32 0 false t x
        | none => trayNan
      | none => trayNan
    | _, _ => trayNan

/-- The integer update of a tray or a drawer word: wrapped under ACC 01, clamped with O under ACC 10 (R155). -/
def accInt (acc : Nat) (x : Word) (n : Int) : Word × BitVec 6 :=
  let r := finishInt .i32 (acc = 2) (x.toInt + n)
  (r.1.setWidth 32, r.2)

/-- Formats of a join step, captured from `fmt`: AF, BF, ACC and KP (R151, R294). -/
structure JFmt where
  af : Ty
  bf : Ty
  acc : Nat
  k : Nat
  deriving DecidableEq, Repr

/-- The join formats of a `fmt` value. -/
def jfmtOf (v : Word) : JFmt :=
  ⟨tyOf (bits 31 28 v.toNat), tyOf (bits 27 24 v.toNat), bits 23 22 v.toNat, bits 21 19 v.toNat + 1⟩

/-- The combinations of R152. -/
def JFmt.ok (f : JFmt) : Bool :=
  let narrow : Ty → Bool := fun t => t = .e4m3 || t = .e5m2 || t = .f6
  (narrow f.af && narrow f.bf && f.acc = 0) || (f.af = .f16 && f.bf = .f16 && f.acc = 0) ||
  (f.af = .bf16 && f.bf = .bf16 && f.acc = 0) ||
  (f.af = .i8 && (f.bf = .i8 || f.bf = .bp) && (f.acc = 1 || f.acc = 2))

/-- k-blocks of a tile (R294). -/
def JFmt.kblocks (f : JFmt) : Nat := if twoSlots f.af then 4 else 8

/-- Element (y, x) of a tray after the k-block `kb` of cell (r, n) (R154, R155, R164). -/
def stepElem (f : JFmt) (ta tb : Tile) (r n kb y x : Nat) (tray : Word) : Word × BitVec 6 :=
  let sa := slotA f.af r kb
  let sb := slotB f.bf kb n
  if f.acc = 0 then
    let ps := (List.range 16).map fun z =>
      (fval (ffmt f.af) (ta.elem f.af sa (16 * y + z)), fval (ffmt f.bf) (tb.elem f.bf sb (16 * z + x)))
    let res := trayUpdateF tray ps (fval f32 ta.scale.toNat) (fval f32 tb.scale.toNat)
    (BitVec.ofNat 32 res.1, res.2)
  else
    let sum := (List.range 16).foldl (fun (s : Int) z =>
      let a := Ty.int .i8 (BitVec.ofNat 64 (ta.elem .i8 sa (16 * y + z)))
      let b := if f.bf = .bp then tb.planes sb (16 * z + x) f.k
        else Ty.int .i8 (BitVec.ofNat 64 (tb.elem .i8 sb (16 * z + x)))
      s + a * b) 0
    accInt f.acc tray sum

/-- A tray after a k-block, with the flags raised. (DEDUCED: log 78) -/
def stepTray (f : JFmt) (ta tb : Tile) (r n kb : Nat) (t : Tray) : Tray × BitVec 6 :=
  let res := (List.range 256).map fun i => stepElem f ta tb r n kb (i / 16) (i % 16) (FMap.get 0 t.words i)
  ({ t with words := FMap.table 0 256 fun i => (res.getD i (0, 0)).1, prod := true },
   res.foldl (fun v r => v ||| r.2) 0)

/-! ### The core's join engine in the state -/

/-- The join engine of a core. -/
def State.jcore (s : State) (dn n : Nat) : Core := (s.die dn).core n

/-- The state with a core's join engine changed. -/
def State.onCore (s : State) (dn n : Nat) (f : Core → Core) : State :=
  s.onDie dn fun d => d.setCore n (f (d.core n))

/-- Tile register and tray of a core. -/
def Core.tile (c : Core) (i : Nat) : Tile := FMap.get Tile.empty c.tiles i
def Core.setTile (c : Core) (i : Nat) (t : Tile) : Core := { c with tiles := FMap.set Tile.empty c.tiles i t }
def Core.tray (c : Core) (i : Nat) : Tray := FMap.get Tray.empty c.trays i
def Core.setTray (c : Core) (i : Nat) (t : Tray) : Core := { c with trays := FMap.set Tray.empty c.trays i t }

/-- Flags raised in CFLAGS (R150, R175). -/
def Core.raise (c : Core) (v : BitVec 6) : Core := { c with cflags := c.cflags ||| v.setWidth 5 }

/-! ### The accumulate rule -/

/-- A value fed to a drawer word: a 32-bit word, or an exact product (R172). -/
inductive Fed where
  | word (w : Word)
  | exactF (v : FVal)
  | exactI (n : Int)
  deriving DecidableEq, Repr

/-- An exact product brought to a 32-bit word, and the flags of that (R172). -/
def Fed.toWord (acc : Nat) : Fed → Word × BitVec 6
  | .word w => (w, 0)
  | .exactF (.fin n m e) =>
    let r := if m = 0 then (zeroOf f32 n, 0) else finishF f32 0 false n m e
    (BitVec.ofNat 32 r.1, r.2)
  | .exactF (.inf n) => (BitVec.ofNat 32 (infOf f32 n), 0)
  | .exactF (.nan _) => (BitVec.ofNat 32 f32.nan, 0)
  | .exactI n => accInt acc 0 n

/-- `add` of a drawer word (R156, R172). -/
def drawerAdd (acc : Nat) (x : Word) : Fed → Word × BitVec 6
  | .word w =>
    if acc = 0 then
      (let r := addF f32 0 false (fval f32 x.toNat) (fval f32 w.toNat)
       (BitVec.ofNat 32 r.1, r.2))
    else accInt acc x w.toInt
  | .exactF v =>
    let r := addF f32 0 false (fval f32 x.toNat) v
    (BitVec.ofNat 32 r.1, r.2)
  | .exactI n => accInt acc x n

/-- Multiplier of the drawer hash (R172). -/
def hashKey (key : Nat) : Nat := key * 0x9E3779B97F4A7C15 % 2 ^ 64

/-- The places of the probe order: drawer indexes in scalar grain, run numbers in block grain (R172). -/
def probeOrder (block : Bool) (pm1 key : Nat) : List Nat :=
  let m := hashKey key
  if block then (List.range (pm1 + 1)).map fun i => (m / 2 ^ 53 + i * (i + 1) / 2) % 2048
  else (List.range (pm1 + 1)).flatMap fun i =>
    let b := (m / 2 ^ 50 + i * (i + 1) / 2) % 16384
    (List.range 4).map fun d => 4 * b + d

/-- The drawer that stands for a place: itself, or the first of its run. -/
def placeDrawer (block : Bool) (place : Nat) : Nat := if block then 32 * place else place

/-- The first place that holds the key or is empty, and whether it holds the key (R172, R298). -/
def probe (c : Core) (key : Nat) : Option (Nat × Bool) :=
  (probeOrder c.session.block c.session.pm1 key).findSome? fun p =>
    match c.drawers.find? (placeDrawer c.session.block p) with
    | some d => if d.key = key then some (p, true) else none
    | none => some (p, false)

/-- A drawer written. -/
def Core.putDrawer (c : Core) (i : Nat) (d : Drawer) : Core := { c with drawers := c.drawers.insert i d }

/-- The 8 words of a drawer from a list. -/
def eightWords (ws : List Word) : List Word := (List.range 8).map fun i => ws.getD i 0

/-- A hit: `add` word by word; words beyond the tuple stay (R172, R297). -/
def hitDrawer (acc : Nat) (d : Drawer) (vals : List Fed) : Drawer × BitVec 6 :=
  let rs := (List.range 8).map fun i =>
    match vals[i]? with
    | some v => drawerAdd acc (d.words.getD i 0) v
    | none => (d.words.getD i 0, 0)
  ({ d with words := rs.map (·.1) }, rs.foldl (fun v r => v ||| r.2) 0)

/-- A tuple placed in the drawers, if a place is found (R172). -/
def Core.place (c : Core) (key : Nat) (vals : List Fed) : Option Core :=
  let n := if c.session.block then 32 else 1
  match probe c key with
  | none => none
  | some (p, true) => some ((List.range n).foldl (fun c i =>
      let x := placeDrawer c.session.block p + i
      match c.drawers.find? x with
      | some d =>
        let (d, fl) := hitDrawer c.session.acc d ((vals.drop (8 * i)).take 8)
        (c.putDrawer x d).raise fl
      | none => c) c)
  | some (p, false) =>
    let ws := vals.map fun v => v.toWord c.session.acc
    let c := (List.range n).foldl (fun (c : Core) i =>
      c.putDrawer (placeDrawer c.session.block p + i)
        ⟨key, eightWords (((ws.drop (8 * i)).take 8).map (·.1))⟩) c
    some { c.raise (ws.foldl (fun v w => v ||| w.2) 0) with
             session := { c.session with occ := c.session.occ + n } }

/-! ### Images -/

/-- The 64 bytes of a drawer image (R171). -/
def imageBytes (key : Nat) (ws : List Word) (pos : Nat) : List Byte :=
  leBytes 8 key ++ (eightWords ws).flatMap (fun w => leBytes 4 w.toNat) ++ leBytes 2 pos ++ leBytes 1 1 ++
    List.replicate 21 0

/-- CSTAT as a word (R169). -/
def Core.cstat (c : Core) : Nat :=
  let s := c.session
  s.isOpen.toNat * 2 ^ 63 + s.block.toNat * 2 ^ 62 + s.acc * 2 ^ 60 + s.pm1 * 2 ^ 56 + s.wm1 * 2 ^ 53 +
  s.order.toNat * 2 ^ 52 + c.frozen.toNat * 2 ^ 51 + s.annex * 2 ^ 32 + s.occ

/-- The session of a CSTAT word, if its reserved bits are 0 (R169). -/
def sessionOf (v : Nat) : Option Session :=
  if bits 50 48 v ≠ 0 ∨ bits 31 17 v ≠ 0 ∨ bits 61 60 v = 3 then none
  else some ⟨bit 63 v, bit 62 v, bits 61 60 v, bits 59 56 v, bits 55 53 v, bit 52 v, bits 47 32 v, bits 16 0 v⟩

/-- CCNT and JSTEP as words (R169, R176). -/
def Core.ccnt (c : Core) : Nat := c.spill * 2 ^ 32 + c.lost
def Core.jstepWord (c : Core) : Nat :=
  c.jstep.slot * 2 ^ 60 + c.jstep.kb * 2 ^ 56 + c.jstep.apos * 2 ^ 28 + c.jstep.bpos

/-- A saturating count of tuples (R169). -/
def satCount (n : Nat) : Nat := min n 0xFFFFFFFF

/-! ### Spills and retirement -/

/-- A write or read fault of the join engine (R185): it waits for the batch's `jwait`, or is beyond recovery where
its instruction was issued in supervisor state (R187) or its gang has exited. (DEDUCED: log 75) -/
def joinFault (s : State) (dn : Nat) (own : Nat × Nat) (e : JoinEntry) (lane cls reason addr loc : Nat) (value : Word) :
    State :=
  let r : FaultRec := ⟨cls, reason, own.2, lane, e.opc, e.pc, addr, loc, value⟩
  s.onGang dn own.1 own.2 fun k =>
    if e.sup || k.liveQuads.isEmpty then (k.putRecord lane r).loseAt cls e.issue
    else { k with lateJ := k.lateJ ++ [⟨e.batch, e.issue, lane, r⟩] }

/-- The bytes of element `el` written on the write side of a record; a fault is recorded (R66, R185). (DEDUCED: log
75) -/
def joinWrite (s : State) (dn : Nat) (own : Nat × Nat) (e : JoinEntry) (lane rid : Nat) (r : Rec) (el : Nat)
    (bs : List Byte) (value : Word) : State :=
  match writeElem s dn ((r.writeAddrs el).zip bs) with
  | (.ok _, s) => s
  | (.error (c, a), s) => joinFault s dn own e lane c.1 c.2 (a / 64 * 64) rid value

/-- Compressed output of a tuple of `imgs` images to a record, reserved as one (R68, R173): the state, and whether
the tuple was written. A drain keeps the snapshot of its issue, side included, but for SCNT and OVF, which the writers of
a record share; a spill reads the record anew (R62, R66, R173). (DEDUCED: log 130) -/
def compressedOut (s : State) (dn : Nat) (own : Nat × Nat) (e : JoinEntry) (lane rid : Nat) (snap : Option Rec)
    (imgs : List (List Byte)) : State × Bool :=
  let (live, s) := readRec s dn rid
  let r := snap.getD live
  if !r.takesImages || live.ovf then (s, false)
  else if r.extent < live.scnt + imgs.length then (writeCounts s dn rid live.scnt true, false)
  else
    let s := writeCounts s dn rid (live.scnt + imgs.length) false
    (((List.range imgs.length).zip imgs).foldl (fun s x =>
      joinWrite s dn own e lane rid r (live.scnt + x.1) x.2 0) s, true)

/-- A spill to the annex (R173). (DEDUCED: log 73) -/
def spill (s : State) (dn n : Nat) (own : Nat × Nat) (e : JoinEntry) (lane key : Nat) (ws : List Word) : State :=
  let c := s.jcore dn n
  let imgs := if c.session.block then
      (List.range 32).map fun p => imageBytes key ((ws.drop (8 * p)).take 8) p
    else [imageBytes key ws 0]
  let (s, ok) := compressedOut s dn own e lane c.session.annex none imgs
  s.onCore dn n fun c =>
    if ok then { c with spill := satCount (c.spill + 1) } else { c with lost := satCount (c.lost + 1) }

/-- The accumulate rule (R172). (DEDUCED: log 73) -/
def accumulate (s : State) (dn n : Nat) (own : Nat × Nat) (e : JoinEntry) (lane key : Nat) (vals : List Fed) : State :=
  let c := s.jcore dn n
  match c.place key vals with
  | some c => s.onCore dn n fun _ => c
  | none => spill s dn n own e lane key (vals.map fun v => (v.toWord c.session.acc).1)

/-- A tray with a product presented to the cabinet as one block tuple (R166). -/
def retire (s : State) (dn n : Nat) (own : Nat × Nat) (e : JoinEntry) (cell : Nat) : State :=
  let t := (s.jcore dn n).tray cell
  if t.prod then
    accumulate s dn n own e e.lane t.key ((List.range 256).map fun i => .word (FMap.get 0 t.words i))
  else s

/-- Every tray with a product retires in ascending cell order, and holds zero with its key kept (R166). -/
def retireAll (s : State) (dn n : Nat) (own : Nat × Nat) (e : JoinEntry) : State :=
  (List.range 24).foldl (fun s cell =>
    if ((s.jcore dn n).tray cell).prod then
      (retire s dn n own e cell).onCore dn n fun c =>
        c.setTray cell { c.tray cell with words := [], prod := false }
    else s) s

/-- `begin_tray` (R164). -/
def beginTray (s : State) (dn n : Nat) (own : Nat × Nat) (e : JoinEntry) (cell key : Nat) : State :=
  if ((s.jcore dn n).tray cell).key = key then s
  else (retire s dn n own e cell).onCore dn n fun c => c.setTray cell ⟨key, false, []⟩

end Sys2Proof.Machine
end

