-- ==== Sys2Proof/Machine/Sync.lean ====
section
/-!
DEFINITION. The releases of `bar`, `gsync` and `regang` (R129, R248, R254, R255, R272).
-/
namespace Sys2Proof.Machine

/-- The entry of a key with the highest gang among the pending tables of a group's cores (R129). -/
def prevailing {α : Type} (tabs : List (FMap (Nat × α))) (n : Nat) : Option (Nat × α) :=
  tabs.foldl (fun best t =>
    match best, t.find? n with
    | some (gi, v), some (gj, w) => if gi < gj then some (gj, w) else some (gi, v)
    | none, x => x
    | b, none => b) none

/-- Register by register and window by window, every copy of the group takes the prevailing pending value (R129,
R272). (DEDUCED: log 66) -/
def Group.settle (g : Group) : Group :=
  let gs := g.homes.map (·.gPend)
  let ws := g.homes.map (·.winPend)
  { g with homes := g.homes.map fun h =>
      let h := (List.range 8).foldl (fun (h : GroupCore) n =>
        match prevailing gs n with
        | some (_, v) => { h with g := FMap.set 0 h.g n v }
        | none => h) h
      let h := (List.range 8).foldl (fun (h : GroupCore) n =>
        match prevailing ws n with
        | some (_, w) => { h with wins := FMap.set Win.none h.wins n w }
        | none => h) h
      { h with gPend := [], winPend := [] } }

/-- The sub-gangs of a gang parted anew by PC (R122). -/
def Gang.repart (k : Gang) : Gang :=
  (distinct (k.liveQuads.map fun q => (k.quad q).sgt)).foldl (fun (k' : Gang) t =>
    Sys2Proof.Machine.part k' (k.members t)) k

/-- Every quad of a group that has not exited satisfies `f`, and there is one. -/
def Group.allLive (g : Group) (f : Quad → Bool) : Bool :=
  (g.gangs.any fun k => !k.liveQuads.isEmpty) && g.gangs.all fun k => k.liveQuads.all fun q => f (k.quad q)

/-- The arrived quads of a group advance (R254, R255). -/
def Group.release (g : Group) (leave : Quad → Quad) : Group :=
  { g with gangs := g.gangs.map fun k =>
      (k.liveQuads.foldl (fun (k : Gang) q => k.onQuad q fun u => (leave u).advance) k).repart }

/-- The release of `bar`: every quad that has not exited has arrived, and what the arriving gangs' releases cover has
been performed; every leaving gang acquires what they cover (R80, R88, R254). -/
def execBarRelease (d g : Nat) (s : State) : Host.Outcome State Fault Refusal :=
  onDieStep s d fun s =>
    match (s.die d).group g with
    | none => s
    | some grp =>
      let live := (List.range grp.gangs.length).filter fun i => !(grp.gang i).liveQuads.isEmpty
      if grp.runs && !grp.pre && grp.allLive (·.barArrived) && !(live.any fun i => releasePending s d g i) then
        let ws := live.foldl (fun l i => withAll l ((grp.gang i).know.before (grp.gang i).issued)) []
        let learn : Gang → Gang := fun k => { k with know := k.know.learn k.issued ws }
        let grp := live.foldl (fun (grp : Group) i => grp.onGang i learn) grp
        s.putGroup d g ((grp.release fun u => { u with barArrived := false }).settle.acquire ws)
      else s

/-- The release of `gsync` (R255). -/
def execGsyncRelease (d g : Nat) (s : State) : Host.Outcome State Fault Refusal :=
  onDieStep s d fun s =>
    match (s.die d).group g with
    | none => s
    | some grp =>
      if grp.runs && !grp.pre && grp.allLive (·.gsyncArrived) then
        s.putGroup d g (grp.release fun u => { u with gsyncArrived := false }).settle
      else s

/-- The end of the wait at `regang`: the gang's quads form one sub-gang and advance (R248). -/
def Gang.rejoin (k : Gang) : Gang :=
  let qs := k.liveQuads
  let tag := qs.foldl min 7
  (qs.foldl (fun (k : Gang) q =>
    k.onQuad q fun u => { u.advance with atRegang := false, sgt := tag }) k).repart

/-- Whether every quad of a gang that has not exited waits at `regang` at one PC, in user state and with no lane for
which it still vectors (R184, R248). -/
def Gang.together (k : Gang) : Bool :=
  match k.liveQuads with
  | [] => false
  | q0 :: r => (q0 :: r).all fun q => (k.quad q).atRegang && !(k.quad q).sup && (k.quad q).park = 0 && (k.quad q).pc = (k.quad q0).pc

/-- The join of `regang`: every quad of the gang that has not exited waits at one PC (R248). -/
def execRegangJoin (d g k : Nat) (s : State) : Host.Outcome State Fault Refusal :=
  onDieStep s d fun s =>
    match (s.die d).group g with
    | none => s
    | some grp =>
      if grp.runs && !grp.pre && (grp.gang k).together then s.onGang d g k Gang.rejoin else s

end Sys2Proof.Machine
end

