-- ==== Sys2Proof/Machine/JoinSteps.lean ====
section
/-!
DEFINITION. How queued join instructions execute (R164 to R168, R293 to R305), one step boundary of R176 at a time,
and the join engine's own steps: batches, the freeze, and the passing of ownership (R160, R161, R168, R176).
-/
namespace Sys2Proof.Machine

/-- What a step of a queue entry answers. -/
inductive JDone where
  | more
  | done
  /-- A cabinet-misuse trap raised when the instruction executes (R293, R304, R305). -/
  | misuse
  deriving DecidableEq, Repr

/-- Where a queue entry executes: die, core, and owner. -/
structure JAt where
  dn : Nat
  n : Nat
  gid : Nat
  gi : Nat
  deriving DecidableEq, Repr

/-- The owner as a pair. -/
def JAt.own (j : JAt) : Nat × Nat := (j.gid, j.gi)

/-- The core's join engine changed. -/
def JAt.on (j : JAt) (s : State) (f : Core → Core) : State := s.onCore j.dn j.n f

/-- The owner's scratchpad area with bytes written at window offsets (R84, R132). -/
def JAt.store (j : JAt) (s : State) (w : Win) (off : Nat) (bs : List Byte) : State :=
  let as := w.bytes off bs.length
  let s := s.noteWritten (.area j.dn j.gid (groupGang s j.dn j.gid j.gi).core) as
  s.onGroup j.dn j.gid fun g =>
    g.onHome (g.gang j.gi).core fun h => { h with area := h.area.writeAll (as.zip bs) }

/-- A register result of a queued instruction written, entering the last-result file where the instruction shifted it
(R127, R291). (DEDUCED: log 131) -/
def JAt.land (j : JAt) (s : State) (e : JoinEntry) (f : Nat → DWord) : State :=
  match e.dest, (s.die j.dn).group j.gid with
  | some code, some g =>
    let c : Cx :=
      { s := s, dn := j.dn, gid := j.gid, gi := j.gi, sgt := 0, grp := g, k := g.gang j.gi, qs := quadsOf e.lanes,
        sup := e.sup, pc := e.pc, op := e.opc, nh := true, act := e.lanes, em := e.lanes,
        helpers := helperMask g.block j.gi, pops := [], out := [], parks := [] }
    (c.land e.op.wide (regOf code) e.marks e.lanes f).close
  | _, _ => s

/-! ### Join steps -/

/-- The key of cell 4r + n (R294). -/
def cellKey (i0 j0 cell : Nat) : Nat :=
  (i0 + cell / 4) % 4294967296 * 4294967296 + (j0 + cell % 4) % 4294967296

/-- Whether A(r, kb) and B(kb, n) are both present (R165, R295). -/
def presentBoth (abits bbits r n kb : Nat) : Bool := bit (8 * r + kb) abits && bit (4 * kb + n) bbits

/-- The first k-block from `kb` on that is a step (R165). -/
def nextBlock (f : JFmt) (abits bbits kb : Nat) : Option Nat :=
  ((List.range f.kblocks).filter (kb ≤ ·)).find? fun kb =>
    (List.range 24).any fun c => presentBoth abits bbits (c / 4) (c % 4) kb

/-- The trays begun, and one k-block applied in the cells whose blocks are present (R164, R165). -/
def joinBlock (j : JAt) (s : State) (e : JoinEntry) (a b i0 j0 abits bbits : Nat) (f : JFmt) : State × JDone :=
  let kb0 := (s.jcore j.dn j.n).jstep.kb
  let s := if kb0 = 0 then (List.range 24).foldl (fun s c => beginTray s j.dn j.n j.own e c (cellKey i0 j0 c)) s else s
  match nextBlock f abits bbits kb0 with
  | none => (s, .done)
  | some kb =>
    let c := s.jcore j.dn j.n
    let ta := c.tile a
    let tb := c.tile b
    let c := (List.range 24).foldl (fun (c : Core) i =>
      if presentBoth abits bbits (i / 4) (i % 4) kb then
        (let (t, fl) := stepTray f ta tb (i / 4) (i % 4) kb (c.tray i)
         (c.setTray i t).raise fl)
      else c) c
    let s := j.on s fun _ => { c with jstep := { c.jstep with kb := kb + 1 } }
    (s, if (nextBlock f abits bbits (kb + 1)).isSome then .more else .done)

/-! ### Streams and lane tuples -/

/-- The k of a tuple of a stream: word 1 of an A tuple, word 0 of a B tuple (R167). -/
def tupleK (word : Nat) (t : List (List Word)) (i : Nat) : Nat := ((t.getD i []).getD word 0).toNat

/-- `step` of the merge (R167): the next index, or none where k falls. -/
def streamStep (word : Nat) (t : List (List Word)) (n i : Nat) : Option Nat :=
  if i + 1 < n && tupleK word t (i + 1) < tupleK word t i then none else some (i + 1)

/-- Where the merge stands: at a pair to be fed, at its end, or at a fall in k. -/
inductive MergeAt where
  | pair (ia ib : Nat)
  | ended
  | fall
  deriving DecidableEq, Repr

/-- The merge run on to the next pair (R167). -/
def seekPair (ta tb : List (List Word)) (na nb : Nat) : (fuel ia ib : Nat) → MergeAt
  | 0, _, _ => .ended
  | fuel + 1, ia, ib =>
    if na ≤ ia ∨ nb ≤ ib then .ended
    else
      let ka := tupleK 1 ta ia
      let kb := tupleK 0 tb ib
      if ka < kb then
        match streamStep 1 ta na ia with
        | some i => seekPair ta tb na nb fuel i ib
        | none => .fall
      else if kb < ka then
        match streamStep 0 tb nb ib with
        | some i => seekPair ta tb na nb fuel ia i
        | none => .fall
      else .pair ia ib

/-- The first tuple of the run of equal k that holds tuple `i`. -/
def runStart (word : Nat) (t : List (List Word)) : Nat → Nat
  | 0 => 0
  | i + 1 => if tupleK word t i = tupleK word t (i + 1) then runStart word t i else i + 1

/-- The place after the pair (x, y) of a run: the next pair in stream order, or past the run in both streams; none
where k falls past it (R167). -/
def afterPair (ta tb : List (List Word)) (na nb x y : Nat) : Option (Nat × Nat) :=
  if y + 1 < nb && tupleK 0 tb (y + 1) = tupleK 0 tb y then some (x, y + 1)
  else if x + 1 < na && tupleK 1 ta (x + 1) = tupleK 1 ta x then some (x + 1, runStart 0 tb y)
  else
    match streamStep 1 ta na x, streamStep 0 tb nb y with
    | some ia, some ib => some (ia, ib)
    | _, _ => none

/-- The tuple of a pair: its key, and its exact products with the flags of forming them (R154, R167). -/
def pairTuple (acc w : Nat) (a b : List Word) : Nat × List Fed × BitVec 6 :=
  let key := (a.getD 0 0).toNat * 4294967296 + (b.getD 1 0).toNat
  let av := a.getD 2 0
  let ps : List (Fed × BitVec 6) := (List.range w).map fun m =>
    let bv := b.getD (2 + m) 0
    if acc = 0 then
      match exactMul (fval f32 av.toNat) (fval f32 bv.toNat) with
      | some x => (.exactF x, 0)
      | none => (.exactF (.nan false), flagI)
    else (.exactI (av.toInt * bv.toInt), 0)
  (key, ps.map (·.1), ps.foldl (fun v p => v ||| p.2) 0)

/-- ORDER set in CSTAT (R167). -/
def setOrder (c : Core) : Core := { c with session := { c.session with order := true } }

/-- `jstream`: on to the next pair, its drawer update, and the place after it (R167, R176, R296). -/
def streamPair (j : JAt) (s : State) (e : JoinEntry) (w na nb : Nat) (ta tb : List (List Word)) : State × JDone :=
  let c := s.jcore j.dn j.n
  match seekPair ta tb na nb (na + nb + 1) c.jstep.apos c.jstep.bpos with
  | .ended => (s, .done)
  | .fall => (j.on s setOrder, .done)
  | .pair x y =>
    let (key, vals, fl) := pairTuple c.session.acc w (ta.getD x []) (tb.getD y [])
    let s := accumulate (j.on s fun c => c.raise fl) j.dn j.n j.own e e.lane key vals
    match afterPair ta tb na nb x y with
    | some (ia, ib) => (j.on s fun c => { c with jstep := { c.jstep with apos := ia, bpos := ib } }, .more)
    | none => (j.on s setOrder, .done)

/-- `cacc`: the tuple of the next lane (R167, R297). -/
def caccLane (j : JAt) (s : State) (e : JoinEntry) (tuples : List (Nat × Nat × List Word)) : State × JDone :=
  match tuples.filter fun t => (s.jcore j.dn j.n).jstep.bpos ≤ t.1 with
  | [] => (s, .done)
  | (l, key, ws) :: r =>
    let s := accumulate s j.dn j.n j.own e l key (ws.map .word)
    (j.on s fun c => { c with jstep := { c.jstep with bpos := l + 1 } }, if r.isEmpty then .done else .more)

/-! ### Probes and drains -/

/-- What `cprobe` gives for a key (R298). -/
def probeValue (c : Core) (word : Option Nat) (key : Nat) : Word :=
  match probe c key, word with
  | some (p, true), none => BitVec.ofNat 32 (placeDrawer c.session.block p)
  | some (p, true), some m =>
    if c.session.block then
      match c.drawers.find? (32 * p + m / 8) with
      | some d => d.words.getD (m % 8) 0
      | none => 0
    else if m ≤ c.session.wm1 then
      match c.drawers.find? p with
      | some d => d.words.getD m 0
      | none => 0
    else 0
  | _, none => 0xFFFFFFFF
  | _, some _ => 0

/-- The occupied places of a cabinet with their keys, in ascending place. -/
def occupiedPlaces (c : Core) : List (Nat × Nat) :=
  if c.session.block then (c.drawers.filter fun d => d.1 % 32 = 0).map fun d => (d.1 / 32, d.2.key)
  else c.drawers.map fun d => (d.1, d.2.key)

/-- The place that a drain emits next (R174). (DEDUCED: log 74) -/
def nextPlace (byIndex : Bool) (c : Core) : Option Nat :=
  match occupiedPlaces c with
  | [] => none
  | p :: ps => some (if byIndex then p.1 else (ps.foldl (fun b x => if x.2 < b.2 then x else b) p).1)

/-- The images of a place, with drawer indexes as POS (R171, R174). (DEDUCED: log 74) -/
def placeImages (c : Core) (p : Nat) : List (List Byte) :=
  (List.range (if c.session.block then 32 else 1)).map fun i =>
    let x := placeDrawer c.session.block p + i
    match c.drawers.find? x with
    | some d => imageBytes d.key d.words x
    | none => imageBytes 0 [] x

/-- A place emptied, and JSTEP.APOS advanced over its images. -/
def Core.emptyPlace (c : Core) (p : Nat) : Core :=
  let n := if c.session.block then 32 else 1
  { c with drawers := (List.range n).foldl (fun (ds : FMap Drawer) i => ds.erase (placeDrawer c.session.block p + i))
             c.drawers
           session := { c.session with occ := c.session.occ - n }
           jstep := { c.jstep with apos := c.jstep.apos + n } }

/-- `cdrain`: the next image or run, or the end with the number of images (R174, R302). -/
def drainNext (j : JAt) (s : State) (e : JoinEntry) (byIndex : Bool) (record : Option (Nat × Rec)) (w : Win)
    (off : Nat) : State × JDone :=
  let c := s.jcore j.dn j.n
  let finish := fun (s : State) => (j.land s e fun _ => BitVec.ofNat 64 (s.jcore j.dn j.n).jstep.apos, JDone.done)
  match nextPlace byIndex c with
  | none => finish s
  | some p =>
    let imgs := placeImages c p
    match record with
    | some (rid, r) =>
      let (s, ok) := compressedOut s j.dn j.own e e.lane rid (some r) imgs
      if ok then (j.on s fun c => c.emptyPlace p, .more) else finish s
    | none =>
      let at_ := off + 64 * c.jstep.apos
      if w.extent < at_ + 64 * imgs.length then finish s
      else (j.on (j.store s w at_ imgs.flatten) fun c => c.emptyPlace p, .more)

/-! ### Save and restore -/

/-- The header word of a tile (R162). -/
def Tile.header (t : Tile) : Nat := t.scale.toNat * 2 ^ 32 + t.dirty.toNat * 2 + t.inuse.toNat

/-- The slots of a tile as bytes. -/
def Tile.slots (t : Tile) : List Byte := (List.range 12288).map (Memory.read t.bytes)

/-- `tfill`: the tile of the bytes read; a header line with a reserved bit set or INUSE = 0 is refused (R293). -/
def tileFill (data : Memory) (hdr : Bool) (scale : Option Word) : Option Tile :=
  let slots : Memory := data.filter fun e => e.1 < 12288
  if hdr then
    let h := leNat ((span 12288 8).map (Memory.read data))
    if bits 31 2 h ≠ 0 ∨ bit 0 h = false ∨ (data.any fun e => 12296 ≤ e.1) = true then none
    else some ⟨slots, BitVec.ofNat 32 (h / 2 ^ 32), bit 1 h, true⟩
  else some ⟨slots, scale.getD 0x3F800000, true, true⟩

/-- The 1,088 bytes of a tray (R304). -/
def trayBytes (t : Tray) : List Byte :=
  ((List.range 256).flatMap fun i => leBytes 4 (FMap.get 0 t.words i).toNat) ++ leBytes 8 t.key ++
    leBytes 1 t.prod.toNat ++ List.replicate 55 0

/-- The tray of its bytes, if no reserved bit is set (R304). -/
def trayOf (bs : List Byte) : Option Tray :=
  let p := leNat ((bs.drop 1032).take 1)
  if 1 < p ∨ leNat (bs.drop 1033) ≠ 0 then none
  else some ⟨leNat ((bs.drop 1024).take 8), p = 1, FMap.table 0 256 fun i => BitVec.ofNat 32 (leNat ((bs.drop (4 * i)).take 4))⟩

/-- The session line (R305). -/
def sessionLine (c : Core) : List Byte :=
  leBytes 8 c.cstat ++ leBytes 8 c.ccnt ++ leBytes 4 c.cflags.toNat ++ List.replicate 44 0

/-- `csave`: the session line and, with a session open, the images of the occupied drawers in ascending index (R305). -/
def csaveAll (j : JAt) (s : State) (e : JoinEntry) (rid : Nat) (r : Rec) (e0 : Nat) : State :=
  let c := s.jcore j.dn j.n
  let lines := sessionLine c :: (if c.session.isOpen then c.drawers.map fun d => imageBytes d.2.key d.2.words d.1 else [])
  let v := BitVec.ofNat 32 e0
  let fit := lines.take (r.extent - e0)
  let s := ((List.range fit.length).zip fit).foldl (fun s x =>
    joinWrite s j.dn j.own e e.lane rid r (e0 + x.1) x.2 v) s
  if fit.length < lines.length then joinFault s j.dn j.own e e.lane 5 1 (e0 + fit.length) rid v else s

/-- A drawer of its image with its index, if the image is well formed (R171, R305). -/
def drawerOf (bs : List Byte) : Option (Nat × Drawer) :=
  if leNat ((bs.drop 42).take 1) ≠ 1 ∨ leNat (bs.drop 43) ≠ 0 then none
  else some (leNat ((bs.drop 40).take 2),
    ⟨leNat (bs.take 8), (List.range 8).map fun i => BitVec.ofNat 32 (leNat ((bs.drop (8 + 4 * i)).take 4))⟩)

/-- Element `el` of the record read by the engine; a fault is recorded (R185, R305). -/
def joinRead (j : JAt) (s : State) (e : JoinEntry) (rid : Nat) (r : Rec) (e0 el : Nat) : Option (List Byte) × State :=
  if r.extent ≤ el then (none, joinFault s j.dn j.own e e.lane 5 1 el rid (BitVec.ofNat 32 e0))
  else match readElem s j.dn (r.frontAddrs el) with
    | (.ok bs, s) => (some bs, s)
    | (.error (c, a), s) =>
      (none, joinFault s j.dn j.own e e.lane c.1 c.2 (a / 64 * 64) rid (BitVec.ofNat 32 e0))

/-- The images of `cload` placed one after another (R305). -/
def cloadImages (j : JAt) (e : JoinEntry) (rid : Nat) (r : Rec) (e0 : Nat) : List Nat → State → State × JDone
  | [], s => (s, .done)
  | i :: is, s =>
    match joinRead j s e rid r e0 (e0 + i) with
    | (none, s) => (s, .done)
    | (some bs, s) => match drawerOf bs with
      | none => (s, .misuse)
      | some (x, d) =>
        if ((s.jcore j.dn j.n).drawers.find? x).isSome then (s, .misuse)
        else cloadImages j e rid r e0 is (j.on s fun c => c.putDrawer x d)

/-- `cload` (R305); the session is known at issue from then on, with what is queued (R290). -/
def cloadAll (j : JAt) (s : State) (e : JoinEntry) (rid : Nat) (r : Rec) (e0 : Nat) : State × JDone :=
  match joinRead j s e rid r e0 e0 with
  | (none, s) => (s, .done)
  | (some bs, s) =>
    let fl := leNat ((bs.drop 16).take 4)
    let cnt := leNat ((bs.drop 8).take 8)
    match sessionOf (leNat (bs.take 8)) with
    | none => (s, .misuse)
    | some se =>
      if 32 ≤ fl ∨ leNat (bs.drop 20) ≠ 0 then (s, .misuse)
      else if !se.isOpen then (s, .done)
      else
        let s := j.on s fun c =>
          { c with session := se, issue := issueAfter c.queue se, cflags := BitVec.ofNat 5 fl,
                   spill := cnt / 4294967296, lost := cnt % 4294967296 }
        cloadImages j e rid r e0 ((List.range se.occ).map (· + 1)) s

/-! ### One step of an entry -/

/-- One step of a queue entry, up to the next step boundary (R176). (DEDUCED: log 76) -/
def runEntry (j : JAt) (s : State) (e : JoinEntry) : State × JDone :=
  let c := s.jcore j.dn j.n
  match e.op with
  | .tfill t data hdr scale => match tileFill data hdr scale with
    | some tile => (j.on s fun c => c.setTile t tile, .done)
    | none => (s, .misuse)
  | .tzero t => (j.on s fun c => c.setTile t ⟨[], 0x3F800000, true, true⟩, .done)
  | .tstore t w off hdr =>
    let x := c.tile t
    let line := if hdr then leBytes 8 x.header ++ List.replicate 56 0 else []
    (j.on (j.store s w off (x.slots ++ line)) fun c => c.setTile t { x with dirty := false }, .done)
  | .jmm a b i0 j0 af bf acc kp =>
    joinBlock j s e a b i0 j0 (2 ^ 48 - 1) (2 ^ 32 - 1) ⟨tyOf af, tyOf bf, acc, kp⟩
  | .jmms a b i0 j0 abits bbits af bf acc kp => joinBlock j s e a b i0 j0 abits bbits ⟨tyOf af, tyOf bf, acc, kp⟩
  | .jstream n na nb ta tb => streamPair j s e n na nb ta tb
  | .jbatch => (retireAll s j.dn j.n j.own e, .done)
  | .copen annex block acc pm1 wm1 =>
    (j.on s fun c => { c with session := ⟨true, block, acc, pm1, wm1, false, annex, 0⟩, cflags := 0, spill := 0,
                              lost := 0 }, .done)
  | .cacc _ tuples => caccLane j s e tuples
  | .cprobe keys word active =>
    (j.land s e fun l => match keys.find? fun k => k.1 = l with
      | some (_, key) => (probeValue c word key).setWidth 64
      | none => if inMask active l then (if word.isNone then 0xFFFFFFFF else 0) else 0, .done)
  | .cdrain byIndex record w off => drainNext j s e byIndex record w off
  | .cclose =>
    (j.on (retireAll s j.dn j.n j.own e) fun c =>
      { c with drawers := [], session := { c.session with isOpen := false, occ := 0 } }, .done)
  | .cstat v =>
    let x := match v with
      | 0 => c.cstat
      | 1 => c.ccnt
      | 2 => c.cflags.toNat
      | _ => c.jstepWord
    (j.land s e fun _ => BitVec.ofNat 64 x, .done)
  | .tsave w off => (j.store s w off ((List.range 24).flatMap fun i => trayBytes (c.tray i)), .done)
  | .tload data =>
    let trays := (List.range 24).map fun i => trayOf ((span (1088 * i) 1088).map (Memory.read data))
    if trays.any (·.isNone) then (s, .misuse)
    else (j.on s fun c => (List.range 24).foldl (fun (c : Core) i =>
      c.setTray i ((trays.getD i none).getD Tray.empty)) c, .done)
  | .csave rid r e0 => (csaveAll j s e rid r e0, .done)
  | .cload rid r e0 => cloadAll j s e rid r e0

/-! ### Traps of queued instructions -/

/-- The quads of a queued instruction trap for cabinet misuse when it executes, with EPC that instruction; one that
has exited makes the group fault beyond recovery (R185, R293, R304, R305). (DEDUCED: log 76) -/
def entryTrap (j : JAt) (s : State) (e : JoinEntry) : State :=
  match (s.die j.dn).group j.gid with
  | none => s
  | some g =>
    let (s, k) := (quadsOf e.quads).foldl (fun (x : State × Gang) q =>
      let (s, k) := x
      let u := k.quad q
      if u.exited then (s, k.loseAt 12 e.issue)
      else if u.allEnded then (s, k)
      else
        let m := quadBits e.lanes q &&& ~~~u.ended
        let m := if m ≠ 0 then m else if u.live ≠ 0 then u.live else ~~~u.ended
        let l := lowestLane m q
        let k := k.putRecord l ⟨12, 0, j.gi, l, e.opc, e.pc, 0, noLoc, 0⟩
        let rest := (k.members u.sgt).filter (· ≠ q)
        let (s, k) := takeTrapOr (·.loseAt 12 e.issue) s j.dn k q 12 m e.pc
        (s, if rest.contains q then k else Sys2Proof.Machine.part k rest)) (s, g.gang j.gi)
    s.putGroup j.dn j.gid (g.onGang j.gi fun _ => k)

/-! ### Ownership -/

/-- The join engine released: tiles, trays, JSTEP and the queue cleared, with no owner (R160). (DEDUCED: log 71) -/
def Core.released (c : Core) : Core :=
  { c with owner := none, unclaimed := false, tiles := [], trays := [], frozen := false, freezeAsked := false,
           jstep := ⟨0, 0, 0, 0⟩, queue := [], openBatch := 1, doneBatch := 0, issue := c.session }

/-- An open session discarded: its drawers are cleared and its CFLAGS are lost (R161). (DEDUCED: log 72) -/
def Core.discard (c : Core) : Core :=
  { c with session := .closed, issue := .closed, drawers := [], cflags := 0, spill := 0, lost := 0 }

/-- The instruction as which the implicit `mrel` of a gang retires the trays of the open batch. -/
def exitEntry (c : Core) (k : Gang) : JoinEntry :=
  { batch := c.openBatch, lanes := 0, quads := 0, marks := [], sup := false, lane := 0, pc := 0, opc := 0x81,
    issue := k.issued, op := .jbatch, dest := none }

/-- The implicit `mrel` of an owner that has exited, once its queue is empty and what its release covers has been
performed: the open batch completes as `jbatch` would close it, and its trays retire; then an open session is
discarded; a fault still owed is beyond recovery (R161, R185, R292). (DEDUCED: log 72) -/
def implicitRelease (s : State) (dn n : Nat) : State :=
  let c := s.jcore dn n
  match c.owner with
  | none => s
  | some (gid, gi) => match (s.die dn).group gid with
    | none => s
    | some g =>
      if (g.gang gi).liveQuads.isEmpty && c.queue.isEmpty && !releasePending s dn gid gi then
        let s := s.onCore dn n fun c =>
          { c with passed := withAll c.passed ((g.gang gi).know.before (g.gang gi).issued) }
        let s := if c.session.isOpen then retireAll s dn n (gid, gi) (exitEntry c (g.gang gi)) else s
        let s := s.onCore dn n fun c => (if c.session.isOpen then c.discard else c).released
        s.onGang dn gid gi fun k => { k.loseOwed with lateJ := [] }
      else s

/-! ### The join engine's own steps -/

/-- A state in which the join engine acts on an instruction of its owner (R77, R79, R93). -/
def JAt.acting (j : JAt) (s : State) (e : JoinEntry) : State :=
  s.acting ((groupGang s j.dn j.gid j.gi).know.releases (.gang j.dn j.gid j.gi) e.issue none)

/-- What a step of a queue entry has done, for its owner: no release covers its writes before the `jwait` of its batch
(R79, R93). -/
def JAt.credit (j : JAt) (s : State) (e : JoinEntry) : State :=
  (s.onGang j.dn j.gid j.gi fun k =>
    { k with know := (k.know.observe s.trace.saw).leave ⟨2, e.batch, s.written, []⟩ }).rested

/-- Whether a step has made an access to device memory. -/
def accessed (s t : State) : Bool := (List.range 8).any fun d => (s.die d).accesses ≠ (t.die d).accesses

/-- Whether a step of a queue entry must wait: it makes an access that earlier commands of the owner must precede.
(DEDUCED: log 133) -/
def JAt.waits (j : JAt) (s t : State) (e : JoinEntry) : Bool :=
  accessed s t && joinWaits s j.dn j.gid j.gi e (joinReach s j.dn (s.jcore j.dn j.n).session e)

/-- The execution of the next queued join instruction, up to its next step boundary (R168, R176); JSTEP.SLOT is the
place in the queue's 16 entries of the one in progress. (DEDUCED: log 78) -/
def execJoinEntryExecute (d core : Nat) (s : State) : Host.Outcome State Fault Refusal :=
  onDieStep s d fun s =>
    let c := s.jcore d core
    match c.owner, c.queue with
    | some (gid, gi), e :: r =>
      if c.frozen || c.freezeAsked then s
      else
        let j : JAt := ⟨d, core, gid, gi⟩
        let leave := fun (s : State) =>
          s.onCore d core fun c => { c with queue := r, jstep := ⟨(c.jstep.slot + 1) % 16, 0, 0, 0⟩ }
        let ran := runEntry j (j.acting s e) e
        if j.waits s ran.1 e then s
        else match (j.credit ran.1 e, ran.2) with
        | (s, .more) => s
        | (s, .done) => implicitRelease (leave s) d core
        | (s, .misuse) => implicitRelease (entryTrap j (leave s) e) d core
    | _, _ => s

/-- Batches complete in order: the oldest closed batch whose instructions have all completed; an owner that has
exited releases the engine (R161, R168). -/
def execBatchComplete (d core : Nat) (s : State) : Host.Outcome State Fault Refusal :=
  onDieStep s d fun s =>
    let c := s.jcore d core
    if c.owner.isSome && c.doneBatch + 1 < c.openBatch && !(c.queue.any fun e => e.batch = c.doneBatch + 1) then
      s.onCore d core fun c => { c with doneBatch := c.doneBatch + 1 }
    else implicitRelease s d core

/-- The freeze at a step boundary (R176). -/
def execJoinFreeze (d core : Nat) (s : State) : Host.Outcome State Fault Refusal :=
  onDieStep s d fun s =>
    let c := s.jcore d core
    if c.owner.isSome && c.freezeAsked && !c.frozen then
      s.onCore d core fun c => { c with frozen := true, freezeAsked := false }
    else s

/-- The grant, an acquire: the gang at the head of the acquire queue becomes owner, and its quads that wait at `macq`
advance (R160, R208, R292). (DEDUCED: log 43) -/
def execMacqGrant (d core : Nat) (s : State) : Host.Outcome State Fault Refusal :=
  onDieStep s d fun s =>
    let s := implicitRelease s d core
    let c := s.jcore d core
    match c.owner, c.waiters with
    | none, (gid, gi) :: r =>
      let k := match (s.die d).group gid with
        | some g => g.gang gi
        | none => Gang.empty
      let at_ := k.liveQuads.filter fun q => (k.quad q).atMacq
      let s := s.onCore d core fun c =>
        { c with owner := some (gid, gi), unclaimed := at_.isEmpty, waiters := r, openBatch := 1, doneBatch := 0,
                 issue := c.session }
      s.onGroup d gid fun g => (g.acquire c.passed).onGang gi fun k =>
        (at_.foldl (fun (k : Gang) q => k.onQuad q fun u => { u.advance with atMacq := false })
          { k with know := k.know.learn k.issued c.passed }).repart
    | _, _ => s

end Sys2Proof.Machine
end

