-- ==== Sys2Proof/Machine/Context.lean ====
section
/-!
DEFINITION. Context images (R181, R322 to R324): the lines of a gang image and of a core image, and what is read back
from them.
-/
namespace Sys2Proof.Machine

/-! ### Lines -/

/-- 64 bytes. -/
abbrev Line := List Byte

/-- Bytes cut or filled up to a line. -/
def lineOf (bs : List Byte) : Line := (bs ++ noPayload).take 64

/-- Bytes cut into `n` lines. -/
def cutLines : (n : Nat) → List Byte → List Line
  | 0, _ => []
  | n + 1, bs => lineOf bs :: cutLines n (bs.drop 64)

/-- Zero bytes. -/
def zeroBytes (n : Nat) : List Byte := List.replicate n 0

/-- The number in `n` bytes of a line from byte `i` on. -/
def Line.num (l : Line) (i n : Nat) : Nat := leNat ((l.drop i).take n)

/-- Line `i` of an image. -/
def lineAt (ls : List Line) (i : Nat) : Line := ls.getD i noPayload

/-- The 32 bytes of a fault record (R181). -/
def FaultRec.bytes (r : FaultRec) : List Byte :=
  leBytes 8 (r.cls * 2 ^ 56 + r.reason * 2 ^ 48 + r.gang * 2 ^ 32 + r.lane * 2 ^ 27 + r.opc * 2 ^ 16) ++ leBytes 8 r.pc ++
    leBytes 8 r.addr ++ leBytes 8 (r.loc * 2 ^ 48 + r.value.toNat)

/-- A fault record of its four words (R181). -/
def faultRecOf (w0 pc addr w3 : Nat) : FaultRec :=
  ⟨bits 63 56 w0, bits 55 48 w0, bits 47 32 w0, bits 31 27 w0, bits 23 16 w0, pc, addr, bits 63 48 w3,
   BitVec.ofNat 32 w3⟩

/-- A row as two lines (R322). -/
def rowLines (r : Row) : List Line := cutLines 2 (laneList.flatMap fun l => leBytes 4 (r.lane l).toNat)

/-- The row of two lines. -/
def rowAt (ls : List Line) (i : Nat) : Row :=
  rowOf fun l => BitVec.ofNat 32 ((lineAt ls (i + l / 16)).num (4 * (l % 16)) 4)

/-! ### The gang image -/

/-- The per-lane registers of a gang image, by code (R322). -/
def imageCodes (n : Nat) : List Nat :=
  List.range n ++ span 576 48 ++ span 624 16 ++ span 704 8 ++ span 752 8

/-- A mask-stack entry as a word (R124, R324). -/
def MaskEntry.word (e : MaskEntry) : Nat := e.fmt.toNat * 256 + e.kind * 64 + e.mask.toNat

/-- The open `rep` levels as a bit mask (R310, R324). (DEDUCED: log 30) -/
def Quad.repMask (u : Quad) : Nat := 2 ^ u.reps.length - 1

/-- The eight lines of a quad: the state before the pre-emption vector (R321, R324). -/
def quadLines (u : Quad) : List Line :=
  let (n, m) := u.ywait.getD (0, 0)
  let st := u.stack.reverse
  let reps := u.reps.reverse
  let calls := u.calls.reverse
  [lineOf (leBytes 8 u.ppc ++ leBytes 1 (u.pLmask.toNat + 16 * u.pPark.toNat) ++
      leBytes 1 (u.ended.toNat + 16 * u.pSup.toNat) ++ leBytes 1 u.pSgt ++ leBytes 1 u.stack.length ++
      leBytes 1 u.calls.length ++ leBytes 1 u.repMask ++ leBytes 1 u.edepth ++ leBytes 1 u.eclass ++
      leBytes 4 u.fmt.toNat ++ leBytes 4 u.vflags.toNat ++ leBytes 8 u.epc ++
      leBytes 1 (u.emask.toNat + 16 * u.eflt.toNat) ++ leBytes 1 u.ywait.isSome.toNat ++ leBytes 1 n ++ leBytes 1 m),
   lineOf ((u.lc.flatMap fun w => leBytes 4 w.toNat) ++ zeroBytes 4 ++
      reps.flatMap fun r => leBytes 8 r.first ++ leBytes 8 r.stop)] ++
  cutLines 4 (st.flatMap fun e => leBytes 8 e.word) ++
  cutLines 2 (calls.flatMap fun e => leBytes 8 (e.ret + e.depth * 2 ^ 53))

/-- Bit mask of the quads that satisfy `f`. -/
def quadMask (k : Gang) (f : Quad → Bool) : Nat :=
  (List.range k.quads.length).foldl (fun m q => if f (k.quad q) then m + 2 ^ q else m) 0

/-- The header line of an image (R323). -/
def headerLine (form regs : Nat) (owner waiting : Bool) (lines unit nq gpend node c a barq gsyq : Nat) : Line :=
  lineOf (leBytes 2 form ++ leBytes 1 regs ++ leBytes 1 (owner.toNat + 2 * waiting.toNat) ++ leBytes 4 lines ++
    leBytes 2 unit ++ leBytes 1 nq ++ leBytes 1 gpend ++ leBytes 4 node ++ leBytes 1 c ++ leBytes 1 a ++
    leBytes 1 barq ++ leBytes 1 gsyq)

/-- Bindings of the ports as 16-bit numbers, 0xFFFF for none (R322). -/
def bindBytes (k : Gang) : List Byte :=
  ([0, 1, 2, 3].flatMap fun i => leBytes 2 ((k.binds.find? i).getD 0xFFFF)) ++ leBytes 2 (k.kdImport.getD 0xFFFF)

/-- The lines of a gang image before its pending line: lines 0 to 306 + 2n (R322). -/
def gangLines (g : Group) (gi : Nat) (owner : Bool) (pendingLines : Nat) : List Line :=
  let k := g.gang gi
  let n := 32 * g.regs
  let total := 308 + 2 * n + pendingLines
  headerLine 1 g.regs owner k.waited total gi k.quads.length 0 g.node k.c k.a (quadMask k (·.barArrived))
      (quadMask k (·.gsyncArrived)) ::
    ((List.range 8).flatMap fun q => if q < k.quads.length then quadLines (k.quad q) else cutLines 8 []) ++
    cutLines 16 (laneList.flatMap fun l => (FMap.get FaultRec.none k.records l).bytes) ++
    cutLines 4 ((List.range 64).flatMap fun i => leBytes 4 (FMap.get 0 k.scal (640 + i)).toNat) ++
    [lineOf (((List.range 8).flatMap fun i => leBytes 4 (FMap.get 0 k.scal (744 + i)).toNat) ++
       (List.range 8).flatMap fun i =>
         (let w := FMap.get (0, 0) k.xwin i
          leBytes 2 w.1 ++ leBytes 2 w.2)),
     lineOf (((List.range 7).flatMap fun i => leBytes 4 (FMap.get 0 k.preds (712 + i)).toNat) ++ bindBytes k)] ++
    ((List.range 7).flatMap fun j => (List.range 4).flatMap fun m =>
      rowLines (rowOf fun l => (k.port j l).getD m 0)) ++
    cutLines 4 (((List.range 7).flatMap fun j => laneList.flatMap fun l => leBytes 1 (k.port j l).length) ++
      laneList.flatMap fun l => leBytes 1 (FMap.get 4 k.kdFree l)) ++
    (imageCodes n).flatMap fun code => rowLines (FMap.get zeroRow k.lanes code)

/-- The pending section and its line: the die keeps what stands in the section under a number that the section names
(R322). (DESIGN CHOICE: log 86) -/
def pendingLinesOf (key : BitVec 512) (id : Option Nat) : List Line :=
  let sec := match id with
    | some i => [lineOf (leBytes 8 i)]
    | none => []
  let check := Config.contextCheck key (sec.map leNat)
  lineOf (leBytes 4 sec.length ++ leBytes 4 check.toNat) :: sec

/-! ### Reading a gang image back -/

/-- Whether a quad block has only zeros in its reserved fields (R324). -/
def quadBlockOk (ls : List Line) (i : Nat) : Bool :=
  let l0 := lineAt ls i
  let l1 := lineAt ls (i + 1)
  bits 7 5 (l0.num 9 1) = 0 && bits 13 0 (l0.num 16 4) = 0 && bits 31 6 (l0.num 20 4) = 0 &&
  l0.num 33 1 ≤ 1 && l0.num 34 1 < 64 && l0.num 35 1 < 64 && l0.num 36 28 = 0 &&
  l0.num 10 1 < 8 && l0.num 11 1 ≤ 32 && l0.num 12 1 ≤ 16 && [0, 1, 3, 7].contains (l0.num 13 1) &&
  l1.num 12 4 = 0 &&
  ((List.range 32).all fun m =>
    let v := (lineAt ls (i + 2 + m / 8)).num (8 * (m % 8)) 8
    bits 63 40 v = 0 && bits 21 8 v = 0 && bits 5 4 v = 0 && bits 7 6 v ≠ 3) &&
  ((List.range 16).all fun m => bits 63 59 ((lineAt ls (i + 6 + m / 8)).num (8 * (m % 8)) 8) = 0)

/-- A quad with the context of a quad block: PPC and PMASK take what stood before the pre-emption vector (R321). -/
def quadOfLines (ls : List Line) (i : Nat) (bar gsy : Bool) (released : BitVec 4) (u : Quad) : Quad :=
  let l0 := lineAt ls i
  let l1 := lineAt ls (i + 1)
  let b8 := l0.num 8 1
  let b9 := l0.num 9 1
  let b32 := l0.num 32 1
  let entry := fun m =>
    let v := (lineAt ls (i + 2 + m / 8)).num (8 * (m % 8)) 8
    (⟨BitVec.ofNat 32 (bits 39 8 v), bits 7 6 v, BitVec.ofNat 4 (bits 3 0 v)⟩ : MaskEntry)
  let call := fun m =>
    let v := (lineAt ls (i + 6 + m / 8)).num (8 * (m % 8)) 8
    (⟨bits 52 0 v, bits 58 53 v⟩ : CallEntry)
  let reps := if l0.num 13 1 = 0 then 0 else if l0.num 13 1 = 1 then 1 else if l0.num 13 1 = 3 then 2 else 3
  { u with
      ppc := l0.num 0 8, pLmask := BitVec.ofNat 4 b8, pPark := BitVec.ofNat 4 (b8 / 16), ended := BitVec.ofNat 4 b9
      pSup := bit 4 b9, pSgt := l0.num 10 1, edepth := l0.num 14 1, eclass := l0.num 15 1
      fmt := BitVec.ofNat 32 (l0.num 16 4), vflags := BitVec.ofNat 6 (l0.num 20 4), epc := l0.num 24 8
      emask := BitVec.ofNat 4 b32, eflt := BitVec.ofNat 4 (b32 / 16)
      ywait := if l0.num 33 1 = 1 then some (l0.num 34 1, l0.num 35 1) else none
      lc := [BitVec.ofNat 32 (l1.num 0 4), BitVec.ofNat 32 (l1.num 4 4), BitVec.ofNat 32 (l1.num 8 4)]
      reps := ((List.range reps).map fun k => (⟨l1.num (16 + 16 * k) 8, l1.num (24 + 16 * k) 8⟩ : RepLevel)).reverse
      stack := ((List.range (l0.num 11 1)).map entry).reverse
      calls := ((List.range (l0.num 12 1)).map call).reverse
      barArrived := bar, gsyncArrived := gsy, released := released }

/-- The checks of a gang image that need its lines alone: FORM, LINES, REGS and NQ, and every reserved field (R325).
(DEDUCED: log 87) -/
def gangImageOk (g : Group) (gi : Nat) (ls : List Line) : Bool :=
  let h := lineAt ls 0
  let n := 32 * g.regs
  let nq := (g.gang gi).quads.length
  let p := lineAt ls (307 + 2 * n)
  h.num 0 2 = 1 && h.num 2 1 = g.regs && h.num 10 1 = nq && h.num 4 4 = 308 + 2 * n + p.num 0 4 && p.num 0 4 ≤ 256 &&
  h.num 3 1 < 4 && h.num 20 44 = 0 && p.num 8 56 = 0 &&
  ((List.range nq).all fun q => quadBlockOk ls (1 + 8 * q)) &&
  ((span (1 + 8 * nq) (64 - 8 * nq)).all fun i => leNat (lineAt ls i) = 0) &&
  (laneList.all fun l =>
    let w := (lineAt ls (65 + l / 2)).num (32 * (l % 2))
    bits 26 24 (w 8) = 0 && bits 15 0 (w 8) = 0 && ((lineAt ls (65 + l / 2)).num (32 * (l % 2) + 28) 2 = 0)) &&
  (lineAt ls 86).num 38 26 = 0 &&
  ((List.range 224).all fun i => (lineAt ls (143 + i / 64)).num (i % 64) 1 ≤ 4) &&
  laneList.all fun l => (lineAt ls 146).num (32 + l) 1 ≤ 4

/-- The gang with the context of an image, the pre-emption banks of the running handler untouched (R321, R325). -/
def gangOfLines (g : Group) (gi : Nat) (ls : List Line) (p : Pending) : Gang :=
  let k := g.gang gi
  let n := 32 * g.regs
  let h := lineAt ls 0
  let codes := imageCodes n
  let num16 := fun i => (lineAt ls 86).num i 2
  let opt := fun v => if v = 0xFFFF then none else some v
  let lanes := ((List.range codes.length).foldl (fun (m : FMap Row) i =>
    FMap.set zeroRow m (codes.getD i 0) (rowAt ls (147 + 2 * i))) [])
  let scal := (List.range 64).foldl (fun (m : FMap Word) i =>
    FMap.set 0 m (640 + i) (BitVec.ofNat 32 ((lineAt ls (81 + i / 16)).num (4 * (i % 16)) 4))) []
  let scal := (List.range 8).foldl (fun (m : FMap Word) i =>
    FMap.set 0 m (744 + i) (BitVec.ofNat 32 ((lineAt ls 85).num (4 * i) 4))) scal
  let preds := (List.range 7).foldl (fun (m : FMap Word) i =>
    FMap.set 0 m (712 + i) (BitVec.ofNat 32 ((lineAt ls 86).num (4 * i) 4))) []
  let xwin := (List.range 8).foldl (fun (m : FMap (Nat × Nat)) i =>
    FMap.set (0, 0) m i ((lineAt ls 85).num (32 + 4 * i) 2, (lineAt ls 85).num (34 + 4 * i) 2)) []
  let binds := (List.range 4).foldl (fun (m : FMap Nat) i => match opt (num16 (28 + 2 * i)) with
    | some v => m.insert i v
    | none => m) []
  let entries := fun j l =>
    (List.range ((lineAt ls (143 + (32 * j + l) / 64)).num ((32 * j + l) % 64) 1)).map fun m =>
      (rowAt ls (87 + 8 * j + 2 * m)).lane l
  let queues := (List.range 7).foldl (fun (m : FMap (List Word)) j =>
    laneList.foldl (fun (m : FMap (List Word)) l => FMap.set [] m (32 * j + l) (entries j l)) m) []
  let records := laneList.foldl (fun (m : FMap FaultRec) l =>
    let f := fun i => (lineAt ls (65 + l / 2)).num (32 * (l % 2) + 8 * i) 8
    FMap.set FaultRec.none m l (faultRecOf (f 0) (f 1) (f 2) (f 3))) []
  let free := laneList.foldl (fun (m : FMap Nat) l => FMap.set 4 m l ((lineAt ls 146).num (32 + l) 1)) []
  let quads := (List.range k.quads.length).map fun q =>
    let u := k.quad q
    if u.exited then u
    else quadOfLines ls (1 + 8 * q) (bit q (h.num 18 1)) (bit q (h.num 19 1)) (p.released.getD q 0) u
  { k with
      lanes := lanes, scal := scal, preds := preds, xwin := xwin, binds := binds, queues := queues, records := records
      kdImport := opt (num16 36), kdFree := free, kdFrom := p.kdFrom, kdDesc := p.kdDesc, c := h.num 16 1
      a := h.num 17 1, lateC := p.lateC, lateA := p.lateA, lateJ := p.lateJ, parkedAt := p.parkedAt
      issuedC := p.issuedC, issuedA := p.issuedA, issued := max k.issued p.issued, shifts := p.shifts
      quads := quads, loaded := true }

/-! ### The core image -/

/-- A window descriptor as a word (R131). -/
def Win.word (w : Win) : Nat := w.swz * 2 ^ 56 + w.extent * 2 ^ 32 + w.base

/-- The bytes of a group's area with its inbox on each core (R131). -/
def Group.areaBytes (g : Group) : Nat := 4096 * g.spad + g.inbox

/-- Lines of a core image (R324). -/
def coreImageLines (g : Group) : Nat := 3 + g.areaBytes / 64

/-- The lines of the core image of group core `j` (R324). -/
def coreLines (g : Group) (j : Nat) : List Line :=
  let h := g.home j
  let gpend := (List.range 8).foldl (fun m i => if (h.gPend.find? i).isSome then m + 2 ^ i else m) 0
  headerLine 2 g.regs false false (coreImageLines g) j 0 gpend g.node 0 0 0 0 ::
    lineOf ((List.range 8).flatMap fun i => leBytes 8 (FMap.get Win.none h.wins i).word) ::
    lineOf (((List.range 8).flatMap fun i => leBytes 4 (FMap.get 0 h.g i).toNat) ++
      (List.range 8).flatMap fun i => leBytes 4 (((h.gPend.find? i).getD (0, 0)).2).toNat) ::
    (List.range (g.areaBytes / 64)).map fun i => (span (64 * i) 64).map (Memory.read h.area)

/-- The checks of a core image (R325). (DEDUCED: log 87) -/
def coreImageOk (g : Group) (ls : List Line) : Bool :=
  let h := lineAt ls 0
  h.num 0 2 = 2 && h.num 2 1 = g.regs && h.num 4 4 = coreImageLines g && h.num 3 1 < 4 && h.num 20 44 = 0 &&
  (List.range 8).all fun i =>
    let v := (lineAt ls 1).num (8 * i) 8
    bits 63 59 v = 0 && bits 31 23 v = 0 && bits 5 0 v = 0

/-- What a core of the group holds, from its image; the gang that wrote a pending value is the die's own knowledge
(R129). -/
def homeOfLines (ls : List Line) (h : GroupCore) : GroupCore :=
  let h0 := lineAt ls 0
  let w := fun i => (lineAt ls 1).num (8 * i) 8
  { h with
      area := ((ls.drop 3).foldl (fun (x : Nat × List (Nat × Byte)) l =>
        (x.1 + 64, x.2 ++ (span x.1 64).zip l)) (0, [])).2.filter fun e => e.2 ≠ Memory.unlisted
      wins := (List.range 8).foldl (fun (m : FMap Win) i =>
        FMap.set Win.none m i ⟨bits 22 0 (w i), bits 55 32 (w i), bits 58 56 (w i)⟩) []
      g := (List.range 8).foldl (fun (m : FMap Word) i =>
        FMap.set 0 m i (BitVec.ofNat 32 ((lineAt ls 2).num (4 * i) 4))) []
      gPend := (List.range 8).foldl (fun (m : FMap (Nat × Word)) i =>
        if bit i (h0.num 11 1) then
          m.insert i (((h.gPend.find? i).getD (0, 0)).1, BitVec.ofNat 32 ((lineAt ls 2).num (32 + 4 * i) 4))
        else m) []
      loaded := true }

end Sys2Proof.Machine
end

