-- ==== Sys2Proof/Machine/Join.lean ====
section
/-!
DEFINITION. The join-engine and cabinet instructions at issue, opcodes 0x180 to 0x193 (R288 to R306): the checks of
R290 in their order, the capture of operands, and the join queue of R168. What a queued instruction does when it
executes stands in `JoinSteps`.
-/
namespace Sys2Proof.Machine

/-- Join ownership and cabinet misuse (R160, R179). -/
def joinOwnership : Cause := (11, 0)
def cabinetMisuse : Cause := (12, 0)

/-- The join engine of the issuing gang's core. -/
def Cx.jcore (c : Cx) : Core := c.s.jcore c.dn c.coreOf

/-- The context with its core's join engine changed. -/
def Cx.onCore (c : Cx) (f : Core → Core) : Cx := { c with s := c.s.onCore c.dn c.coreOf f }

/-- Whether the issuing gang owns the join engine. -/
def Cx.owns (c : Cx) : Bool := c.jcore.owner = some (c.gid, c.gi)

/-- The context after steps taken on the state with the context put back. -/
def Cx.through (c : Cx) (f : State → State) : Cx :=
  let s := f c.close
  match (s.die c.dn).group c.gid with
  | some g => { c with s := s, grp := g, k := g.gang c.gi }
  | none => { c with s := s }

/-- Every quad of the sub-gang takes a quad-scope cause; VALUE is the operand that the check tested (R181). -/
def Cx.trapQuads (c : Cx) (cause : Cause) (value : Nat := 0) : Cx :=
  { c with out := c.qs.map fun q => (q, .trap cause.1 cause.2 (BitVec.ofNat 32 value)) }

/-- Whether a join instruction acts in each lane, and so is issued where no lane is active too (R200, R297, R298).
(DEDUCED: log 69) -/
def laneJoin (op : Nat) : Bool := op = 0x18B || op = 0x18C

/-- The first checks of a join instruction other than `macq`: its words, ownership, its registers (R290). (DEDUCED: log
69) -/
def Cx.joinCause (c : Cx) (op : Nat) (o : OpsE) : Option Cause :=
  (wordRegFault c.grp.regs c.sup op (.e o)).map (fun r => (clsRegister, r)) <|>
  (if (c.em ≠ 0 || laneJoin op) && !c.owns then some joinOwnership else none) <|>
  c.regCause op (.e o)

/-- A join instruction other than `macq`; where no lane is active, one that acts for the gang is skipped (R200, R288). -/
def joinOp (op : Nat) (o : OpsE) (s : State) (body : Cx → Option Cx) : Host.Outcome State Fault Refusal :=
  issueChecked op (.e o) o.h s (fun c => (c.joinCause op o).map (·, 0)) fun c =>
    if c.em = 0 && !laneJoin op then some c else body c

/-- What the checks of a queued instruction answer: a quad-scope cause with its VALUE, a parked lane, or the
instruction as captured with its destination. -/
inductive JFate where
  | trap (cause : Cause) (value : Nat)
  | park (r : FaultRec)
  | run (op : JoinOp) (dest : Option Nat)
  deriving DecidableEq, Repr

/-- The queue entry of an instruction. -/
def Cx.entry (c : Cx) (op : JoinOp) (dest : Option Nat) : JoinEntry :=
  { batch := c.jcore.openBatch, lanes := c.em, quads := c.gangLanes, marks := if dest.isSome then c.marks else [],
    sup := c.sup, lane := (lowest c.em).getD 0, pc := c.pc, opc := c.op % 256, issue := c.k.issued, op := op,
    dest := dest }

/-- An instruction executed at once, while the engine is frozen (R176, R291). -/
def Cx.atOnce (c : Cx) (e : JoinEntry) : Cx :=
  let j : JAt := ⟨c.dn, c.coreOf, c.gid, c.gi⟩
  let end_ := (runEntry j c.close e).2
  let c := c.through fun s => j.credit (runEntry j (j.acting s e) e).1 e
  if end_ = .misuse then c.trapQuads cabinetMisuse else c

/-- The context of a queued instruction with the last-result file shifted for its result, if it has one (R127, R291). -/
def Cx.ahead (c : Cx) (op : JoinOp) (dest : Option Nat) : Cx :=
  match dest with
  | some code => c.shiftAhead op.wide (regOf code)
  | none => c

/-- Whether a `cload` whose session is not yet known stands in the queue. (DEDUCED: log 44) -/
def Core.loadQueued (j : Core) : Bool := j.queue.any fun e => match e.op with
  | .cload _ _ _ => true
  | _ => false

/-- The issue of a queued instruction: it stalls while the queue is full, while the engine is frozen unless
`direct`, and while a `cload` whose session is not yet known stands in the queue (R168, R176, R290, R291). (DEDUCED:
log 44, 70) -/
def queuedOp (op : Nat) (o : OpsE) (direct : Bool) (s : State) (check : Cx → Cx × JFate) :
    Host.Outcome State Fault Refusal :=
  joinOp op o s fun c =>
    let j := c.jcore
    if acquirePending c.s c.dn c.gid c.gi then none
    else if j.frozen && !direct then none
    else if !j.frozen && (j.freezeAsked || 16 ≤ j.queue.length || j.loadQueued) then none
    else match check c with
      | (c, .trap cause v) => some (c.trapQuads cause v)
      | (c, .park r) => some (c.park ((lowest c.em).getD 0) r)
      | (c, .run jop dest) =>
        let c := c.ahead jop dest
        let e := c.entry jop dest
        if c.jcore.frozen then
          if joinWaits c.s c.dn c.gid c.gi e (joinReach c.s c.dn c.jcore.session e) then none else some (c.atOnce e)
        else some (c.onCore fun j => { j with queue := j.queue ++ [e] })

/-! ### Common checks -/

/-- The window-bound fault of a window operand of `n` bytes, taken by the lowest active lane (R289). -/
def Cx.windowFate (c : Cx) (d : Desc) (n : Nat) : Option FaultRec :=
  let w := c.window d.window
  let off := c.descLane d c.lead
  let l := (lowest c.em).getD 0
  let rec_ := fun r => some (c.record l 3 r off d.window (BitVec.ofNat 32 off))
  if off % 64 ≠ 0 then rec_ 1 else if w.extent < off + n then rec_ 2 else none

/-- The first window fault of a list, or else the instruction. -/
def Cx.windowsThen (c : Cx) (ws : List (Desc × Nat)) (op : JoinOp) (dest : Option Nat := none) : Cx × JFate :=
  match ws.findSome? fun w => c.windowFate w.1 w.2 with
  | some r => (c, .park r)
  | none => (c, .run op dest)

/-- The bytes of a window operand as the owner's loads read them (R84, R168). -/
def Cx.windowBytes (c : Cx) (d : Desc) (n : Nat) : List Byte :=
  c.area.readAll ((c.window d.window).bytes (c.descLane d c.lead) n)

/-- A window operand that the engine reads at issue, as a load of its owner (R84). -/
def loading (d : Desc) (n : Nat) (x : Cx × JFate) : Cx × JFate :=
  match x.2 with
  | .run _ _ => (x.1.sees ((x.1.window d.window).bytes (x.1.descLane d x.1.lead) n), x.2)
  | _ => x

/-- The session state that the checks at issue test (R290). -/
def Cx.session (c : Cx) : Session := c.jcore.issue

/-! ### Ownership -/

/-- `macq`: the gang waits at the tail of the acquire queue; a grant made while no quad stood here is taken at once
(R160, R161, R292). (DEDUCED: log 43) -/
def execMacq (o : OpsE) (s : State) : Host.Outcome State Fault Refusal :=
  issueWith 0x180 (.e o) o.h s fun c =>
    if c.em = 0 then some c
    else if c.owns then
      some (if c.jcore.unclaimed then c.onCore fun j => { j with unclaimed := false } else c.trapQuads joinOwnership)
    else
      let waiting := c.jcore.waiters.contains (c.gid, c.gi)
      if waiting && c.k.liveQuads.any (fun q => (c.k.quad q).atMacq) then some (c.trapQuads joinOwnership)
      else
        let c := if waiting then c else c.onCore fun j => { j with waiters := j.waiters ++ [(c.gid, c.gi)] }
        some { c with k := c.qs.foldl (fun (k : Gang) q => k.onQuad q fun u => { u with atMacq := true }) c.k }.holdAll

/-- The faults of a gang's batches up to `n` taken, and their writes seen complete (R93, R185). -/
def Gang.takeLateJ (k : Gang) (sup : Bool) (n : Nat) : Gang :=
  let due := k.lateJ.filter fun f => f.ord ≤ n
  due.foldl (Gang.takeOne sup) { k with
    lateJ := k.lateJ.filter fun f => !(f.ord ≤ n), know := k.know.see k.issued fun u => u.cls = 2 && u.ord ≤ n }

/-- `mrel`: it holds until every instruction of the owner has completed and what its release covers has been
performed, takes the faults of every batch, and passes ownership on (R160, R292). (DEDUCED: log 71) -/
def execMrel (o : OpsE) (s : State) : Host.Outcome State Fault Refusal :=
  joinOp 0x181 o s fun c =>
    let j := c.jcore
    if j.issue.isOpen then some (c.trapQuads cabinetMisuse)
    else if j.frozen || j.freezeAsked || !j.queue.isEmpty || releasePending c.s c.dn c.gid c.gi then none
    else
      let c := { c with k := c.k.takeLateJ c.sup j.openBatch }
      some (c.onCore fun j => { j.released with passed := withAll j.passed (c.k.know.before c.k.issued) })

/-! ### Tile registers -/

/-- `tfill` (R293). -/
def execTfill (o : OpsE) (s : State) : Host.Outcome State Fault Refusal :=
  queuedOp 0x182 o true s fun c =>
    let n := if o.m.variant = 1 then 12352 else 12288
    let scale := if o.c = Desc.zero then none else some (BitVec.ofNat 32 (c.uniform o.c))
    loading o.b n
      (c.windowsThen [(o.b, n)] (.tfill o.a.tileNo (bytesFrom0 (c.windowBytes o.b n)) (o.m.variant = 1) scale))

/-- `tzero` (R293). -/
def execTzero (o : OpsE) (s : State) : Host.Outcome State Fault Refusal :=
  queuedOp 0x183 o false s fun c => (c, .run (.tzero o.a.tileNo) none)

/-- `tstore` (R293). -/
def execTstore (o : OpsE) (s : State) : Host.Outcome State Fault Refusal :=
  queuedOp 0x184 o true s fun c =>
    c.windowsThen [(o.a, if o.m.variant = 1 then 12352 else 12288)]
      (.tstore o.b.tileNo (c.window o.a.window) (c.descLane o.a c.lead) (o.m.variant = 1))

/-! ### Join steps -/

/-- The formats of the quad whose number is SGT (R294). -/
def Cx.fmtJ (c : Cx) : JFmt := jfmtOf (c.k.quad c.sgt).fmt

/-- The checks of `jmm` and `jmms`: the format combination, then the session (R170, R290, R294). -/
def Cx.stepCause (c : Cx) : Option Cause :=
  let f := c.fmtJ
  if !f.ok then some (clsIllegal, 8)
  else if !c.session.isOpen || !c.session.block || c.session.acc ≠ f.acc then some cabinetMisuse
  else none

/-- `jmm` (R294). -/
def execJmm (o : OpsE) (s : State) : Host.Outcome State Fault Refusal :=
  queuedOp 0x185 o false s fun c =>
    let f := c.fmtJ
    match c.stepCause with
    | some cause => (c, .trap cause 0)
    | none => (c, .run (.jmm o.a.tileNo o.b.tileNo (c.uniform o.c) (c.reg o.d c.lead).toNat (Ty.code f.af) (Ty.code f.bf)
        f.acc f.k) none)

/-- `jmms`: the bitmaps stand in sM, sM + 1 and sM + 2, the origin in the pair sO (R295). -/
def execJmms (o : OpsE) (s : State) : Host.Outcome State Fault Refusal :=
  queuedOp 0x186 o false s fun c =>
    let f := c.fmtJ
    let m := fun i => (c.reg (o.d.plus i) 0).toNat
    match c.stepCause with
    | some cause => (c, .trap cause 0)
    | none => (c, .run (.jmms o.a.tileNo o.b.tileNo (c.reg o.c.theReg 0).toNat (c.reg (o.c.theReg.plus 1) 0).toNat
        (m 0 + m 1 % 65536 * 4294967296) (m 2) (Ty.code f.af) (Ty.code f.bf) f.acc f.k) none)

/-! ### Streams, tuples and probes -/

/-- Whether a tuple width may be fed to the session (R170). -/
def Cx.feedOk (c : Cx) (n : Nat) : Bool := c.session.isOpen && !c.session.block && n ≤ c.session.wm1 + 1

/-- Bytes of a B tuple of width `n` (R167, R296). -/
def tupleBytes (n : Nat) : Nat := (8 + 4 * n + 15) / 16 * 16

/-- Words of `n` tuples of `size` bytes. -/
def streamTuples (bs : List Byte) (size n : Nat) : List (List Word) :=
  (List.range n).map fun i => (List.range (size / 4)).map fun m =>
    BitVec.ofNat 32 (leNat ((bs.drop (size * i + 4 * m)).take 4))

/-- `jstream` (R296). -/
def execJstream (o : OpsE) (s : State) : Host.Outcome State Fault Refusal :=
  queuedOp 0x187 o false s fun c =>
    let n := o.m.variant + 1
    let na := (c.reg o.c.theReg 0).toNat
    let nb := (c.reg (o.c.theReg.plus 1) 0).toNat
    if !c.feedOk n then (c, .trap cabinetMisuse 0)
    else if 268435456 ≤ na then (c, .trap cabinetMisuse na)
    else if 268435456 ≤ nb then (c, .trap cabinetMisuse nb)
    else
      let bw := tupleBytes n
      match c.windowFate o.a (16 * na), c.windowFate o.b (bw * nb) with
      | some r, _ => (c, .park r)
      | none, some r => (c, .park r)
      | none, none => loading o.a (16 * na) (loading o.b (bw * nb)
          (c, .run (.jstream n na nb (streamTuples (c.windowBytes o.a (16 * na)) 16 na)
            (streamTuples (c.windowBytes o.b (bw * nb)) bw nb)) none))

/-- The 64-bit key of a lane: the pair of a register (R289). -/
def Cx.laneKey (c : Cx) (d : Desc) (l : Nat) : Nat := (c.reg64 d.theReg l).toNat

/-- `cacc` (R297). -/
def execCacc (o : OpsE) (s : State) : Host.Outcome State Fault Refusal :=
  queuedOp 0x18B o false s fun c =>
    let n := o.m.variant + 1
    if !c.feedOk n then (c, .trap cabinetMisuse 0)
    else (c, .run (.cacc n ((lanesOf c.solid).map fun l =>
      (l, c.laneKey o.a l, (List.range n).map fun i => c.reg (o.b.theReg.plus i) l))) none)

/-- `cprobe` (R298). -/
def execCprobe (o : OpsE) (s : State) : Host.Outcome State Fault Refusal :=
  queuedOp 0x18C o false s fun c =>
    if !c.session.isOpen then (c, .trap cabinetMisuse 0)
    else
      let word := match o.b with
        | .imm m => if o.m.variant = 1 then some m else none
        | _ => none
      (c, .run (.cprobe ((lanesOf c.solid).map fun l => (l, c.laneKey o.a l)) word c.em) (some o.d.code))

/-! ### Batches -/

/-- `jbatch`: the open batch closes at issue and its number is written; the trays retire in the queue (R299).
(DEDUCED: log 70) -/
def execJbatch (o : OpsE) (s : State) : Host.Outcome State Fault Refusal :=
  joinOp 0x188 o s fun c =>
    let j := c.jcore
    if acquirePending c.s c.dn c.gid c.gi then none
    else if j.frozen || j.freezeAsked || 16 ≤ j.queue.length || 16 ≤ j.openBatch - j.doneBatch then none
    else
      let e := c.entry .jbatch none
      let c := c.onCore fun j => { j with queue := j.queue ++ [e], openBatch := j.openBatch + 1 }
      some (c.result o.d c.em fun _ => BitVec.ofNat 32 j.openBatch)

/-- `jwait` (R299). -/
def execJwait (o : OpsE) (s : State) : Host.Outcome State Fault Refusal :=
  joinOp 0x189 o s fun c =>
    let j := c.jcore
    let n := c.uniform o.a
    if j.frozen || j.freezeAsked then none
    else if j.openBatch ≤ n then some (c.trapQuads cabinetMisuse n)
    else if j.doneBatch < n then none
    else some { c with k := c.k.takeLateJ c.sup n }

/-! ### Sessions -/

/-- `copen`: the session opens for later checks at issue (R290, R300). -/
def execCopen (o : OpsE) (s : State) : Host.Outcome State Fault Refusal :=
  queuedOp 0x18A o false s fun c =>
    let (r, c) := c.record_ o.a.rid
    let p := c.uniform o.b
    let w := c.uniform o.c
    let block : Bool := o.m.variant = 1
    let acc := if o.m.ty = .f32 then 0 else if o.m.flags = 1 then 2 else 1
    let occupied : Bool := !c.jcore.session.isOpen && !c.jcore.drawers.isEmpty
    if c.session.isOpen || occupied then (c, .trap cabinetMisuse 0)
    else if !r.takesImages then (c, .trap cabinetMisuse o.a.rid)
    else if block && w ≠ 8 then (c, .trap cabinetMisuse w)
    else if p < 1 || 16 < p then (c, .trap cabinetMisuse p)
    else if w < 1 || 8 < w then (c, .trap cabinetMisuse w)
    else
      let se : Session := ⟨true, block, acc, p - 1, w - 1, false, o.a.rid, 0⟩
      (c.onCore fun j => { j with issue := se }, .run (.copen o.a.rid block acc (p - 1) (w - 1)) none)

/-- `cclose`: the session closes for later checks at issue (R290, R300). -/
def execCclose (o : OpsE) (s : State) : Host.Outcome State Fault Refusal :=
  queuedOp 0x18E o false s fun c =>
    if !c.session.isOpen then (c, .trap cabinetMisuse 0)
    else (c.onCore fun j => { j with issue := { j.issue with isOpen := false } }, .run .cclose none)

/-- `cstat` (R301). -/
def execCstat (o : OpsE) (s : State) : Host.Outcome State Fault Refusal :=
  queuedOp 0x18F o true s fun c => (c, .run (.cstat o.m.variant) (some o.d.code))

/-! ### Drains, save and restore -/

/-- `cdrain` (R302). -/
def execCdrain (o : OpsE) (s : State) : Host.Outcome State Fault Refusal :=
  queuedOp 0x18D o false s fun c =>
    if !c.session.isOpen then (c, .trap cabinetMisuse 0)
    else match o.a with
      | .record id =>
        let (r, c) := c.record_ id
        if r.takesImages then (c, .run (.cdrain (o.m.variant = 1) (some (id, r)) Win.none 0) (some o.d.code))
        else (c, .trap cabinetMisuse id)
      | d => c.windowsThen [(d, 64)] (.cdrain (o.m.variant = 1) none (c.window d.window) (c.descLane d c.lead))
          (some o.d.code)

/-- Bytes of the tray image (R304). -/
def trayImage : Nat := 26112

/-- `tsave` (R304). -/
def execTsave (o : OpsE) (s : State) : Host.Outcome State Fault Refusal :=
  queuedOp 0x190 o true s fun c =>
    c.windowsThen [(o.a, trayImage)] (.tsave (c.window o.a.window) (c.descLane o.a c.lead))

/-- `tload` (R304). -/
def execTload (o : OpsE) (s : State) : Host.Outcome State Fault Refusal :=
  queuedOp 0x191 o true s fun c =>
    loading o.a trayImage (c.windowsThen [(o.a, trayImage)] (.tload (bytesFrom0 (c.windowBytes o.a trayImage))))

/-- `csave` (R305). (DEDUCED: log 77) -/
def execCsave (o : OpsE) (s : State) : Host.Outcome State Fault Refusal :=
  queuedOp 0x192 o true s fun c =>
    let (r, c) := c.record_ o.a.rid
    if r.invalid || r.esize ≠ 6 || r.ro then (c, .trap cabinetMisuse o.a.rid)
    else (c, .run (.csave o.a.rid r (c.uniform o.b)) none)

/-- `cload`: an invalid record or one of another element size is a record-bound fault (R64, R269, R305). (DEDUCED:
log 77) -/
def execCload (o : OpsE) (s : State) : Host.Outcome State Fault Refusal :=
  queuedOp 0x193 o true s fun c =>
    let (r, c) := c.record_ o.a.rid
    let isOpen := if c.jcore.frozen then c.jcore.session.isOpen else c.session.isOpen
    if isOpen then (c, .trap cabinetMisuse 0)
    else if r.invalid || r.esize ≠ 6 then
      (c, .park (c.record ((lowest c.em).getD 0) 5 2 (c.uniform o.b) o.a.rid (BitVec.ofNat 32 (c.uniform o.b))))
    else (c, .run (.cload o.a.rid r (c.uniform o.b)) none)

end Sys2Proof.Machine
end

