-- ==== Sys2Proof/Machine/Preempt.lean ====
section
/-!
DEFINITION. Pre-emption: the vector through entry 0 (R191, R320, R321), the end of a restore (R195, R326), and the step
that takes a saved group off its cores (R161, R326).
-/
namespace Sys2Proof.Machine

/-- The vector of one quad through entry 0 (R320). (DEDUCED: log 89) -/
def Quad.preempt (pc : Nat) (u : Quad) : Quad :=
  { u with ppc := u.pc, pLmask := u.lmask, pPark := u.park, pSup := u.sup, pSgt := u.sgt, sup := true,
           lmask := ~~~u.ended, held := u.park, park := 0, pc := pc, atRegang := false, sigw := none, atMacq := false,
           poolWait := false, stopped := false, atGsave := false }

/-- The first core of a group that holds a gang that has not exited (R321). -/
def Group.firstLiveCore (g : Group) : Option Nat :=
  ((g.gangs.filter fun k => !k.liveQuads.isEmpty).map (·.core)).min?

/-- Whether group core `j` holds a gang that has not exited. -/
def Group.coreLive (g : Group) (j : Nat) : Bool := g.gangs.any fun k => k.core = j && !k.liveQuads.isEmpty

/-- Pending values merged, register by register, keeping the one that prevails (R129, R321). -/
def mergePending {α : Type} (from_ into : FMap (Nat × α)) : FMap (Nat × α) :=
  from_.foldl (fun m e =>
    match m.find? e.1 with
    | some (gi, _) => if gi < e.2.1 then m.insert e.1 e.2 else m
    | none => m.insert e.1 e.2) into

/-- The pending values of cores whose gangs have all exited merged into the first core that is still live (R321). -/
def Group.mergeDead (g : Group) : Group :=
  match g.firstLiveCore with
  | none => g
  | some j0 => (List.range g.homes.length).foldl (fun (g : Group) j =>
      if g.coreLive j then g
      else
        let h := g.home j
        (g.onHome j fun h => { h with gPend := [], winPend := [] }).onHome j0 fun t =>
          { t with gPend := mergePending h.gPend t.gPend, winPend := mergePending h.winPend t.winPend }) g

/-- Whether a gang of a group stands in the acquire queue of its core (R161). -/
def inAcquireQueue (d : Die) (g : Group) (gid gi : Nat) : Bool :=
  (d.core (g.cores.getD (g.gang gi).core 0)).waiters.contains (gid, gi)

/-- Every join engine of a die changed. -/
def Die.mapCores (d : Die) (f : Core → Core) : Die := d.cores.foldl (fun d e => d.setCore e.1 (f e.2)) d

/-- Whether a gang of a group owns an engine. -/
def Core.ownedBy (c : Core) (gid : Nat) : Bool :=
  match c.owner with
  | some w => w.1 = gid
  | none => false

/-- Whether a gang of a group that has not exited owns an engine. -/
def Core.ownedLive (c : Core) (gid : Nat) (g : Group) : Bool :=
  match c.owner with
  | some w => w.1 = gid && !(g.gang w.2).liveQuads.isEmpty
  | none => false

/-- The acquire queues of a die without the gangs of a group, and the freeze asked of the engines that they own; an owner
that has exited leaves its batches to complete (R161, R176, R191). -/
def freezeCores (d : Die) (gid : Nat) (g : Group) : Die :=
  d.mapCores fun c =>
    { c with waiters := c.waiters.filter fun w => w.1 ≠ gid
             freezeAsked := c.freezeAsked || (!c.frozen && c.ownedLive gid g) }

/-- Every quad of a group vectors through entry 0; where the entry is not valid the group faults beyond recovery
with class 16 in its lowest-numbered gang (R320). (DEDUCED: log 88) -/
def preemptGroup (s : State) (dn gid : Nat) (restore : Bool) (pslot : Nat) : State :=
  match (s.die dn).group gid, handlerPc s dn 0 with
  | none, _ => s
  | some _, (none, s) => s.onGang dn gid 0 fun k => k.loseTo 16
  | some g, (some pc, s) =>
    let g := if restore then g else g.mergeDead
    let vector : Nat → Gang → Gang := fun gi k =>
      { k with quads := k.quads.map fun u => if u.exited then u else u.preempt pc
               preScal := [], preLanes := [], loaded := false
               waited := !restore && inAcquireQueue (s.die dn) g gid gi }
    let gangs := ((List.range g.gangs.length).zip g.gangs).map fun x => vector x.1 x.2
    (s.putGroup dn gid { g with gangs := gangs, pre := true, restore := restore, pslot := pslot }).onDie dn fun d =>
      freezeCores d gid g

/-- The numbers of R320 that the groups pre-empted or saved on a die hold. -/
def heldPslots (d : Die) : List Nat :=
  (d.groups.filter fun e => e.2.pre || e.2.state = .saved).map (·.2.pslot)

/-- The lowest free PSLOT (R320). -/
def freePslot (d : Die) : Option Nat := (List.range 256).find? fun n => !(heldPslots d).contains n

/-- Whether a group has no element whose request is under way: it can be pre-empted (R191). (DEDUCED: log 85) -/
def elementsQuiet (d : Die) (gid : Nat) : Bool :=
  !(d.cmds.any fun c => c.2.gid = gid && c.2.elems.any fun e => match e.2.state with
    | .sent _ => true
    | _ => false)

/-- Whether a gang of a group has not exited: there is something to pre-empt. -/
def Group.alive (g : Group) : Bool := g.gangs.any fun k => !k.liveQuads.isEmpty

/-- Whether a group is resident and not pre-empted. -/
def preemptible (d : Die) (gid : Nat) : Bool :=
  match d.group gid with
  | some g => g.runs && !g.pre && g.alive
  | none => false

/-- Whether a group is being restored: it cannot be pre-empted until it has resumed (R191, R326). (DEDUCED: log 85) -/
def restoring (d : Die) (gid : Nat) : Bool :=
  match d.group gid with
  | some g => g.runs && g.pre && g.restore && g.alive
  | none => false

/-- A group pre-empted under the lowest free PSLOT (R320). -/
def preemptOne (dn : Nat) (s : State) (gid : Nat) : State :=
  match freePslot (s.die dn) with
  | some n => preemptGroup s dn gid false n
  | none => s

/-- The resident ones of a list of groups pre-empted, all of them or none, if they can be now (R115, R191, R320).
(DEDUCED: log 85) -/
def preemptAll (s : State) (dn : Nat) (gids : List Nat) : State :=
  let gs := gids.filter (preemptible (s.die dn))
  let room := (List.range 256).filter fun n => !(heldPslots (s.die dn)).contains n
  if gs.length ≤ room.length && gs.all (elementsQuiet (s.die dn)) && !gids.any (restoring (s.die dn)) then
    gs.foldl (preemptOne dn) s
  else s

/-! ### The end of a restore -/

/-- Elements that are held issued again (R189, R195). (DEDUCED: log 84) -/
def Cmd.reissue (c : Cmd) : Cmd :=
  { c with elems := c.elems.map fun e => match e.2.state with
      | .held _ _ => (e.1, { e.2 with state := .waiting })
      | _ => e }

/-- The interrupted program resumed once every quad of the group has executed `rfe` (R195, R326). -/
def finishRestore (s : State) (dn gid : Nat) : State :=
  match (s.die dn).group gid with
  | none => s
  | some g =>
    if g.pre && g.restore && g.gangs.all fun k => k.liveQuads.all fun q => (k.quad q).stopped then
      let s := s.putGroup dn gid { g with
        pre := false, restore := false
        gangs := g.gangs.map fun k =>
          ({ k with preScal := [], preLanes := [], loaded := false
                    quads := k.quads.map fun u =>
                      if u.exited then u else { u with stopped := false, sgt := u.pSgt } } : Gang).wake }
      let s := s.onDie dn fun d =>
        let d := d.mapCores fun c => if c.ownedBy gid then { c with frozen := false, freezeAsked := false } else c
        { d with cmds := d.cmds.map fun c => if c.2.gid = gid then (c.1, c.2.reissue) else c }
      deliverAll s dn
    else s

/-! ### A saved group -/

/-- Every quad of the group that has not exited has executed the `rfe` that ends its save (R326). -/
def Group.allStopped (g : Group) : Bool := g.gangs.all fun k => k.liveQuads.all fun q => (k.quad q).stopped

/-- What the die keeps of a gang whose group is saved, for its restoring vector: which quads have exited, which lanes are
ended and which were parked (R193, R320); and what the gang knows of code. -/
def Gang.parked (k : Gang) : Gang :=
  { Gang.empty with
    issued := k.issued, know := k.know
    quads := k.quads.map fun u => { Quad.start 0 0 with exited := u.exited, ended := u.ended, park := u.pPark } }

/-- What the die keeps of a group core: the gangs that wrote its pending values, and its pending windows (R129). -/
def GroupCore.parked (h : GroupCore) : GroupCore :=
  { area := [], g := [], gPend := h.gPend, wins := [], winPend := h.winPend, loaded := false }

/-- Whether a gang has exited and none of its commands and join batches is outstanding (R94). (DEDUCED: log 95) -/
def gangEnded (d : Die) (g : Group) (gid gi : Nat) : Bool :=
  (g.gang gi).liveQuads.isEmpty && (gangCmds d gid gi).isEmpty &&
  (d.core (g.cores.getD (g.gang gi).core 0)).owner ≠ some (gid, gi)

/-- Whether every gang of a group that has exited has also ended, and no command of the handler is outstanding: what no
image records lands before the group is saved (R191). (DEDUCED: log 85) -/
def exitedEnded (d : Die) (g : Group) (gid : Nat) : Bool :=
  !(d.cmds.any fun c => c.2.gid = gid && c.2.pre) &&
  (List.range g.gangs.length).all fun gi => !(g.gang gi).liveQuads.isEmpty || gangEnded d g gid gi

/-- A pre-empted group leaves its cores and is saved (R161, R326). -/
def execGroupSaved (d g : Nat) (s : State) : Host.Outcome State Fault Refusal :=
  onDieStep s d fun s =>
    match (s.die d).group g with
    | none => s
    | some grp =>
      if grp.runs && grp.pre && !grp.restore && grp.alive && grp.allStopped && exitedEnded (s.die d) grp g then
        (s.putGroup d g { grp with
          state := .saved, pre := false, cores := [], gangs := grp.gangs.map Gang.parked
          homes := grp.homes.map GroupCore.parked, stalled := 0 }).onDie d fun d =>
            let d := d.mapCores fun c => if c.ownedBy g then { Core.empty with waiters := c.waiters, passed := c.passed } else c
            { d with cmds := d.cmds.filter fun c => c.2.gid ≠ g }
      else s

end Sys2Proof.Machine
end

