-- ==== Sys2Proof/Machine/Placement.lean ====
section
/-!
DEFINITION. Where a group is placed (R113): the room of cores and partitions, the dealing of gangs, quadrants and
footprints; and a group as its gangs start (R105, R107, R121, R131).
-/
namespace Sys2Proof.Machine

/-! ### What a group needs, and what cores hold -/

/-- The shape of a group: gangs, REGS, scratchpad bytes with the rounded inbox, and footprint (R113). -/
structure Shape where
  gangs : Nat
  regs : Nat
  bytes : Nat
  fpw : Nat
  fph : Nat
  deriving DecidableEq, Repr

/-- What a core holds: for each partition its gangs and its register file in units of 4 KiB, and its scratchpad
bytes (R113, R118). -/
structure Room where
  parts : List (Nat × Nat)
  spad : Nat
  deriving DecidableEq, Repr

/-- A free core. -/
def Room.free : Room := ⟨List.replicate 8 (0, 0), 0⟩

/-- The inbox rounded up to a multiple of 64 (R105). -/
def roundInbox (n : Nat) : Nat := (n + 63) / 64 * 64

/-- A partition with one more gang. -/
def addGang (regs : Nat) (p : Nat × Nat) : Nat × Nat := (p.1 + 1, p.2 + regs)

/-- The first partition from `p` on, in turn, that can take a gang (R113). -/
def Room.next (r : Room) (regs p : Nat) : Option Nat :=
  ((List.range 8).map fun i => (p + i) % 8).find? fun q =>
    let x := r.parts.getD q (16, 0)
    x.1 ≤ 15 && x.2 + regs ≤ 64

/-- Gangs dealt round-robin to a core's partitions: their partitions, if the core can take them all (R113). -/
def Room.deal (regs : Nat) : (n : Nat) → Room → (p : Nat) → Option (List Nat)
  | 0, _, _ => some []
  | n + 1, r, p =>
    match r.next regs p with
    | none => none
    | some q =>
      if 127 < (r.parts.map (·.1)).sum then none
      else (Room.deal regs n { r with parts := r.parts.modify q (addGang regs) } (q + 1)).map (q :: ·)

/-- The partitions of a core's share of a group, if the core can take it (R113). -/
def Room.take (r : Room) (sh : Shape) (n : Nat) : Option (List Nat) :=
  if r.spad + sh.bytes ≤ Config.spadBytes then Room.deal sh.regs n r 0 else none

/-- Share of core `j` of `c` (R113). -/
def share (gangs c j : Nat) : Nat := (j + 1) * gangs / c - j * gangs / c

/-- Cores taken in ascending order for shares `j` to `c - 1` of a group, each with the partitions of its gangs. -/
def takeCores (room : Nat → Room) (sh : Shape) (c : Nat) : (j : Nat) → List Nat → Option (List (Nat × List Nat))
  | j, [] => if j = c then some [] else none
  | j, n :: ns =>
    if j = c then some []
    else match (room n).take sh (share sh.gangs c j) with
      | some ps => (takeCores room sh c (j + 1) ns).map ((n, ps) :: ·)
      | none => takeCores room sh c j ns

/-- Sets of quadrants, the fewest first, ascending (R113). -/
def quadrantSets : List (List Nat) :=
  [[0], [1], [2], [3], [0, 1], [0, 2], [0, 3], [1, 2], [1, 3], [2, 3], [0, 1, 2], [0, 1, 3], [0, 2, 3], [1, 2, 3],
   [0, 1, 2, 3]]

/-- The cores of a set of quadrants, quadrant by quadrant. -/
def quadrantCores (dn : Nat) (qs : List Nat) : List Nat :=
  qs.flatMap fun q => (List.range (Config.coreCount dn)).filter fun n => Config.quadrant dn n = q

/-- A placement on `c` cores without a footprint (R113). (DESIGN CHOICE: log 92) -/
def placeOn (dn : Nat) (room : Nat → Room) (sh : Shape) (c : Nat) : Option (List (Nat × List Nat)) :=
  quadrantSets.findSome? fun qs => takeCores room sh c 0 (quadrantCores dn qs)

/-- The cores of a footprint whose lowest-numbered corner is core `n`, if it lies in the mesh (R113, R139). -/
def rectangle (dn : Nat) (sh : Shape) (n : Nat) : Option (List Nat) :=
  let w := Config.meshW dn
  if n % w + sh.fpw ≤ w ∧ n / w + sh.fph ≤ Config.meshH dn then
    some ((List.range sh.fph).flatMap fun y => (List.range sh.fpw).map fun x => n + y * w + x)
  else none

/-- The least placement of a shape: its cores and the partitions of their gangs (R113). `cores` fixes the number of
cores of a group that is placed again (R191). A rectangle is free where its cores can take its gangs. (DESIGN CHOICE: log
92, 144) -/
def placement (dn : Nat) (room : Nat → Room) (sh : Shape) (cores : Option Nat) : Option (List (Nat × List Nat)) :=
  if sh.fpw ≠ 0 then
    (List.range (Config.coreCount dn)).findSome? fun n =>
      match rectangle dn sh n with
      | some ns => takeCores room sh ns.length 0 ns
      | none => none
  else match cores with
    | some c => placeOn dn room sh c
    | none => ((List.range (min 16 sh.gangs)).map (· + 1)).findSome? (placeOn dn room sh)

/-! ### The room of a die's cores -/

/-- Whether a gang keeps its gang slot and registers: a quad of it has not exited, or a register write is
outstanding (R196). (DEDUCED: log 95) -/
def holdsSlot (d : Die) (gid : Nat) (g : Group) (gi : Nat) : Bool :=
  !(g.gang gi).liveQuads.isEmpty || ((gangCmds d gid gi).any fun c => c.2.dest.isSome) ||
  (let co := d.core (g.cores.getD (g.gang gi).core 0)
   co.owner = some (gid, gi) && co.queue.any fun e => e.dest.isSome)

/-- What core `n` holds, with the groups of `out` gone. -/
def roomOf (d : Die) (out : List Nat) (n : Nat) : Room :=
  d.groups.foldl (fun r e =>
    let g := e.2
    if g.state = .saved || out.contains e.1 || !g.cores.contains n then r
    else
      let r := (List.range g.gangs.length).foldl (fun (r : Room) gi =>
        let k := g.gang gi
        if g.cores.getD k.core 0 = n && holdsSlot d e.1 g gi then
          { r with parts := r.parts.modify k.part (addGang g.regs) } else r) r
      { r with spad := r.spad + g.areaBytes }) Room.free

/-! ### A node as a shape, and its group -/

/-- The bytes of a node's inbox: its children's results upward, its handed value downward unless it is a root
(R105). -/
def NodeRec.inbox (r : NodeRec) (down : Bool) : Nat :=
  if down then (if r.parent = 0xFFFFFF then 0 else r.rsize) else r.kids * r.rsize

/-- The shape of a node's group (R105, R113). -/
def NodeRec.shape (r : NodeRec) (down : Bool) : Shape :=
  ⟨gangCount r.block, r.regs, 4096 * r.spad + roundInbox (r.inbox down), r.fpw, r.fph⟩

/-- The shape of a group that has been saved (R191). -/
def Group.shape (g : Group) : Shape :=
  ⟨g.gangs.length, g.regs, 4096 * g.spad + g.inbox, g.fpw, g.fph⟩

/-- Core and partition of each gang, in gang order. -/
def seats (pl : List (Nat × List Nat)) : List (Nat × Nat) :=
  ((List.range pl.length).zip pl).flatMap fun x => x.2.2.map fun p => (x.1, p)

/-- Number of quads of gang `gi` (R122). -/
def quadCount (block gi : Nat) : Nat := min 8 ((block - 32 * gi + 3) / 4)

/-- The first PC of a node's kernel (R107, R207): ENTRY is a signed number of code blocks from the array base. -/
def entryPc (base : Nat) (r : NodeRec) : Nat :=
  (((base / 64 : Int) + r.entry.toInt) % 2 ^ 50).toNat * 5

/-- The scalars of R107. -/
def startScalars (node gi : Nat) (r : NodeRec) (down : Bool) : FMap Word :=
  [node, r.block, r.args % 2 ^ 32, r.args / 2 ^ 32, r.kids, r.rsize, gi, gangCount r.block, down.toNat].foldl
    (fun (x : FMap Word × Nat) v => (FMap.set 0 x.1 x.2 (BitVec.ofNat 32 v), x.2 + 1)) ([], 640) |>.1

/-- The windows at a group's start (R131). -/
def startWindows (spad inbox : Nat) : FMap Win :=
  FMap.set Win.none (FMap.set Win.none [] 0 ⟨0, 4096 * spad, 0⟩) 7 ⟨4096 * spad, inbox, 0⟩

/-- The group of a node as it begins: every gang one sub-gang of all its quads, the inbox filled (R105 to R107,
R116, R121, R122, R131). -/
def startGroup (launch node base prio placedAt : Nat) (r : NodeRec) (down : Bool) (inbox : List Byte)
    (pl : List (Nat × List Nat)) : Group :=
  let size := roundInbox (r.inbox down)
  let st := seats pl
  let gang : Nat → Gang := fun gi =>
    let at_ := st.getD gi (0, 0)
    { Gang.empty with
      core := at_.1, part := at_.2, scal := startScalars node gi r down
      quads := (List.range (quadCount r.block gi)).map fun _ => Quad.start (entryPc base r) 0 }
  let home : GroupCore :=
    { area := Memory.writeAll [] ((span (4096 * r.spad) inbox.length).zip inbox), g := [], gPend := []
      wins := startWindows r.spad size, winPend := [], loaded := false }
  { launch := launch, node := node, block := r.block, regs := r.regs, spad := r.spad, rsize := r.rsize,
    kids := r.kids, inbox := size, down := down, fpw := r.fpw, fph := r.fph, prio := prio, placedAt := placedAt,
    cores := pl.map (·.1), gangs := (List.range (gangCount r.block)).map gang, homes := pl.map fun _ => home,
    result := [], values := [], state := .running, pre := false, restore := false, pslot := 0, stalled := 0,
    code := [] }

end Sys2Proof.Machine
end

