-- ==== Sys2Proof/Machine/SweepCheck.lean ====
section
/-!
DEFINITION. Node records and the check and measure pass of a launch (R97 to R100).
-/
namespace Sys2Proof.Machine

/-- PARENT of a root (R97). -/
def noParent : Nat := 0xFFFFFF

/-- The node record of its 64 bytes (R97). -/
def nodeOf (bs : List Byte) : NodeRec :=
  let w := fun i => leNat ((bs.drop (8 * i)).take 8)
  { parent := bits 63 40 (w 0), first := bits 39 16 (w 0), kids := bits 15 0 (w 0),
    block := bits 63 47 (w 1), rsize := bits 46 38 (w 1), fpw := bits 37 34 (w 1), fph := bits 33 30 (w 1),
    needU := bits 15 8 (w 1), needD := bits 7 0 (w 1),
    entry := BitVec.ofNat 32 (bits 63 32 (w 2)), regs := bits 31 27 (w 2), spad := bits 26 16 (w 2),
    args := bits 55 0 (w 3), pred := bits 55 0 (w 4), resa := bits 55 0 (w 5),
    resv := bits 29 16 (w 1) ≠ 0 || bits 15 0 (w 2) ≠ 0 || bits 63 56 (w 3) ≠ 0 || bits 63 56 (w 4) ≠ 0 ||
      bits 63 56 (w 5) ≠ 0 || bits 59 56 (w 6) ≠ 0 || bits 31 0 (w 6) ≠ 0 || w 7 ≠ 0 }

/-- The address of node `i` (R97), modulo 2^56. (DESIGN CHOICE: log 143) -/
def nodeAddr (base i : Nat) : Nat := (base + 64 * i) % 2 ^ 56

/-- An access of the sweep unit of a die: it knows of what it has written, and of what it acquires at .die, where the
access does that (R77, R94, R112). -/
def State.bySweep {α : Type} (s : State) (dn : Nat) (acquires : Bool) (f : State → Access α) : Access α :=
  let (x, t) := f s.rested
  let got := if acquires then acquired t.trace.saw (.sweepUnit dn) 2 else []
  (x, (t.onDie dn fun d => { d with sweepKnown := withAll (withAll d.sweepKnown t.written) got }).rested)

/-- STATE, FCLASS and FGANG of a node written; the reserved bits beside STATE stay (R97, R98). -/
def writeNodeState (s : State) (dn base i state cls gang : Nat) : Access Unit :=
  let a := nodeAddr base i
  s.bySweep dn false fun s =>
  match memRead s dn [a + 55] with
  | (.error c, s) => (.error c, s)
  | (.ok bs, s) =>
    memWrite s dn ((span (a + 52) 4).zip (leBytes 2 gang ++ leBytes 1 cls ++ leBytes 1 (16 * state + leNat bs % 16)))

/-- The stored form of a need (R99). -/
def storedNeed (n : Nat) : Nat := min n 255

/-- The stored need of the launch's direction. -/
def NodeRec.stored (r : NodeRec) (down : Bool) : Nat := if down then r.needD else r.needU

/-- The need of the launch's direction written (R97, R100). -/
def writeNeed (s : State) (dn base i : Nat) (down : Bool) (n : Nat) : Access Unit :=
  s.bySweep dn false fun s =>
    memWrite s dn [(nodeAddr base i + (if down then 8 else 9), BitVec.ofNat 8 (storedNeed n))]

/-! ### Needs -/

/-- A child put into a list sorted by need, descending upward and ascending downward, ties by index (R99). -/
def insertChild (down : Bool) (need : Nat → Nat) (c : Nat) : List Nat → List Nat
  | [] => [c]
  | x :: xs =>
    if (if down then need c < need x else need x < need c) || (need c = need x && c < x) then c :: x :: xs
    else x :: insertChild down need c xs

/-- Children in the order of R99. -/
def orderChildren (down : Bool) (need : Nat → Nat) (cs : List Nat) : List Nat :=
  cs.foldl (fun l c => insertChild down need c l) []

/-- The need of a node whose children, in order, have the given needs, upward (R99). -/
def needUp (ns : List Nat) : Nat :=
  if ns.isEmpty then 1
  else ((List.range ns.length).zip ns).foldl (fun m x => max m (x.2 + x.1)) ns.length

/-- The need of a node whose children, in order, have the given needs, downward (R99). -/
def needDown (ns : List Nat) : Nat :=
  ((List.range ns.length).zip ns).foldl (fun m x => max m (ns.length - (x.1 + 1) + x.2)) ns.length

/-! ### The check pass -/

/-- A node that the check pass has reached: its record, and its root. -/
structure Reached where
  node : NodeRec
  root : Nat
  deriving DecidableEq, Repr

/-- The traversal of the check pass: the nodes reached, and the lowest reason of each offender. -/
structure Pass where
  seen : FMap Reached
  why : FMap Nat
  deriving DecidableEq, Repr

/-- An offender noted with a reason; the lowest reason stays (R100). -/
def Pass.bad (p : Pass) (i reason : Nat) : Pass :=
  { p with why := p.why.insert i (min reason (FMap.get 99 p.why i)) }

/-- The children that a record lists, if they lie in the array. -/
def NodeRec.children (r : NodeRec) (nodes : Nat) : List Nat :=
  if nodes < r.first + r.kids then [] else span r.first r.kids

/-- The traversal from a list of nodes to visit, each with the node that lists it and its root (R100, reasons 2 to
4). (DEDUCED: log 90, 91) -/
def traverse (dn base nodes : Nat) : (fuel : Nat) → List (Nat × Option Nat × Nat) → Pass → State →
    Access Pass
  | 0, _, p, s => (.ok p, s)
  | _ + 1, [], p, s => (.ok p, s)
  | fuel + 1, (i, by_, root) :: rest, p, s =>
    match memRead s dn (span (nodeAddr base i) 64) with
    | (.error c, s) => (.error c, s)
    | (.ok bs, s) =>
      let r := nodeOf bs
      let p := match by_ with
        | some b => if r.parent ≠ b then p.bad i 3 else p
        | none => if r.parent ≠ noParent then p.bad i 2 else p
      if (p.seen.find? i).isSome then traverse dn base nodes fuel rest (p.bad i 4) s
      else
        let p := { p with seen := p.seen.insert i ⟨r, root⟩ }
        let p := if r.kids ≠ 0 && nodes < r.first + r.kids then p.bad i 2 else p
        traverse dn base nodes fuel (rest ++ (r.children nodes).map fun c => (c, some i, root)) p s

/-- The nodes that a node reached lists. -/
def Pass.children (p : Pass) (nodes i : Nat) : List Nat :=
  match p.seen.find? i with
  | some x => x.node.children nodes
  | none => []

/-- The reasons of a record on its own account (R100, reasons 1, 5 to 8 and 10). (DEDUCED: log 91) -/
def recordReasons (dn : Nat) (down : Bool) (r root : NodeRec) : List Nat :=
  let sh := r.shape down
  let fp := r.fpw * r.fph
  (if r.resv then [1] else []) ++
  (if 256 < r.rsize ∨ r.rsize % 4 ≠ 0 ∨ r.rsize ≠ root.rsize then [5] else []) ++
  (if 65536 < r.block ∨ 18 < r.regs ∨ 1536 < r.spad then [6] else []) ++
  (if (r.fpw = 0) ≠ (r.fph = 0) ∨ Config.meshW dn < r.fpw ∨ Config.meshH dn < r.fph ∨ (fp ≠ 0 ∧ sh.gangs % fp ≠ 0)
    then [7] else []) ++
  (if r.block ≠ 0 ∧ (placement dn (fun _ => Room.free) sh none).isNone then [8] else []) ++
  (if r.pred % 4 ≠ 0 ∨ r.resa % 4 ≠ 0 then [10] else [])

/-- The need and child order of a node put into a table, those of the nodes that it lists first (R99). A node that lists
one of those above it has no need; it is taken as 0. (DEDUCED: log 91) -/
def measureNode (p : Pass) (nodes : Nat) (down : Bool) :
    (fuel : Nat) → FMap (Nat × List Nat) → Nat → FMap (Nat × List Nat)
  | 0, m, _ => m
  | fuel + 1, m, i =>
    if (m.find? i).isSome then m
    else
      let kids := p.children nodes i
      let m := kids.foldl (measureNode p nodes down fuel) (m.insert i (0, []))
      let need := fun c => match m.find? c with
        | some x => x.1
        | none => 0
      let cs := orderChildren down need kids
      m.insert i ((if down then needDown (cs.map need) else needUp (cs.map need)), cs)

/-- The needs and child orders of the nodes reached (R99). -/
def measure (p : Pass) (nodes : Nat) (down : Bool) : FMap (Nat × List Nat) :=
  (p.seen.map (·.1)).foldl (measureNode p nodes down (p.seen.length + 1)) []

/-- What the check pass makes of a launch. -/
inductive Verdict where
  /-- Accepted, with the nodes of the launch as they stand before it runs. -/
  | accepted (run : FMap NodeRun)
  /-- Refused with a status code of R50. -/
  | refused (code : Nat)
  deriving DecidableEq, Repr

/-- A list of writes made in turn, up to the first that faults. -/
def writesInTurn (s : State) : List (State → Access Unit) → Access Unit
  | [] => (.ok (), s)
  | f :: r => match f s with
    | (.ok _, s) => writesInTurn s r
    | e => e

/-- The check and measure pass (R100). A fault on the node array ends the command with FAULT. (DEDUCED: log 90) -/
def checkPass (s : State) (dn base roots nodes cap : Nat) (down : Bool) : Verdict × State :=
  match traverse dn base nodes (2 ^ 48) ((List.range roots).map fun r => (r, none, r)) ⟨[], []⟩ s with
  | (.error _, s) => (.refused 3, s)
  | (.ok p, s) =>
    let ms := measure p nodes down
    let need := fun i => match ms.find? i with
      | some x => x.1
      | none => 0
    let measuring := p.seen.any fun e => e.2.node.stored down = 0
    let p := p.seen.foldl (fun (p : Pass) e =>
      let root := match p.seen.find? e.2.root with
        | some x => x.node
        | none => e.2.node
      let p := (recordReasons dn down e.2.node root).foldl (fun (p : Pass) r => p.bad e.1 r) p
      if !measuring && e.2.node.stored down ≠ storedNeed (need e.1) then p.bad e.1 9 else p) p
    match writesInTurn s (p.seen.map fun e s => writeNodeState s dn base e.1 0 0 0xFFFF) with
    | (.error _, s) => (.refused 3, s)
    | (.ok _, s) =>
      match p.why with
      | (i, r) :: _ => match writeNodeState s dn base i 6 r 0xFFFF with
        | (.error _, s) => (.refused 3, s)
        | (.ok _, s) => (.refused 5, s)
      | [] =>
        let needs := if measuring then p.seen.map fun e s => writeNeed s dn base e.1 down (need e.1) else []
        match writesInTurn s needs with
        | (.error _, s) => (.refused 3, s)
        | (.ok _, s) =>
          if (List.range roots).any fun r => cap < need r then (.refused 1, s)
          else
            (.accepted (p.seen.map fun e =>
              (e.1, { node := e.2.node, phase := .unopened, need := need e.1, result := none, value := none, known := []
                      order := match ms.find? e.1 with
                        | some x => x.2
                        | none => [] })), s)

end Sys2Proof.Machine
end

