-- ==== Sys2Proof/Machine/Sweep.lean ====
section
/-!
DEFINITION. The sweep unit: admission under the cap (R101 to R104), nodes that become ready, are skipped, empty, fail
or do not run (R106, R108 to R112), placement (R113 to R116), group ends (R94), and priority pre-emption and the
placement of saved groups (R192, R193).
-/
namespace Sys2Proof.Machine

/-! ### Launches and nodes -/

/-- Launch `n` of a die changed. -/
def State.onLaunch (s : State) (dn n : Nat) (f : Launch → Launch) : State :=
  s.onDie dn fun d => { d with launches := d.launches.modify n f }

/-- Node `i` of a launch changed. -/
def State.onNode (s : State) (dn n i : Nat) (f : NodeRun → NodeRun) : State :=
  s.onLaunch dn n fun l => { l with run := l.run.modify i f }

/-- The final state of a node, if it has one. -/
def NodeRun.finalState (x : NodeRun) : Option Nat :=
  match x.phase with
  | .final v => some v
  | _ => none

/-- Whether a node is not opened: upward not yet, downward also while it is a candidate (R102, R104). -/
def NodeRun.closed (x : NodeRun) : Bool :=
  match x.phase with
  | .unopened | .candidate => true
  | _ => false

/-- A node's state as the spec's own words have it: FAILED or NOT-RUN (R98). -/
def NodeRun.spoiled (x : NodeRun) : Bool := x.finalState = some 4 || x.finalState = some 5

/-- Whether a node's subtree is complete, and what it contributes to an open parent, upward (R102). -/
def contribution (run : FMap NodeRun) : (fuel : Nat) → Nat → Bool × Nat
  | 0, _ => (false, 0)
  | fuel + 1, i =>
    match run.find? i with
    | none => (true, 0)
    | some x =>
      if x.finalState.isSome then (true, if x.result.isSome then 1 else 0)
      else if x.closed then (false, 0)
      else (false, max x.need ((x.order.map fun c => (contribution run fuel c).2).sum))

/-- Whether a node's subtree is complete, and its charge while it is open, downward (R102). -/
def chargeDown (run : FMap NodeRun) : (fuel : Nat) → Nat → Bool × Nat
  | 0, _ => (false, 0)
  | fuel + 1, i =>
    match run.find? i with
    | none => (true, 0)
    | some x =>
      if x.closed then (false, if x.value.isSome then 1 else 0)
      else
        let cs := x.order.map (chargeDown run fuel)
        let done := x.finalState.isSome && cs.all (·.1)
        (done, if done then 0 else max x.need ((cs.map (·.2)).sum))

/-- Whether the subtree of a root is complete, and its charge (R102). -/
def Launch.rootCharge (l : Launch) (r : Nat) : Bool × Nat :=
  let fuel := l.run.length + 1
  if l.down then chargeDown l.run fuel r
  else
    let x := contribution l.run fuel r
    (x.1, if x.1 then 0 else x.2)

/-- The usage of a launch: the charges of its open roots (R102). -/
def Launch.usage (l : Launch) : Nat := ((List.range l.roots).map fun r => (l.rootCharge r).2).sum

/-- Every root's subtree is complete (R112). -/
def Launch.complete (l : Launch) : Bool := (List.range l.roots).all fun r => (l.rootCharge r).1

/-- The nodes ahead of a node in the order in which nodes are opened: lower roots, or siblings ahead of it (R103,
R104). -/
def Launch.ahead (l : Launch) (i : Nat) (x : NodeRun) : List Nat :=
  if x.node.parent = noParent then List.range i
  else match l.run.find? x.node.parent with
    | some p => p.order.takeWhile (· ≠ i)
    | none => []

/-- Whether a node of a launch is the next candidate in its place, and opening it keeps the usage within the cap
(R102 to R104). -/
def Launch.mayOpen (l : Launch) (i : Nat) : Bool :=
  match l.run.find? i with
  | none => false
  | some x =>
    let root : Bool := x.node.parent = noParent
    let turn := if root then decide (i < l.roots) && x.phase = .unopened
      else if l.down then x.phase = .candidate
      else x.phase = .unopened && (match l.run.find? x.node.parent with
        | some p => p.phase = .opened
        | none => false)
    turn && ((l.ahead i x).all fun j => match l.run.find? j with
        | some y => !y.closed
        | none => true) &&
      ({ l with run := l.run.insert i { x with phase := .opened } } : Launch).usage ≤ l.cap

/-! ### The ends of nodes -/

/-- The command of a launch that is complete finishes: FAILED with the number of failed nodes, or OK; its slots
return; its release will cover every group end and every write of the launch (R101, R111, R112). -/
def finishLaunch (s : State) (dn n : Nat) : State :=
  match (s.die dn).launches.find? n with
  | none => s
  | some l =>
    if l.complete then
      s.onDie dn fun d =>
        { d with launches := d.launches.erase n
                 hostCmds := d.hostCmds.modify n fun c =>
                   { c with phase := .finished (if l.failed = 0 then 0 else 2) l.failed
                            known := withAll c.known d.sweepKnown } }
    else s

/-- A node's final state, in the launch and in its record; a record that cannot be written stays as it is (R97,
R98). -/
def finalize (s : State) (dn n i state cls gang : Nat) : State :=
  match (s.die dn).launches.find? n with
  | none => s
  | some l =>
    let s := s.onLaunch dn n fun l =>
      { l with failed := if state = 4 then l.failed + 1 else l.failed
               run := l.run.modify i fun x => { x with phase := .final state, value := none } }
    (writeNodeState s dn l.base i state cls gang).2

/-- Every descendant of a failed downward node becomes NOT-RUN (R111). -/
def notRunBelow (dn n : Nat) : (fuel : Nat) → State → List Nat → State
  | 0, s, _ => s
  | _ + 1, s, [] => s
  | fuel + 1, s, i :: r =>
    match (s.die dn).launches.find? n with
    | none => s
    | some l => match l.run.find? i with
      | none => notRunBelow dn n fuel s r
      | some x => notRunBelow dn n fuel (finalize s dn n i 5 0 0xFFFF) (x.order ++ r)

/-- The result slots of a node's children released (R105, R109, R110). -/
def dropResults (s : State) (dn n : Nat) (x : NodeRun) : State :=
  x.order.foldl (fun s c => s.onNode dn n c fun y => { y with result := none }) s

/-- A node becomes FAILED: its slots are released unread, and downward its descendants do not run (R106, R108, R110,
R111). -/
def failNode (s : State) (dn n i cls gang : Nat) : State :=
  match (s.die dn).launches.find? n with
  | none => s
  | some l => match l.run.find? i with
    | none => s
    | some x =>
      let s := finalize s dn n i 4 cls gang
      if l.down then notRunBelow dn n (l.run.length + 1) s x.order else dropResults s dn n x

/-- A result written to RESA, if the node has one (R106). -/
def writeResa (s : State) (dn : Nat) (r : NodeRec) (bs : List Byte) : Access Unit :=
  if r.resa = 0 then (.ok (), s)
  else s.bySweep dn false fun s => writeElem s dn ((span r.resa bs.length).zip bs)

/-- A node ends in a state with a result and handed values: RESA is written, upward the result is held for the
parent, and downward the children become candidates (R104, R106, R109). -/
def endNode (s : State) (dn n i state : Nat) (result : List Byte) (value : Nat → List Byte) : State :=
  match (s.die dn).launches.find? n with
  | none => s
  | some l => match l.run.find? i with
    | none => s
    | some x =>
      match writeResa s dn x.node result with
      | (.error (c, _), s) => failNode s dn n i c.1 0xFFFF
      | (.ok _, s) =>
        let s := finalize s dn n i state 0 0xFFFF
        if l.down then
          x.order.foldl (fun s c => s.onNode dn n c fun y =>
            { y with phase := .candidate, value := some (value (c - x.node.first)) }) s
        else
          let s := dropResults s dn n x
          if x.node.parent = noParent then s else s.onNode dn n i fun y => { y with result := some result }

/-- An all-zero result (R109). -/
def zeroResult (r : NodeRec) : List Byte := List.replicate r.rsize 0

/-- A node becomes ready: EMPTY, or its predicate is read once, an acquire at .die (R94), and it is SKIPPED, FAILED or
waits for placement (R108, R109). -/
def readyNode (s : State) (dn n i : Nat) (r : NodeRec) : State :=
  if r.block = 0 then endNode s dn n i 3 (zeroResult r) fun _ => zeroResult r
  else
    let wait := fun (s : State) =>
      s.onNode dn n i fun x => { x with phase := .ready (s.die dn).cyc.toNat 0 }
    if r.pred = 0 then wait s
    else match s.bySweep dn true fun s => readElem s dn (span r.pred 4) with
      | (.error (c, _), s) => failNode s dn n i c.1 0xFFFF
      | (.ok bs, s) => if leNat bs = 0 then endNode s dn n i 2 (zeroResult r) fun _ => zeroResult r else wait s

/-- Upward, an open node whose children's subtrees are complete: NOT-RUN if one of them failed or did not run, else
ready; and so on toward the root while nodes end at once (R103, R111). -/
def climb (dn n : Nat) : (fuel : Nat) → State → Nat → State
  | 0, s, _ => s
  | fuel + 1, s, i =>
    match (s.die dn).launches.find? n with
    | none => s
    | some l => match l.run.find? i with
      | none => s
      | some x =>
        let p := x.node.parent
        if l.down || x.finalState.isNone || p = noParent then s
        else match l.run.find? p with
          | none => s
          | some y =>
            let kids := y.order.filterMap l.run.find?
            if y.phase = .opened && kids.all (·.finalState.isSome) then
              let s := if kids.any (·.spoiled) then finalize (dropResults s dn n y) dn n p 5 0 0xFFFF
                else readyNode s dn n p y.node
              climb dn n fuel s p
            else s

/-- What follows when a node has ended: its ancestors, and the launch (R103, R112). -/
def afterEnd (s : State) (dn n i : Nat) : State :=
  match (s.die dn).launches.find? n with
  | none => s
  | some l => finishLaunch (climb dn n (l.run.length + 1) s i) dn n

/-- A node opened (R103, R104, R108): downward it starts, and upward a leaf is ready. None is while the die is quiesced
(R54). -/
def execNodeOpen (d n i : Nat) (s : State) : Host.Outcome State Fault Refusal :=
  onDieStep s d fun s =>
    match (s.die d).launches.find? n with
    | none => s
    | some l => match l.run.find? i with
      | none => s
      | some x =>
        if l.mayOpen i && !(s.die d).quiesced then
          let s := s.onNode d n i fun x => { x with phase := .opened }
          if l.down || x.order.isEmpty then afterEnd (readyNode s d n i x.node) d n i else s
        else s

/-! ### Placement -/

/-- Placement is stopped by a QUIESCE with PREEMPT from its start on, or by a die that is quiesced (R54). -/
def placementHeld (d : Die) : Bool :=
  d.quiesced || (match d.quiesce with
    | some q => q.preempt
    | none => false) || d.hostCmds.any fun c => c.2.op = 7 && c.2.phase = .started && bit 1 c.2.p0

/-- A node that waits for placement: its launch and index, the moment it became ready, the number of later nodes
placed past it, its record and its launch's direction, and its priority. -/
structure Waiter where
  launch : Nat
  node : Nat
  since : Nat
  passed : Nat
  rec_ : NodeRec
  down : Bool
  prio : Nat
  cores : Bool
  deriving DecidableEq, Repr

/-- The nodes that wait for placement on a die. -/
def waiters (d : Die) : List Waiter :=
  d.launches.flatMap fun l => l.2.run.filterMap fun x => match x.2.phase with
    | .ready since passed => some ⟨l.1, x.1, since, passed, x.2.node, l.2.down, l.2.prio, l.2.cores⟩
    | _ => none

/-- Whether a waiting node is offered before another: oldest first, ties by node index (R114), then by launch number.
(DESIGN CHOICE: log 145) -/
def Waiter.before (a b : Waiter) : Bool :=
  a.since < b.since || (a.since = b.since && (a.node < b.node || (a.node = b.node && a.launch < b.launch)))

/-- The waiting node `i` of launch `n`. -/
def waiterOf (d : Die) (n i : Nat) : Option Waiter := (waiters d).find? fun w => w.launch = n && w.node = i

/-- The nodes that are placed together with a waiting node: with CORES = 1 all that wait of its launch, oldest first
(R115). -/
def batchOf (d : Die) (w : Waiter) : List Waiter :=
  if w.cores then
    ((waiters d).filter fun x => x.launch = w.launch).foldl (fun l x =>
      (l.takeWhile fun y => y.before x) ++ x :: (l.dropWhile fun y => y.before x)) []
  else [w]

/-- Cores with a placement added: what each then holds. -/
def addPlacement (sh : Shape) (pl : List (Nat × List Nat)) (room : Nat → Room) (n : Nat) : Room :=
  match pl.find? fun x => x.1 = n with
  | some x => { parts := x.2.foldl (fun ps p => ps.modify p (addGang sh.regs)) (room n).parts
                spad := (room n).spad + sh.bytes }
  | none => room n

/-- Placements of several nodes together, or none (R113, R115). -/
def placeAll (dn : Nat) : List Waiter → (Nat → Room) → Option (List (Waiter × List (Nat × List Nat)))
  | [], _ => some []
  | w :: ws, room =>
    let sh := w.rec_.shape w.down
    match placement dn room sh none with
    | none => none
    | some pl => (placeAll dn ws (addPlacement sh pl room)).map ((w, pl) :: ·)

/-- Whether a waiting node, with its batch, fits once the groups of `out` are gone. -/
def fits (dn : Nat) (d : Die) (out : List Nat) (w : Waiter) : Bool := (placeAll dn (batchOf d w) (roomOf d out)).isSome

/-- The placement of a saved group on cores that satisfy R113 for its shape (R191, R193). (DESIGN CHOICE: log 93) -/
def savedPlacement (dn : Nat) (d : Die) (g : Group) : Option (List (Nat × List Nat)) :=
  placement dn (roomOf d []) g.shape (some g.homes.length)

/-- Whether a node of higher priority than `prio` waits under R192: it has waited 16,384 cycles. -/
def higherWaits (d : Die) (prio : Nat) : Bool :=
  (waiters d).any fun w => w.prio < prio && 16384 ≤ d.cyc.toNat - w.since

/-- Whether a saved group can be placed now (R54, R114, R193). (DESIGN CHOICE: log 93) -/
def savedFits (dn : Nat) (d : Die) (g : Group) : Bool :=
  g.state = .saved && !placementHeld d && d.placeOnly.isNone && !higherWaits d g.prio &&
  (savedPlacement dn d g).isSome

/-- Whether a waiting node is stopped by another past which 64 later nodes have been placed (R114). (DEDUCED: log
94) -/
def starved (d : Die) (w : Waiter) : Bool :=
  match d.placeOnly with
  | some x => x ≠ (w.launch, w.node)
  | none => (waiters d).any fun x => 64 ≤ x.passed && (x.launch, x.node) ≠ (w.launch, w.node)

/-- Whether a waiting node is the next that the sweep unit places: no saved group that goes ahead of it and no older
waiting node fits (R114, R193). (DEDUCED: log 94) -/
def placedNext (dn : Nat) (d : Die) (w : Waiter) : Bool :=
  !placementHeld d && !starved d w &&
  !(d.groups.any fun e => (e.2.launch = w.launch || e.2.prio ≤ w.prio) && savedFits dn d e.2) &&
  !((waiters d).any fun x => x.before w && !starved d x && fits dn d [] x)

/-- The inbox of a node as its group starts: its children's results in index order, or its handed value (R105). -/
def inboxBytes (l : Launch) (x : NodeRun) : List Byte :=
  if l.down then x.value.getD []
  else (span x.node.first x.node.kids).flatMap fun c => match l.run.find? c with
    | some y => y.result.getD (zeroResult x.node)
    | none => []

/-- The writes that happen before the start of a node's group: those before the launch's start, and before the end of
every group whose result or value it receives (R88, R94). -/
def startKnown (l : Launch) (x : NodeRun) : List Nat :=
  let from_ := if l.down then [x.node.parent] else span x.node.first x.node.kids
  from_.foldl (fun ws i => match l.run.find? i with
    | some y => withAll ws y.known
    | none => ws) l.start

/-- One node's group placed: its inbox is filled, the slots that it came from are released, and its gangs start (R94,
R105 to R107). -/
def beginGroup (s : State) (dn : Nat) (w : Waiter) (pl : List (Nat × List Nat)) : State :=
  match (s.die dn).launches.find? w.launch with
  | none => s
  | some l => match l.run.find? w.node with
    | none => s
    | some x =>
      let gid := (s.die dn).nextId
      let g := startGroup w.launch w.node l.base l.prio gid x.node l.down (inboxBytes l x) pl
      let know := Know.empty.learn 0 (startKnown l x)
      let g := { g with gangs := g.gangs.map fun k => { k with know := know } }
      let s := s.onDie dn fun d => { d with nextId := gid + 1, groups := d.groups.insert gid g }
      (dropResults s dn w.launch (if l.down then { x with order := [] } else x)).onNode dn w.launch w.node fun x =>
        { x with phase := .running gid, value := none }

/-- Later nodes placed past the nodes that wait (R114). -/
def countPassed (s : State) (dn : Nat) (placed : List Waiter) : State :=
  (waiters (s.die dn)).foldl (fun s w =>
    let k := (placed.filter fun p => w.before p).length
    s.onNode dn w.launch w.node fun x => { x with phase := .ready w.since (w.passed + k) }) s

/-- Placement of a ready node, all or nothing, with CORES = 1 together with the other ready nodes of its launch
(R113 to R116). -/
def execGroupPlacement (d n i : Nat) (s : State) : Host.Outcome State Fault Refusal :=
  onDieStep s d fun s =>
    match waiterOf (s.die d) n i with
    | none => s
    | some w =>
      if placedNext d (s.die d) w then
        match placeAll d (batchOf (s.die d) w) (roomOf (s.die d) []) with
        | none => s
        | some pls =>
          let s := pls.foldl (fun s p => beginGroup s d p.1 p.2) s
          let s := countPassed s d (pls.map (·.1))
          let s := s.onDie d fun d => { d with placeOnly := if d.placeOnly = some (n, i) then none else d.placeOnly }
          deliverAll s d
      else s

/-- Placement stops until the oldest node that 64 later nodes have passed is placed (R114). -/
def execPlacementStarvation (d : Nat) (s : State) : Host.Outcome State Fault Refusal :=
  onDieStep s d fun s =>
    let ws := (waiters (s.die d)).filter fun w => 64 ≤ w.passed
    if (s.die d).placeOnly.isSome then s
    else match ws with
      | [] => s
      | w :: r =>
        let old := r.foldl (fun a b => if b.before a then b else a) w
        s.onDie d fun d => { d with placeOnly := some (old.launch, old.node) }

/-! ### Group ends -/

/-- A group taken off its die. -/
def removeGroup (s : State) (dn gid : Nat) : State := s.onDie dn fun d => { d with groups := d.groups.erase gid }

/-- The value handed to child `k` (R106, R285). -/
def handedValue (g : Group) (k : Nat) : List Byte := g.values.readAll (span (g.rsize * k) g.rsize)

/-- The end of a group is a release at .die that covers every access of its gangs (R88, R94). -/
def endRelease (s : State) (dn : Nat) (g : Group) : State :=
  s.onDie dn fun d => { d with sweepKnown := g.gangs.foldl (fun ws k => withAll ws k.know.all) d.sweepKnown }

/-- The end of a group: every gang has exited and all of its commands and batches have completed (R94, R106). -/
def execGroupEnd (d g : Nat) (s : State) : Host.Outcome State Fault Refusal :=
  onDieStep s d fun s =>
    match (s.die d).group g with
    | none => s
    | some grp =>
      if grp.runs && (List.range grp.gangs.length).all (gangEnded (s.die d) grp g) then
        let s := endRelease (removeGroup s d g) d grp
        let s := s.onNode d grp.launch grp.node fun x => { x with known := (s.die d).sweepKnown }
        afterEnd (endNode s d grp.launch grp.node 1 (grp.result.readAll (span 0 grp.rsize)) (handedValue grp)) d
          grp.launch grp.node
      else s

/-! ### Beyond recovery -/

/-- The class and the number of the lowest-numbered gang that faulted beyond recovery (R190). -/
def Group.loss (g : Group) : Option (Nat × Nat) :=
  (List.range g.gangs.length).findSome? fun i => match (g.gang i).lost with
    | some x => some (x.1, i)
    | none => none

/-- Held elements of a group discarded (R190). -/
def discardHeld (d : Die) (gid : Nat) : Die :=
  { d with cmds := d.cmds.map fun c =>
      if c.2.gid = gid then (c.1, { c.2 with elems := c.2.elems.map fun e => match e.2.state with
        | .held _ _ => (e.1, { e.2 with state := .faulted FaultRec.none })
        | _ => e })
      else c }

/-- The join engines of a stopped group: their queues go on, and its gangs leave the acquire queues (R161, R190). -/
def stopCores (d : Die) (gid : Nat) : Die :=
  d.mapCores fun c =>
    let c := { c with waiters := c.waiters.filter fun w => w.1 ≠ gid }
    if c.ownedBy gid then { c with frozen := false, freezeAsked := false } else c

/-- Whether the commands and join queues of a group are empty. -/
def groupDrained (d : Die) (gid : Nat) : Bool :=
  !(d.cmds.any fun c => c.2.gid = gid) && !(d.cores.any fun c => c.2.ownedBy gid && !c.2.queue.isEmpty)

/-- A group beyond recovery: its gangs stop and its held elements are discarded; once its commands and batches have
completed, an open session is discarded, the group ends, which is a release as any group's end, and its node is FAILED
(R94, R110, R161, R190). -/
def execFaultBeyondRecovery (d g : Nat) (s : State) : Host.Outcome State Fault Refusal :=
  onDieStep s d fun s =>
    match (s.die d).group g with
    | none => s
    | some grp => match grp.loss with
      | none => s
      | some (cls, gang) =>
        if grp.state = .saved then s
        else
          let s := (s.putGroup d g { grp with state := .lost }).onDie d fun d => stopCores (discardHeld d g) g
          if groupDrained (s.die d) g then
            let s := removeGroup (s.onDie d fun d => d.mapCores fun c =>
              if c.ownedBy g then (if c.session.isOpen then c.discard else c).released else c) d g
            let s := endRelease s d grp
            afterEnd (failNode s d grp.launch grp.node cls gang) d grp.launch grp.node
          else s

/-! ### Pre-emption and replacement -/

/-- The resident groups of lower priority than `prio`: the lowest priority first, and the most recently placed first
(R192). -/
def lowerGroups (d : Die) (prio : Nat) : List (Nat × Group) :=
  (d.groups.filter fun e => e.2.runs && !e.2.pre && prio < e.2.prio).foldl (fun l x =>
    let ahead := fun (y : Nat × Group) =>
      x.2.prio < y.2.prio || (x.2.prio = y.2.prio && x.2.placedAt < y.2.placedAt)
    (l.takeWhile ahead) ++ x :: (l.dropWhile ahead)) []

/-- The groups pre-empted together with a group: with CORES = 1 all that are resident of its launch (R115). -/
def withLaunch (d : Die) (x : Nat × Group) : List Nat :=
  match d.launches.find? x.2.launch with
  | some l => if l.cores then (d.groups.filter fun e => e.2.launch = x.2.launch && e.2.state = .running).map (·.1) else [x.1]
  | none => [x.1]

/-- Whether a group leaves its cores of itself: it is being saved, or nothing of it is left to pre-empt. -/
def leavesCores (d : Die) (gid : Nat) : Bool :=
  match d.group gid with
  | some g => (g.pre && !g.restore) || !g.runs || !g.alive
  | none => true

/-- Groups pre-empted in turn until a waiting node fits once they are gone; one that cannot be pre-empted now stops the
turn until a later step (R192). -/
def preemptUntil (dn : Nat) (w : Waiter) : List (Nat × Group) → (out : List Nat) → State → State
  | [], _, s => s
  | x :: xs, out, s =>
    if fits dn (s.die dn) out w || !(preemptible (s.die dn) x.1 || out.contains x.1) then s
    else
      let gs := withLaunch (s.die dn) x
      let t := preemptAll s dn gs
      if gs.all (leavesCores (t.die dn)) then preemptUntil dn w xs (out ++ gs) t else s

/-- Priority pre-emption for a node that has waited 16,384 cycles and would fit if groups of lower priority left
(R192). -/
def execPriorityPreemption (d n i : Nat) (s : State) : Host.Outcome State Fault Refusal :=
  onDieStep s d fun s =>
    match waiterOf (s.die d) n i with
    | none => s
    | some w =>
      let die := s.die d
      let leaving := (die.groups.filter fun e => e.2.pre && !e.2.restore).map (·.1)
      let lower := lowerGroups die w.prio
      if 16384 ≤ die.cyc.toNat - w.since && !placementHeld die && !fits d die [] w &&
          fits d die (leaving ++ lower.map (·.1)) w then
        preemptUntil d w lower leaving s
      else s

/-- A saved group as it is placed again: its gangs on their new cores, each one sub-gang, its areas zero (R122, R131,
R193). -/
def Group.placedAgain (g : Group) (placedAt : Nat) (pl : List (Nat × List Nat)) : Group :=
  let st := seats pl
  let seat : Nat → Gang → Gang := fun gi k =>
    let at_ := st.getD gi (0, 0)
    let tag := k.liveQuads.foldl min 7
    { k with core := at_.1, part := at_.2, quads := k.quads.map fun u => { u with sgt := tag } }
  { g with placedAt := placedAt, cores := pl.map (·.1), state := .running
           gangs := ((List.range g.gangs.length).zip g.gangs).map fun x => seat x.1 x.2
           homes := g.homes.map fun h => { h with wins := startWindows g.spad g.inbox, loaded := false } }

/-- The placement of a saved group, which vectors through entry 0 with RESTORE = 1 (R193, R320). -/
def execSavedGroupPlacement (d g : Nat) (s : State) : Host.Outcome State Fault Refusal :=
  onDieStep s d fun s =>
    match (s.die d).group g with
    | none => s
    | some grp =>
      if savedFits d (s.die d) grp && !((waiters (s.die d)).any (fun w => 64 ≤ w.passed)) then
        match savedPlacement d (s.die d) grp with
        | none => s
        | some pl =>
          let at_ := (s.die d).nextId
          let s := (s.putGroup d g (grp.placedAgain at_ pl)).onDie d fun d => { d with nextId := at_ + 1 }
          preemptGroup s d g true grp.pslot
      else s

end Sys2Proof.Machine
end

