-- ==== Sys2Proof/Machine/Commands.lean ====
section
/-!
DEFINITION. The command processor of a die (R48 to R53), QUIESCE (R54), and MIGRATE (R74, R75).
-/
namespace Sys2Proof.Machine

/-- A command record of a die changed. -/
def State.onCmd (s : State) (dn c : Nat) (f : HostCmd → HostCmd) : State :=
  s.onDie dn fun d => { d with hostCmds := d.hostCmds.modify c f }

/-- A command finished with a status code (R50). -/
def State.finishCmd (s : State) (dn c code : Nat) : State :=
  s.onCmd dn c fun x => { x with phase := .finished code 0 }

/-! ### Reading records -/

/-- The record of its 64 bytes (R48). -/
def cmdOf (queue seq : Nat) (bs : List Byte) : HostCmd :=
  let w := fun i => leNat ((bs.drop (8 * i)).take 8)
  { queue := queue, seq := seq, op := bits 7 0 (w 0), add := bits 63 32 (w 0), intr := bit 10 (w 0),
    serial := bit 9 (w 0), waits := bit 8 (w 0), wsig := w 1, wval := w 2, csig := w 3, stata := w 4,
    p0 := w 5, p1 := w 6, p2 := w 7, phase := .read, page := 0, early := false, frame := none, met := none, known := [] }

/-- Whether a parameter that the command does not use, or an unused bit, is nonzero (R49). -/
def paramsBad (c : HostCmd) : Bool :=
  match c.op with
  | 1 => bits 63 56 c.p0 ≠ 0 || bits 63 42 c.p1 ≠ 0 || bits 63 24 c.p2 ≠ 0
  | 2 => bits 63 56 c.p0 ≠ 0 || bits 63 56 c.p1 ≠ 0 || bits 63 40 c.p2 ≠ 0
  | 3 => bits 63 19 c.p0 ≠ 0 || 4 < bits 18 16 c.p0 || c.p1 ≠ 0 || c.p2 ≠ 0
  | 4 => bits 63 56 c.p0 ≠ 0 || bits 63 1 c.p2 ≠ 0
  | 5 => bits 63 56 c.p0 ≠ 0 || c.p2 ≠ 0
  | 6 => bits 63 56 c.p0 ≠ 0 || bits 63 5 c.p2 ≠ 0
  | 7 => bits 63 3 c.p0 ≠ 0 || c.p1 ≠ 0 || c.p2 ≠ 0
  | _ => c.p0 ≠ 0 || c.p1 ≠ 0 || c.p2 ≠ 0

/-- QERR of a record: 1 for an OP that is not assigned, 2 for a reserved bit, 0 for none (R48, R49); of both, 1. (DESIGN
CHOICE: log 98) -/
def recordError (w0 : Nat) (c : HostCmd) : Nat :=
  if 7 < c.op then 1
  else if bits 31 11 w0 ≠ 0 || bits 63 56 c.wsig ≠ 0 || bits 63 56 c.csig ≠ 0 || bits 63 56 c.stata ≠ 0 ||
      paramsBad c then 2
  else 0

/-- One record covered by TAIL read (R46 to R48); none is while the die is quiesced (R54). A ring that cannot be read
holds the queue. (DEDUCED: log 98) -/
def execCommandRecordRead (d q : Nat) (s : State) : Host.Outcome State Fault Refusal :=
  onDieStep s d fun s =>
    let u := (s.die d).queue q
    if 63 < q || !u.en || u.qerr ≠ 0 || u.head = u.tail || (s.die d).quiesced then s
    else match readElem s d (span (ringAddr u u.head) 64) with
      | (.error _, _) => s
      | (.ok bs, s) =>
        let c := { cmdOf q u.head bs with known := (u.told.find? u.head).getD [] }
        let e := recordError (leNat (bs.take 8)) c
        let s := s.rested.onQueue d q fun u =>
          { u with head := (u.head + 1) % 4294967296, qerr := if e = 0 then u.qerr else e, told := u.told.erase u.head }
        if e ≠ 0 then s
        else s.onDie d fun die =>
          { die with nextId := die.nextId + 1, hostCmds := die.hostCmds.insert die.nextId c }

/-! ### Starting commands -/

/-- Parameters of a LAUNCH (R49). -/
def HostCmd.roots (c : HostCmd) : Nat := bits 23 0 c.p1
def HostCmd.cap (c : HostCmd) : Nat := bits 39 24 c.p1
def HostCmd.nodes (c : HostCmd) : Nat := bits 23 0 c.p2

/-- A LAUNCH that ends with RANGE and runs nothing (R50). -/
def HostCmd.launchBad (c : HostCmd) : Bool :=
  c.cap = 0 || 32768 < c.cap || c.nodes < c.roots || c.p0 % 64 ≠ 0

/-- The launches in progress on a die: LAUNCH commands that have started and not finished. -/
def launchesOn (d : Die) : List HostCmd :=
  (d.hostCmds.filter fun c => c.2.op = 1 && c.2.phase = .started && !c.2.launchBad && c.2.roots ≠ 0).map (·.2)

/-- Whether two node arrays overlap, as ranges of numbers (R101). (DESIGN CHOICE: log 143) -/
def HostCmd.overlaps (a b : HostCmd) : Bool := a.p0 < b.p0 + 64 * b.nodes && b.p0 < a.p0 + 64 * a.nodes

/-- Whether a LAUNCH can start beside those in progress (R101). -/
def launchFits (d : Die) (c : HostCmd) : Bool :=
  c.launchBad || c.roots = 0 ||
  ((launchesOn d).length < 16 && ((launchesOn d).map (·.cap)).sum + c.cap ≤ Config.sweepSlots &&
   !((launchesOn d).any c.overlaps))

/-- The first command of a queue that has been read and not started. -/
def nextCmd (d : Die) (q : Nat) : Option (Nat × HostCmd) :=
  List.find? (fun c => c.2.queue = q && c.2.phase = .read) d.hostCmds

/-- Whether every earlier command of a queue has completed (R48, R52). -/
def earlierDone (d : Die) (n : Nat) (c : HostCmd) : Bool :=
  !(d.hostCmds.any fun x => x.1 < n && x.2.queue = c.queue)

/-- Whether a QUIESCE has started on a die and its queues have not resumed (R54). -/
def quiescing (d : Die) : Bool :=
  d.quiesce.isSome || d.hostCmds.any fun c => c.2.op = 7 && c.2.phase = .started

/-- Whether a QUIESCE lets a command start: none does, but for another QUIESCE while it is in progress (R54).
(DEDUCED: log 99) -/
def quiesceLets (d : Die) (c : HostCmd) : Bool := !d.quiesced && (!quiescing d || c.op = 7)

/-- The wait condition of a command read: met, found to fault, or not met (R51). A signal address that is not a
multiple of 8 names the eight bytes from it on. (DESIGN CHOICE: log 98) -/
def waitMet (s : State) (dn : Nat) (c : HostCmd) : Option Bool × State :=
  match readElem s.rested dn (span c.wsig 8) with
  | (.error _, s) => (some false, s)
  | (.ok bs, s) => (if c.wval ≤ leNat bs then some true else none, s)

/-- The next command of a queue, if only its wait condition may still hold it (R46, R52, R54, R101). -/
def ableCmd (d : Die) (q : Nat) : Option (Nat × HostCmd) :=
  match nextCmd d q with
  | none => none
  | some (n, c) =>
    let first : Bool := c.serial || (c.op = 1 && c.roots = 0)
    if (d.queue q).qerr = 0 && quiesceLets d c && (!first || earlierDone d n c) && (c.op ≠ 1 || launchFits d c) then
      some (n, c)
    else none

/-- The wait condition of a queue's next command read; once it has been found met, or its read to fault, that is kept
(R51), with what it acquires at .sys. A read that a link which retrains holds up holds up its queue alone (R36, R52). -/
def pollWait (dn : Nat) (s : State) (q : Nat) : State :=
  match ableCmd (s.die dn) q with
  | none => s
  | some (n, c) =>
    if !c.waits || c.met.isSome then s
    else match waitMet s dn c with
      | (none, _) => s
      | (some ok, t) =>
        if t.crossed then s
        else (t.onCmd dn n fun c => { c with
          met := some ok, known := withAll c.known (acquired t.trace.saw (.commandProcessor dn) 4) }).rested

/-- The wait conditions of all queues' next commands read (R51). -/
def pollWaits (s : State) (dn : Nat) : State := (List.range 64).foldl (pollWait dn) s

/-- Whether the next command of a queue can start (R51, R53). -/
def startable (s : State) (dn q : Nat) : Bool :=
  match ableCmd (s.die dn) q with
  | none => false
  | some (_, c) => !c.waits || c.met.isSome

/-- The queue that the command processor serves next: the highest priority with a command able to start, round-robin
after the queue served last (R53); before any has been served, queue 1 is the first in turn. (DESIGN CHOICE: log 2) -/
def servedQueue (s : State) (dn : Nat) : Option Nat :=
  let d := s.die dn
  let turn := (List.range 64).map fun i => (d.lastQueue + 1 + i) % 64
  let able := turn.filter (startable s dn)
  let best := able.foldl (fun m q => min m (d.queue q).prio) 4
  able.find? fun q => (d.queue q).prio = best

/-- The start of a command, which comes after what its wait condition acquires and what its doorbell covers (R51, R88,
R96); one whose wait signal cannot be read ends with FAULT (R51, R53). -/
def execCommandStart (d q : Nat) (s : State) : Host.Outcome State Fault Refusal :=
  onDieStep s d fun s =>
    let s := pollWaits s d
    if servedQueue s d ≠ some q then s
    else match nextCmd (s.die d) q with
      | none => s
      | some (n, c) =>
        let s := s.onDie d fun die =>
          { die with lastQueue := q, commandKnown := withAll die.commandKnown c.known }
        let s := s.onCmd d n fun c => { c with known := (s.die d).commandKnown }
        if c.met = some false then s.finishCmd d n 3 else s.onCmd d n fun c => { c with phase := .started }

/-! ### What commands do -/

/-- An access made for a command, whose write stands for some releases: the command keeps what it has written, and what
it acquires at .sys, where the access does that (R50, R51). -/
def State.byCommand {α : Type} (s : State) (dn c : Nat) (releases : List Release) (acquires : Bool)
    (f : State → Access α) : Access α :=
  let (x, t) := f (s.acting releases)
  let got := if acquires then acquired t.trace.saw (.commandProcessor dn) 4 else []
  (x, (t.onCmd dn c fun h => { h with known := withAll (withAll h.known t.written) got }).rested)

/-- A release of the command processor at a scope, in the course of a command: what has happened before, and the
command's own effects (R50, R79). -/
def commandRelease (s : State) (dn c scope : Nat) : List Release :=
  let ws := match (s.die dn).hostCmds.find? c with
    | some x => withAll (s.die dn).commandKnown x.known
    | none => (s.die dn).commandKnown
  if ws.isEmpty then [] else [⟨.commandProcessor dn, scope, ws⟩]

/-- A step of a started command with a given OP. -/
def cmdStep (op : Nat) (d c : Nat) (s : State) (f : HostCmd → State → State) : Host.Outcome State Fault Refusal :=
  onDieStep s d fun s =>
    match (s.die d).hostCmds.find? c with
    | none => s
    | some x => if x.op = op && x.phase = .started then f x s else s

/-- NOP (R49). -/
def execNopCommand (d c : Nat) (s : State) : Host.Outcome State Fault Refusal :=
  cmdStep 0 d c s fun _ s => s.finishCmd d c 0

/-- LAUNCH: refused, complete at once without roots, or checked and run, which waits while the die is quiesced (R50,
R52, R54, R100, R112); its priority is its queue's as the check pass accepts it. (DEDUCED: log 100; DESIGN CHOICE: log
139) -/
def execLaunchCommand (d c : Nat) (s : State) : Host.Outcome State Fault Refusal :=
  cmdStep 1 d c s fun x s =>
    if x.launchBad then s.finishCmd d c 5
    else if x.roots = 0 then s.finishCmd d c 0
    else if ((s.die d).launches.find? c).isSome || (s.die d).quiesced then s
    else match checkPass s d x.p0 x.roots x.nodes x.cap (bit 40 x.p1) with
      | (.refused code, s) => s.finishCmd d c code
      | (.accepted run, s) =>
        let l : Launch :=
          { base := x.p0, roots := x.roots, cap := x.cap, down := bit 40 x.p1, cores := bit 41 x.p1,
            prio := ((s.die d).queue x.queue).prio, run := run, failed := 0, start := x.known }
        s.onDie d fun die => { die with launches := die.launches.insert c l }

/-- COPY: the bytes up to the next line boundary of the source or of the destination; after the last the command
finishes; addresses go on from 0 after 2^56 - 1 (R49, R50). (DEDUCED, DESIGN CHOICE: log 100) -/
def execCopyCommand (d c : Nat) (s : State) : Host.Outcome State Fault Refusal :=
  cmdStep 2 d c s fun x s =>
    if x.p2 ≤ x.page then s.finishCmd d c 0
    else
      let src := (x.p0 + x.page) % 2 ^ 56
      let dst := (x.p1 + x.page) % 2 ^ 56
      let n := min (x.p2 - x.page) (min (64 - src % 64) (64 - dst % 64))
      match s.byCommand d c [] false fun s => memRead s d (span src n) with
      | (.error _, s) => s.finishCmd d c 3
      | (.ok bs, s) => match s.byCommand d c [] false fun s => memWrite s d ((span dst n).zip bs) with
        | (.error _, s) => s.finishCmd d c 3
        | (.ok _, s) => s.onCmd d c fun x => { x with page := x.page + n }

/-- PUBLISH (R49, R50, R67); of several conditions that meet, FAULT comes before NOSHADOW, and NOSHADOW before OVERFLOW.
(DESIGN CHOICE: log 100) -/
def execPublishCommand (d c : Nat) (s : State) : Host.Outcome State Fault Refusal :=
  cmdStep 3 d c s fun x s =>
    let id := bits 15 0 x.p0
    let (r, s) := readRec s.rested d id
    let s := s.rested
    if r.invalid then s.finishCmd d c 3
    else if !r.shadow then s.rested.finishCmd d c 6
    else if r.ovf then s.rested.finishCmd d c 4
    else match s.byCommand d c (commandRelease s d c (bits 18 16 x.p0)) false fun s => publishRecord s d id with
      | (.ok _, s) => s.finishCmd d c 0
      | (.error _, s) => s.finishCmd d c 3

/-- An addition to a signal, atomic at its home (R39, R51). An address that is not a multiple of 8 names the eight
bytes from it on. (DESIGN CHOICE: log 98) -/
def addSignal (s : State) (dn va v : Nat) : Access Unit :=
  let request := fun h => CellBody.atomicReq h ((span va 8).map peerOffset) 0 .n64 v 0
  match atomicElem s dn (span va 8) request fun old => (old + v) % 2 ^ 64 with
  | (.error c, s) => (.error c, s)
  | (.ok _, s) => (.ok (), s)

/-- A signal stored to (R49). -/
def setSignal (s : State) (dn va v : Nat) : Access Unit := writeElem s dn ((span va 8).zip (leBytes 8 v))

/-- SIGNAL, a release at .sys (R49, R50). -/
def execSignalCommand (d c : Nat) (s : State) : Host.Outcome State Fault Refusal :=
  cmdStep 4 d c s fun x s =>
    match s.byCommand d c (commandRelease s d c 4) false fun s =>
      if bit 0 x.p2 then setSignal s d x.p0 x.p1 else addSignal s d x.p0 x.p1 with
    | (.ok _, s) => s.finishCmd d c 0
    | (.error _, s) => s.finishCmd d c 3

/-- WAIT: it does not read its signal while the die is quiesced (R49, R50, R54). -/
def execWaitCommand (d c : Nat) (s : State) : Host.Outcome State Fault Refusal :=
  cmdStep 5 d c s fun x s =>
    if (s.die d).quiesced then s
    else match s.byCommand d c [] true fun s => readElem s d (span x.p0 8) with
      | (.error _, s) => s.finishCmd d c 3
      | (.ok bs, t) => if x.p1 ≤ leNat bs then t.finishCmd d c 0 else s

/-- A write of the command processor that faults is dropped, and QERR becomes 7 (R50). -/
def orStop (dn q : Nat) (x : Access Unit) : State :=
  match x with
  | (.ok _, s) => s
  | (.error _, s) => s.onQueue dn q fun u => { u with qerr := 7 }

/-- ADD added to CSIG, if there is one: a release at .sys that covers the effects of command `n` (R50). -/
def addCsig (s : State) (dn n : Nat) (c : HostCmd) : State :=
  if c.csig = 0 then s
  else orStop dn c.queue (s.byCommand dn n (commandRelease s dn n 4) false fun s => addSignal s dn c.csig c.add)

/-- The queues resume once every QUIESCE that completed together has done so under R50, unless HOLD or OFFLINE keeps
the die quiesced (R54). -/
def resumeDone (d : Die) : Die :=
  match d.quiesce with
  | none => d
  | some q =>
    if q.complete && !q.hold && !q.offline && !(q.cmds.any fun n => (d.hostCmds.find? n).isSome) then
      { d with quiesced := false, quiesce := none }
    else d

/-- The completion of a finished command: STATA, at any address, then CSIG, then the interrupt (R50). (DESIGN CHOICE: log
98) -/
def execCommandCompletion (d c : Nat) (s : State) : Host.Outcome State Fault Refusal :=
  onDieStep s d fun s =>
    match (s.die d).hostCmds.find? c with
    | none => s
    | some x => match x.phase with
      | .finished code count =>
        let s := if x.stata = 0 then s
          else orStop d x.queue (s.byCommand d c [] false fun s =>
            writeElem s d ((span x.stata 8).zip (leBytes 8 (code + count % 2 ^ 24 * 256))))
        let s := addCsig s d c x
        let known := match (s.die d).hostCmds.find? c with
          | some x => withAll (s.die d).commandKnown x.known
          | none => (s.die d).commandKnown
        let s := if x.intr then { s.raiseMsix d x.queue with interruptKnown := withAll s.interruptKnown known } else s
        s.onDie d fun die => resumeDone { die with hostCmds := die.hostCmds.erase c, commandKnown := known }
      | _ => s

/-! ### Quiescing -/

/-- The resident groups of a die pre-empted, as far as they can be now (R54, R115, R192). -/
def preemptResident (s : State) (dn : Nat) : State :=
  (s.die dn).groups.foldl (fun s e => preemptAll s dn (withLaunch (s.die dn) e)) s

/-- A QUIESCE begins, or merges with the one in progress; with PREEMPT the resident groups are pre-empted (R54,
R192). The step may come again for groups that could not be pre-empted before. (DEDUCED: log 99) -/
def execQuiesce (d c : Nat) (s : State) : Host.Outcome State Fault Refusal :=
  cmdStep 7 d c s fun x s =>
    let q := match (s.die d).quiesce with
      | some q => if q.cmds.contains c then q
          else { q with offline := q.offline || bit 0 x.p0, preempt := q.preempt || bit 1 x.p0
                        hold := q.hold || bit 2 x.p0, cmds := q.cmds ++ [c] }
      | none => { offline := bit 0 x.p0, preempt := bit 1 x.p0, hold := bit 2 x.p0, cmds := [c], complete := false }
    let s := s.onDie d fun die => { die with quiesce := some q }
    if bit 1 x.p0 then preemptResident s d else s

/-- Whether a command no longer stands in the way of a QUIESCE: it has not started, or it is a WAIT, the QUIESCE
itself, or with PREEMPT a LAUNCH (R54). -/
def quiesceIgnores (q : Quiesce) (n : Nat) (c : HostCmd) : Bool :=
  match c.phase with
  | .read => true
  | .started => c.op = 5 || q.cmds.contains n || (q.preempt && c.op = 1)
  | .finished _ _ => false

/-- Whether the accesses of a die have drained (R54). -/
def drained (d : Die) : Bool := d.cmds.isEmpty && d.remote.isEmpty && d.pulls.isEmpty

/-- The end of a QUIESCE: QUIESCED is set, and its commands complete (R54). -/
def execQuiesceComplete (d : Nat) (s : State) : Host.Outcome State Fault Refusal :=
  onDieStep s d fun s =>
    match (s.die d).quiesce with
    | none => s
    | some q =>
      if !q.complete && ((s.die d).hostCmds.all fun c => quiesceIgnores q c.1 c.2) && drained (s.die d) &&
          (s.die d).groups.all (fun e => e.2.state = .saved) then
        let s := q.cmds.foldl (fun s c => s.finishCmd d c 0) s
        s.onDie d fun die => { die with quiesced := true, quiesce := some { q with complete := true } }
      else s

/-- A write of 1 to RESUME: it ends what HOLD keeps (R45, R54). One that comes before QUIESCED is set does nothing.
(DESIGN CHOICE: log 99) -/
def execResume (d : Nat) (s : State) : Host.Outcome State Fault Refusal :=
  onDieStep s d fun s =>
    match (s.die d).quiesce with
    | none => s
    | some q =>
      if (s.die d).quiesced && q.hold && !q.offline then s.onDie d fun die => { die with quiesced := false, quiesce := none }
      else s

/-! ### Migration -/

/-- The target die and EARLY of a MIGRATE (R49). -/
def HostCmd.target (c : HostCmd) : Nat := bits 3 0 c.p2
def HostCmd.early? (c : HostCmd) : Bool := bit 4 c.p2

/-- The virtual address of the page that a MIGRATE stands at; after the last page the next is that at 0. (DESIGN
CHOICE: log 100) -/
def HostCmd.pageAddr (c : HostCmd) : Nat := (c.p0 + 65536 * c.page) % 2 ^ 56

/-- A MIGRATE that ends with RANGE (R74). (DEDUCED: log 101) -/
def migrateBad (s : State) (dn : Nat) (c : HostCmd) : Bool :=
  c.target = dn || 7 < c.target || (s.die c.target).service ≠ .inService || !(s.die c.target).ready ||
  c.p0 % 65536 ≠ 0 || c.p1 % 65536 ≠ 0

/-- The entries on a die that a MIGRATE of die `src` has opened and that have not closed. -/
def openMigrations (d : Die) : FMap Migration := d.migrations.filter fun m => m.2.isOpen

/-- One page of a MIGRATE whose table entries allow the switch: its leaf on the source, and the address of the entry
on the target (R74). -/
inductive PageStep where
  | skip
  | fault
  | switch (leaf : Leaf) (pa : Nat) (entry : Nat)
  deriving DecidableEq, Repr

/-- The checks of steps 1 and 2 of R74 for the page that a MIGRATE stands at. An entry on the source that is malformed
ends the command with FAULT, and an empty pool on the target leaves its FTEMPTY as it is; once a frame has been taken,
the tables are looked at again for step 4. (DESIGN CHOICE: log 101) -/
def pageStep (s : State) (dn : Nat) (c : HostCmd) : PageStep :=
  let va := c.pageAddr
  match walk (s.die dn) va with
  | .error e => if e = pageAbsent then .skip else .fault
  | .ok (v, big) =>
    let l := leafOf v big
    match pageState (s.die c.target) va 4 1 (s.die c.target).ptroot with
    | .free a => if c.frame.isNone && (s.die c.target).ftready = 0 then .fault else .switch l (l.phys va) a
    | _ => .fault

/-- The line that the background pulls of a die ask for next: page, line, source die and tag are taken from the first
open entry of a command with a line that is clear and not asked for (R74). -/
def nextPull (d : Die) (src c : Nat) : Option (Nat × Nat) :=
  (openMigrations d).findSome? fun m =>
    if m.2.src = src && m.2.cmd = c then
      ((List.range 1024).find? fun i => !m.2.valid.getLsbD i && !(d.pulls.any fun p => p.2 = (m.1, i))).map fun i => (m.1, i)
    else none

/-- A migration-pull cell for a line sent from the target to the source, or the line poisoned where the link is down
(R74, R75). -/
def askLine (s : State) (dn src page line : Nat) : State :=
  if routeDown s dn 8 src || routeDown s src 8 dn then lineArrived s dn (page * 65536 + 64 * line) true
  else
    let tag := (s.die dn).nextId % 2 ^ 32
    let s := s.onDie dn fun d => { d with nextId := d.nextId + 1, pulls := d.pulls.insert tag (page, line) }
    sendCell s dn (mkCell dn src 0 0x04 tag noPayload (.pull page line))

/-- The next background pull of a MIGRATE sent, if a line of a page that it has switched is still to be asked for (R74).
-/
def pullNext (s : State) (x : HostCmd) (d c : Nat) : State :=
  match nextPull (s.die x.target) d c with
  | some (page, line) => askLine s x.target d page line
  | none => s

/-- MIGRATE: its checks, pages that are skipped or end it with FAULT, the EARLY addition, the background pulls, and its
end (R74). -/
def execMigrate (d c : Nat) (s : State) : Host.Outcome State Fault Refusal :=
  cmdStep 6 d c s fun x s =>
    if (x.page = 0 || 65536 * x.page < x.p1) && migrateBad s d x then s.finishCmd d c 5
    else if 65536 * x.page < x.p1 then
      match pageStep s d x with
      | .skip => s.onCmd d c fun x => { x with page := x.page + 1 }
      | .fault => s.finishCmd d c 3
      | .switch _ _ _ => pullNext s x d c
    else if x.early? && !x.early then addCsig (s.onCmd d c fun x => { x with early := true }) d c x
    else if (openMigrations (s.die x.target)).any fun m => m.2.src = d && m.2.cmd = c then pullNext s x d c
    else s.finishCmd d c 0

/-- P cleared in the entry of a page, or, in a 2 MiB page, the page marked gone until all 32 are (R74). -/
def unmapPage (d : Die) (va : Nat) (big : Bool) : Die :=
  let d := dropPage d va
  if big then
    let a := bigEntry d va
    let gone := (a, va / 65536) :: d.gone
    if (span (va / 2097152 * 32) 32).all fun p => gone.contains (a, p) then
      { physWrite d a (leBytes 8 (physWord d a / 2 * 2)) with gone := gone.filter fun g => g.1 ≠ a }
    else { d with gone := gone }
  else match lineArrived.walkTable d va with
    | some a => physWrite d a (leBytes 8 (physWord d a / 2 * 2))
    | none => d

/-- Whether a record, on the side at a base, has bytes on the page of an address. -/
def recOnPage (va : Nat) (x : Rec × Nat) : Bool :=
  (x.1.filled ≠ 0 && x.2 / 65536 ≤ va / 65536 && va / 65536 ≤ (x.2 + x.1.filled - 1) / 65536) ||
  (x.1.tail x.2).any fun a => a / 65536 = va / 65536

/-- Whether accesses of a die to the page of an address have been accepted and are not complete: an element of a command
touches it now or at a level to come, or the page is still migrating in (R74). (DEDUCED: log 101) -/
def pageInUse (d : Die) (va : Nat) : Bool :=
  migrating d va || d.cmds.any fun c => c.2.elems.any fun e =>
    (match e.2.state with
      | .waiting | .sent _ => true
      | _ => false) &&
    ((elemAddrs d c.2.op e.2 ++ laterWrites d c.2.op e.2).any (fun a => a / 65536 = va / 65536) ||
     (laterRecs c.2.op e.2).any (recOnPage va))

/-- Steps 2 to 4 of R74 for the page that a MIGRATE stands at: first a ready frame is taken from the target's pool; then,
once the source's accesses to the page are complete and a migration entry is free, the page is unmapped on the source and
mapped with MIG = 1 on the target, and the migration entry opens. -/
def execMigrationPageSwitch (d c : Nat) (s : State) : Host.Outcome State Fault Refusal :=
  cmdStep 6 d c s fun x s =>
    if migrateBad s d x || x.p1 ≤ 65536 * x.page then s
    else match pageStep s d x with
      | .switch l pa a => match x.frame with
        | none =>
          let taken := takeFrame (s.die x.target)
          (s.setDie x.target taken.2).onCmd d c fun x => { x with frame := some taken.1 }
        | some frame =>
        if 256 ≤ (openMigrations (s.die x.target)).length || pageInUse (s.die d) x.pageAddr then s
        else
          let va := x.pageAddr
          let s := (s.onDie d fun die => unmapPage die va l.big).moveFrame d pa (some (x.target, frame))
          let s := s.onDie x.target fun t =>
            let t := physWrite (dropPage t va) a (leBytes 8 (leafWord l.kind l.key true l.writable frame))
            let m : Migration :=
              { src := d, cmd := c, oldFrame := pa, newFrame := frame, oldKey := l.key, key := l.key, valid := 0,
                poisoned := 0 }
            { t with migrations := t.migrations.insert (va / 65536) m }
          s.onCmd d c fun x => { x with page := x.page + 1, frame := none }
      | _ => s

/-- Whether the pull of a line has been asked for by cell and not answered (R74). -/
def Die.asked (d : Die) (page line : Nat) : Bool := d.pulls.any fun p => p.2 = (page, line)

/-- A line that is the next to be asked for of an open entry whose MIGRATE has ended with FAULT (R74, R75). -/
def orphanLine (s : State) (dn : Nat) : Option (Nat × Nat) :=
  (openMigrations (s.die dn)).findSome? fun m =>
    if ((s.die m.2.src).hostCmds.find? m.2.cmd).isSome then none
    else ((List.range 1024).find? fun i => !m.2.valid.getLsbD i && !(s.die dn).asked m.1 i).map fun i => (m.1, i)

/-- A line of a migrating page pulled: one that has not been asked for is asked for by a migration-pull cell, and an
answer that is on its way is taken (R74, R75). -/
def execMigrationLinePulled (d page line : Nat) (s : State) : Host.Outcome State Fault Refusal :=
  onDieStep s d fun s =>
    let va := page * 65536 + 64 * line
    match (s.die d).migrations.find? page with
    | none => s
    | some m =>
      if 1024 ≤ line || m.valid.getLsbD line then s
      else if !(s.die d).asked page line then askLine s d m.src page line
      else if (pullAnswer s d va).isSome then pullLine s d va
      else s

end Sys2Proof.Machine
end

