-- ==== Sys2Proof/Machine/CellSteps.lean ====
section
/-!
DEFINITION. The arrival of cells (R31 to R42, R75): acceptance, forwarding, and what each type does at its destination;
and the steps of a link's two ends that are not an arrival.
-/
namespace Sys2Proof.Machine

/-! ### Acceptance and forwarding -/

/-- The TYPE codes that concern the two ends of one link only (R32, R33, R35). -/
def linkLocal (type : Nat) : Bool := type = 0x30 || type = 0x31 || type = 0x32

/-- The arrival of the next cell of a link direction as one of type `type`, or as one that fails its checks. An
accepted cell for another end goes on; `f` is what an accepted cell does at its destination, where its buffer has
been freed, and so has that of a cell which goes on (R33 to R35). (DESIGN CHOICE: log 103, 135) -/
def arrival (type : Nat) (l : LinkId) (damage : Bool) (s : State) (f : State → Cell → State) :
    Host.Outcome State Fault Refusal :=
  match s.link l.src l.dst with
  | none => .next s
  | some x => match x.wire with
    | [] => .next s
    | head :: _ =>
      if head.type ≠ type && head.intact then .next s
      else match receive s l.src l.dst damage with
        | (none, s) => .next s
        | (some c, s) =>
          let c := match portEnd l.src with
            | some p => { c with port := p, src := 0xF }
            | none => c
          let here : Bool := c.dst = l.dst || linkLocal c.type || 16 ≤ l.dst ||
            (l.dst = 8 && 16 ≤ l.src && 8 ≤ c.dst)
          if here then .next (f (if c.type = 0x20 ∨ c.type = 0x21 then s else freeBuffer s l.src l.dst c) c)
          else .next (sendCell (freeBuffer s l.src l.dst c) l.dst c)

/-- An answer to a request cell, from the end where it stands (R32). -/
def answer (s : State) (at_ : Nat) (c : Cell) (type : Nat) (payload : List Byte) (body : CellBody) : State :=
  sendCell s at_ { mkCell at_ c.src 1 type c.tag payload body with port := c.port }

/-- A fault reply for an access at an offset of the export (R36, R39). -/
def answerFault (s : State) (at_ : Nat) (c : Cell) (cause : Cause) (off : Nat) : State :=
  answer s at_ c 0x13 [] (.fault cause.1 cause.2 off)

/-! ### Requests at the exporter -/

/-- A handle that names the die where a request stands (R39). -/
def handleHere (dn h : Nat) : Bool := handleDie h = dn

/-- A read request (R32, R39, R72). -/
def serveRead (dn : Nat) (s : State) (c : Cell) : State :=
  match c.body with
  | .readReq h off len =>
    if !handleHere dn h then answerFault s dn c refused off
    else match exporterRead s h off len with
      | (.error (e, _), s) => answerFault s dn c e off
      | (.ok bs, s) => answer s dn c 0x10 bs (.readData bs)
  | _ => answerFault s dn c refused 0

/-- A write request, or a copy element: the last cell of an element writes all its bytes, or none (R32, R39, R71, R72).
(DESIGN CHOICE: log 60) -/
def serveWrite (dn : Nat) (s : State) (c : Cell) : State :=
  match c.body with
  | .writeReq h chunks =>
    if !handleHere dn h then answerFault s dn c refused 0
    else match partsCheck s h .write (chunks.map fun x => (x.1, x.2.length)) with
      | (.error (e, off), s) => answerFault s dn c e off
      | (.ok _, s) => match partsWrite h chunks s with
        | (.error (e, off), s) => answerFault s dn c e off
        | (.ok _, s) => answer s dn c 0x11 [] .done
  | _ => answerFault s dn c refused 0

/-- A remote atomic, performed at its home (R32, R39, R89). -/
def serveAtomic (dn : Nat) (s : State) (c : Cell) : State :=
  match c.body with
  | .atomicReq h offs op ty value compare =>
    if !handleHere dn h then answerFault s dn c refused (offs.headD 0)
    else match partsCheck s h .atomic ((lineChunks offs).map fun x => (x.1, x.2.1)) with
      | (.error (e, off), s) => answerFault s dn c e off
      | (.ok _, s) =>
        let base := match (s.die dn).exports_.find? (handleSlot h) with
          | some e => e.base
          | none => 0
        let vas := offs.map (base + ·)
        match mappedRead s dn vas with
        | (.error (e, _), s) => answerFault s dn c (replyCause e) (offs.headD 0)
        | (.ok bs, s) =>
          let old := leNat bs
          let new := (atomStep ty op (BitVec.ofNat 64 old) (BitVec.ofNat 64 value) (BitVec.ofNat 64 compare)).toNat
          match s.atomically fun s => mappedWrite s dn (vas.zip (leBytes vas.length new)) with
          | (.error (e, _), s) => answerFault s dn c (replyCause e) (offs.headD 0)
          | (.ok _, s) => answer s dn c 0x12 (leBytes 8 old) (.atomicResult old)
  | _ => answerFault s dn c refused 0

/-- A migration pull at the source die: the line of the page's old frame, decrypted, or a fault reply where the line is
poisoned; a pull that the target has given up for a demand pull is dropped (R21, R75). -/
def servePull (dn : Nat) (s : State) (c : Cell) : State :=
  match c.body with
  | .pull page line =>
    let d := s.die dn
    let off := 65536 * page + 64 * line
    if ((s.die c.src).pulls.find? c.tag).isNone then s
    else match (s.die c.src).migrations.find? page with
    | some m =>
      if m.src ≠ dn || d.service = .poisoned || migPoisoned d off then answerFault s dn c linePoisoned off
      else
        let bs := (span (m.oldFrame + 64 * line) 64).map (readUnder d (keyOf d m.oldKey))
        answer s dn c 0x10 bs (.readData bs)
    | none => answerFault s dn c linePoisoned off
  | _ => answerFault s dn c linePoisoned 0

/-- The command for which a die of this module sent a request cell, by its number, while it is there (R77). -/
def requester (s : State) (c : Cell) : Option (Nat × Cmd) :=
  if 7 < c.src then none
  else match (s.die c.src).remote.find? c.tag with
    | none => none
    | some (cid, _) => ((s.die c.src).cmds.find? cid).map fun cmd => (cid, cmd)

/-- A request served for a peer: an atomic may release at .sys, whose order no cell carries, and a read may acquire.
(DESIGN CHOICE: log 124) -/
def servedPeer (f : State → Cell → State) (s : State) (c : Cell) : State :=
  let t := f (s.acting (if c.type = 0x02 && !s.peerKnown.isEmpty then [⟨.peer, 4, s.peerKnown⟩] else [])) c
  { t with peerKnown := withAll (withAll t.peerKnown t.written) (acquired t.trace.saw .peer 4) }.rested

/-- A request served for the gang that sent it, or for a peer (R77). -/
def served (f : State → Cell → State) (s : State) (c : Cell) : State :=
  match requester s c with
  | some (cid, cmd) => actFor s c.src cid cmd fun s => f s c
  | none => if c.src ≤ 7 then (f s.rested c).rested else servedPeer f s c

/-- READ_CELL. -/
def execReadCell (l : LinkId) (damage : Bool) (s : State) : Host.Outcome State Fault Refusal :=
  arrival 0x00 l damage s (served (serveRead l.dst))

/-- WRITE_CELL. -/
def execWriteCell (l : LinkId) (damage : Bool) (s : State) : Host.Outcome State Fault Refusal :=
  arrival 0x01 l damage s (served (serveWrite l.dst))

/-- REMOTE_ATOMIC_CELL. -/
def execRemoteAtomicCell (l : LinkId) (damage : Bool) (s : State) : Host.Outcome State Fault Refusal :=
  arrival 0x02 l damage s (served (serveAtomic l.dst))

/-- COPY_ELEMENT_CELL: the element it carries is written at the destination. -/
def execCopyElementCell (l : LinkId) (damage : Bool) (s : State) : Host.Outcome State Fault Refusal :=
  arrival 0x03 l damage s (served (serveWrite l.dst))

/-- MIGRATION_PULL. -/
def execMigrationPull (l : LinkId) (damage : Bool) (s : State) : Host.Outcome State Fault Refusal :=
  arrival 0x04 l damage s (servePull l.dst)

/-! ### Responses at the requester -/

/-- The element that waits for a tag: its command, its number, and the position in it; the tag is free again. -/
def takeTag (s : State) (dn tag : Nat) : Option (Nat × Nat × Nat × Cmd × Elem) × State :=
  let d := s.die dn
  let s' := s.setDie dn { d with remote := d.remote.erase tag }
  match d.remote.find? tag with
  | none => (none, s)
  | some (cid, eid, pos) => match d.cmds.find? cid with
    | none => (none, s')
    | some cmd => match cmd.elems.find? eid with
      | none => (none, s')
      | some e => match e.state with
        | .sent tags => if tags.contains tag then (some (cid, eid, pos, cmd, { e with state := .sent (tags.erase tag) }), s')
          else (none, s')
        | _ => (none, s')

/-- An element with one answer less to wait for; after the last it is what `done` makes of it. -/
def answered (s : State) (dn cid eid : Nat) (e : Elem) (done : Elem → Elem) : State :=
  match e.state with
  | .sent [] => putElem s dn cid eid (done e)
  | _ => putElem s dn cid eid e

/-- A value from another module has come for a command: it observes what that module's agents may have released (R79).
(DESIGN CHOICE: log 124) -/
def State.heard (s : State) (dn cid : Nat) (from_ : Bool) : State :=
  if !from_ || s.peerKnown.isEmpty then s
  else s.onDie dn fun d => { d with cmds := d.cmds.modify cid fun c =>
    { c with seen := { c.seen with reads := c.seen.reads ++ [⟨.peer, 4, s.peerKnown⟩] } } }

/-- Bytes put into an element's data at a position. -/
def Elem.fill (e : Elem) (pos : Nat) (bs : List Byte) : Elem :=
  { e with data := e.data.take pos ++ bs ++ e.data.drop (pos + bs.length) }

/-- A line that was pulled arrives: written unless the line is there already, and marked (R75). -/
def linePulled (s : State) (dn page line : Nat) (bs : Option (List Byte)) : State :=
  let va := page * 65536 + 64 * line
  match (s.die dn).migrations.find? page with
  | none => s
  | some m =>
    if m.valid.getLsbD line then s
    else match bs with
      | none => lineArrived s dn va true
      | some bs =>
        lineArrived (s.onDie dn fun d => writeUnder d (keyOf d m.key) ((span (m.newFrame + 64 * line) 64).zip bs)) dn va
          false

/-- The bytes that a response carries. -/
def Cell.dataBytes (c : Cell) : List Byte :=
  match c.body with
  | .readData bs => bs
  | _ => c.payload

/-- Read data delivered to the element, or to the migrating page, that waits for it (R32, R75). -/
def takeData (dn : Nat) (s : State) (c : Cell) : State :=
  match (s.die dn).pulls.find? c.tag with
  | some (page, line) =>
    linePulled (s.onDie dn fun d => { d with pulls := d.pulls.erase c.tag }) dn page line (some (c.dataBytes.take 64))
  | none => match takeTag s dn c.tag with
    | (none, s) => s
    | (some (cid, eid, pos, cmd, e), s) =>
      let e := e.fill pos c.dataBytes
      (answered s dn cid eid e fun e => afterRead cmd e e.data).heard dn cid (c.src = 0xF)

/-- READ_DATA. -/
def execReadData (l : LinkId) (damage : Bool) (s : State) : Host.Outcome State Fault Refusal :=
  arrival 0x10 l damage s (takeData l.dst)

/-- A remote write or atomic completed (R32). -/
def takeDone (dn : Nat) (old : Option Nat) (s : State) (c : Cell) : State :=
  match takeTag s dn c.tag with
  | (none, s) => s
  | (some (cid, eid, _, _, e), s) =>
    (answered s dn cid eid { e with old := old.getD e.old } fun e => { e with state := .performed }).heard dn cid
      (c.src = 0xF && old.isSome)

/-- WRITE_COMPLETION. -/
def execWriteCompletion (l : LinkId) (damage : Bool) (s : State) : Host.Outcome State Fault Refusal :=
  arrival 0x11 l damage s (takeDone l.dst none)

/-- The old value that an atomic result carries. -/
def Cell.oldValue (c : Cell) : Nat :=
  match c.body with
  | .atomicResult old => old
  | _ => leNat (c.payload.take 8)

/-- ATOMIC_RESULT. -/
def execAtomicResult (l : LinkId) (damage : Bool) (s : State) : Host.Outcome State Fault Refusal :=
  arrival 0x12 l damage s fun s c => takeDone l.dst (some c.oldValue) s c

/-- A fault reply: the element takes the fault, or the pulled line is poisoned (R36, R39, R75). -/
def takeFault (dn : Nat) (s : State) (c : Cell) : State :=
  let (cause, off) : Cause × Nat := match c.body with
    | .fault cls reason off => ((cls, reason), off)
    | _ => (refused, 0)
  match (s.die dn).pulls.find? c.tag with
  | some (page, line) => linePulled (s.onDie dn fun d => { d with pulls := d.pulls.erase c.tag }) dn page line none
  | none => match takeTag s dn c.tag with
    | (none, s) => s
    | (some (cid, eid, pos, cmd, e), s) =>
      let as := elemAddrs (s.die dn) cmd.op e
      failElem s dn cid eid cmd e cause ((as.find? fun a => peerOffset a = off).getD (as.getD pos 0))

/-- An answer taken as the end that it goes to takes it (R32). -/
def takeAnswer (dn : Nat) (s : State) (c : Cell) : State :=
  match c.type with
  | 0x10 => takeData dn s c
  | 0x11 => takeDone dn none s c
  | 0x12 => takeDone dn (some c.oldValue) s c
  | 0x13 => takeFault dn s c
  | _ => s

/-- The answers of a die to the other dies that are still on their way taken: its accesses complete (R43). -/
def takeAnswers (s : State) (dn : Nat) : State :=
  (s.links.flatMap fun l => l.2.queue ++ l.2.replay).foldl (fun s c =>
    if c.src = dn && c.vc = 1 && c.dst < 8 && c.dst ≠ dn then takeAnswer c.dst s c else s) s

/-- FAULT_REPLY. -/
def execFaultReply (l : LinkId) (damage : Bool) (s : State) : Host.Outcome State Fault Refusal :=
  arrival 0x13 l damage s (takeFault l.dst)

/-! ### Ports and publishes -/

/-- A `kd` cell joins those that wait on a die, and what can be taken is taken (R37, R38). -/
def takeKd (dn : Nat) (s : State) (w : KdWaiting) : State :=
  deliverAll (s.onDie dn fun d => { d with kdWaiting := d.kdWaiting ++ [w] }) dn

/-- KD_PUSH. -/
def execKdPush (l : LinkId) (damage : Bool) (s : State) : Host.Outcome State Fault Refusal :=
  arrival 0x20 l damage s fun s c => match c.body with
    | .kdPush desc half lanes words gid gang => takeKd l.dst s ⟨desc, half, lanes, words, c.src, gid, gang⟩
    | _ => freeBuffer s l.src l.dst c

/-- KD_RETURN. -/
def execKdReturn (l : LinkId) (damage : Bool) (s : State) : Host.Outcome State Fault Refusal :=
  arrival 0x21 l damage s fun s c => match c.body with
    | .kdReturn gid gang lanes => takeKd l.dst s ⟨⟨0, 0, 0⟩, 2, lanes, [], c.src, gid, gang⟩
    | _ => freeBuffer s l.src l.dst c

/-- PUBLISH_CELL: accepted in a publish buffer; the spec gives it no content. (DEDUCED: log 104) -/
def execPublishCell (l : LinkId) (damage : Bool) (s : State) : Host.Outcome State Fault Refusal :=
  arrival 0x22 l damage s fun s _ => s

/-- SIGNAL_RELEASE: accepted in a publish buffer; the spec gives it no content. (DEDUCED: log 104) -/
def execSignalRelease (l : LinkId) (damage : Bool) (s : State) : Host.Outcome State Fault Refusal :=
  arrival 0x23 l damage s fun s _ => s

/-! ### Management cells -/

/-- ACK: its ACK field frees replay-buffer cells (R35, R41). -/
def execAck (l : LinkId) (damage : Bool) (s : State) : Host.Outcome State Fault Refusal :=
  arrival 0x30 l damage s fun s _ => s

/-- NAK: every cell from the named SEQ on is sent again (R35). -/
def execNak (l : LinkId) (damage : Bool) (s : State) : Host.Outcome State Fault Refusal :=
  arrival 0x31 l damage s fun s c => resend s l.dst l.src (c.tag % 65536)

/-- CREDIT_ONLY: its CRED and ACK fields count (R33). -/
def execCreditOnly (l : LinkId) (damage : Bool) (s : State) : Host.Outcome State Fault Refusal :=
  arrival 0x32 l damage s fun s _ => s

/-- RESTAGGER: phase 2 of a holding module is scheduled; else the cell is logged and ignored (R42). -/
def execRestagger (l : LinkId) (damage : Bool) (s : State) : Host.Outcome State Fault Refusal :=
  arrival 0x33 l damage s fun s c =>
    let base := leNat (c.payload.take 4)
    let step := leNat ((c.payload.drop 4).take 4)
    if (portEnd l.src).isNone then s
    else if s.hub.holding then
      { s with hub := { s.hub with pending := some (s.hub.time, base, step), holdSince := s.hub.time } }
    else { s with hub := { s.hub with log := s.hub.log ++ [.restagger base step s.hub.time] } }

/-- KEY_CONTROL: accepted on the management channel; the spec gives it no content. -/
def execKeyControl (l : LinkId) (damage : Bool) (s : State) : Host.Outcome State Fault Refusal :=
  arrival 0x34 l damage s fun s _ => s

/-- LINK_STATUS: accepted on the management channel; the spec gives it no content. -/
def execLinkStatus (l : LinkId) (damage : Bool) (s : State) : Host.Outcome State Fault Refusal :=
  arrival 0x35 l damage s fun s _ => s

/-! ### The ends of a link -/

/-- A receiver with no reverse traffic sends a credit-only cell that carries its ACK (R35). -/
def execAckDeadline (l : LinkId) (s : State) : Host.Outcome State Fault Refusal :=
  match s.link l.src l.dst with
  | none => .next s
  | some x =>
    if x.ackOwed then .next (enqueue s l.dst l.src (mkCell (min l.dst 15) (min l.src 15) 3 0x32 0 noPayload .none))
    else .next s

/-- Why an element's request in flight cannot reach its exporter any more, and the address that it goes to. -/
def unreachable (s : State) (dn : Nat) (cmd : Cmd) (e : Elem) : Option (Cause × Nat) :=
  (elemAddrs (s.die dn) cmd.op e).findSome? fun a =>
    if !inPeer a then none
    else match (importHandle s dn (peerIndex a)).1 with
      | .ok h => (wayFault s dn h).map fun c => (c, a)
      | .error _ => none

/-- Requests in flight whose exporter cannot be reached any more: over a link that is down their elements take an
integrity fault, and those to a die that is POISONED, or has no pages left, the fault of an access that comes after (R36,
R43). (DEDUCED: log 105) -/
def failRoutes (s : State) (dn : Nat) : State :=
  (s.die dn).cmds.foldl (fun s c => c.2.elems.foldl (fun s e =>
    match e.2.state with
    | .sent _ => match unreachable s dn c.2 e.2 with
      | some (cause, a) => failElem s dn c.1 e.1 c.2 e.2 cause a
      | none => s
    | _ => s) s) s

/-- Background pulls in flight whose link is down: their lines are poisoned (R75). -/
def failPulls (s : State) (dn : Nat) : State :=
  (s.die dn).pulls.foldl (fun s p =>
    match (s.die dn).migrations.find? p.2.1 with
    | some m =>
      if routeDown s m.src 8 dn || routeDown s dn 8 m.src then
        linePulled (s.onDie dn fun d => { d with pulls := d.pulls.erase p.1 }) dn p.2.1 p.2.2 none
      else s
    | none => s.onDie dn fun d => { d with pulls := d.pulls.erase p.1 }) s

/-- What is in flight over links that have been reported down or switched off faults (R36, R43, R75). -/
def failWays (s : State) : State := (List.range 8).foldl (fun s d => failPulls (failRoutes s d) d) s

/-- Retraining of a link direction after 16 replays of one SEQ; after three that fail the link is reported down
(R36). (DEDUCED: log 105) -/
def execLinkRetrain (l : LinkId) (trained : Bool) (s : State) : Host.Outcome State Fault Refusal :=
  match s.link l.src l.dst with
  | none => .next s
  | some x =>
    if x.replays < 17 || x.down then .next s
    else if trained then
      .next (s.onLink l.src l.dst fun x =>
        { x with replays := 0, retrains := 0, discarding := false, ahead := none, wire := x.replay })
    else if x.retrains < 2 then .next (s.onLink l.src l.dst fun x => { x with retrains := x.retrains + 1 })
    else
      let s := s.onLink l.src l.dst fun x => { x with retrains := x.retrains + 1, down := true, wire := [] }
      let s := match linkPort l.src l.dst with
        | some p => s.setPort p { s.port p with status := 0 }
        | none => s
      let s := { s with hub := { s.hub with log := s.hub.log ++ [.linkDown l.src l.dst] } }
      .next (failWays s)

/-- Eight tag failures in a row take the port down, so that what is in flight over it faults, and raise a class 1 alarm,
whose action is to log it and to raise the management interrupt (R24, R27, R36, R40). (DEDUCED: log 105, 109) -/
def execTagFailureLimit (p : Nat) (s : State) : Host.Outcome State Fault Refusal :=
  let x := s.port p
  if x.tagFailures < 8 then .next s
  else
    let s := s.setPort p { x with status := 3, tagFailures := 0 }
    let down := fun (l : LinkDir) => { l with down := true, wire := [] }
    let s := (s.onLink (16 + p) 8 down).onLink 8 (16 + p) down
    let entry := LogEntry.tagAlarm p x.tagFailures s.hub.time
    .next ((failWays { s with hub := { s.hub with log := s.hub.log ++ [entry] } }).raiseMsix 8 0)

/-- A port whose count has reached 2^48 under its key reports KEYEXP (R41). -/
def execKeyexp (p : Nat) (s : State) : Host.Outcome State Fault Refusal :=
  let x := s.port p
  match s.link 8 (16 + p), x.sendKeys.find? x.sendSlot with
  | some l, some _ =>
    if x.status = 1 && 2 ^ 48 ≤ ivCount x.sendWraps l.nextSeq then .next (s.setPort p { x with status := 2 }) else .next s
  | _, _ => .next s

/-- A link direction in service: a fresh one, or one that was down and goes on where it stood. -/
def trainedDir : Option LinkDir → LinkDir
  | some l => { l with down := false, replays := 0, retrains := 0, discarding := false, ahead := none, wire := l.replay }
  | none => LinkDir.fresh

/-- The two directions of external port `p` trained, and the port up (R15, R17). (DEDUCED: log 106) -/
def portUp (s : State) (p : Nat) : State :=
  let links := s.links.insert (linkKey 8 (16 + p)) (trainedDir (s.link 8 (16 + p)))
  let s := { s with links := links.insert (linkKey (16 + p) 8) (trainedDir (s.link (16 + p) 8)) }
  s.setPort p { s.port p with status := 1 }

/-- External port `p` down: its two directions carry nothing (R17). -/
def portDown (s : State) (p : Nat) : State :=
  let down := fun (l : LinkDir) => { l with down := true, wire := [] }
  let s := (s.onLink 8 (16 + p) down).onLink (16 + p) 8 down
  s.setPort p { s.port p with status := 0 }

/-- Training of a down port retried (R17). (DEDUCED: log 106) -/
def execPortRetry (p : Nat) (trained : Bool) (s : State) : Host.Outcome State Fault Refusal :=
  if p < 8 && (s.port p).status = 0 && trained && (s.hub.ready || s.hub.holding || 4 ≤ s.hub.phase) then .next (portUp s p)
  else .next s

/-! ### Exports -/

/-- An export slot filled, with its rights as bits read, write, atomic, port; its generation stays (R39). -/
def execExportSlotFill (d slot base len rights : Nat) (s : State) : Host.Outcome State Fault Refusal :=
  onDieStep s d fun s =>
    if 4096 ≤ slot ∨ len % 65536 ≠ 0 then s
    else s.onDie d fun die =>
      let e := FMap.get Export.empty die.exports_ slot
      let e : Export :=
        { base := base, len := len, read := bit 0 rights, write := bit 1 rights, atomic := bit 2 rights,
          port := bit 3 rights, gen := e.gen, filled := true }
      { die with exports_ := die.exports_.insert slot e }

/-- An export revoked: its generation counts on (R39). -/
def execExportRevoke (d slot : Nat) (s : State) : Host.Outcome State Fault Refusal :=
  onDieStep s d fun s =>
    s.onDie d fun die =>
      { die with exports_ := die.exports_.modify slot fun e => { e with gen := (e.gen + 1) % 65536 } }

end Sys2Proof.Machine
end

