-- ==== Sys2Proof/Machine/Fetch.lean ====
section
/-!
DEFINITION. Fetching: the code block at a program counter (R207, R208), and the traps of a fetch that faults (R179,
R189) and of a word that does not decode (R223).
-/
namespace Sys2Proof.Machine

/-- The address of the code block of an instruction index, and its slot (R207). -/
def codeAddr (pc : Nat) : Nat := pc / 5 * 64
def codeSlot (pc : Nat) : Nat := pc % 5

/-- The head and opcode of the word in a slot of a block, for the faulters and the record of a word that does not
decode (R181, R309). -/
def wordHead (block : List Byte) (slot : Nat) : Head × Nat :=
  match splitFields fieldWidths (leNat ((block.drop (12 * slot)).take 12)) with
  | [_, _, _, _, pred, neg, stall, yh, nh, _, _, _, _, op, _, _] => (⟨pred, neg = 1, stall, yh = 1, nh = 1⟩, op)
  | _ => (⟨7, false, 0, false, false⟩, 0)

/-- The plain head. -/
def Head.plain : Head := ⟨7, false, 0, false, false⟩

/-- Every quad of the sub-gang vectors for a fetch that faults, with ADDR the block's address (R179, R189).
(DEDUCED: log 34) -/
def fetchTrap (c : Cx) (cause : Cause) (addr : Nat) : Host.Outcome State Fault Refusal :=
  complete (c.qs.foldl (fun c q =>
    if (c.k.quad q).allEnded then c
    else { quadTrapAt c q cause.1 cause.2 addr 0 with qs := c.qs.filter (· ≠ q) }) c)

/-- What a fetch answers: an instruction to execute with the state after the fetch, or the outcome of a fetch that
stalls or traps. -/
inductive Fetched where
  | run (i : Instr) (s : State)
  | done (o : Host.Outcome State Fault Refusal)

/-- A code block as a group sees it: where it has been written since the group started, as it stood then or as the last
write that the group has acquired left it, on its own die or through the peer window (R207, R208). (DESIGN CHOICE: log
124) -/
def Group.blockSeen (g : Group) (s : State) (dn va : Nat) (now : List Byte) : List Byte :=
  match placeOf s dn va with
  | some (d, v) => match translate d (s.die d) v false with
    | .ok (_, pa) => ((g.code.find? (codeKey d pa)).map KeptLine.seen).getD now
    | .error _ => now
  | none => now

/-- The fetch of sub-gang `sg`: a blocked sub-gang fetches nothing (R119). -/
def fetch (s : State) (sg : SubGang) : Fetched :=
  match openCx s sg 0 Head.plain with
  | none => .done (.next s)
  | some c =>
    if c.blocked then .done (.next s)
    else
      match memRead s sg.die (span (codeAddr c.pc) 64) with
      | (.error (cause, _), s) => match openCx s sg 0 Head.plain with
        | none => .done (.next s)
        | some c => .done (fetchTrap c.enter cause (codeAddr c.pc))
      | (.ok now, s) =>
        let block := c.grp.blockSeen s sg.die (codeAddr c.pc) now
        match decodeBlock c.sup block (codeSlot c.pc) with
        | .ok i => .run i s
        | .error cause =>
          let (h, op) := wordHead block (codeSlot c.pc)
          match openCx s sg op h with
          | none => .done (.next s)
          | some c => .done (trapAll c.enter cause 0)

end Sys2Proof.Machine
end

