-- ==== Sys2Proof/Machine/FaultSteps.lean ====
section
/-!
DEFINITION. The vectors that are not part of an instruction: at convergence points (R184), for held elements (R189)
and for a port deadlock (R138).
-/
namespace Sys2Proof.Machine

/-- Quad `q` of a gang takes a trap outside an instruction, for a fault of its instruction number `n`; the rest of its
sub-gang parts from it (R184, R190). -/
def vectorQuad (s : State) (dn : Nat) (k : Gang) (q cls n : Nat) (mask : BitVec 4) : State × Gang :=
  let rest := (k.members (k.quad q).sgt).filter (· ≠ q)
  let (s, k) := takeTrapOr (·.loseAt cls n) s dn k q cls mask (k.quad q).pc
  (s, if rest.contains q then k else Sys2Proof.Machine.part k rest)

/-- The instruction that stands at a sub-gang's PC, with the sub-gang opened for it. -/
def nextInstr (s : State) (sg : SubGang) : Option (Nat × Ops × Head × Cx) :=
  match openCx s sg 0 Head.plain with
  | none => none
  | some c =>
    match memRead s sg.die (span (codeAddr c.pc) 64) with
    | (.error _, _) => none
    | (.ok now, s') => match decodeBlock c.sup (c.grp.blockSeen s' sg.die (codeAddr c.pc) now) (codeSlot c.pc) with
      | .error _ => none
      | .ok i => match opcodeAndOps i with
        | none => none
        | some (op, ops) =>
          let h := match ops with
            | .r o => o.h
            | .c o => o.h
            | .m o => o.h
            | .e o => o.h
            | .s o => o.h
          (openCx s sg op h).map fun c => (op, ops, h, c)

/-- The vector of a quad with parked lanes whose next instruction is a convergence point or `exit`; a `regang` at which
it waits has not executed (R184, R191, R248). -/
def execFaultVector (d g k q : Nat) (s : State) : Host.Outcome State Fault Refusal :=
  onDieStep s d fun s =>
    match (s.die d).group g with
    | none => s
    | some grp =>
      let gang := grp.gang k
      let u := gang.quad q
      match nextInstr s ⟨d, g, k, u.sgt⟩, parkedClass gang q with
      | some (op, _, _, c), some (cls, m) =>
        if grp.runs && !u.sup && !u.exited && u.park ≠ 0 && (!c.blocked || u.atRegang) && convergenceOps.contains op then
          let n := FMap.get 0 gang.parkedAt (4 * q + (gang.firstParked q).getD 0)
          let (s, gang) := vectorQuad s d gang q cls n m
          s.putGroup d g (grp.onGang k fun _ => gang)
        else s
      | _, _ => s

/-- The held elements of quad `q` that it has not vectored for: their command and element numbers, lanes, and the
records they would write. -/
def heldOf (d : Die) (gid gi q : Nat) : List (Nat × Nat × FaultRec) :=
  d.cmds.flatMap fun c =>
    if c.2.gid = gid && c.2.gang = gi then c.2.elems.filterMap fun e =>
      match e.2.state with
      | .held a false =>
        if e.2.lane / 4 = q then
          some (c.1, e.1, elemFaultRec c.2 e.2 pageAbsent a (elemRecord c.2.op e.2)) else none
      | _ => none
    else []

/-- The issue number of the earliest command of a list of held elements. -/
def heldIssue (d : Die) (gang : Gang) (hs : List (Nat × Nat × FaultRec)) : Nat :=
  hs.foldl (fun n h => match d.cmds.find? h.1 with
    | some c => min n c.issue
    | none => n) gang.issued

/-- Elements marked as seen by their quad. -/
def markSeen (s : State) (dn : Nat) (hs : List (Nat × Nat × FaultRec)) : State :=
  let see : Elem → Elem := fun e => match e.state with
    | .held a _ => { e with state := .held a true }
    | _ => e
  let one : FMap Cmd → Nat × Nat × FaultRec → FMap Cmd := fun cs h =>
    cs.modify h.1 fun c => { c with elems := c.elems.modify h.2.1 see }
  s.onDie dn fun d => { d with cmds := hs.foldl one d.cmds }

/-- The vector for page-not-present faults of engine elements: at its next boundary the quad stops, with the lanes
of its held elements as faulters (R189). A quad that waits for first-touch frames vectors again once a frame is
ready. The code-fetch case is taken where the fetch is made. (DEDUCED: log 83) -/
def execPageFaultVector (d g k q : Nat) (s : State) : Host.Outcome State Fault Refusal :=
  onDieStep s d fun s =>
    match (s.die d).group g, heldOf (s.die d) g k q with
    | some grp, h :: hs =>
      let gang := grp.gang k
      let u := gang.quad q
      if grp.runs && !u.sup && !u.exited && !u.stopped && !(u.poolWait && (s.die d).ftready = 0) then
        let mask := (h :: hs).foldl (fun (m : BitVec 4) x => m ||| BitVec.ofNat 4 (2 ^ (x.2.2.lane % 4))) 0
        let low := lowestLane mask q
        let rec_ := ((h :: hs).find? fun x => x.2.2.lane = low).map (·.2.2)
        let gang := match rec_ with
          | some r => gang.putRecord low r
          | none => gang
        let (s, gang) := vectorQuad s d gang q 6 (heldIssue (s.die d) gang (h :: hs)) mask
        (markSeen s d (h :: hs)).putGroup d g (grp.onGang k fun _ => gang)
      else s
    | _, _ => s

/-! ### Port deadlock -/

/-- Whether the instruction of a sub-gang waits for a port other than `kd`: one that traps does not, be it for its word
or, an `nhand`, for its upward node; and a lane whose index faults neither pops nor pushes (R128, R137, R138, R223,
R285). -/
def portStalled (op : Nat) (ops : Ops) (c : Cx) : Bool :=
  let c := c.indexFaults (indexOperands op ops)
  let m := c.solid &&& ~~~c.parked
  let srcs := (portsAmong (sourceRegs op ops)).filter (· ≠ .kd)
  let dest : Option Port := match ops with
    | .r o => if (formR op o.m.variant).dest then destPort o.d else none
    | _ => none
  (regFault c.k c.grp.regs c.sup op ops).isNone && (c.oddQuads op ops).isEmpty && !(op = 0x150 && !c.grp.down) &&
  ((srcs.any fun p => !canPop c p m) || (match dest with
    | some .kd => false
    | some p => !canPush c p m
    | none => false))

/-- Whether a sub-gang is stalled on le, lw or a core port, or on `bar`, `gsync` or `regang` (R138). -/
def subGangStalled (s : State) (sg : SubGang) : Bool :=
  match openCx s sg 0 Head.plain with
  | none => false
  | some c =>
    c.qs.all (fun q => (c.k.quad q).barArrived || (c.k.quad q).gsyncArrived || (c.k.quad q).atRegang) ||
    (!c.blocked && match nextInstr s sg with
      | some (op, ops, _, c) => portStalled op ops c
      | none => false)

/-- The tags of a gang's sub-gangs. -/
def Gang.tags (k : Gang) : List Nat := distinct (k.liveQuads.map fun q => (k.quad q).sgt)

/-- Whether a gang has a command or a join batch outstanding (R138). -/
def gangBusy (d : Die) (g : Group) (gid gi : Nat) : Bool :=
  !(gangCmds d gid gi).isEmpty ||
  (let co := d.core (g.cores.getD (g.gang gi).core 0)
   co.owner = some (gid, gi) && !co.queue.isEmpty)

/-- Whether quads of a group leave what they wait at in the model's next steps: `bar` or `gsync` is complete, or `regang`
in a gang, or a quad vectors at its `regang` (R184, R248, R254, R255). Such quads are not stalled. -/
def Group.leaving (g : Group) : Bool :=
  g.allLive (·.barArrived) || g.allLive (·.gsyncArrived) || g.gangs.any fun k =>
    k.together || k.liveQuads.any fun q => (k.quad q).atRegang && !(k.quad q).sup && (k.quad q).park ≠ 0

/-- The condition of R138 at one cycle. (DEDUCED: log 6) -/
def deadlocked (s : State) (dn gid : Nat) (g : Group) : Bool :=
  let live := (List.range g.gangs.length).filter fun i => !(g.gang i).liveQuads.isEmpty
  g.runs && !g.pre && !g.leaving && !live.isEmpty && live.all fun i =>
    !gangBusy (s.die dn) g gid i && (g.gang i).tags.all fun t => subGangStalled s ⟨dn, gid, i, t⟩

/-- Each stalled quad of a group traps after 256 cycles (R138, R197, R309). -/
def execPortDeadlock (d g : Nat) (s : State) : Host.Outcome State Fault Refusal :=
  onDieStep s d fun s =>
    match (s.die d).group g with
    | none => s
    | some grp =>
      if grp.stalled < 256 || !deadlocked s d g grp then s
      else
        let s := s.putGroup d g { grp with stalled := 0 }
        (List.range grp.gangs.length).foldl (fun s i =>
          (grp.gang i).tags.foldl (fun s t =>
            match nextInstr s ⟨d, g, i, t⟩ with
            | some (_, _, _, c) => (settle { c with out := c.qs.map fun q => (q, .trap 10 0 0) }).close
            | none => s) s) s

end Sys2Proof.Machine
end

