-- ==== Sys2Proof/Machine/Hub.lean ====
section
/-!
DEFINITION. The hub: boot (R14 to R19, R42), power (R9 to R13), security alarms (R23 to R25), the management function and
its requests (R20, R26 to R30, R41), and taking a die offline (R43, R76).
-/
namespace Sys2Proof.Machine

/-- Management-clock cycles of a number of seconds (R6, R42). -/
def seconds (n : Nat) : Nat := n * 1200000000

/-- The hub changed. -/
def State.onHub (s : State) (f : Hub → Hub) : State := { s with hub := f s.hub }

/-- The ceiling of die `d` under the module's limit (R9). (DEDUCED: log 112) -/
def Hub.ceiling (h : Hub) (d : Nat) : Nat := Config.ceiling d * h.limit / 5800

/-- A compute die in reset, under the limit in force (R9). -/
def resetDie (s : State) (d : Nat) : Die := { Die.reset d with ceiling := s.hub.ceiling d }

/-! ### The safe state and the image check -/

/-- The boot ends in the safe state: the compute functions report not-ready, and the failure is logged where Miotur and
the NVMe root ports run (R16, R18). The links go with what they carry, and PORTST stays. (DESIGN CHOICE: log 106, 109) -/
def enterSafe (s : State) (phase code die unit : Nat) (logged : Bool) : State :=
  { s with
    hub := { s.hub with
      safe := true, ready := false, holding := false, pending := none, phase := phase, code := code, die := die,
      unit := unit
      log := if logged && !Config.nvmeDown s.free then s.hub.log ++ [.bootFailure code die unit] else s.hub.log }
    dies := (List.range 8).map (resetDie s), links := [] }

/-- Size of an image slot (R14). -/
def imageSlotBytes : Nat := 2 ^ 25

/-- The refusal reason of an image, 0 where it is accepted (R14). (DESIGN CHOICE: log 16) -/
def imageRefusal (h : Hub) (i : Image) : Nat :=
  if imageSlotBytes < i.length then 3
  else if !(i.signer = h.keyDigest && Config.verifies i.signer i.digest i.signature) then 1
  else if i.version < h.floor then 2
  else 0

/-- The image in a slot (R14). -/
def Hub.image (h : Hub) (slot : Nat) : Image := h.images.getD slot Image.empty

/-- The failure code of two refusals (R19). -/
def refusalCode (r1 r2 : Nat) : Nat := if r1 = r2 then r1 else 4

/-- The failure code of a self-test phase (R19). -/
def phaseCode (phase die : Nat) : Nat :=
  match phase with
  | 2 => 0x10
  | 3 => if Config.isL die then 0x21 else 0x20
  | 4 => 0x30
  | _ => 0x40

/-! ### Boot -/

/-- The 16 die links, as pairs of ends (R6). -/
def dieLinks : List (Nat × Nat) :=
  ((List.range 8).map fun d => (d, (d + 1) % 8)) ++ ((List.range 8).map fun d => (d, 8))

/-- Both directions of the die links trained (R15). -/
def trainLinks (s : State) : State :=
  { s with links := dieLinks.foldl (fun (m : FMap LinkDir) e =>
      (m.insert (linkKey e.1 e.2) LinkDir.fresh).insert (linkKey e.2 e.1) LinkDir.fresh) s.links }

/-- External ports trained: those that come up, and the others down (R15, R17). -/
def trainPorts (s : State) (ps : List Nat) : State :=
  (List.range 8).foldl (fun s p => if ps.contains p then portUp s p else portDown s p) s

/-- A compute die as phase 6 leaves it: its memory zero-filled and key slot 0 loaded (R15, R20). -/
def readyDie (s : State) (d : Nat) : Die :=
  { resetDie s d with ready := true, keys := [(0, Config.freshKey (8 * s.free + d))] }

/-- The phase, 2 to 5, that fails, where it comes before one that neither passes nor fails (R15, R16). -/
def bootFails (env : BootEnv) : Option Nat :=
  match env.failPhase with
  | some p =>
    let p := if p < 2 ∨ 5 < p then 5 else p
    if p ≤ env.stuck.getD 6 then some p else none
  | none => none

/-- A boot that stands in a phase from 2 on, every earlier one passed (R15, R16). -/
def bootStuck (s : State) (env : BootEnv) (p : Nat) : State :=
  let s := if 4 < p then trainPorts (trainLinks s) env.portsUp else s
  s.onHub fun h => { h with phase := p }

/-- Phase 6 passed (R15, R20, R322). -/
def bootDone (s : State) : State :=
  { s with
    dies := (List.range 8).map (readyDie s)
    hub := { s.hub with
      phase := 6, ready := true, bootKey := Config.freshKey (8 * s.free + 8)
      floor := match s.hub.running with
        | some i => max s.hub.floor i.version
        | none => s.hub.floor } }

/-- Phases 2 to 6 (R14 to R17). (DESIGN CHOICE: log 108) -/
def bootRest (s : State) (env : BootEnv) : State :=
  let s := s.onHub fun h => { h with holding := false, pending := none }
  match bootFails env, env.stuck with
  | some p, _ =>
    let s := if p = 5 then trainPorts (trainLinks s) env.portsUp else s
    enterSafe s p (phaseCode p env.die) env.die env.unit true
  | none, some p => bootStuck s env (max 2 (min p 6))
  | none, none => bootDone (trainPorts (trainLinks s) env.portsUp)

/-- The volatile state of the module at power-good: what flash, fuses, the protected store and NVMe hold stays (R14, R16,
R24, R26, R42). (DESIGN CHOICE: log 138) -/
def powerOn (s : State) : State :=
  { State.reset with
    free := s.free, agenda := s.agenda
    hub := { Hub.reset with
      images := s.hub.images, flashRpos := s.hub.flashRpos, flashStagger := s.hub.flashStagger,
      keyDigest := s.hub.keyDigest, floor := s.hub.floor, serial := s.hub.serial, certificate := s.hub.certificate,
      attestKey := s.hub.attestKey, alarms2 := s.hub.alarms2, log := s.hub.log,
      rpos := s.hub.flashRpos, stagger := s.hub.flashStagger } }

/-- The boot from power-good on: the image check, and then phases 2 to 6, or with STAGGER = 1 a hold (R14, R15,
R42). (DESIGN CHOICE: log 108) -/
def boot (s : State) (env : BootEnv) : State :=
  let s := powerOn s
  let h := s.hub
  if env.stuck = some 1 then s.onHub fun h => { h with phase := 1 } else
  let r1 := imageRefusal h (h.image 0)
  let r2 := imageRefusal h (h.image 1)
  if r1 ≠ 0 ∧ r2 ≠ 0 then enterSafe s 1 (refusalCode r1 r2) 8 (r1 + 16 * r2) false
  else
    let slot := if r1 = 0 then 0 else 1
    let s := s.onHub fun h => { h with slot := slot, running := some (h.image slot), phase := 1 }
    if h.stagger then trainPorts (s.onHub fun h => { h with holding := true, holdSince := h.time }) env.portsUp
    else bootRest s env

/-- POWER_GOOD (R14). -/
def execPowerGood (env : BootEnv) (s : State) : Host.Outcome State Fault Refusal := .next (boot s env)

/-- A boot that is not READY 90 s after power-good, time held not counted; phases that an alarm repeats have as long
(R16); the report names no die and no unit. (DESIGN CHOICE: log 108, 137) -/
def execBootTimeExceeded (s : State) : Host.Outcome State Fault Refusal :=
  let h := s.hub
  if h.powered && !h.ready && !h.safe && !h.holding && seconds 90 + h.held < h.time - h.bootSince then
    .next (enterSafe s h.phase 0x50 0xF 0xFFF h.running.isSome)
  else .next s

/-- The delay that a RESTAGGER cell scheduled expires (R42). -/
def execRestaggerDelayExpiry (env : BootEnv) (s : State) : Host.Outcome State Fault Refusal :=
  match s.hub.pending with
  | some (at_, base, step) =>
    if s.hub.holding && at_ + base + s.hub.rpos * step ≤ s.hub.time then .next (bootRest s env) else .next s
  | none => .next s

/-- The hold ends after 600 s without a RESTAGGER cell (R42). -/
def execHoldTimeout (env : BootEnv) (s : State) : Host.Outcome State Fault Refusal :=
  if s.hub.holding && seconds 600 ≤ s.hub.time - s.hub.holdSince then .next (bootRest s env) else .next s

/-- Input power is lost (R13): the volatile state goes. (DEDUCED: log 115) -/
def execModulePowerLoss (s : State) : Host.Outcome State Fault Refusal :=
  .next ((powerOn s).onHub fun h => { h with powered := false })

/-- The host resets the module, which boots again as at power-good: the 90 s and hub time start anew, and all volatile
state goes (R16). (DESIGN CHOICE: log 138) -/
def execHostModuleReset (env : BootEnv) (s : State) : Host.Outcome State Fault Refusal :=
  if s.hub.powered then .next (boot s env) else .next s

/-! ### Power pacing -/

/-- A die's power in the next pacing window: its demand up to its ceiling, no further from the last than its share;
the rest is withheld or made up with filler (R9 to R12). (DESIGN CHOICE: log 116) -/
def pace (dn : Nat) (d : Die) (demand : Nat) : Die :=
  let share := Config.stepShare dn
  let power := max (d.power - share) (min (d.power + share) (min demand d.ceiling))
  { d with power := power, filler := power - demand, withheld := power < demand }

/-- Ceiling of the hub and the links together, and their step share (R9, R10). -/
def hubCeiling : Nat := 300
def hubShare : Nat := 2

/-- The power of the hub and the links in the next window, no further from the last than their share (R9, R10). (DESIGN
CHOICE: log 116) -/
def Hub.pace (h : Hub) (demand : Nat) : Hub :=
  { h with power := max (h.power - hubShare) (min (h.power + hubShare) (min demand hubCeiling)) }

/-- PACING_WINDOW of a compute die, or, under number 8, of the hub and the links. (DESIGN CHOICE: log 116) -/
def execPacingWindow (d demand : Nat) (s : State) : Host.Outcome State Fault Refusal :=
  if d = 8 then .next (if s.hub.powered then s.onHub fun h => h.pace demand else s)
  else onDieStep s d fun s => if (s.die d).ready then s.onDie d fun die => pace d die demand else s

/-! ### Alarms -/

/-- The class of alarm that a sensor's reading raises, 0 for none (R23). -/
def alarmClass : Reading → Nat
  | .voltage ppm ns => if 150000 < ppm.natAbs then 2 else if 50000 < ppm.natAbs ∧ 1000 < ns then 1 else 0
  | .clock lost ppm => if lost ∨ 100000 < ppm.natAbs then 2 else if 20000 < ppm.natAbs then 1 else 0
  | .temperature milli => if milli < -20000 ∨ 125000 < milli then 2 else if 105000 < milli then 1 else 0
  | .lid broken => if broken then 3 else 0

/-- The highest class among alarms that arrive together (R25). -/
def highestClass (rs : List Reading) : Nat := (rs.map alarmClass).foldl max 0

/-- The class 1 action: each alarm logged, and one management interrupt (R24, R25, R27). (DEDUCED: log 109) -/
def logAlarms (s : State) (rs : List Reading) : State :=
  let raised := rs.filter fun r => alarmClass r ≠ 0
  (s.onHub fun h => { h with log := h.log ++ raised.map fun r => .alarm (alarmClass r) r h.time }).raiseMsix 8 0

/-- Alarms that arrive together and merge into class `cls`: they are logged, and `act` is what that class does beside
(R24, R25). -/
def alarm (cls : Nat) (rs : List Reading) (s : State) (act : State → State) : Host.Outcome State Fault Refusal :=
  .next (if s.hub.powered && highestClass rs = cls then act (logAlarms s rs) else s)

/-- A class 1 alarm: a sensor's reading, and those that arrive with it (R24, R25). -/
def execSecurityAlarmClass1 (r : Reading) (rs : List Reading) (s : State) : Host.Outcome State Fault Refusal :=
  alarm 1 (r :: rs) s id

/-- The erasures and the reset of a class 2 alarm: every memory-encryption key and port key, and then the compute dies,
whose functions report the reset; during boot the boot ends with code 0x60, of no die and no unit, and else phases 2 to 6
are repeated (R24, R25). (DEDUCED: log 109; DESIGN CHOICE: log 137) -/
def eraseAndReset (s : State) (env : BootEnv) : State :=
  let booting := !s.hub.ready && !s.hub.safe
  let ports := s.hub.ports.map fun p => (p.1, { ExtPort.empty with status := p.2.status })
  let s := { s with dies := (List.range 8).map (resetDie s) }.onHub fun h => { h with ports := ports, ready := false }
  if s.hub.safe then s
  else if booting then enterSafe s s.hub.phase 0x60 0xF 0xFFF s.hub.running.isSome
  else bootRest ({ s with resetReports := List.range 8 }.onHub fun h => { h with bootSince := h.time, held := 0 }) env

/-- A class 2 alarm (R24). -/
def execSecurityAlarmClass2 (r : Reading) (rs : List Reading) (env : BootEnv) (s : State) :
    Host.Outcome State Fault Refusal :=
  alarm 2 (r :: rs) s fun s => eraseAndReset (s.onHub fun h => { h with alarms2 := h.alarms2 + 1 }) env

/-- A class 3 alarm: the class 2 actions, and the attestation key is erased (R24). -/
def execSecurityAlarmClass3 (r : Reading) (rs : List Reading) (env : BootEnv) (s : State) :
    Host.Outcome State Fault Refusal :=
  alarm 3 (r :: rs) s fun s => eraseAndReset (s.onHub fun h => { h with attestKey := false }) env

/-! ### The management function -/

/-- Bytes `a` to `a + n - 1` of MREQ as a number (R27, R28). -/
def Hub.req (h : Hub) (a n : Nat) : Nat := leNat (h.mreq.readAll (span a n))

/-- OP of the request in MREQ (R28). -/
def Hub.reqOp (h : Hub) : Nat := h.req 0 4

/-- The first byte after a request's parameters, and the bytes before it that its parameters do not name (R28).
(DEDUCED: log 111) -/
def requestShape (op : Nat) : Nat × List Nat :=
  match op with
  | 1 => (8, [])
  | 2 => (72, [5])
  | 3 => (8, [5])
  | 4 => (44, [6, 7])
  | 5 => (7, [])
  | 7 => (36, [])
  | 8 => (12, [5, 6, 7])
  | _ => (4, [])

/-- Whether a request's OP is unassigned or a reserved byte is nonzero (R28, R29). (DEDUCED: log 111) -/
def Hub.badReq (h : Hub) : Bool :=
  let (n, gaps) := requestShape h.reqOp
  h.reqOp = 0 || 9 < h.reqOp || (gaps ++ span n (256 - n)).any fun a => h.mreq.read a ≠ 0

/-- BSTAT (R18). (DEDUCED: log 110) -/
def Hub.bstat (h : Hub) : Nat :=
  h.safe.toNat * 2 ^ 31 + h.ready.toNat * 2 ^ 30 + h.slot * 2 ^ 29 + h.phase * 2 ^ 24 + h.code * 2 ^ 16 + h.die * 2 ^ 12 +
    h.unit

/-- PORTST: the status of port p in bits [4p + 3 : 4p] (R27). -/
def Hub.portst (h : Hub) : Nat :=
  ((List.range 8).map fun p => (FMap.get ExtPort.empty h.ports p).status * 16 ^ p).sum

/-- The 8-byte word at an offset of the management control window as a read gives it; MREQ reads as it was written, the
key of a request too (R18, R20, R27). (DESIGN CHOICE: log 134) -/
def Hub.window (h : Hub) (off : Nat) : Nat :=
  if 0x100 ≤ off ∧ off < 0x200 then leNat (h.mreq.readAll (span (off - 0x100) 8))
  else if 0x400 ≤ off ∧ off < 0x800 then leNat (h.mrsp.readAll (span (off - 0x400) 8))
  else match off with
    | 0x000 => h.bstat
    | 0x008 => h.go.toNat + h.mstat * 2 ^ 32
    | 0x010 => h.portst
    | 0x018 => h.limit + (h.rpos + h.stagger.toNat * 2 ^ 16 + h.holding.toNat * 2 ^ 17) * 2 ^ 32
    | _ => 0

/-- A request answered: MSTAT, MRSP, GO clear, and the interrupt (R27, R29). -/
def answerReq (s : State) (status : Nat) (rsp : List Byte) : State :=
  (s.onHub fun h =>
    { h with go := false, mstat := status, mrsp := Memory.writeAll [] ((span 0 rsp.length).zip rsp) }).raiseMsix 8 0

/-- A write of 1 to GO: the request is submitted; in the safe state it is answered with the boot status, and one
that has no row is refused with BADOP (R16, R27, R29). (DEDUCED: log 110) -/
def execGo (s : State) : Host.Outcome State Fault Refusal :=
  if !s.hub.powered || s.hub.go then .next s
  else if s.hub.safe then .next (answerReq s 0 (leBytes 4 s.hub.bstat))
  else if s.hub.badReq then .next (answerReq s 4 [])
  else .next (s.onHub fun h => { h with go := true })

/-- A submitted request of an OP carried out: its status, its response, and the state it leaves where the status is OK;
in the safe state it is answered with the boot status (R16, R28, R29). -/
def request (op : Nat) (s : State) (f : State → Nat × List Byte × State) : Host.Outcome State Fault Refusal :=
  if s.hub.go && s.hub.reqOp = op then
    if s.hub.safe then .next (answerReq s 0 (leBytes 4 s.hub.bstat))
    else
      let (st, rsp, t) := f s
      .next (if st = 0 then answerReq t 0 rsp else answerReq s st [])
  else .next s

/-- Whether a die is in service, for the requests that need one (R28, R43). -/
def inService (s : State) (d : Nat) : Bool := s.hub.ready && (s.die d).ready && (s.die d).service = .inService

/-- SETLIMIT (R9, R28). (DEDUCED: log 112) -/
def execSetlimit (s : State) : Host.Outcome State Fault Refusal :=
  request 1 s fun s =>
    let w := s.hub.req 4 4
    if w < 1500 ∨ 5800 < w then (1, [], s)
    else
      let s := s.onHub fun h => { h with limit := w }
      (0, [], (List.range 8).foldl (fun s d => s.onDie d fun die => { die with ceiling := s.hub.ceiling d }) s)

/-- LOADKEY and CLEARKEY: die and slot; a parameter out of range comes before a die that is not in service (R28). (DESIGN
CHOICE: log 111) -/
def keyRequest (op : Nat) (s : State) (f : State → FMap (BitVec 512) → Nat → FMap (BitVec 512)) :
    Host.Outcome State Fault Refusal :=
  request op s fun s =>
    let d := s.hub.req 4 1
    let slot := s.hub.req 6 2
    if 7 < d ∨ slot = 0 ∨ 4095 < slot then (1, [], s)
    else if !inService s d then (5, [], s)
    else (0, [], s.onDie d fun die => { die with keys := f s die.keys slot })

/-- LOADKEY (R20, R22, R28). -/
def execLoadkey (s : State) : Host.Outcome State Fault Refusal :=
  keyRequest 2 s fun s ks slot => ks.insert slot (BitVec.ofNat 512 (s.hub.req 8 64))

/-- CLEARKEY (R20, R28). -/
def execClearkey (s : State) : Host.Outcome State Fault Refusal :=
  keyRequest 3 s fun _ ks slot => ks.erase slot

/-- A send key loaded: new cells go under it from now on, and the old key is erased once the last cell under it is
acknowledged, which completes the rollover (R41). (DEDUCED: log 113) -/
def loadSendKey (s : State) (p slot : Nat) (key : PortKey) : State :=
  let x := s.port p
  let left := match s.link 8 (16 + p) with
    | some l => l.replay
    | none => []
  let old := (x.sendKeys.find? x.sendSlot).isSome && slot ≠ x.sendSlot
  let keys := x.sendKeys.insert slot key
  let done := old && left.isEmpty
  let keys := if done then keys.erase x.sendSlot else keys
  let s := s.setPort p { x with
    sendKeys := keys, sendSlot := slot, sendWraps := 0, status := if done && x.status = 2 then 1 else x.status
    oldLast := if old then left.getLast?.map (·.seq) else x.oldLast }
  pump 8 (16 + p) 256 s

/-- A receive key loaded (R41). -/
def loadRecvKey (s : State) (p slot : Nat) (key : PortKey) : State :=
  let x := s.port p
  s.setPort p { x with
    recvKeys := x.recvKeys.insert slot key
    recvSlot := if x.recvKeys.isEmpty then slot else x.recvSlot
    recvWraps := x.recvWraps.erase slot }

/-- PORTKEY; a parameter out of range comes before a slot that is occupied (R28, R41). (DESIGN CHOICE: log 111; DEDUCED:
log 113) -/
def execPortkey (s : State) : Host.Outcome State Fault Refusal :=
  request 4 s fun s =>
    let b := s.hub.req 4 1
    let slot := s.hub.req 5 1
    let p := bits 2 0 b
    let key : PortKey := (BitVec.ofNat 256 (s.hub.req 8 32), BitVec.ofNat 32 (s.hub.req 40 4))
    let held := if bit 3 b then (s.port p).recvKeys else (s.port p).sendKeys
    if 15 < b ∨ 1 < slot then (1, [], s)
    else if (held.find? slot).isSome then (2, [], s)
    else (0, [], if bit 3 b then loadRecvKey s p slot key else loadSendKey s p slot key)

/-- SETPOS: kept in flash for the next boot (R28, R42). -/
def execSetpos (s : State) : Host.Outcome State Fault Refusal :=
  request 5 s fun s =>
    let r := s.hub.req 4 2
    let b := s.hub.req 6 1
    if 4095 < r ∨ 1 < b then (1, [], s)
    else (0, [], s.onHub fun h => { h with flashRpos := r, flashStagger := b = 1 })

/-- RELEASE: a hold ends at once; without one it is OK and does nothing (R28, R42). (DESIGN CHOICE: log 111) -/
def execRelease (env : BootEnv) (s : State) : Host.Outcome State Fault Refusal :=
  request 6 s fun s => (0, [], if s.hub.holding then bootRest s env else s)

/-- The signed body of the report: bytes 4 to 103 (R30). -/
def reportBody (h : Hub) : List Byte :=
  let i := h.running.getD Image.empty
  leBytes 16 h.serial.toNat ++ leBytes 4 h.bstat ++ leBytes 4 h.slot ++ leBytes 32 i.digest.toNat ++
    leBytes 4 i.version ++ leBytes 4 h.floor ++ leBytes 4 h.alarms2 ++ h.mreq.readAll (span 4 32)

/-- ATTEST (R26, R30). -/
def execAttest (s : State) : Host.Outcome State Fault Refusal :=
  request 7 s fun s =>
    if !s.hub.attestKey then (3, [], s)
    else
      let body := reportBody s.hub
      (0, leBytes 4 100 ++ body ++ (leBytes 384 (Config.attestSign body).toNat).reverse, s)

/-- HANDLES; a die out of range comes before one that is not in service (R28, R76). (DESIGN CHOICE: log 111) -/
def execHandles (s : State) : Host.Outcome State Fault Refusal :=
  request 8 s fun s =>
    let d := s.hub.req 4 1
    let i := s.hub.req 8 4
    if 7 < d then (1, [], s)
    else if !inService s d then (5, [], s)
    else
      let all := (s.die d).handles
      let part := (all.drop i).take 63
      (0, leBytes 4 part.length ++ leBytes 4 all.length ++ List.replicate 8 0 ++
        part.flatMap fun e => leBytes 8 e.1 ++ leBytes 8 e.2, s)

/-- CERT (R26, R28). -/
def execCert (s : State) : Host.Outcome State Fault Refusal :=
  request 9 s fun s =>
    let c := s.hub.certificate.take 1020
    (0, leBytes 4 c.length ++ c, s)

/-! ### Taking a die offline -/

/-- The saved groups of a die that goes offline: their nodes are FAILED with class 16, and their launches complete with
status FAILED (R111, R193). -/
def failSaved (s : State) (dn : Nat) : State :=
  let saved := (s.die dn).groups.filter fun e => e.2.state = .saved
  let s := saved.foldl (fun s e => failNode (removeGroup s dn e.1) dn e.2.launch e.2.node 16 0) s
  let s := saved.foldl (fun s e => afterEnd s dn e.2.launch e.2.node) s
  saved.foldl (fun s e => match (s.die dn).launches.find? e.2.launch with
    | some l => s.onDie dn fun d =>
      { d with launches := d.launches.erase e.2.launch
               hostCmds := d.hostCmds.modify e.2.launch fun c => { c with phase := .finished 2 l.failed } }
    | none => s) s

/-- The places of a table of `n` entries at `base` that memory lists a byte of: every other entry is 0. -/
def listedEntries (d : Die) (base n : Nat) : List Nat :=
  distinct ((d.mem.filter fun e => base ≤ e.1 && e.1 < base + 8 * n).map fun e => (e.1 - base) / 8)

/-- The 64 KiB pages that the tables of a die map from a table of level `l` at `base` on, whose part of the address space
begins at `va`: their first addresses. -/
def tablePages (d : Die) : (fuel l base va : Nat) → List Nat
  | 0, _, _, _ => []
  | fuel + 1, l, base, va =>
    let size := match l with
      | 1 => 2 ^ 39
      | 2 => 2 ^ 30
      | 3 => 2 ^ 21
      | _ => 2 ^ 16
    let n := match l with
      | 1 => 2 ^ 17
      | 4 => 32
      | _ => 512
    (listedEntries d base n).flatMap fun i =>
      let v := physWord d (base + 8 * i)
      if !bit 0 v then []
      else if l = 4 || bit 2 v then (List.range (size / 65536)).map fun j => va + size * i + 65536 * j
      else tablePages d fuel (l + 1) (bits 47 4 v * 256) (va + size * i)

/-- The pages that a die maps and its memory holds. -/
def mappedPages (d : Die) : List Nat :=
  (tablePages d 4 1 d.ptroot 0).filter fun va => match walk d va with
    | .ok _ => true
    | .error _ => false

/-- Filled export slots of a die. -/
def filledSlots (d : Die) : Nat := (d.exports_.filter fun e => e.2.filled).length

/-- Pages and export slots of a die that drains, which move to one die (R43, R76). -/
structure DrainUnit where
  pages : List Nat
  slots : List Nat
  deriving DecidableEq, Repr

/-- All of a die. -/
def drainWhole (d : Die) : DrainUnit := ⟨mappedPages d, (d.exports_.filter fun e => e.2.filled).map (·.1)⟩

/-- The least parts of a die that can move apart: a page by itself, and all pages that exports tie to one another with
those exports (R39, R76). (DESIGN CHOICE: log 114) -/
def drainUnits (d : Die) : List DrainUnit :=
  d.exports_.foldl (fun us e =>
    if !e.2.filled then us
    else
      let tied := fun (u : DrainUnit) => u.pages.any fun va => e.2.base < va + 65536 && va < e.2.base + e.2.len
      ⟨(us.filter tied).flatMap (·.pages), e.1 :: (us.filter tied).flatMap (·.slots)⟩ :: us.filter fun u => !tied u)
    ((mappedPages d).map fun va => ⟨[va], []⟩)

/-- Whether a die has room for pages and exports of a die that drains: a place in its tables for each page, a ready
frame, and a free slot. (DESIGN CHOICE: log 114) -/
def dieFits (s : State) (dn : Nat) (u : DrainUnit) (t : Nat) : Bool :=
  t ≠ dn && inService s t && u.pages.length ≤ (s.die t).ftready &&
  u.slots.length + filledSlots (s.die t) ≤ 4096 &&
  u.pages.all fun va => match pageState (s.die t) va 4 1 (s.die t).ptroot with
    | .free _ => true
    | _ => false

/-- One page of a die that drains moved whole to another die; poisoned lines stay poisoned (R21, R43, R74, R75). -/
def movePage (dn t : Nat) (s : State) (va : Nat) : State :=
  let die := s.die dn
  match walk die va, pageState (s.die t) va 4 1 (s.die t).ptroot with
  | .ok (v, big), .free a =>
    let l := leafOf v big
    let bs := (span (l.phys va) 65536).map (readUnder die (keyOf die l.key))
    let s := (s.onDie dn fun d => unmapPage d va big).moveFrame dn (l.phys va) (some (t, (takeFrame (s.die t)).1))
    s.onDie t fun d =>
      let (frame, d) := takeFrame d
      let d := physWrite (dropPage d va) a (leBytes 8 (leafWord l.kind l.key false l.writable frame))
      let d := match migrationOf die va with
        | some m => { d with migrations := d.migrations.insert (va / 65536) { m with newFrame := frame } }
        | none => d
      writeUnder d (keyOf d l.key) ((span frame 65536).zip bs)
  | _, _ => s

/-- The lowest export slot of a die that is not filled (R39). -/
def freeSlot (d : Die) : Nat :=
  ((List.range 4096).find? fun n => !(FMap.get Export.empty d.exports_ n).filled).getD 0

/-- An export of a die that drains made anew on another die, with the old and the new handle kept for HANDLES (R43,
R76). -/
def moveExport (dn t : Nat) (s : State) (slot : Nat) (e : Export) : State :=
  s.onDie t fun d =>
    let n := freeSlot d
    let gen := (FMap.get Export.empty d.exports_ n).gen
    { d with exports_ := d.exports_.insert n { e with gen := gen }
             handles := d.handles ++ [(mkHandle dn slot e.gen, mkHandle t n gen)] }

/-- The links of a die switched off: the accesses that it has accepted complete, and what has not reached it faults
(R43). -/
def linksOff (s : State) (dn : Nat) : State :=
  let s := takeAnswers s dn
  failWays { s with links := s.links.map fun l =>
      if l.1 / 32 = dn || l.1 % 32 = dn then (l.1, { l.2 with off := true }) else l }

/-- Pages and exports of a die moved to another (R43, R76). -/
def moveUnit (dn t : Nat) (s : State) (u : DrainUnit) : State :=
  let s := u.pages.foldl (movePage dn t) s
  u.slots.foldl (fun s n => match (s.die dn).exports_.find? n with
    | some e => moveExport dn t s n e
    | none => s) s

/-- Whether the other dies in service have ready frames and free slots for all of some parts, together. -/
def roomForAll (s : State) (dn : Nat) (us : List DrainUnit) : Bool :=
  let ts := (List.range 8).filter fun t => t ≠ dn && inService s t
  (us.map (·.pages.length)).sum ≤ (ts.map fun t => (s.die t).ftready).sum &&
  (us.map (·.slots.length)).sum ≤ (ts.map fun t => 4096 - filledSlots (s.die t)).sum

/-- Parts of a die moved one after another, each to the lowest-numbered die that has room for it and leaves the parts
after it room; none where no assignment does. (DESIGN CHOICE: log 114) -/
def moveUnits (dn : Nat) : List DrainUnit → State → Option State
  | [], s => some s
  | u :: us, s =>
    if roomForAll s dn (u :: us) then
      (List.range 8).findSome? fun t => if dieFits s dn u t then moveUnits dn us (moveUnit dn t s u) else none
    else none

/-- The state once all pages and exports of a die have moved, to one die where one has room for all of them, and else to
several, if the other dies have room (R43). (DESIGN CHOICE: log 114) -/
def drain (s : State) (dn : Nat) : Option State :=
  moveUnits dn [drainWhole (s.die dn)] s <|> moveUnits dn (drainUnits (s.die dn)) s

/-- A die whose pages and exports have moved: its memory and its links are off (R43, R76). -/
def evacuate (s : State) (dn : Nat) : State :=
  let gone := fun (d : Die) =>
    { d with service := .evacuated, mem := [], lineKeys := [], tlb := [], exports_ := [], gone := [], migrations := [] }
  linksOff (s.onDie dn gone) dn

/-- A die whose pages stay: reachable, or poisoned and with its links off (R43). -/
def keepPages (s : State) (dn : Nat) (linksUp : Bool) : State :=
  if linksUp then s.onDie dn fun d => { d with service := .retained }
  else linksOff (s.onDie dn fun d => { d with service := .poisoned }) dn

/-- DIE_OFFLINE_TRANSITION: after a QUIESCE with OFFLINE that has completed under R50 the die leaves service and
drains, once the pages that were migrating in or out have closed; then its pages are gone, or stay reachable, or are
poisoned (R43, R193). (DESIGN CHOICE: log 114) -/
def execDieOfflineTransition (d : Nat) (room linksUp : Bool) (s : State) : Host.Outcome State Fault Refusal :=
  onDieStep s d fun s =>
    let q := match (s.die d).quiesce with
      | some q => q.offline && q.complete && !(q.cmds.any fun n => ((s.die d).hostCmds.find? n).isSome)
      | none => false
    match (s.die d).service with
    | .inService =>
      if q then failSaved (s.onDie d fun die => { die with offline := true, service := .draining }) d else s
    | .draining =>
      if !(openMigrations (s.die d)).isEmpty || (List.range 8).any fun t => (openMigrations (s.die t)).any fun m => m.2.src = d
      then s
      else match drain s d with
        | some t => if room then evacuate t d else keepPages s d linksUp
        | none => keepPages s d linksUp
    | .retained => if linksUp then s else keepPages s d false
    | _ => s

end Sys2Proof.Machine
end

