-- ==== Sys2Proof/Machine/Ports.lean ====
section
/-!
DEFINITION. The port and index-window instructions, opcodes 0x108 to 0x10B (R136, R263 to R265).
-/
namespace Sys2Proof.Machine

/-- The port that an instruction names. -/
def namedPort : Src → Option Port
  | .reg (.port p) _ => some p
  | _ => none

/-- The group core next to group core `j` in the direction of a core port, inside the footprint (R113, R136). -/
def neighbour (g : Group) (j : Nat) (p : Port) : Option Nat :=
  let x := j % g.fpw
  let y := j / g.fpw
  if g.fpw = 0 then none
  else match p with
    | .kn => if 1 ≤ y then some (j - g.fpw) else none
    | .ks => if y + 1 < g.fph then some (j + g.fpw) else none
    | .ke => if x + 1 < g.fpw then some (j + 1) else none
    | .kw => if 1 ≤ x then some (j - 1) else none
    | _ => none

/-- Whether gang `n` may be bound to a core port of the issuing gang (R136, R263). -/
def bindable (c : Cx) (p : Port) (n : Nat) : Bool :=
  n < gangCount c.grp.block && neighbour c.grp c.k.core p = some ((c.gangOf n).core)

/-- Whether a core of die `dn` faces the die of import `i`'s handle; an import without a valid handle, bound by a core
that faces a die, is left to the first push (R139, R264). (DEDUCED: log 64) -/
def kdFaces (c : Cx) (i : Nat) : Bool × State :=
  match importHandle c.s c.dn i with
  | (.ok h, s) => (handleMod h = 0xFFFF && faces c.dn c.coreOf (handleDie h), s)
  | (.error _, s) => (edgeCore c.dn c.coreOf, s)

/-- Whether every free count of the `kd` binding stands at 4 (R264). -/
def kdIdle (k : Gang) : Bool := k.kdFree.isEmpty

/-- The sub-gang traps for port misuse; VALUE is the operand tested (R181). -/
def Cx.portMisuse (c : Cx) (v : Nat) : Cx :=
  { c with out := c.qs.map fun q => (q, .trap clsRegister 5 (BitVec.ofNat 32 v)) }

/-- `pbind`: a core port is bound, or unbound by all-ones; `kd` waits until the old binding's counts are back at 4
(R263, R264). -/
def execPbind (o : OpsR) (s : State) : Host.Outcome State Fault Refusal :=
  issueWith 0x108 (.r o) o.h s fun c =>
    if c.em = 0 then some c
    else match namedPort o.a with
      | some .kd =>
        let v := (at64 (c.src .n64 true o.b) 0).toNat
        if 1024 ≤ v then some (c.portMisuse v)
        else
          let (ok, s) := kdFaces c v
          let c := { c with s := s }
          if !ok then some (c.portMisuse v)
          else if !kdIdle c.k then none
          else some { c with k := { c.k with kdImport := some v, kdDesc := none, kdFree := [] } }
      | some p =>
        let v := (at32 (c.src .i32 false o.b) 0).toNat
        let i := p.number - 2
        if v = 4294967295 then some { c with k := { c.k with binds := c.k.binds.erase i } }
        else if bindable c p v then some { c with k := { c.k with binds := c.k.binds.insert i v } }
        else some (c.portMisuse v)
      | none => some c

/-- `pcnt`: entries in the lane's own queue, or free entries where a push would go (R265). -/
def execPcnt (o : OpsR) (s : State) : Host.Outcome State Fault Refusal :=
  issueWith 0x109 (.r o) o.h s fun c =>
    (c.prepare 0x109 (.r o) (destPort o.d)).map fun c =>
      c.finishLanes false o.d fun l =>
        match namedPort o.a with
        | some p => plain (BitVec.ofNat 64
            (if o.m.variant = 0 then (c.k.port p.own l).length else freeEntries c p l))
        | none => plain 0

/-- Every entry of queue `j` of lane `l` discarded (R265). -/
def Cx.drainQueue (c : Cx) (j l : Nat) : Cx :=
  (c.k.port j l).foldl (fun c _ => c.takeEntry j l) c

/-- `pflush` (R265). -/
def execPflush (o : OpsR) (s : State) : Host.Outcome State Fault Refusal :=
  issueWith 0x10A (.r o) o.h s fun c =>
    let js : List Nat := if o.m.variant = 1 then [0, 1, 2, 3, 4, 5, 6]
      else match namedPort o.a with
        | some p => [p.own]
        | none => []
    some (js.foldl (fun c j => (lanesOf c.solid).foldl (fun c l => c.drainQueue j l) c) c)

/-- VALUE of a refused window: the immediate, or else the base (R181). -/
def windowValue (b : Src) (base : Nat) : Word :=
  match b with
  | .imm v => v
  | _ => BitVec.ofNat 32 base

/-- `xwin`: base and count of an index window; beyond `.regs` the window keeps its value (R265). (DEDUCED: log 51)
-/
def execXwin (o : OpsR) (s : State) : Host.Outcome State Fault Refusal :=
  issueWith 0x10B (.r o) o.h s fun c =>
    if c.em = 0 then some c
    else
      let (base, count) : Nat × Nat := match o.b with
        | .imm v => (v.toNat / 65536, v.toNat % 65536)
        | b => ((at32 (c.src .i32 false b) 0).toNat, (at32 (c.src .i32 false o.c) 0).toNat)
      match o.a with
      | .reg (.x k) _ =>
        if 32 * c.grp.regs < base + count then
          some { c with out := c.qs.map fun q => (q, .trap clsRegister 2 (windowValue o.b base)) }
        else some { c with k := { c.k with xwin := FMap.set (0, 0) c.k.xwin k (base, count) } }
      | _ => some c

end Sys2Proof.Machine
end

