-- ==== Sys2Proof/Machine/Scalar.lean ====
section
/-!
DEFINITION. The scalar instructions, opcodes 0x060 to 0x06B (R236, R237): once for the sub-gang, when the guard is
true in at least one active lane.
-/
namespace Sys2Proof.Machine

/-- A scalar instruction: the result enters t0 of every lane of the sub-gang's quads, and a flag is raised in every
quad of the sub-gang (R236, R237). -/
def scalarOp (op : Nat) (o : OpsR) (wd wa : Bool) (f : Cx → DWord → DWord → DWord → Flagged) (s : State) :
    Host.Outcome State Fault Refusal :=
  issueWith op (.r o) o.h s fun c =>
    if c.em = 0 then some c
    else
      let r := f c (at64 (c.src o.m.ty wa o.a) 0) (at64 (c.src o.m.ty wa o.b) 0) (at64 (c.src o.m.ty false o.c) 0)
      some ((c.resultTy wd o.d c.em fun _ => r.1).raiseAll r.2)

/-- A scalar instruction of a typed integer operation (R229). -/
def scalarInt (op : Nat) (o : OpsR) (f : Int → Int → Int) : State → Host.Outcome State Fault Refusal :=
  scalarOp op o o.m.ty.wide o.m.ty.wide fun _ a b _ =>
    finishInt o.m.ty (o.m.flags % 2 = 1) (f (o.m.ty.int a) (o.m.ty.int b))

/-- A scalar instruction on bit patterns. -/
def scalarBits (op : Nat) (o : OpsR) (f : DWord → DWord → DWord) : State → Host.Outcome State Fault Refusal :=
  scalarOp op o o.m.ty.wide o.m.ty.wide fun _ a b _ => plain (f a b)

/-- `sadd`. -/
def execSadd (o : OpsR) : State → Host.Outcome State Fault Refusal := scalarInt 0x060 o fun a b => a + b
/-- `ssub`. -/
def execSsub (o : OpsR) : State → Host.Outcome State Fault Refusal := scalarInt 0x061 o fun a b => a - b
/-- `smul`. -/
def execSmul (o : OpsR) : State → Host.Outcome State Fault Refusal := scalarInt 0x062 o fun a b => a * b
/-- `sand`. -/
def execSand (o : OpsR) : State → Host.Outcome State Fault Refusal := scalarBits 0x063 o fun a b => a &&& b
/-- `sor`. -/
def execSor (o : OpsR) : State → Host.Outcome State Fault Refusal := scalarBits 0x064 o fun a b => a ||| b
/-- `sxor`. -/
def execSxor (o : OpsR) : State → Host.Outcome State Fault Refusal := scalarBits 0x065 o fun a b => a ^^^ b
/-- `sshl`. -/
def execSshl (o : OpsR) : State → Host.Outcome State Fault Refusal :=
  scalarBits 0x066 o fun a b => shiftLeft o.m.ty a (b.toNat % 2 ^ 32)
/-- `sshr`. -/
def execSshr (o : OpsR) : State → Host.Outcome State Fault Refusal :=
  scalarBits 0x067 o fun a b => shiftRight o.m.ty a (b.toNat % 2 ^ 32)
/-- `scmp`: into an s register, or into a predicate in every active lane. -/
def execScmp (o : OpsR) : State → Host.Outcome State Fault Refusal :=
  scalarOp 0x068 o false o.m.ty.wide fun _ a b _ =>
    plain (boolVal (compareInt o.m.variant (o.m.ty.int a) (o.m.ty.int b)))
/-- `smov`. -/
def execSmov (o : OpsR) : State → Host.Outcome State Fault Refusal := scalarBits 0x069 o fun a _ => a
/-- `smovi`: `.lo` and `.hi` read the destination. -/
def execSmovi (o : OpsR) : State → Host.Outcome State Fault Refusal :=
  scalarOp 0x06A o false false fun c a _ _ =>
    plain ((moveHalf o.m.variant (if o.m.variant = 0 then 0 else c.reg o.d 0) (a.setWidth 32)).setWidth 64)
/-- `ssel`. -/
def execSsel (o : OpsR) : State → Host.Outcome State Fault Refusal :=
  scalarOp 0x06B o o.m.ty.wide o.m.ty.wide fun _ a b c => plain (if c.setWidth 32 ≠ (0 : Word) then a else b)

end Sys2Proof.Machine
end

