-- ==== Sys2Proof/Machine/System.lean ====
section
/-!
DEFINITION. The system and trap instructions, opcodes 0x1C0 to 0x1CC (R307 to R328).
-/
namespace Sys2Proof.Machine

/-- A system instruction: a sub-gang without an executing lane skips it. -/
def sysOp (op : Nat) (o : OpsS) (s : State) (body : Cx → Option Cx) : Host.Outcome State Fault Refusal :=
  issueWith op (.s o) o.h s fun c => if c.em = 0 then some c else body c

/-- The 64-bit value of an A-operand register in a lane. -/
def Cx.aLane64 (c : Cx) (a : AOpd) (l : Nat) : Nat :=
  match a with
  | .reg r => (c.reg64 r l).toNat
  | .imm v => v

/-- The 32-bit value of an A-operand in a lane. -/
def Cx.aLane (c : Cx) (a : AOpd) (l : Nat) : Nat :=
  match a with
  | .reg r => (c.reg r l).toNat
  | .imm v => v

/-- The quads in which the guard is true in some active lane. -/
def Cx.trueQuads (c : Cx) : List Nat := c.qs.filter fun q => quadBits c.em q ≠ 0

/-! ### Traps -/

/-- `trap` (R313). (DEDUCED: log 31) -/
def execTrap (o : OpsS) (s : State) : Host.Outcome State Fault Refusal :=
  sysOp 0x1C0 o s fun c =>
    some { c with out := c.trueQuads.map fun q => (q, .trap 15 (o.imm.toNat % 256) o.imm) }

/-- `brkpt` (R313). -/
def execBrkpt (o : OpsS) (s : State) : Host.Outcome State Fault Refusal :=
  sysOp 0x1CC o s fun c => some { c with out := c.trueQuads.map fun q => (q, .trap 14 0 0) }

/-- `halt`: the group faults beyond recovery with the class of the vector, or 15 in a pre-emption (R190, R317).
(DEDUCED: log 88) -/
def execHalt (o : OpsS) (s : State) : Host.Outcome State Fault Refusal :=
  sysOp 0x1CB o s fun c =>
    some (c.trueQuads.foldl (fun (c : Cx) q =>
      { c with k := c.k.loseTo (if c.grp.pre then 15 else (c.k.quad q).eclass), out := c.out ++ [(q, .hold)] }) c)

/-! ### Special registers -/

/-- DEPTHS (R310). (DEDUCED: log 30) -/
def Quad.depths (u : Quad) : Nat := u.stack.length + u.calls.length * 2 ^ 8 + u.repMask * 2 ^ 16

/-- The value of a special register in a lane (R310). -/
def Cx.srValue (c : Cx) (sr l : Nat) : DWord :=
  let u := c.k.quad (l / 4)
  let d := c.s.die c.dn
  let w : Word → DWord := fun x => x.setWidth 64
  match sr with
  | 0x000 => BitVec.ofNat 64 ((inMask c.helpers l).toNat + 2 * (u.held.getLsbD (l % 4)).toNat)
  | 0x001 => d.cyc
  | 0x002 => u.vflags.setWidth 64
  | 0x003 => w u.fmt
  | 0x004 | 0x005 | 0x006 => w (u.lc.getD (sr - 4) 0)
  | 0x007 => BitVec.ofNat 64 u.sgt
  | 0x008 => u.lmask.setWidth 64
  | 0x009 => BitVec.ofNat 64 u.depths
  | 0x00A => BitVec.ofNat 64 c.dn
  | 0x00B => BitVec.ofNat 64 (c.k.core + c.grp.cores.length * 2 ^ 16)
  | 0x010 => BitVec.ofNat 64 u.epc
  | 0x011 => BitVec.ofNat 64 (u.emask.toNat + 16 * u.eflt.toNat)
  | 0x012 => BitVec.ofNat 64 u.edepth
  | 0x013 => BitVec.ofNat 64 u.eclass
  | 0x014 => BitVec.ofNat 64 (u.park.toNat + 16 * u.released.toNat)
  | 0x015 => BitVec.ofNat 64 (c.grp.pre.toNat + 2 * c.grp.restore.toNat + c.grp.pslot * 2 ^ 16)
  | 0x016 => BitVec.ofNat 64 u.ppc
  | 0x017 => BitVec.ofNat 64 (u.pLmask.toNat + 16 * u.pPark.toNat + 256 * u.pSup.toNat)
  | 0x106 => BitVec.ofNat 64 (ctlRead d 0x3000)
  | n => BitVec.ofNat 64 (ctlRead d (0x2000 + 8 * (n - 0x100)))

/-- The causes of `sysrd` and `syswr` that their register number gives: reserved, not allowed with `.clr`, not
writable, or not readable in user state (R311, R312). (DEDUCED: log 82) -/
def srCause (sr : Nat) (clr write sup : Bool) : Option Cause :=
  match srInfo sr with
  | none => some (clsIllegal, 4)
  | some (_, _, user, wr) =>
    if clr && sr ≠ 0x002 then some (clsIllegal, 4)
    else if write && !wr then some (clsIllegal, 4)
    else if !write && !sup && !user then some (clsIllegal, 5)
    else none

/-- Whether a special register has 64 bits. -/
def srWide (sr : Nat) : Bool :=
  match srInfo sr with
  | some (_, w, _, _) => w
  | none => false

/-- `sysrd` (R311). (DEDUCED: log 82) -/
def execSysrd (o : OpsS) (s : State) : Host.Outcome State Fault Refusal :=
  let sr := o.a.number
  issueChecked 0x1C2 (.s o) o.h s (fun c =>
      (c.regCause 0x1C2 (.s o)).map (·, 0) <|>
      (srCause sr (o.m.variant = 1) false c.sup).map (·, BitVec.ofNat 32 sr)) fun c =>
    let c' := c.resultTy (srWide sr) o.d c.em (c.srValue sr)
    some (if o.m.variant = 1 then
      { c' with k := c.trueQuads.foldl (fun (k : Gang) q => k.onQuad q fun u => { u with vflags := 0 }) c'.k }
    else c')

/-- A quad register written with a value (R310, R312). (DEDUCED: log 81) -/
def Quad.setSr (sr v : Nat) (u : Quad) : Quad :=
  match sr with
  | 0x002 => { u with vflags := BitVec.ofNat 6 v }
  | 0x004 | 0x005 | 0x006 => { u with lc := u.lc.set (sr - 4) (BitVec.ofNat 32 v) }
  | 0x010 => { u with epc := v }
  | 0x011 => { u with emask := BitVec.ofNat 4 v }
  | 0x012 => { u with edepth := v % 64 }
  | 0x016 => { u with ppc := v }
  | _ => u

/-- `syswr`: a quad register takes the value of the quad's lowest active lane, a die register that of the sub-gang's
(R312). (DEDUCED: log 81) -/
def execSyswr (o : OpsS) (s : State) : Host.Outcome State Fault Refusal :=
  let sr := o.a.number
  let val := fun (c : Cx) l => if srWide sr then (c.reg64 o.b l).toNat else (c.reg o.b l).toNat
  issueChecked 0x1C3 (.s o) o.h s (fun c =>
      (c.regCause 0x1C3 (.s o)).map (·, 0) <|> (srCause sr false true c.sup).map (·, BitVec.ofNat 32 sr)) fun c =>
    match lowest c.em with
    | none => some c
    | some l0 =>
      if 0x100 ≤ sr then
        let off := if sr = 0x106 then 0x3000 else 0x2000 + 8 * (sr - 0x100)
        some { c with s := c.s.onDie c.dn fun d => ctlWrite d off (val c l0) }
      else
        some (c.trueQuads.foldl (fun (c : Cx) q =>
          match lowest (c.em &&& spread 0xF q) with
          | none => c
          | some l =>
            let v := val c l
            if sr = 0x012 && 32 < v % 64 then { c with out := c.out ++ [(q, .trap clsIllegal 4 (BitVec.ofNat 32 v))] }
            else { c with k := c.k.onQuad q (Quad.setSr sr v) }) c)

/-! ### Faulted lanes -/

/-- The 8 bytes of a fault record that `fltrd` reads (R181, R314). -/
def recordPart (r : FaultRec) (part : Nat) : Nat := leNat ((r.bytes.drop (8 * part)).take 8)

/-- `fltrd` (R314). -/
def execFltrd (o : OpsS) (s : State) : Host.Outcome State Fault Refusal :=
  sysOp 0x1C4 o s fun c =>
    some (c.result64 o.d c.em fun l =>
      BitVec.ofNat 64 (recordPart (FMap.get FaultRec.none c.k.records (c.aLane o.a l % 32)) o.m.variant))

/-- `unpark` (R315). -/
def execUnpark (o : OpsS) (s : State) : Host.Outcome State Fault Refusal :=
  sysOp 0x1C5 o s fun c =>
    if c.grp.pre then some c
    else some { c with k := c.trueQuads.foldl (fun (k : Gang) q =>
      k.onQuad q fun u => { u with released := u.released ||| (u.park &&& quadBits c.em q) }) c.k }

/-! ### Return -/

/-- The held elements of quad `q` issued again; those of ended lanes cease, the waiting ones too; while the quad waits
for first-touch frames they stay held (R188, R189, R316). (DEDUCED: log 84) -/
def reissueQuad (d : Die) (gid gi q : Nat) (u : Quad) : Die :=
  let back : Elem → Elem := fun e =>
    if e.lane / 4 ≠ q then e
    else if u.ended.getLsbD (e.lane % 4) && (match e.state with
        | .held _ _ | .waiting => true
        | _ => false) then { e with state := .faulted FaultRec.none }
    else match e.state with
      | .held a _ =>
        if u.poolWait then { e with state := .held a false }
        else { e with state := .waiting }
      | _ => e
  { d with cmds := d.cmds.map fun c =>
      if c.2.gid = gid && c.2.gang = gi then (c.1, { c.2 with elems := c.2.elems.map fun e => (e.1, back e.2) })
      else c }

/-- `rfe` with PRE = 0 in quad `q` (R188, R316). (DEDUCED: log 119) -/
def Cx.rfeQuad (c : Cx) (q : Nat) : Cx :=
  let u := c.k.quad q
  if u.stack.length ≠ u.edepth then c.quadDo q (.trap clsIllegal 6 0) id
  else
    let k := returnQuad c.k q
    let pool : Quad → Quad := fun v => { v with poolWait := u.poolWait }
    let k := k.onQuad q pool
    { c with k := k, s := c.s.onDie c.dn fun d => reissueQuad d c.gid c.gi q (k.quad q), out := c.out ++ [(q, .hold)] }

/-- `rfe` with PRE = 1 in quad `q`: it stops, and after a restoring vector takes up the context it was interrupted in;
the group resumes when every quad has done so (R326). -/
def Cx.rfePre (c : Cx) (q : Nat) : Cx :=
  if !c.grp.restore then c.quadDo q .hold fun u => { u with stopped := true }
  else if !c.k.loaded then c.quadDo q (.trap clsIllegal 4 0) id
  else c.quadDo q .hold fun u =>
    let v := u.jumpTo u.ppc
    { v with lmask := u.pLmask, park := u.pPark, sup := u.pSup, held := 0, stopped := true }

/-- `rfe` (R188, R316, R326). -/
def execRfe (o : OpsS) (s : State) : Host.Outcome State Fault Refusal :=
  match s.cur with
  | none => .next s
  | some sg => match openCx s sg 0x1C1 o.h with
    | none => .next s
    | some c =>
      if c.grp.pre && c.sup && !c.blocked then
        match issueWith 0x1C1 (.s o) o.h s fun c => some (c.qs.foldl Cx.rfePre c) with
        | .next t => .next (finishRestore t sg.die sg.gid)
        | x => x
      else issueWith 0x1C1 (.s o) o.h s fun c =>
        let c := c.qs.foldl Cx.rfeQuad c
        some { c with k := c.k.wake }

/-! ### Pages and translations -/

/-- `pmap`: lane by lane; a quad whose fetch or elements find the pool empty waits for frames when it returns (R189,
R318). (DEDUCED: log 83) -/
def execPmap (o : OpsS) (s : State) : Host.Outcome State Fault Refusal :=
  sysOp 0x1C6 o s fun c =>
    let (c', codes) := (lanesOf c.em).foldl (fun (x : Cx × FMap Nat) l =>
      let (code, s) := pmapLane x.1.s c.dn (c.aLane64 o.a l) (c.reg o.b l).toNat
      let wait : Quad → Quad := fun u =>
        if u.eclass = 6 && code = 2 then { u with poolWait := true }
        else if code = 0 then { u with poolWait := false } else u
      ({ x.1 with s := s, k := x.1.k.onQuad (l / 4) wait }, x.2.insert l code)) (c, [])
    some (c'.result o.d c.em fun l => BitVec.ofNat 32 (FMap.get 0 codes l))

/-- `tlbinv`: the entries it covers are dropped before it completes (R319). (DEDUCED: log 80) -/
def execTlbinv (o : OpsS) (s : State) : Host.Outcome State Fault Refusal :=
  sysOp 0x1C7 o s fun c =>
    match lowest c.em with
    | none => some c
    | some l =>
      let what := if o.m.variant = 1 then none else some (bits 55 16 (c.aLane64 o.a l) * 65536)
      some { c with s := c.s.onDie c.dn fun d => dropCovered d what }

/-! ### Save and restore -/

/-- The group of a context with its gang as it stands in the instruction. -/
def Cx.wholeGroup (c : Cx) : Group := c.grp.onGang c.gi fun _ => c.k

/-- The record named by `gsave` and `gload`. -/
def Cx.imageRecord (c : Cx) (o : OpsS) : Rec × Cx := c.record_ (c.aVal o.a)

/-- The lines written from element `e` of a record on, on its write side: the first fault and its address, if any (R321).
-/
def writeLines (dn : Nat) (r : Rec) (e : Nat) : List Line → State → Option (Cause × Nat) × State
  | [], s => (none, s)
  | l :: ls, s =>
    match writeElem s dn ((r.writeAddrs e).zip l) with
    | (.ok _, s) => writeLines dn r (e + 1) ls s
    | (.error x, s) => (some x, s)

/-- The lines read from element `e` of a record on, or the first fault and its ADDR. -/
def readLines (dn : Nat) (r : Rec) (e : Nat) : (n : Nat) → State → Except (Cause × Nat) (List Line) × State
  | 0, s => (.ok [], s)
  | n + 1, s =>
    if r.extent ≤ e then (.error ((5, 1), e), s)
    else match readElem s dn (r.frontAddrs e) with
      | (.error (c, a), s) => (.error (c, a / 64 * 64), s)
      | (.ok l, s) => match readLines dn r (e + 1) n s with
        | (.ok ls, s) => (.ok (l :: ls), s)
        | x => x

/-- The context once its instruction has written memory: its group keeps the lines as the state's does, and its gang
knows of the writes (R80, R208). -/
def Cx.written (c : Cx) (s : State) : Cx :=
  { c.onKnow (fun k => k.learn (c.k.issued + 1) s.written) with
    s := s.rested
    grp := { c.grp with code := match (s.die c.dn).group c.gid with
      | some g => g.code
      | none => c.grp.code } }

/-- A failure of `gsave` or `gload`, in the lowest active lane: a fault in supervisor state, which writes its record
and is beyond recovery (R181, R187, R321, R325). (DEDUCED: log 87) -/
def Cx.imageFault (c : Cx) (o : OpsS) (cause : Cause) (addr : Nat) : Cx :=
  let l := (lowest c.em).getD 0
  c.park l (c.record l cause.1 cause.2 addr (c.aVal o.a) (c.reg o.b 0))

/-- Whether the lines of an image must still wait for accesses that the gang has issued before and that are not
recorded in it: on SO pages for all of them, and to write for those that may write the same bytes (R85). -/
def Cx.linesWait (c : Cx) (as : List Nat) (writes : Bool) : Bool :=
  let cmds := (gangCmds (c.s.die c.dn) c.gid c.gi).filter fun x => !heldBack c.s c.dn x.2 && !x.2.isNor
  let joins := if c.jcore.frozen then [] else joinQueued c.s c.dn c.gid c.gi
  if cmds.isEmpty && joins.isEmpty then false
  else
    let so := (kindsOf c.s c.dn as).contains 0
    let kept := if writes then as.filter fun a => kindAt c.s c.dn a ≠ 2 else []
    (cmds.any fun x => x.2.elems.any fun e => e.2.pending &&
      ((so && touches c.s c.dn (· = 0) x.2.op e.2) || mayWrite c.s c.dn x.2.op e.2 kept)) ||
    joins.any fun j => (so && j.2.has c.s c.dn (· = 0)) || kept.any fun a => j.2.mayWrite c.s c.dn a

/-- Lines written by `gsave`: a record that does not keep the rules, a line that does not lie below EXTENT, and a fault
of a write are beyond recovery; none where they must wait (R85, R321). -/
def Cx.saveLines (c : Cx) (o : OpsS) (ls : List Line) : Option Cx :=
  let (r, c) := c.imageRecord o
  let e := (c.reg o.b 0).toNat
  if r.invalid || r.esize ≠ 6 || r.ro then some (c.imageFault o (5, 2) e)
  else if r.extent < e + ls.length then some (c.imageFault o (5, 1) (max e r.extent))
  else if c.linesWait ((span e ls.length).flatMap r.writeAddrs) true then none
  else match writeLines c.dn r e ls (c.s.acting (c.k.know.releases c.agent c.k.issued none)) with
    | (none, s) => some (c.written s)
    | (some (cause, a), s) => some ((c.written s).imageFault o cause (a / 64 * 64))

/-- What the die keeps for the pending section of the gang's image (R322). -/
def Cx.pendingOf (c : Cx) : Pending :=
  let co := c.jcore
  let own := c.owns
  { held := (gangCmds (c.s.die c.dn) c.gid c.gi).filter fun x => !x.2.pre
    queue := if own then co.queue else []
    openBatch := co.openBatch
    doneBatch := co.doneBatch
    jstep := if own then co.jstep else ⟨0, 0, 0, 0⟩
    issue := co.issue
    lateC := c.k.lateC
    lateA := c.k.lateA
    lateJ := c.k.lateJ
    parkedAt := c.k.parkedAt
    issuedC := c.k.issuedC
    issuedA := c.k.issuedA
    issued := c.k.issued
    kdFrom := c.k.kdFrom
    kdDesc := c.k.kdDesc
    released := c.k.quads.map (·.released)
    shifts := c.k.shifts
    unclaimed := own && co.unclaimed }

/-- Whether the pending section of the gang's image holds anything: an engine element or fault not yet taken, the
join engine that the gang owns, the order in which two or more lanes parked, a lane that `unpark` released, or a `kd`
port in use. -/
def Cx.hasPending (c : Cx) (p : Pending) : Bool :=
  c.owns || !p.held.isEmpty || !p.lateC.isEmpty || !p.lateA.isEmpty || !p.lateJ.isEmpty || 1 < p.parkedAt.length ||
  !p.kdFrom.isEmpty || p.kdDesc.isSome || (p.released.any fun m => m ≠ 0)

/-- The gang image written, once every quad of the gang stands at `gsave.gang` (R321, R322). -/
def Cx.saveGang (c : Cx) (o : OpsS) : Option Cx :=
  let d := c.s.die c.dn
  let id := d.nextId
  let p := c.pendingOf
  if c.hasPending p then
    let c := { c with s := c.s.setDie c.dn { d with nextId := id + 1, pendings := d.pendings.insert id p } }
    c.saveLines o (gangLines c.wholeGroup c.gi c.owns 1 ++ pendingLinesOf c.s.hub.bootKey (some id))
  else c.saveLines o (gangLines c.wholeGroup c.gi c.owns 0 ++ pendingLinesOf c.s.hub.bootKey none)

/-- Whether the gang is the lowest-numbered one on its core that has not exited (R321). -/
def Cx.leadsCore (c : Cx) : Bool :=
  let g := c.wholeGroup
  !((List.range c.gi).any fun i => (g.gang i).core = c.k.core && !(g.gang i).liveQuads.isEmpty)

/-- `gsave` (R321). -/
def execGsave (o : OpsS) (s : State) : Host.Outcome State Fault Refusal :=
  sysOp 0x1C8 o s fun c =>
    if o.m.variant = 1 then
      if c.leadsCore then c.saveLines o (coreLines c.wholeGroup c.k.core) else some c
    else
      let all := c.k.liveQuads
      if all.all fun q => c.qs.contains q || (c.k.quad q).atGsave then
        let others := all.filter fun q => !c.qs.contains q
        (c.saveGang o).map fun c => { c with k := others.foldl (fun (k : Gang) q =>
          k.onQuad q fun u => { u.advance with atGsave := false }) c.k }
      else
        some { c with k := c.qs.foldl (fun (k : Gang) q => k.onQuad q fun u => { u with atGsave := true }) c.k }.holdAll

/-- A failed check of `gload`: a protection fault with reason 4, at the image's first line (R181, R325). (DEDUCED: log
87) -/
def Cx.badImage (c : Cx) (o : OpsS) : Cx :=
  let (r, c) := c.imageRecord o
  c.imageFault o malformed ((r.frontAddrs (c.reg o.b 0).toNat).headD 0 / 64 * 64)

/-- The lines of an image of the record that `gload` names, or a fault and its ADDR; none where the reads must wait (R85,
R325). -/
def Cx.loadLines (c : Cx) (o : OpsS) (e n : Nat) : Option (Except (Cause × Nat) (List Line) × Cx) :=
  let (r, c) := c.imageRecord o
  if r.invalid || r.esize ≠ 6 then some (.error ((5, 2), e), c)
  else if c.linesWait ((span e (min n (r.extent - e))).flatMap r.frontAddrs) false then none
  else
    let (x, s) := readLines c.dn r e n c.s
    some (x, ({ c with s := s.rested } : Cx).onKnow (·.observe s.trace.saw))

/-- The gang at the head of its core's acquire queue (R161, R325). -/
def Cx.headOfQueue (c : Cx) : Cx :=
  c.onCore fun j => { j with waiters := (c.gid, c.gi) :: j.waiters.filter (· ≠ (c.gid, c.gi)) }

/-- `gload.gang` (R325): an owner waits for the grant before anything is restored. -/
def Cx.loadGang (c : Cx) (o : OpsS) : Option Cx :=
  let e := (c.reg o.b 0).toNat
  let n := 308 + 64 * c.grp.regs
  if !(c.grp.home c.k.core).loaded then none
  else match c.loadLines o e n with
    | none => none
    | some (.error (cause, a), c) => some (c.imageFault o cause a)
    | some (.ok ls, c) =>
      let np := (lineAt ls (n - 1)).num 0 4
      match c.loadLines o (e + n) (min np 256) with
      | none => none
      | some (.error (cause, a), c) => some (c.imageFault o cause a)
      | some (.ok sec, c) =>
        let check := (lineAt ls (n - 1)).num 4 4
        let p := match sec with
          | l :: _ => (c.s.die c.dn).pendings.find? (Line.num l 0 8)
          | [] => some Pending.empty
        match p with
        | none => some (c.badImage o)
        | some p =>
          if !gangImageOk c.wholeGroup c.gi ls || check ≠ (Config.contextCheck c.s.hub.bootKey (sec.map leNat)).toNat then
            some (c.badImage o)
          else if bit 0 ((lineAt ls 0).num 3 1) && !c.owns then
            if c.jcore.waiters.head? = some (c.gid, c.gi) then none else some c.headOfQueue.holdAll
          else
            let c := if bit 0 ((lineAt ls 0).num 3 1) then
                c.onCore fun j => { j with unclaimed := p.unclaimed, queue := p.queue, jstep := p.jstep, issue := p.issue,
                                           openBatch := p.openBatch, doneBatch := p.doneBatch, frozen := true }
              else if bit 1 ((lineAt ls 0).num 3 1) then
                c.onCore fun j => { j with waiters := j.waiters ++ [(c.gid, c.gi)] }
              else c
            let s := c.s.onDie c.dn fun d =>
              { d with cmds := p.held.foldl (fun (cs : FMap Cmd) x => cs.insert x.1 x.2) d.cmds }
            some { c with s := s, k := gangOfLines c.wholeGroup c.gi ls p }

/-- `gload.core` (R325). -/
def Cx.loadCore (c : Cx) (o : OpsS) : Option Cx :=
  match c.loadLines o (c.reg o.b 0).toNat (coreImageLines c.grp) with
  | none => none
  | some (.error (cause, a), c) => some (c.imageFault o cause a)
  | some (.ok ls, c) => some <|
    if !coreImageOk c.grp ls then c.badImage o
    else { c with grp := c.grp.onHome c.k.core (homeOfLines ls) }

/-- `gload` (R325). -/
def execGload (o : OpsS) (s : State) : Host.Outcome State Fault Refusal :=
  sysOp 0x1C9 o s fun c =>
    if o.m.variant = 1 then (if c.leadsCore then c.loadCore o else some c) else c.loadGang o

/-! ### The join engine -/

/-- `jfrz` (R327). -/
def execJfrz (o : OpsS) (s : State) : Host.Outcome State Fault Refusal :=
  sysOp 0x1CA o s fun c =>
    if !c.owns then some (c.trapQuads joinOwnership)
    else if o.m.variant = 0 then
      if c.jcore.frozen then some c
      else if c.jcore.freezeAsked then none
      else some (c.onCore fun j => { j with freezeAsked := true }).holdAll
    else if c.grp.pre && !c.grp.restore then some (c.trapQuads (clsIllegal, 4))
    else some (c.onCore fun j => { j with frozen := false, freezeAsked := false })

end Sys2Proof.Machine
end

