-- ==== Sys2Proof/Machine/Dispatch.lean ====
section
/-!
DEFINITION. One arm for every constructor of `Instr`, each a call of its meaning.
-/
namespace Sys2Proof.Machine

def exec (i : Instr) (s : State) : Host.Outcome State Fault Refusal :=
  match i with
  | .powerGood env => Sys2Proof.Machine.execPowerGood env s
  | .bootTimeExceeded => Sys2Proof.Machine.execBootTimeExceeded s
  | .restaggerDelayExpiry env => Sys2Proof.Machine.execRestaggerDelayExpiry env s
  | .holdTimeout env => Sys2Proof.Machine.execHoldTimeout env s
  | .modulePowerLoss => Sys2Proof.Machine.execModulePowerLoss s
  | .hostModuleReset env => Sys2Proof.Machine.execHostModuleReset env s
  | .pacingWindow d demand => Sys2Proof.Machine.execPacingWindow d demand s
  | .securityAlarmClass1 r rs => Sys2Proof.Machine.execSecurityAlarmClass1 r rs s
  | .securityAlarmClass2 r rs env => Sys2Proof.Machine.execSecurityAlarmClass2 r rs env s
  | .securityAlarmClass3 r rs env => Sys2Proof.Machine.execSecurityAlarmClass3 r rs env s
  | .go => Sys2Proof.Machine.execGo s
  | .setlimit => Sys2Proof.Machine.execSetlimit s
  | .loadkey => Sys2Proof.Machine.execLoadkey s
  | .clearkey => Sys2Proof.Machine.execClearkey s
  | .portkey => Sys2Proof.Machine.execPortkey s
  | .setpos => Sys2Proof.Machine.execSetpos s
  | .release env => Sys2Proof.Machine.execRelease env s
  | .attest => Sys2Proof.Machine.execAttest s
  | .handles => Sys2Proof.Machine.execHandles s
  | .cert => Sys2Proof.Machine.execCert s
  | .readCell l damage => Sys2Proof.Machine.execReadCell l damage s
  | .writeCell l damage => Sys2Proof.Machine.execWriteCell l damage s
  | .remoteAtomicCell l damage => Sys2Proof.Machine.execRemoteAtomicCell l damage s
  | .copyElementCell l damage => Sys2Proof.Machine.execCopyElementCell l damage s
  | .migrationPull l damage => Sys2Proof.Machine.execMigrationPull l damage s
  | .readData l damage => Sys2Proof.Machine.execReadData l damage s
  | .writeCompletion l damage => Sys2Proof.Machine.execWriteCompletion l damage s
  | .atomicResult l damage => Sys2Proof.Machine.execAtomicResult l damage s
  | .faultReply l damage => Sys2Proof.Machine.execFaultReply l damage s
  | .kdPush l damage => Sys2Proof.Machine.execKdPush l damage s
  | .kdReturn l damage => Sys2Proof.Machine.execKdReturn l damage s
  | .publishCell l damage => Sys2Proof.Machine.execPublishCell l damage s
  | .signalRelease l damage => Sys2Proof.Machine.execSignalRelease l damage s
  | .ack l damage => Sys2Proof.Machine.execAck l damage s
  | .nak l damage => Sys2Proof.Machine.execNak l damage s
  | .creditOnly l damage => Sys2Proof.Machine.execCreditOnly l damage s
  | .restagger l damage => Sys2Proof.Machine.execRestagger l damage s
  | .keyControl l damage => Sys2Proof.Machine.execKeyControl l damage s
  | .linkStatus l damage => Sys2Proof.Machine.execLinkStatus l damage s
  | .ackDeadline l => Sys2Proof.Machine.execAckDeadline l s
  | .linkRetrain l trained => Sys2Proof.Machine.execLinkRetrain l trained s
  | .tagFailureLimit p => Sys2Proof.Machine.execTagFailureLimit p s
  | .keyexp p => Sys2Proof.Machine.execKeyexp p s
  | .portRetry p trained => Sys2Proof.Machine.execPortRetry p trained s
  | .dieOfflineTransition d room linksUp => Sys2Proof.Machine.execDieOfflineTransition d room linksUp s
  | .apertureRead d off len => Sys2Proof.Machine.execApertureRead d off len s
  | .apertureWrite d off data => Sys2Proof.Machine.execApertureWrite d off data s
  | .apfClear d => Sys2Proof.Machine.execApfClear d s
  | .resume d => Sys2Proof.Machine.execResume d s
  | .queueConfigWrite d q v => Sys2Proof.Machine.execQueueConfigWrite d q v s
  | .queueDisable d q v => Sys2Proof.Machine.execQueueDisable d q v s
  | .tail d q v => Sys2Proof.Machine.execTail d q v s
  | .resv d q => Sys2Proof.Machine.execResv d q s
  | .commit d q v => Sys2Proof.Machine.execCommit d q v s
  | .commandRecordRead d q => Sys2Proof.Machine.execCommandRecordRead d q s
  | .commandStart d q => Sys2Proof.Machine.execCommandStart d q s
  | .commandCompletion d c => Sys2Proof.Machine.execCommandCompletion d c s
  | .nopCommand d c => Sys2Proof.Machine.execNopCommand d c s
  | .launchCommand d c => Sys2Proof.Machine.execLaunchCommand d c s
  | .copyCommand d c => Sys2Proof.Machine.execCopyCommand d c s
  | .publishCommand d c => Sys2Proof.Machine.execPublishCommand d c s
  | .signalCommand d c => Sys2Proof.Machine.execSignalCommand d c s
  | .waitCommand d c => Sys2Proof.Machine.execWaitCommand d c s
  | .migrate d c => Sys2Proof.Machine.execMigrate d c s
  | .migrationPageSwitch d c => Sys2Proof.Machine.execMigrationPageSwitch d c s
  | .migrationLinePulled d page line => Sys2Proof.Machine.execMigrationLinePulled d page line s
  | .quiesce d c => Sys2Proof.Machine.execQuiesce d c s
  | .quiesceComplete d => Sys2Proof.Machine.execQuiesceComplete d s
  | .tlbctlAll d => Sys2Proof.Machine.execTlbctlAll d s
  | .tlbctlPage d v => Sys2Proof.Machine.execTlbctlPage d v s
  | .invalidationDone d => Sys2Proof.Machine.execInvalidationDone d s
  | .fttail d v => Sys2Proof.Machine.execFttail d v s
  | .frameZeroed d => Sys2Proof.Machine.execFrameZeroed d s
  | .ftemptyClear d => Sys2Proof.Machine.execFtemptyClear d s
  | .controlRegisterWrite fn off v => Sys2Proof.Machine.execControlRegisterWrite fn off v s
  | .nodeOpen d n j => Sys2Proof.Machine.execNodeOpen d n j s
  | .groupPlacement d n j => Sys2Proof.Machine.execGroupPlacement d n j s
  | .placementStarvation d => Sys2Proof.Machine.execPlacementStarvation d s
  | .groupEnd d g => Sys2Proof.Machine.execGroupEnd d g s
  | .priorityPreemption d n j => Sys2Proof.Machine.execPriorityPreemption d n j s
  | .savedGroupPlacement d g => Sys2Proof.Machine.execSavedGroupPlacement d g s
  | .groupSaved d g => Sys2Proof.Machine.execGroupSaved d g s
  | .faultVector d g k q => Sys2Proof.Machine.execFaultVector d g k q s
  | .pageFaultVector d g k q => Sys2Proof.Machine.execPageFaultVector d g k q s
  | .faultBeyondRecovery d g => Sys2Proof.Machine.execFaultBeyondRecovery d g s
  | .portDeadlock d g => Sys2Proof.Machine.execPortDeadlock d g s
  | .engineElementPerformed d c e => Sys2Proof.Machine.execEngineElementPerformed d c e s
  | .engineCommandCompletion d c => Sys2Proof.Machine.execEngineCommandCompletion d c s
  | .sigwaitReread d g k q => Sys2Proof.Machine.execSigwaitReread d g k q s
  | .joinEntryExecute d core => Sys2Proof.Machine.execJoinEntryExecute d core s
  | .batchComplete d core => Sys2Proof.Machine.execBatchComplete d core s
  | .joinFreeze d core => Sys2Proof.Machine.execJoinFreeze d core s
  | .macqGrant d core => Sys2Proof.Machine.execMacqGrant d core s
  | .barRelease d g => Sys2Proof.Machine.execBarRelease d g s
  | .gsyncRelease d g => Sys2Proof.Machine.execGsyncRelease d g s
  | .regangJoin d g k => Sys2Proof.Machine.execRegangJoin d g k s
  | .vadd o => Sys2Proof.Machine.execVadd o s
  | .vsub o => Sys2Proof.Machine.execVsub o s
  | .vmul o => Sys2Proof.Machine.execVmul o s
  | .vmulhi o => Sys2Proof.Machine.execVmulhi o s
  | .vmad o => Sys2Proof.Machine.execVmad o s
  | .vneg o => Sys2Proof.Machine.execVneg o s
  | .vabs o => Sys2Proof.Machine.execVabs o s
  | .vmin o => Sys2Proof.Machine.execVmin o s
  | .vmax o => Sys2Proof.Machine.execVmax o s
  | .vand o => Sys2Proof.Machine.execVand o s
  | .vor o => Sys2Proof.Machine.execVor o s
  | .vxor o => Sys2Proof.Machine.execVxor o s
  | .vnot o => Sys2Proof.Machine.execVnot o s
  | .vshl o => Sys2Proof.Machine.execVshl o s
  | .vshr o => Sys2Proof.Machine.execVshr o s
  | .vrot o => Sys2Proof.Machine.execVrot o s
  | .vpopc o => Sys2Proof.Machine.execVpopc o s
  | .vclz o => Sys2Proof.Machine.execVclz o s
  | .vbrev o => Sys2Proof.Machine.execVbrev o s
  | .vbfx o => Sys2Proof.Machine.execVbfx o s
  | .vbfi o => Sys2Proof.Machine.execVbfi o s
  | .vcmp o => Sys2Proof.Machine.execVcmp o s
  | .vsel o => Sys2Proof.Machine.execVsel o s
  | .vmov o => Sys2Proof.Machine.execVmov o s
  | .vmovi o => Sys2Proof.Machine.execVmovi o s
  | .vdot4 o => Sys2Proof.Machine.execVdot4 o s
  | .vdot8 o => Sys2Proof.Machine.execVdot8 o s
  | .vlea o => Sys2Proof.Machine.execVlea o s
  | .vfadd o => Sys2Proof.Machine.execVfadd o s
  | .vfsub o => Sys2Proof.Machine.execVfsub o s
  | .vfmul o => Sys2Proof.Machine.execVfmul o s
  | .vffma o => Sys2Proof.Machine.execVffma o s
  | .vfmin o => Sys2Proof.Machine.execVfmin o s
  | .vfmax o => Sys2Proof.Machine.execVfmax o s
  | .vfcmp o => Sys2Proof.Machine.execVfcmp o s
  | .vfrcp o => Sys2Proof.Machine.execVfrcp o s
  | .vfrsq o => Sys2Proof.Machine.execVfrsq o s
  | .vfsqrt o => Sys2Proof.Machine.execVfsqrt o s
  | .vfexp2 o => Sys2Proof.Machine.execVfexp2 o s
  | .vflog2 o => Sys2Proof.Machine.execVflog2 o s
  | .vfclass o => Sys2Proof.Machine.execVfclass o s
  | .vfdiv o => Sys2Proof.Machine.execVfdiv o s
  | .sadd o => Sys2Proof.Machine.execSadd o s
  | .ssub o => Sys2Proof.Machine.execSsub o s
  | .smul o => Sys2Proof.Machine.execSmul o s
  | .sand o => Sys2Proof.Machine.execSand o s
  | .sor o => Sys2Proof.Machine.execSor o s
  | .sxor o => Sys2Proof.Machine.execSxor o s
  | .sshl o => Sys2Proof.Machine.execSshl o s
  | .sshr o => Sys2Proof.Machine.execSshr o s
  | .scmp o => Sys2Proof.Machine.execScmp o s
  | .smov o => Sys2Proof.Machine.execSmov o s
  | .smovi o => Sys2Proof.Machine.execSmovi o s
  | .ssel o => Sys2Proof.Machine.execSsel o s
  | .vcvt o => Sys2Proof.Machine.execVcvt o s
  | .vfcvti o => Sys2Proof.Machine.execVfcvti o s
  | .vicvtf o => Sys2Proof.Machine.execVicvtf o s
  | .vpack o => Sys2Proof.Machine.execVpack o s
  | .vunpk o => Sys2Proof.Machine.execVunpk o s
  | .vplx o => Sys2Proof.Machine.execVplx o s
  | .vpli o => Sys2Proof.Machine.execVpli o s
  | .vsplit6 o => Sys2Proof.Machine.execVsplit6 o s
  | .vjoin6 o => Sys2Proof.Machine.execVjoin6 o s
  | .sfmt o => Sys2Proof.Machine.execSfmt o s
  | .ifMask o => Sys2Proof.Machine.execIfMask o s
  | .elseMask o => Sys2Proof.Machine.execElseMask o s
  | .endif o => Sys2Proof.Machine.execEndif o s
  | .loop o => Sys2Proof.Machine.execLoop o s
  | .brk o => Sys2Proof.Machine.execBrk o s
  | .cont o => Sys2Proof.Machine.execCont o s
  | .endloop o => Sys2Proof.Machine.execEndloop o s
  | .regang o => Sys2Proof.Machine.execRegang o s
  | .jmp o => Sys2Proof.Machine.execJmp o s
  | .bra o => Sys2Proof.Machine.execBra o s
  | .call o => Sys2Proof.Machine.execCall o s
  | .ret o => Sys2Proof.Machine.execRet o s
  | .rep o => Sys2Proof.Machine.execRep o s
  | .exit o => Sys2Proof.Machine.execExit o s
  | .yield o => Sys2Proof.Machine.execYield o s
  | .nop o => Sys2Proof.Machine.execNop o s
  | .bar o => Sys2Proof.Machine.execBar o s
  | .gsync o => Sys2Proof.Machine.execGsync o s
  | .vshfl o => Sys2Proof.Machine.execVshfl o s
  | .vvote o => Sys2Proof.Machine.execVvote o s
  | .vred o => Sys2Proof.Machine.execVred o s
  | .vscan o => Sys2Proof.Machine.execVscan o s
  | .vmatch o => Sys2Proof.Machine.execVmatch o s
  | .vconf o => Sys2Proof.Machine.execVconf o s
  | .vquad o => Sys2Proof.Machine.execVquad o s
  | .vsegred o => Sys2Proof.Machine.execVsegred o s
  | .pbind o => Sys2Proof.Machine.execPbind o s
  | .pcnt o => Sys2Proof.Machine.execPcnt o s
  | .pflush o => Sys2Proof.Machine.execPflush o s
  | .xwin o => Sys2Proof.Machine.execXwin o s
  | .ld o => Sys2Proof.Machine.execLd o s
  | .st o => Sys2Proof.Machine.execSt o s
  | .atom o => Sys2Proof.Machine.execAtom o s
  | .wset o => Sys2Proof.Machine.execWset o s
  | .copy o => Sys2Proof.Machine.execCopy o s
  | .gath o => Sys2Proof.Machine.execGath o s
  | .scat o => Sys2Proof.Machine.execScat o s
  | .ratom o => Sys2Proof.Machine.execRatom o s
  | .coll o => Sys2Proof.Machine.execColl o s
  | .wait o => Sys2Proof.Machine.execWait o s
  | .publish o => Sys2Proof.Machine.execPublish o s
  | .fence o => Sys2Proof.Machine.execFence o s
  | .sigadd o => Sys2Proof.Machine.execSigadd o s
  | .sigwait o => Sys2Proof.Machine.execSigwait o s
  | .launch o => Sys2Proof.Machine.execLaunch o s
  | .nres o => Sys2Proof.Machine.execNres o s
  | .nhand o => Sys2Proof.Machine.execNhand o s
  | .macq o => Sys2Proof.Machine.execMacq o s
  | .mrel o => Sys2Proof.Machine.execMrel o s
  | .tfill o => Sys2Proof.Machine.execTfill o s
  | .tzero o => Sys2Proof.Machine.execTzero o s
  | .tstore o => Sys2Proof.Machine.execTstore o s
  | .jmm o => Sys2Proof.Machine.execJmm o s
  | .jmms o => Sys2Proof.Machine.execJmms o s
  | .jstream o => Sys2Proof.Machine.execJstream o s
  | .jbatch o => Sys2Proof.Machine.execJbatch o s
  | .jwait o => Sys2Proof.Machine.execJwait o s
  | .copen o => Sys2Proof.Machine.execCopen o s
  | .cacc o => Sys2Proof.Machine.execCacc o s
  | .cprobe o => Sys2Proof.Machine.execCprobe o s
  | .cdrain o => Sys2Proof.Machine.execCdrain o s
  | .cclose o => Sys2Proof.Machine.execCclose o s
  | .cstat o => Sys2Proof.Machine.execCstat o s
  | .tsave o => Sys2Proof.Machine.execTsave o s
  | .tload o => Sys2Proof.Machine.execTload o s
  | .csave o => Sys2Proof.Machine.execCsave o s
  | .cload o => Sys2Proof.Machine.execCload o s
  | .trap o => Sys2Proof.Machine.execTrap o s
  | .rfe o => Sys2Proof.Machine.execRfe o s
  | .sysrd o => Sys2Proof.Machine.execSysrd o s
  | .syswr o => Sys2Proof.Machine.execSyswr o s
  | .fltrd o => Sys2Proof.Machine.execFltrd o s
  | .unpark o => Sys2Proof.Machine.execUnpark o s
  | .pmap o => Sys2Proof.Machine.execPmap o s
  | .tlbinv o => Sys2Proof.Machine.execTlbinv o s
  | .gsave o => Sys2Proof.Machine.execGsave o s
  | .gload o => Sys2Proof.Machine.execGload o s
  | .jfrz o => Sys2Proof.Machine.execJfrz o s
  | .halt o => Sys2Proof.Machine.execHalt o s
  | .brkpt o => Sys2Proof.Machine.execBrkpt o s
  | .exportSlotFill d slot base len rights => Sys2Proof.Machine.execExportSlotFill d slot base len rights s
  | .exportRevoke d slot => Sys2Proof.Machine.execExportRevoke d slot s

end Sys2Proof.Machine
end

