-- ==== Sys2Proof/Machine/Auto.lean ====
section
/-!
DEFINITION. The model's default order: which internal step happens next when the agenda names none.
-/
namespace Sys2Proof.Machine

/-- What a step from `s` leaves: nothing where it met a link that retrains, and so waits (R36). (DEDUCED: log 105) -/
def taken (s t : State) : State := if t.crossed then s else t.rested

/-- Whether the compute clocks run: the module has power and is not in the safe state (R16). -/
def clocked (s : State) : Bool := s.hub.powered && !s.hub.safe

/-- Whether a step is one that a compute die takes of itself: of its gangs, engines and join engines, its sweep unit and
command processor, or its memory management (R16, R77). -/
def needsClock : Instr → Bool
  | .engineElementPerformed _ _ _ | .engineCommandCompletion _ _ | .joinEntryExecute _ _ | .batchComplete _ _
  | .joinFreeze _ _ | .macqGrant _ _ | .regangJoin _ _ _ | .barRelease _ _ | .gsyncRelease _ _ | .portDeadlock _ _
  | .faultVector _ _ _ _ | .pageFaultVector _ _ _ _ | .sigwaitReread _ _ _ _ | .nodeOpen _ _ _
  | .groupPlacement _ _ _ | .priorityPreemption _ _ _ | .placementStarvation _ | .groupEnd _ _
  | .faultBeyondRecovery _ _ | .groupSaved _ _ | .savedGroupPlacement _ _ | .commandRecordRead _ _
  | .commandStart _ _ | .commandCompletion _ _ | .nopCommand _ _ | .launchCommand _ _ | .copyCommand _ _
  | .publishCommand _ _ | .signalCommand _ _ | .waitCommand _ _ | .migrate _ _ | .migrationPageSwitch _ _
  | .migrationLinePulled _ _ _ | .quiesce _ _ | .quiesceComplete _ | .invalidationDone _ | .frameZeroed _ => true
  | _ => false

/-- A step of an agent other than a gang; a compute die takes none of itself while its clocks are gated (R16). -/
def run (i : Instr) (s : State) : Host.Outcome State Fault Refusal :=
  if needsClock i && !clocked s then .next s
  else match exec i s with
  | .next t => .next (taken s t)
  | o => o

/-- Clock cycles of a die pass: CYC counts them, and every group counts those for which the condition of a port deadlock
holds (R7, R138). Gated clocks count nothing (R16). (DESIGN CHOICE: log 5; DEDUCED: log 6) -/
def tick (s : State) (dn n : Nat) : State :=
  if !clocked s then s
  else s.onDie dn fun d =>
    { d with cyc := d.cyc + BitVec.ofNat 64 n
             groups := d.groups.map fun e =>
               (e.1, { e.2 with stalled := if deadlocked s dn e.1 e.2 then e.2.stalled + n else 0 }) }

/-- A sub-gang's issue, where the compute clocks run: fetch, execution, and one cycle of its die (R7, R16). (DESIGN
CHOICE: log 5) -/
def issue (s : State) (sg : SubGang) : Host.Outcome State Fault Refusal :=
  let after : State → State := fun t =>
    { tick t sg.die 1 with cur := none }
  if !clocked s then .next s
  else match fetch s sg with
  | .run i t => match exec i { t with cur := some sg } with
    | .next t => .next (after (taken s t))
    | o => o
  | .done (.next t) => .next (after (taken s t))
  | .done o => o

/-- The sub-gangs of a die's resident groups, by group, gang and tag (R119). -/
def subGangs (s : State) (dn : Nat) : List SubGang :=
  (s.die dn).groups.flatMap fun e =>
    if e.2.runs then
      (List.range e.2.gangs.length).flatMap fun gi =>
        let k := e.2.gang gi
        (distinct (k.liveQuads.map fun q => (k.quad q).sgt)).map fun t => ⟨dn, e.1, gi, t⟩
    else []

/-- The first of a list of acts that changes the state, with what it makes of it. -/
def firstChange (s : State) (f : α → Host.Outcome State Fault Refusal) : List α → Option State
  | [] => none
  | a :: as => match f a with
    | .next t => if t = s then firstChange s f as else some t
    | _ => firstChange s f as

/-- Whether a sub-gang can issue now: its instruction does more than stall. -/
def ready (s : State) (sg : SubGang) : Bool :=
  clocked s && match fetch s sg with
  | .run i t => match exec i { t with cur := some sg } with
    | .next u => !u.crossed && !(u = { t with cur := some sg })
    | _ => true
  | .done (.next t) => !t.crossed && !(t = s)
  | .done _ => true

/-- A list turned so that it starts at element `n`. -/
def rotated (l : List α) (n : Nat) : List α := l.drop (n % l.length) ++ l.take (n % l.length)

/-- The steps of the command processor that may be enabled on a die (R48 to R54, R74). -/
def commandActs (d : Die) (dn : Nat) : List Instr :=
  (d.hostCmds.flatMap fun c => match c.2.phase, c.2.op with
    | .finished _ _, _ => [Instr.commandCompletion dn c.1]
    | .started, 0 => [.nopCommand dn c.1]
    | .started, 1 => [.launchCommand dn c.1]
    | .started, 2 => [.copyCommand dn c.1]
    | .started, 3 => [.publishCommand dn c.1]
    | .started, 4 => [.signalCommand dn c.1]
    | .started, 5 => [.waitCommand dn c.1]
    | .started, 6 => [.migrate dn c.1, .migrationPageSwitch dn c.1]
    | .started, 7 => [.quiesce dn c.1]
    | _, _ => []) ++
  (d.queues.flatMap fun q => [.commandRecordRead dn q.1, .commandStart dn q.1]) ++
  [.quiesceComplete dn, .invalidationDone dn, .frameZeroed dn]

/-- The steps of the sweep unit that may be enabled on a die (R94 to R116, R190 to R193). -/
def sweepActs (d : Die) (dn : Nat) : List Instr :=
  (d.launches.flatMap fun l => (l.2.run.filter fun x => x.2.closed).map fun x => Instr.nodeOpen dn l.1 x.1) ++
  ((waiters d).flatMap fun w => [.groupPlacement dn w.launch w.node, .priorityPreemption dn w.launch w.node]) ++
  [.placementStarvation dn] ++
  d.groups.flatMap fun g =>
    [.groupEnd dn g.1, .faultBeyondRecovery dn g.1, .groupSaved dn g.1, .savedGroupPlacement dn g.1,
     .barRelease dn g.1, .gsyncRelease dn g.1, .portDeadlock dn g.1]

/-- The steps of the gangs of a die that are not an issue (R184, R189, R248, R283). -/
def gangActs (d : Die) (dn : Nat) : List Instr :=
  d.groups.flatMap fun g => (List.range g.2.gangs.length).flatMap fun k =>
    Instr.regangJoin dn g.1 k :: ((g.2.gang k).liveQuads.flatMap fun q =>
      [.faultVector dn g.1 k q, .pageFaultVector dn g.1 k q, .sigwaitReread dn g.1 k q])

/-- The steps of the engines and join engines of a die (R71, R133, R160, R168, R176). -/
def engineActs (d : Die) (dn : Nat) : List Instr :=
  (d.cmds.flatMap fun c =>
    (c.2.elems.map fun e => Instr.engineElementPerformed dn c.1 e.1) ++ [.engineCommandCompletion dn c.1]) ++
  d.cores.flatMap fun c =>
    [.joinEntryExecute dn c.1, .batchComplete dn c.1, .joinFreeze dn c.1, .macqGrant dn c.1]

/-- The arrival that a cell's TYPE names (R32); a cell that fails its checks is discarded by any of them. (DESIGN
CHOICE: log 103) -/
def arrivalOf (l : LinkId) (type : Nat) : Instr :=
  match type with
  | 0x00 => .readCell l false
  | 0x01 => .writeCell l false
  | 0x02 => .remoteAtomicCell l false
  | 0x03 => .copyElementCell l false
  | 0x04 => .migrationPull l false
  | 0x10 => .readData l false
  | 0x11 => .writeCompletion l false
  | 0x12 => .atomicResult l false
  | 0x13 => .faultReply l false
  | 0x20 => .kdPush l false
  | 0x21 => .kdReturn l false
  | 0x22 => .publishCell l false
  | 0x23 => .signalRelease l false
  | 0x31 => .nak l false
  | 0x32 => .creditOnly l false
  | 0x33 => .restagger l false
  | 0x34 => .keyControl l false
  | 0x35 => .linkStatus l false
  | _ => .ack l false

/-- Whether a receiver owes an ACK that the sender needs: a cell that is more than an answer of the link itself stands
in the sender's replay buffer. Left to itself, the default order does not acknowledge acknowledgements. (DESIGN CHOICE:
log 1) -/
def owesAck (l : LinkDir) : Bool :=
  l.ackOwed && l.replay.any fun c => !linkLocal c.type

/-- The steps of the links (R35). -/
def linkActs (s : State) : List Instr :=
  s.links.flatMap fun l =>
    let id : LinkId := ⟨l.1 / 32, l.1 % 32⟩
    (match l.2.wire with
      | c :: _ => [arrivalOf id c.type]
      | [] => []) ++ (if owesAck l.2 then [Instr.ackDeadline id] else [])

/-- The internal steps that may be enabled on a die, in the order in which the default order tries them. -/
def internal (s : State) (dn : Nat) : List Instr :=
  let d := s.die dn
  engineActs d dn ++ gangActs d dn ++ sweepActs d dn ++ commandActs d dn ++
    (match orphanLine s dn with
      | some (page, line) => [.migrationLinePulled dn page line]
      | none => [])

/-- The default order: the first internal step that is enabled, else the next ready sub-gang in rotation, else one
cycle of every die (R119, R120). -/
def auto (s : State) : Host.Outcome State Fault Refusal :=
  match firstChange s (fun i => run i s) (linkActs s ++ (List.range 8).flatMap (internal s)) with
  | some t => .next t
  | none =>
    match (rotated ((List.range 8).flatMap (subGangs s)) s.free).find? (ready s) with
    | some sg => issue s sg
    | none => .next ((List.range 8).foldl (fun s d => tick s d 1) s)

/-- Hub time passes; the time spent holding is counted (R16, R42). -/
def Hub.wait (h : Hub) (n : Nat) : Hub :=
  { h with time := h.time + n, held := if h.holding then h.held + n else h.held }

/-- The host reads a word of a function's control window; a read of RESV reserves (R27, R45 to R47, R61). -/
def readWindow (s : State) (fn off : Nat) : Host.Outcome State Fault Refusal :=
  if fn = 8 then .next { s with windowRead := BitVec.ofNat 64 (s.hub.window off) }
  else if 7 < fn then .fault .noSuchDie
  else if 0x1000 ≤ off ∧ off < 0x2000 ∧ off % 64 = 0x28 then
    match execResv fn ((off - 0x1000) / 64) s with
    | .next t => .next { t with windowRead := t.resvRead.setWidth 64 }
    | o => o
  else .next { s with windowRead := BitVec.ofNat 64 (dieWord (s.die fn) off) }

/-- One act. (DESIGN CHOICE: log 1, 7, 10) -/
def act (s : State) : Act → Host.Outcome State Fault Refusal
  | .event i => if (opcodeAndOps i).isNone then run i s else .next s
  | .issue sg => issue s sg
  | .tick dn n => if dn < 8 then .next (tick s dn n) else .fault .noSuchDie
  | .hubTime n => .next { s with hub := s.hub.wait n }
  | .evict dn page => if dn < 8 then .next (s.onDie dn fun d => { d with tlb := d.tlb.erase page })
      else .fault .noSuchDie
  | .inject p c => .next (s.onLink (16 + p) 8 fun l => { l with wire := l.wire ++ [c] })
  | .mailbox off b => if s.hub.go || 255 < off then .next s
      else .next { s with hub := { s.hub with mreq := Memory.write s.hub.mreq off b } }
  | .takeInterrupts => .next { s with
      msix := [], hostKnown := withAll s.hostKnown s.interruptKnown, interruptKnown := [] }
  | .readWindow fn off => readWindow s fn (off / 8 * 8)
  | .takeReports => .next { s with resetReports := [] }
  | .auto => auto s

/-! ### A word placed where the next step fetches -/

/-- A gang of one sub-gang at PC 0, all of its 32 lanes active. -/
def benchGang : Gang := { Gang.empty with quads := (List.range 8).map fun _ => Quad.start 0 0 }

/-- A group of one gang on core 0 with one page of scratchpad, as a placement leaves it (R107, R113). -/
def benchGroup : Group where
  launch := 0
  node := 0
  block := 32
  regs := 18
  spad := 1
  rsize := 0
  kids := 0
  inbox := 0
  down := false
  fpw := 0
  fph := 0
  prio := 0
  placedAt := 0
  cores := [0]
  gangs := [benchGang]
  homes := [⟨[], [], [], [(0, ⟨0, 4096, 0⟩), (7, ⟨4096, 0, 0⟩)], [], false⟩]
  result := []
  values := []
  state := .running
  pre := false
  restore := false
  pslot := 0
  stalled := 0
  code := []

/-- Die 0 with a page table at PTROOT that maps addresses 0 to 2 MiB onto a frame at 2 MiB under key slot 0. -/
def benchDie (d : Die) : Die :=
  let d := { d with ptroot := 0, keys := d.keys.insert 0 0, tlb := [], groups := d.groups.insert 0 benchGroup }
  let d := physWrite d 0 (leBytes 8 (0x100000 / 16 + 1))
  let d := physWrite d 0x100000 (leBytes 8 (0x101000 / 16 + 1))
  physWrite d 0x101000 (leBytes 8 (leafWord 0 0 false false 0x200000))

/-- The bytes of an instruction word of `nbits` bits, the bits above them zero (R206). -/
def wordBytes (nbits w : Nat) : List Byte := leBytes 12 (w % 2 ^ nbits)

/-- Where the next step fetches: the physical address of the block and the slot, if the agenda names an issue whose
fetch reaches the mapped region. -/
def fetchPlace (s : State) : Option (Nat × Nat × Nat) :=
  match s.agenda with
  | .issue sg :: _ => match openCx s sg 0 Head.plain with
    | some c =>
      if c.blocked || inPeer (codeAddr c.pc) then none
      else match translate sg.die (s.die sg.die) (codeAddr c.pc) false with
        | .ok (_, pa) => some (sg.die, pa, codeSlot c.pc)
        | .error _ => none
    | none => none
  | _ => none

/-- The state with a word where the next step fetches: at the PC of the sub-gang whose issue the agenda names, or
else at PC 0 of a group placed on die 0 for it. (DESIGN CHOICE: log 9) -/
def placeWord (s : State) (nbits w : Nat) : State :=
  match fetchPlace s with
  | some (dn, pa, slot) =>
    s.onDie dn fun d =>
      let d := physWrite (physWrite d (pa + 12 * slot) (wordBytes nbits w)) (pa + 60) (leBytes 4 0)
      { d with groups := d.groups.map fun e => (e.1, { e.2 with code := e.2.code.erase (codeKey dn pa) }) }
  | none =>
    let s := s.onDie 0 fun d => physWrite (benchDie d) 0x200000 (wordBytes nbits w)
    { s with agenda := .issue ⟨0, 0, 0, 0⟩ :: s.agenda }

end Sys2Proof.Machine
end

