-- ==== Sys2Proof/Machine/Step.lean ====
section
/-!
DEFINITION. One step of the module: the act at the head of the agenda, or the default order where the agenda is
empty. Every step takes a new number for the free values.
-/
namespace Sys2Proof.Machine

/-- The state with a word stored where the next step fetches its instruction. (DESIGN CHOICE: log 9) -/
def State.withFetchWord (s : State) (nbits w : Nat) : State := placeWord s nbits w

/-- The step with the number of free values taken counted on. -/
def counted : Host.Outcome State Fault Refusal → Host.Outcome State Fault Refusal
  | .next t => .next { t with free := t.free + 1 }
  | o => o

/-- One step. -/
def step (s : State) : Host.Outcome State Fault Refusal :=
  match s.agenda with
  | [] => counted (act s .auto)
  | a :: r => counted (act { s with agenda := r } a)

end Sys2Proof.Machine
end

