-- ==== Sys2Proof/Safety.lean ====
section
/-!
DEFINITION. What counts as a safe run, and the terms in which the statements speak: when the issuing sub-gang may
execute an instruction, what is read of a state, and the invariants of the state that every step keeps.
-/
namespace Sys2Proof

/-- Guard and hints of the operands. -/
def Ops.head : Ops → Head
  | .r o => o.h
  | .c o => o.h
  | .m o => o.h
  | .e o => o.h
  | .s o => o.h

end Sys2Proof

namespace Sys2Proof.Machine

/-! ### When an instruction executes -/

/-- The context in which the issuing sub-gang executes an instruction of opcode `op`: there is such a sub-gang, it is
not held back (R119), no quad of it vectors at a convergence point (R184), a privileged instruction stands in
supervisor state (R222), no register is illegal (R223), and no register has a result still to land (R130). `none`
where any of these fails. -/
def readyCx (s : State) (op : Nat) (ops : Ops) (h : Head) : Option Cx :=
  match s.cur with
  | none => none
  | some sg => match openCx s sg op h with
    | none => none
    | some c =>
      if c.blocked then none
      else
        let c := c.enter
        if convergenceOps.contains op && !c.sup && c.qs.any (fun q => (c.k.quad q).park ≠ 0) then none
        else if privileged op && !c.sup then none
        else if (regFault c.k c.grp.regs c.sup op ops).isSome then none
        else if interlocked c op ops h || !(c.oddQuads op ops).isEmpty then none
        else some c

/-- As `readyCx` for an instruction with a check of its own beside that of its registers (R223, R290, R312): that check
passes too. -/
def readyChecked (s : State) (op : Nat) (ops : Ops) (h : Head) (first : Cx → Option Cause) : Option Cx :=
  match readyCx s op ops h with
  | some c => if (first c).isSome then none else some c
  | none => none

/-- The context of an instruction as its checks find it: it is not held back, no quad of it vectors first. -/
def issuedCx (s : State) (op : Nat) (h : Head) : Option Cx :=
  match s.cur with
  | none => none
  | some sg => match openCx s sg op h with
    | none => none
    | some c =>
      if c.blocked then none
      else
        let c := c.enter
        if convergenceOps.contains op && !c.sup && c.qs.any (fun q => (c.k.quad q).park ≠ 0) then none else some c

/-! ### What is read of a state -/

/-- The gang of a sub-gang. -/
def gangIn (s : State) (sg : SubGang) : Gang :=
  match (s.die sg.die).group sg.gid with
  | some g => g.gang sg.gang
  | none => Gang.empty

/-- The gang of a context, as a sub-gang names it. -/
def Cx.where_ (c : Cx) : SubGang := ⟨c.dn, c.gid, c.gi, c.sgt⟩

/-- The context of a lane instruction that executes: index-bound faults are taken and the source ports popped; `none`
where it cannot execute, or waits for a port (R128, R137). -/
def laneReady (s : State) (op : Nat) (o : OpsR) : Option Cx :=
  match readyCx s op (.r o) o.h with
  | some c => c.prepare op (.r o) (destPort o.d)
  | none => none

/-- The state after a lane instruction whose lanes give `f` of the operand values: `wd`, `wa`, `wb`, `wc` say which of
the destination and the operands are pairs (R225). -/
def laneEnd (p : Cx) (o : OpsR) (wd wa wb wc : Bool) (f : Nat → DWord → DWord → DWord → Flagged) : State :=
  (p.finishLanes wd o.d fun l =>
    f l (at64 (p.src o.m.ty wa o.a) l) (at64 (p.src o.m.ty wb o.b) l) (at64 (p.src o.m.ty wc o.c) l)).finished

/-- The state after a scalar instruction that executes: the result `r` of the gang with its flags (R236, R237). -/
def scalarEnd (c : Cx) (o : OpsR) (wd : Bool) (r : Flagged) : State :=
  ((c.resultTy wd o.d c.em fun _ => r.1).raiseAll r.2).finished

/-- `e` is `c` once an instruction has entered its result in the last-result file, unless it carries `%nh` or runs in
supervisor state: every lane of the sub-gang's quads takes the values `new`, t0's first, before those that stood there,
and each quad counts the shifts (R127, R187). -/
def Cx.entered (c e : Cx) (new : Nat → List Word) : Prop :=
  (∀ i < 16, ∀ l < 32, (e.row (624 + i)).lane l =
    if (c.nh = false ∧ c.sup = false) ∧ inMask (quadLanes c.qs) l = true then
      (new l ++ (List.range 16).map fun j => (c.row (624 + j)).lane l).getD i 0
    else (c.row (624 + i)).lane l) ∧
  ∀ q, FMap.get 0 e.k.shifts q =
    FMap.get 0 c.k.shifts q + (if (c.nh = false ∧ c.sup = false) ∧ q ∈ c.qs then (new 0).length else 0)

/-- The context in which a scratchpad instruction of `n` bytes a lane executes: no acquire of the gang is pending (R81)
and its source ports can be read; the lanes whose access faults are to park, the ports of the others are popped (R132,
R137). `none` where it cannot execute, or waits. -/
def memReady (s : State) (op : Nat) (o : OpsM) (n : Nat) : Option Cx :=
  match readyCx s op (.m o) o.h with
  | some c =>
    if acquirePending c.s c.dn c.gid c.gi then none
    else (c.peekPorts op (.m o)).map fun c => (c.checkWindow o.win n (c.memOffset o)).popPeeked op (.m o)
  | none => none

/-- The context in which an engine or node instruction executes: no acquire of the gang is pending (R81), and its
source ports can be read (R137). -/
def engineReady (s : State) (op : Nat) (o : OpsE) : Option Cx :=
  match readyCx s op (.e o) o.h with
  | some c => if acquirePending c.s c.dn c.gid c.gi then none else c.peekPorts op (.e o)
  | none => none

/-- The byte at a physical address of a die. -/
def byteIn (s : State) (dn a : Nat) : Byte := (s.die dn).mem.read a

/-- Quad `q` of a sub-gang's gang. -/
def quadIn (s : State) (sg : SubGang) (q : Nat) : Quad := (gangIn s sg).quad q

/-! ### What an instruction leaves -/

/-- The state with gang `k` put in the place of the context's gang: beside it only the group as the context holds it
and the group's count of stalled cycles are written. -/
def Cx.put (c : Cx) (k : Gang) : State :=
  c.s.putGroup c.dn c.gid { c.grp with gangs := c.grp.gangs.set c.gi k, stalled := 0 }

/-- What becomes of a quad that takes no trap: PC advances, moves or stays (R250). -/
def QOut.apply (o : QOut) (u : Quad) : Quad :=
  match o with
  | .adv => u.advance
  | .jump pc => u.jumpTo pc
  | .hold => u
  | .trap _ _ _ => u

/-- The instruction of context `c` ends in state `t`: the gang is as the context holds it but for its count of
instructions and its quads, of which those of the sub-gang stand as `f` says, each under some tag (R122), and the
others as before. -/
def Cx.endsAs (c : Cx) (f : Nat → Quad) (t : State) : Prop :=
  ∃ k : Gang, t = c.put k ∧ k = { c.k with quads := k.quads, issued := c.k.issued + 1 } ∧
    k.quads.length = c.k.quads.length ∧
    ∀ q, k.quad q = if q ∈ c.qs then { f q with sgt := (k.quad q).sgt } else c.k.quad q

/-- The instruction of context `c` ends in `t`, and before its quads settle each quad of the sub-gang stands as `f`
says: what is to become of it, and its registers. Nothing else of the gang, the group or the module has changed. -/
def Cx.does (c : Cx) (f : Nat → QOut × Quad) (t : State) : Prop :=
  ∃ e : Cx, t = e.finished ∧ e = { c with k := e.k, out := e.out } ∧ e.k = { c.k with quads := e.k.quads } ∧
    ∀ q, if q ∈ c.qs then FMap.get .adv e.out q = (f q).1 ∧ e.k.quad q = (f q).2 else e.k.quad q = c.k.quad q

/-! ### Rounding, said without the functions that compute it -/

/-- How a × 2^p compares with b × 2^r. -/
def cmpPow (a : Nat) (p : Int) (b : Nat) (r : Int) : Ordering :=
  compare (a * 2 ^ (p - min p r).toNat) (b * 2 ^ (r - min p r).toNat)

/-- `n` × 2^q is the multiple of 2^q that a rounding mode gives for the magnitude of an exact value of sign `neg`; `cmp`
says how n × 2^q compares with that magnitude (R145). -/
def RoundsAt (mode : Nat) (neg : Bool) (cmp : Nat → Int → Ordering) (q : Int) (n : Nat) : Prop :=
  if mode = 0 then
    cmp (2 * n + 1) (q - 1) ≠ .lt ∧ (n ≠ 0 → cmp (2 * n - 1) (q - 1) ≠ .gt) ∧
      (cmp (2 * n + 1) (q - 1) = .eq ∨ (n ≠ 0 ∧ cmp (2 * n - 1) (q - 1) = .eq) → n % 2 = 0)
  else if (mode = 2 ∧ neg = true) ∨ (mode = 3 ∧ neg = false) then
    cmp n q ≠ .lt ∧ (n ≠ 0 → cmp (n - 1) q = .lt)
  else cmp n q ≠ .gt ∧ cmp (n + 1) q = .gt

/-- What an overflow gives where the format has infinities (R148, R232). -/
def overflowRule (f : FFmt) (mode : Nat) (neg : Bool) : Nat :=
  if mode = 0 ∨ (mode = 2 ∧ neg = true) ∨ (mode = 3 ∧ neg = false) then infOf f neg else maxOf f neg

/-- `r` is the exact nonzero value of sign `neg` and of the magnitude that `cmp` compares with, rounded once into a
format: with `beyond` where it exceeds the largest finite value, with X where it is inexact, with U too where it is then
tiny, and, where `fz`, as a zero in the place of a subnormal (R145, R146, R148, R232). -/
def RoundedOnce (f : FFmt) (mode : Nat) (fz neg : Bool) (cmp : Nat → Int → Ordering) (beyond r : FRes) : Prop :=
  let least : Int := 1 - f.bias
  ∃ (n : Nat) (q : Int) (n' : Nat) (q' : Int),
    least - f.mb ≤ q ∧ cmp (2 ^ (f.mb + 1)) q = .gt ∧ (q = least - f.mb ∨ cmp (2 ^ f.mb) q ≠ .gt) ∧
    RoundsAt mode neg cmp q n ∧
    cmp (2 ^ (f.mb + 1)) q' = .gt ∧ cmp (2 ^ f.mb) q' ≠ .gt ∧ RoundsAt mode neg cmp q' n' ∧
    ((∃ m e, fval f (maxOf f false) = .fin false m e ∧ cmpPow n q m e = .gt) → r = beyond) ∧
    ((∃ m e, fval f (maxOf f false) = .fin false m e ∧ cmpPow n q m e ≠ .gt) →
      r.1 < 2 ^ (1 + f.eb + f.mb) ∧ ∃ m e, fval f r.1 = .fin neg m e ∧
        if fz = true ∧ n ≠ 0 ∧ cmpPow n q 1 least = .lt then m = 0 ∧ r.2 = flagU ||| flagX
        else cmpPow m e n q = .eq ∧
          r.2 = (if cmp n q = .eq then 0 else if cmpPow n' q' 1 least = .lt then flagU ||| flagX else flagX))

/-- `RoundedOnce` with the overflow of the arithmetic instructions (R232). -/
def RoundedF (f : FFmt) (mode : Nat) (fz neg : Bool) (cmp : Nat → Int → Ordering) (r : FRes) : Prop :=
  RoundedOnce f mode fz neg cmp (overflowRule f mode neg, flagO ||| flagX) r

/-- The floating-point types (R141). -/
def formatTypes : List Ty := [.f32, .f16, .bf16, .e4m3, .e5m2, .f6]

/-- The exact integer ±m × 2^d. -/
def signedInt (neg : Bool) (m d : Nat) : Int := if neg then -((m * 2 ^ d : Nat) : Int) else ((m * 2 ^ d : Nat) : Int)

/-! ### Values that a context image has room for -/

/-- A quad whose values its block of a gang image holds (R310, R324). -/
def Quad.fits (u : Quad) : Bool :=
  u.ppc < 2 ^ 64 && u.pSgt < 8 && u.edepth < 256 && u.eclass < 256 && u.epc < 2 ^ 64 && u.lc.length = 3 &&
  u.fmt.toNat % 2 ^ 14 = 0 && u.stack.length ≤ 32 && u.calls.length ≤ 16 && u.reps.length ≤ 3 &&
  (u.stack.all fun e => e.kind < 3 && e.fmt.toNat % 2 ^ 14 = 0) && (u.calls.all fun e => e.ret < 2 ^ 53 && e.depth < 64) &&
  (u.reps.all fun e => e.first < 2 ^ 64 && e.stop < 2 ^ 64) &&
  match u.ywait with
  | some (n, m) => n < 64 && m < 64
  | none => true

/-- A fault record whose values its 32 bytes hold (R181). -/
def FaultRec.fits (r : FaultRec) : Bool :=
  r.cls < 256 && r.reason < 256 && r.gang < 2 ^ 16 && r.lane < 32 && r.opc < 256 && r.pc < 2 ^ 64 && r.addr < 2 ^ 64 &&
  r.loc < 2 ^ 16

/-- A gang whose values a gang image holds (R322). -/
def Gang.fits (k : Gang) : Bool :=
  k.quads.length ≤ 8 && k.quads.all Quad.fits && k.c < 256 && k.a < 256 &&
  ((List.range 32).all fun l => (FMap.get FaultRec.none k.records l).fits && FMap.get 4 k.kdFree l ≤ 4 &&
    (List.range 7).all fun j => (k.port j l).length ≤ 4) &&
  ((List.range 8).all fun i => (FMap.get (0, 0) k.xwin i).1 < 2 ^ 16 && (FMap.get (0, 0) k.xwin i).2 < 2 ^ 16) &&
  ((List.range 4).all fun i => match k.binds.find? i with
    | some v => v < 0xFFFF
    | none => true) &&
  match k.kdImport with
  | some v => v < 0xFFFF
  | none => true

/-- A group core whose values a core image holds (R131, R324). -/
def GroupCore.fits (h : GroupCore) : Bool :=
  (List.range 8).all fun i =>
    let w := FMap.get Win.none h.wins i
    w.base < 2 ^ 23 && w.base % 64 = 0 && w.extent < 2 ^ 24 && w.swz < 8

/-- A group whose numbers the header of its images holds (R323). -/
def Group.fits (g : Group) : Bool := g.regs < 256 && g.node < 2 ^ 32 && g.areaBytes < 2 ^ 32

/-! ### Invariants -/

/-- The device memory of every die is in its canonical form. -/
def State.memOk (s : State) : Bool := s.dies.all fun d => d.mem.wf

/-- There are the eight compute dies of R6. -/
def State.hasDies (s : State) : Bool := s.dies.length = 8

end Sys2Proof.Machine
end

