-- ==== Sys2Proof/Certificates/Slice0/Obligations.lean ====
section
/-!
DEFINITION. The statements for the provers, in the order of the chapters' areas: fetching and decoding, reset and
traps, lane instructions, control, memory and engines, the join engine, system state, and the steps of the other
agents.
-/

open Sys2Proof Sys2Proof.Machine

/-! ### Fetching and decoding -/

/-- R16, R119, R207, R208: where the agenda names the issue of a sub-gang that is not held back, on a module whose
compute clocks run, the block at its PC is read, and the word in its slot, of the block as its group sees it, decodes
to `i`, the step executes `i`, and then one cycle of the die passes (R7, `StepOrder`), and the model counts one step. A
line that has been written since the group started, on its own die or where an import leads, is seen as the group keeps
it (log entry 124); a step that meets a link that retrains waits instead (R36, log entry 105). (Where the spec leaves
room, this is the model's reading: log entry 5.) -/
def Obligations.StepRunsFetchedInstruction : Prop :=
  ∀ (s u t : State) (sg : SubGang) (r : List Act) (c : Cx) (now block : List Byte) (i : Instr),
    s.agenda = .issue sg :: r → s.hub.powered = true → s.hub.safe = false →
    openCx { s with agenda := r } sg 0 Head.plain = some c → c.blocked = false →
    memRead { s with agenda := r } sg.die (span (c.pc / 5 * 64) 64) = (.ok now, u) →
    (∀ d v l pa, placeOf u sg.die (c.pc / 5 * 64) = some (d, v) → translate d (u.die d) v false = .ok (l, pa) →
      block = ((c.grp.code.find? (codeKey d pa)).map KeptLine.seen).getD now) →
    ((∀ d v, placeOf u sg.die (c.pc / 5 * 64) = some (d, v) → ∃ e, translate d (u.die d) v false = .error e) →
      block = now) →
    decodeWord c.sup (leNat ((block.drop (12 * (c.pc % 5))).take 12)) = .ok i → leNat ((block.drop 60).take 4) = 0 →
    exec i { u with cur := some sg } = .next t → t.crossed = false →
    step s = .next { tick t.rested sg.die 1 with cur := none, free := t.free + 1 }

/-- R208, R223: the same step where the word does not decode: every quad of the sub-gang takes the illegal-instruction
or illegal-register trap that the decoder names. (Where the spec leaves room, this is the model's reading: log entries
5, 34, 105 and 124.) -/
def Obligations.UndecodableWordTraps : Prop :=
  ∀ (s u : State) (sg : SubGang) (r : List Act) (c c' : Cx) (now block : List Byte) (cause : Cause),
    s.agenda = .issue sg :: r → s.hub.powered = true → s.hub.safe = false →
    openCx { s with agenda := r } sg 0 Head.plain = some c → c.blocked = false →
    memRead { s with agenda := r } sg.die (span (c.pc / 5 * 64) 64) = (.ok now, u) →
    (∀ d v l pa, placeOf u sg.die (c.pc / 5 * 64) = some (d, v) → translate d (u.die d) v false = .ok (l, pa) →
      block = ((c.grp.code.find? (codeKey d pa)).map KeptLine.seen).getD now) →
    ((∀ d v, placeOf u sg.die (c.pc / 5 * 64) = some (d, v) → ∃ e, translate d (u.die d) v false = .error e) →
      block = now) →
    decodeBlock c.sup block (c.pc % 5) = .error cause →
    openCx u sg (wordHead block (c.pc % 5)).2 (wordHead block (c.pc % 5)).1 = some c' →
    ∃ t, t = ({ c'.enter with out := c'.qs.map fun q => (q, .trap cause.1 cause.2 0) } : Cx).finished ∧
      (t.crossed = false →
        step s = .next { tick t.rested sg.die 1 with cur := none, free := t.free + 1 })

/-- A step of another agent at the head of the agenda is that step's effect, counted; one that meets a link that retrains
leaves the state as it is (R36, log entry 105). In a module whose compute clocks are gated no sub-gang issues, no other
step that a compute die takes of itself does anything, and no cycle passes (R16). Cycles of a die that pass are counted
in CYC, and by every group of the die for which the condition of a port deadlock holds, which starts at 0 again where it
does not (R7, R138). With nothing on the agenda,
the first internal step that changes the state happens; where none does, the next ready sub-gang in rotation issues.
(The agenda and the default order are the model's own, within the freedom of R119 and R120: log entry 1.) (Where the
spec leaves room, this is the model's reading: log entry 5.) -/
def Obligations.StepOrder : Prop :=
  (∀ (s : State) (i : Instr) (r : List Act), s.agenda = .event i :: r → opcodeAndOps i = none →
    (needsClock i = true → s.hub.powered = true ∧ s.hub.safe = false) →
    ∀ t, exec i { s with agenda := r } = .next t →
      step s = counted (.next (if t.crossed = true then { s with agenda := r } else t.rested))) ∧
  (∀ (s : State), s.hub.powered = false ∨ s.hub.safe = true →
    (∀ sg, issue s sg = .next s) ∧ (∀ i, needsClock i = true → run i s = .next s) ∧ ∀ dn n, tick s dn n = s) ∧
  (∀ (s : State) (dn n : Nat), s.hub.powered = true → s.hub.safe = false → s.hasDies = true → dn < 8 →
    tick s dn n = s.setDie dn { s.die dn with
      cyc := (s.die dn).cyc + BitVec.ofNat 64 n
      groups := (s.die dn).groups.map fun e =>
        (e.1, { e.2 with stalled := if deadlocked s dn e.1 e.2 then e.2.stalled + n else 0 }) }) ∧
  (∀ (s t : State), s.agenda = [] →
    firstChange s (fun i => run i s) (linkActs s ++ (List.range 8).flatMap (internal s)) = some t →
    step s = counted (.next t)) ∧
  (∀ (s : State) (sg : SubGang), s.agenda = [] →
    firstChange s (fun i => run i s) (linkActs s ++ (List.range 8).flatMap (internal s)) = none →
    (rotated ((List.range 8).flatMap (subGangs s)) s.free).find? (ready s) = some sg →
    step s = counted (issue s sg))

/-- R206 to R219: every well-formed instruction has a word of 96 bits, and the decoder reads the instruction back
from it, every operand at every value that the encoding admits. -/
def Obligations.DecodeEncode : Prop :=
  ∀ (i : Instr) (op : Nat) (ops : Ops), opcodeAndOps i = some (op, ops) → i.wf = true →
    ∃ w, encode i = some w ∧ w < 2 ^ 96 ∧ decodeWord true w = .ok i

/-- R206 to R223: a word that decodes is the word of the instruction it decodes to, so no two words stand for one
instruction and no set bit of a word is dropped. -/
def Obligations.EncodeDecode : Prop :=
  ∀ (w : Nat) (i : Instr), w < 2 ^ 96 → decodeWord true w = .ok i → encode i = some w

/-- R206, R207, R220, R223: whatever the other bits, and in either state: a block whose trailer is not zero raises an
illegal-instruction trap with reason 3; a word with one of bits [72:70] or bit 95 set raises one with reason 2; and a
word with none of these set whose OPCODE is unassigned or whose FORMAT the opcode does not accept raises one with
reason 1. -/
def Obligations.MalformedWordsRefused : Prop :=
  (∀ (sup : Bool) (block : List Byte) (slot : Nat), leNat ((block.drop 60).take 4) ≠ 0 →
    decodeBlock sup block slot = .error (1, 3)) ∧
  (∀ (sup : Bool) (w : Nat), w / 2 ^ 70 % 8 ≠ 0 ∨ w / 2 ^ 95 % 2 ≠ 0 → decodeWord sup w = .error (1, 2)) ∧
  (∀ (sup : Bool) (w : Nat), w / 2 ^ 70 % 8 = 0 → w / 2 ^ 95 % 2 = 0 →
    shapeOf (w / 2 ^ 83 % 512) = none ∨ formatOk (w / 2 ^ 83 % 512) (w / 2 ^ 92 % 8) = false →
    decodeWord sup w = .error (1, 1))

/-- R206 to R221: the worked encodings of the spec decode to the instructions that it gives them: `vsub.i32 v5,
v4:rot1, v4`, `smul s10, s6, 32`, `ld.f32 v4, w2[v5+16]`, and `jmp` three instructions back. -/
def Obligations.WorkedWordsDecode : Prop :=
  decodeTableWord 96 0x00080000E000000020101005 =
    some (.vsub ⟨⟨7, false, 0, false, false⟩, ⟨.i32, 0, 0⟩, .v 5, .reg (.v 4) (.rot 1), .reg (.v 4) (.rot 0),
      .reg (.v 0) (.rot 0)⟩) ∧
  decodeTableWord 96 0x13100000E0000001000A1A8A =
    some (.smul ⟨⟨7, false, 0, false, false⟩, ⟨.i32, 0, 0⟩, .s 10, .reg (.s 6) (.rot 0), .imm 32,
      .reg (.v 0) (.rot 0)⟩) ∧
  decodeTableWord 96 0x3A001000E000000081401404 =
    some (.ld ⟨⟨7, false, 0, false, false⟩, ⟨.f32, 0, 0⟩, .v 4, 2, .v 5, 16, 0, .v 0⟩) ∧
  decodeTableWord 96 0x26400000E7FFFFFFE8000000 =
    some (.jmp ⟨⟨7, false, 0, false, false⟩, ⟨.i32, 0, 0⟩, .reg (.v 0), -3⟩)

/-! ### Reset and the invariants of a state -/

/-- R7, R9, R18, R27, R39, R45, R46, R61, R101, R160, R162, R163, R169, R186, R310: what the module holds at
power-good; and a quad as a group starts it (R121, R124, R151, R187). Three clauses are the model's choice, where the
spec gives no value: that no function reports a reset (`resetReports` is empty: log entry 2), that no image runs yet
(`running` is none: log entry 3), and that every byte of every die's memory is zero before phase 6 zero-fills it (log
entry 11). -/
def Obligations.ResetValues : Prop :=
  (let h := State.reset.hub
   h.safe = false ∧ h.ready = false ∧ h.slot = 0 ∧ h.phase = 0 ∧ h.code = 0 ∧ h.die = 0xF ∧ h.unit = 0xFFF ∧
   h.go = false ∧ h.mstat = 0 ∧ h.portst = 0 ∧ h.limit = 5800 ∧ h.holding = false ∧ h.mreq = [] ∧ h.mrsp = [] ∧ h.running = none) ∧
  State.reset.hasDies = true ∧ State.reset.resetReports = [] ∧
  (∀ n < 8,
    let d := State.reset.die n
    (d.ready = false ∧ d.offline = false ∧ d.quiesced = false ∧ d.apf = false ∧ d.apbase = 0 ∧ d.apfc = 0 ∧
     d.apfa = 0) ∧
    (∀ q, d.queue q = ⟨0, false, false, 0, 4, 0, 0, 0, 0, [], false, []⟩) ∧
    (d.ptroot = 0 ∧ d.rtbase = 0 ∧ d.impbase = 0 ∧ d.busy = false ∧ d.ftbase = 0 ∧ d.fttail = 0 ∧ d.fthead = 0 ∧
     d.ftready = 0 ∧ d.ftempty = false ∧ d.trapbase = 0 ∧ d.cyc = 0) ∧
    (d.tlb = [] ∧ d.exports_ = [] ∧ d.launches = [] ∧ d.groups = [] ∧ d.cmds = []) ∧
    d.ceiling = (if n % 2 = 0 then 740 else 525) ∧
    (∀ a, byteIn State.reset n a = 0) ∧
    ∀ j, (d.core j).owner = none ∧ (d.core j).waiters = [] ∧ (d.core j).drawers = [] ∧
      (d.core j).session = Session.closed ∧ (d.core j).cflags = 0 ∧ (d.core j).jstep = ⟨0, 0, 0, 0⟩ ∧
      (∀ t, FMap.get Tile.empty (d.core j).tiles t = ⟨[], 0x3F800000, false, false⟩) ∧
      ∀ t, FMap.get Tray.empty (d.core j).trays t = ⟨0xFFFFFFFFFFFFFFFF, false, []⟩) ∧
  ∀ pc sgt : Nat, let u := Quad.start pc sgt
    u.pc = pc ∧ u.sgt = sgt ∧ u.lmask = 0xF ∧ u.stack = [] ∧ u.fmt = 0xBB384000 ∧ u.lc = [0, 0, 0] ∧ u.reps = [] ∧
    u.calls = [] ∧ u.sup = false ∧ u.epc = 0 ∧ u.emask = 0 ∧ u.eflt = 0 ∧ u.edepth = 0 ∧ u.eclass = 0 ∧ u.park = 0 ∧
    u.released = 0 ∧ u.ended = 0 ∧ u.vflags = 0 ∧ u.ppc = 0 ∧ u.exited = false ∧ u.ywait = none

/-- The memory of every die is in its canonical form at reset. -/
def Obligations.ResetMemOk : Prop := State.reset.memOk = true

/-! ### Traps -/

/-- R186: the entry of vector n of the trap table is the 8 bytes at TRAPBASE + 16n: with V (bit 0) set it is valid and
its handler begins at the first instruction of the block whose address is in bits [55:6]; with V = 0, or where it
cannot be read, it is not valid. R180, R187, R309: a quad of the sub-gang in user state that takes a quad-scope cause,
where the entry of its class in the trap table is valid: EPC is the instruction, or the one after it for classes 14 and
15; EMASK is LMASK; EDEPTH the depth of the mask stack; ECLASS the class; EFLT and LMASK the faulters; SUP is set, PC
is the handler's, and the quad leaves its sub-gang and every wait. The record of its lowest faulter is written where it
held none. Nothing else of the gang changes, and no other quad. (Where the spec leaves room, this is the model's
reading: log entries 31, 33 and 53.) -/
def Obligations.TrapOfQuad : Prop :=
  (∀ (s t : State) (dn n : Nat), let entry := span ((s.die dn).trapbase + 16 * n) 8
    (∀ bs, memRead s dn entry = (.ok bs, t) → handlerPc s dn n =
      (if leNat bs % 2 = 1 then some (5 * (leNat bs / 2 ^ 6 % 2 ^ 50)) else none, t)) ∧
    ∀ e, memRead s dn entry = (.error e, t) → handlerPc s dn n = (none, t)) ∧
  ∀ (c : Cx) (q cls reason pc : Nat) (value : Word) (s' : State),
    q < c.k.quads.length → FMap.get .adv c.out q = .trap cls reason value → (c.k.quad q).allEnded = false →
    (c.k.quad q).sup = false → handlerPc c.s c.dn cls = (some pc, s') →
    ∃ k : Gang, settleQuad c q = { c with s := s', k := k } ∧
      k = { c.k with quads := k.quads, records := k.records } ∧
      (∀ p, p ≠ q → k.quad p = c.k.quad p) ∧
      k.quad q = { c.k.quad q with
        epc := if cls = 14 ∨ cls = 15 then (c.pc + 1) % (5 * 2 ^ 50) else c.pc
        emask := (c.k.quad q).lmask, eflt := faulters c q, edepth := (c.k.quad q).stack.length, eclass := cls
        sup := true, lmask := faulters c q, pc := pc, sgt := q, atRegang := false, poolWait := false
        barArrived := false, gsyncArrived := false, sigw := none, atMacq := false } ∧
      ∀ l, FMap.get FaultRec.none k.records l =
        if l = lowestLane (faulters c q) q ∧ (FMap.get FaultRec.none c.k.records l).cls = 0 then
          ⟨cls, reason, c.gi, l, c.op % 256, c.pc, 0, 0xFFFF, value⟩
        else FMap.get FaultRec.none c.k.records l

/-- R187, R190, R309: the faulters of a quad-scope cause are the active lanes of the quad whose guard is true; with none,
its live lanes; with none, the lanes that are not ended. In a quad whose lanes are all ended the cause is not taken: PC
advances by one. A cause in supervisor state, or whose entry in the trap table is not valid, makes the gang beyond
recovery with that class, unless it is so already; the quad does not vector. -/
def Obligations.TrapFaultersAndLoss : Prop :=
  ((∀ (c : Cx) (q : Nat),
    (quadBits c.em q ≠ 0 → faulters c q = quadBits c.em q) ∧
    (quadBits c.em q = 0 → (c.k.quad q).live ≠ 0 → faulters c q = (c.k.quad q).live) ∧
    (quadBits c.em q = 0 → (c.k.quad q).live = 0 → faulters c q = ~~~(c.k.quad q).ended)) ∧
  ∀ (c : Cx) (q cls reason : Nat) (value : Word), q < c.k.quads.length →
    FMap.get .adv c.out q = .trap cls reason value → (c.k.quad q).ended = 0xF →
    settleQuad c q = { c with k := c.k.onQuad q Quad.advance }) ∧
  (∀ (c : Cx) (q cls reason : Nat) (value : Word), q < c.k.quads.length →
    FMap.get .adv c.out q = .trap cls reason value → (c.k.quad q).allEnded = false →
    ((c.k.quad q).sup = true ∨ (handlerPc c.s c.dn cls).1 = none) →
    (settleQuad c q).k.lost = (if c.k.lost.isSome then c.k.lost else some (cls, c.k.issued)) ∧
    ∀ p, (settleQuad c q).k.quad p = c.k.quad p)

/-- R222: the ten privileged instructions raise an illegal-instruction trap with reason 5 in user state, in every quad
of the sub-gang; `trap`, `brkpt` and `sysrd` are not privileged: their own effect or checks decide in either state. -/
def Obligations.PrivilegedInstructions : Prop :=
  (∀ (s : State) (sg : SubGang) (c : Cx) (o : OpsS) (op : Nat) (i : Instr),
    (op, i) ∈ [(0x1C1, Instr.rfe o), (0x1C3, .syswr o), (0x1C4, .fltrd o), (0x1C5, .unpark o), (0x1C6, .pmap o),
      (0x1C7, .tlbinv o), (0x1C8, .gsave o), (0x1C9, .gload o), (0x1CA, .jfrz o), (0x1CB, .halt o)] →
    s.cur = some sg → openCx s sg op o.h = some c → c.blocked = false → c.sup = false →
    exec i s = .next ({ c.enter with out := c.qs.map fun q => (q, .trap 1 5 0) } : Cx).finished) ∧
  (∀ (s : State) (c : Cx) (o : OpsS), readyCx s 0x1C0 (.s o) o.h = some c →
    exec (.trap o) s = .next ({ c with out := c.trueQuads.map fun q =>
      (q, .trap 15 (o.imm.toNat % 256) o.imm) } : Cx).finished) ∧
  (∀ (s : State) (c : Cx) (o : OpsS), readyCx s 0x1CC (.s o) o.h = some c →
    exec (.brkpt o) s = .next ({ c with out := c.trueQuads.map fun q => (q, .trap 14 0 0) } : Cx).finished) ∧
  (∀ (s : State) (c : Cx) (o : OpsS),
    readyChecked s 0x1C2 (.s o) o.h (fun c => srCause o.a.number (o.m.variant = 1) false c.sup) = some c →
    o.m.variant ≠ 1 → exec (.sysrd o) s = .next
      (c.resultTy (srWide o.a.number) o.d c.em (c.srValue o.a.number)).finished)

/-- R188, R316, R318, R326: `rfe` and `unpark`. With PRE = 0 `rfe` acts on each quad of the sub-gang in turn, and
then the quads whose `yield` holds leave it. In a quad whose mask stack does not stand at EDEPTH it is an illegal
instruction with reason 6. Otherwise each lane of EFLT that is parked and not released is ended and the others are
unparked and their records cleared; LMASK is EMASK without ended lanes, SUP is 0 and PC is EPC, which closes the `rep`
levels whose bodies it leaves (R250); other lanes' parks
and records stay, and so does everything else of the gang. With PRE = 1 it stops each quad; after a restoring vector
it gives the quad back the PC, LMASK, PARK and SUP that the restored image holds, if `gload.gang` has succeeded
since that vector, and traps with reason 4 if not. `unpark` marks the parked lanes of each quad in which it executes
as released, and does nothing in a pre-emption. (That PARK of an ended lane is cleared is the model's reading, log
entry 26.) (Where the spec leaves room, this is the model's reading: log entries 84 and 119.) -/
def Obligations.RfeReturns : Prop :=
  let leaves := fun (reps : List RepLevel) (pc next : Nat) => reps.filter fun r =>
    !(r.first ≤ pc && pc < r.stop && !(r.first ≤ next && next < r.stop))
  ((∀ (s : State) (c : Cx) (o : OpsS), readyCx s 0x1C1 (.s o) o.h = some c → c.grp.pre = false →
    exec (.rfe o) s = .next
      ({ c.qs.foldl Cx.rfeQuad c with k := (c.qs.foldl Cx.rfeQuad c).k.wake } : Cx).finished) ∧
  (∀ (c : Cx) (q : Nat), (c.k.quad q).stack.length ≠ (c.k.quad q).edepth → q < c.k.quads.length →
    (c.rfeQuad q).out = c.out ++ [(q, .trap 1 6 0)] ∧ (c.rfeQuad q).s = c.s ∧ ∀ p, (c.rfeQuad q).k.quad p = c.k.quad p) ∧
  ∀ (c : Cx) (q : Nat), (c.k.quad q).stack.length = (c.k.quad q).edepth → q < c.k.quads.length →
    let u := c.k.quad q
    let dead := u.eflt &&& u.park &&& ~~~u.released
    let t := c.rfeQuad q
    t.out = c.out ++ [(q, .hold)] ∧
    t.k = { c.k with quads := t.k.quads, records := t.k.records, parkedAt := t.k.parkedAt } ∧
    (∀ p, p ≠ q → t.k.quad p = c.k.quad p) ∧
    t.k.quad q = { u with
      sup := false, pc := u.epc % (5 * 2 ^ 50), reps := leaves u.reps u.pc (u.epc % (5 * 2 ^ 50)), ended := u.ended ||| dead, lmask := u.emask &&& ~~~(u.ended ||| dead)
      park := u.park &&& ~~~u.eflt, released := u.released &&& ~~~u.eflt
      stack := u.stack.map fun e => { e with mask := e.mask &&& ~~~dead } } ∧
    (∀ i < 4, FMap.get FaultRec.none t.k.records (4 * q + i) =
      if u.eflt.getLsbD i ∧ ¬ dead.getLsbD i then { FMap.get FaultRec.none c.k.records (4 * q + i) with cls := 0 }
      else FMap.get FaultRec.none c.k.records (4 * q + i)) ∧
    ∀ l, l / 4 ≠ q → FMap.get FaultRec.none t.k.records l = FMap.get FaultRec.none c.k.records l) ∧
  ((∀ (s : State) (c : Cx) (o : OpsS), readyCx s 0x1C1 (.s o) o.h = some c → c.grp.pre = true → c.sup = true →
    exec (.rfe o) s = .next (finishRestore (c.qs.foldl Cx.rfePre c).finished c.dn c.gid)) ∧
  ∀ (c : Cx) (q : Nat), q < c.k.quads.length →
    let u := c.k.quad q
    let t := c.rfePre q
    (c.grp.restore = false → t = { c with k := t.k, out := c.out ++ [(q, .hold)] } ∧
      t.k.quad q = { u with stopped := true }) ∧
    (c.grp.restore = true → c.k.loaded = false → t.k.quad q = u ∧ t.out = c.out ++ [(q, .trap 1 4 0)]) ∧
    (c.grp.restore = true → c.k.loaded = true → t = { c with k := t.k, out := c.out ++ [(q, .hold)] } ∧
      t.k.quad q = { u with pc := u.ppc % (5 * 2 ^ 50), reps := leaves u.reps u.pc (u.ppc % (5 * 2 ^ 50)), lmask := u.pLmask, park := u.pPark, sup := u.pSup, held := 0,
                            stopped := true }) ∧
    ∀ p, p ≠ q → t.k.quad p = c.k.quad p) ∧
  (∀ (s : State) (o : OpsS) (c : Cx), readyCx s 0x1C5 (.s o) o.h = some c →
    ∃ t, exec (.unpark o) s = .next t ∧ c.does (fun q =>
      let u := c.k.quad q
      (.adv, if c.grp.pre then u else { u with released := u.released ||| (u.park &&& quadBits c.em q) })) t)

/-- R190, R317: `halt` makes the gang beyond recovery with the class of its first halting quad's last vector, or with
15 in a pre-emption, unless it is beyond recovery already; the halting quads stay where they are. -/
def Obligations.HaltLosesGroup : Prop :=
  ∀ (s : State) (c : Cx) (o : OpsS) (q : Nat) (r : List Nat), readyCx s 0x1CB (.s o) o.h = some c →
    c.trueQuads = q :: r →
    ∃ t, exec (.halt o) s = .next t ∧
      (gangIn t c.where_).lost =
        (if c.k.lost.isSome then c.k.lost else some (if c.grp.pre then 15 else (c.k.quad q).eclass, c.k.issued)) ∧
      ∀ p ∈ c.trueQuads, quadIn t c.where_ p = { c.k.quad p with sgt := (quadIn t c.where_ p).sgt }

/-! ### Every instruction -/

/-- R224: no instruction, whatever the state and its operands, ends in a fault or a refusal of the model: it completes,
stalls or traps. -/
def Obligations.InstructionsNeverStop : Prop :=
  ∀ (i : Instr) (op : Nat) (ops : Ops) (s : State), opcodeAndOps i = some (op, ops) → ∃ t, exec i s = .next t

/-- R119, R130: an instruction of a sub-gang that is held back, or one that reads or writes a register in which a
command's result has still to land, does nothing; it waits. (Where the spec leaves room, this is the model's
reading: log entry 118.) -/
def Obligations.WaitingInstructions : Prop :=
  ∀ (i : Instr) (op : Nat) (ops : Ops) (s : State) (c : Cx), opcodeAndOps i = some (op, ops) →
    (∀ sg, s.cur = some sg → openCx s sg op ops.head = some c → c.blocked = true → exec i s = .next s) ∧
    (op < 0x180 → issuedCx s op ops.head = some c → regFault c.k c.grp.regs c.sup op ops = none →
      interlocked c op ops ops.head = true → exec i s = .next s)

/-- R126, R136, R182, R187, R213 to R215, R223: an instruction that names an illegal register in a position has no
effect but the trap: every quad of the sub-gang takes class 2 with the reason of the first position that fails. (The
join instructions test ownership before the checks that depend on the position; a privileged one is turned away in user
state.) (Where the spec leaves room, this is the model's reading:
log entries 17, 18, 47 and 48.) -/
def Obligations.IllegalRegisterTraps : Prop :=
  ∀ (i : Instr) (op : Nat) (ops : Ops) (s : State) (c : Cx) (n : Nat), opcodeAndOps i = some (op, ops) →
    op < 0x180 ∨ 0x1C0 ≤ op → issuedCx s op ops.head = some c → (privileged op = true → c.sup = true) →
    regFault c.k c.grp.regs c.sup op ops = some n →
    exec i s = .next ({ c with out := c.qs.map fun q => (q, .trap 2 n 0) } : Cx).finished

/-! ### Lane and scalar arithmetic -/

/-- R148, R229: a result formed exactly and brought to an integer type. Without `.sat` it is the one integer of the
type's range that differs from the exact result by a multiple of 2^w; with `.sat` it is clamped to the range, and O is
raised when it clamps. A register holds it extended by the sign for signed types and by zeros for the others. -/
def Obligations.IntegerResults : Prop :=
  ∀ (t : Ty) (n : Int), t.code < 8 →
    (∃ m : Int, t.int (finishInt t false n).1 = n + m * 2 ^ t.width) ∧ (finishInt t false n).2 = 0 ∧
    t.int (finishInt t true n).1 = max t.least (min t.greatest n) ∧
    (finishInt t true n).2 = (if n < t.least ∨ t.greatest < n then 0b000100 else 0) ∧
    ∀ sat, t.least ≤ t.int (finishInt t sat n).1 ∧ t.int (finishInt t sat n).1 ≤ t.greatest ∧
      (t.width ≠ 64 → (finishInt t sat n).1.toNat < 2 ^ 32 ∧
        t.int (finishInt t sat n).1 =
          (if t.signed then ((finishInt t sat n).1.setWidth 32).toInt else (finishInt t sat n).1.toNat))

/-- R230: shifts, fields and bit reversal, on the words they work on: a shift of the width or more gives 0, or the sign
for `vshr` of an i type; `vbfi` replaces bits [pos + len − 1 : pos] and keeps the others. -/
def Obligations.ShiftAndFieldResults : Prop :=
  (∀ (a : DWord) (n : Nat),
    (shiftLeft .i32 a n).setWidth 32 = (a.setWidth 32 : Word) <<< n ∧ shiftLeft .i64 a n = a <<< n ∧
    (shiftLeft .n32 a n).setWidth 32 = (a.setWidth 32 : Word) <<< n ∧ shiftLeft .n64 a n = a <<< n ∧
    (shiftRight .i32 a n).setWidth 32 = (a.setWidth 32 : Word).sshiftRight n ∧
    shiftRight .i64 a n = a.sshiftRight n ∧
    (shiftRight .n32 a n).setWidth 32 = (a.setWidth 32 : Word) >>> n ∧ shiftRight .n64 a n = a >>> n) ∧
  (∀ (d a b c : Word) (i : Nat), i < 32 →
    let pos := b.toNat % 32
    let len := min (c.toNat % 64) (32 - pos)
    (insertField d a b c).getLsbD i = (if pos ≤ i ∧ i < pos + len then a.getLsbD (i - pos) else d.getLsbD i) ∧
    (extractField .n32 a b c).getLsbD i = (decide (i < len) && a.getLsbD (pos + i)) ∧
    (0 < len → (extractField .i32 a b c).getLsbD i = a.getLsbD (pos + min i (len - 1)))) ∧
  (∀ (v : Word) (i : Nat), i < 32 → (bitReverse v).getLsbD i = v.getLsbD (31 - i)) ∧
  ∀ v : Word, v ≠ 0 → leadingZeros v < 32 ∧ v.getLsbD (31 - leadingZeros v) = true ∧
    ∀ i, 31 - leadingZeros v < i → v.getLsbD i = false

/-- R145: rounding the quotient of an integer by a power of two. It is one of the two neighbouring integers, exact
where the remainder is 0; nearest even takes the nearer and the even one of two equally near; toward zero, down and up
take the one their names say, by the sign. R145, R146, R147, R232, R233: in each arithmetic format a sum, a product, a
quotient and a × b + c of finite values is the exact one rounded once, an exact zero has the sign of IEEE 754, and the
special operands give what the tables say. -/
def Obligations.RoundingModes : Prop :=
  (∀ (mode : Nat) (neg : Bool) (m k : Nat),
    let q := (roundShift mode neg m k).1
    ((roundShift mode neg m k).2 = true ↔ 2 ^ k ∣ m) ∧
    (2 ^ k ∣ m → q * 2 ^ k = m) ∧ (q = m / 2 ^ k ∨ q = m / 2 ^ k + 1) ∧
    (mode = 0 → 2 * (q * 2 ^ k) ≤ 2 * m + 2 ^ k ∧ 2 * m ≤ 2 * (q * 2 ^ k) + 2 ^ k ∧
      (2 * (q * 2 ^ k) = 2 * m + 2 ^ k ∨ 2 * m = 2 * (q * 2 ^ k) + 2 ^ k → q % 2 = 0)) ∧
    (mode = 1 → q = m / 2 ^ k) ∧
    (mode = 2 → if neg then m ≤ q * 2 ^ k else q = m / 2 ^ k) ∧
    (mode = 3 → if neg then q = m / 2 ^ k else m ≤ q * 2 ^ k)) ∧
  ∀ f ∈ [ffmt .f32, ffmt .f16, ffmt .bf16], ∀ (mode : Nat) (fz : Bool), mode < 4 →
    let add := addF f mode fz
    let mul := mulF f mode fz
    let div := divF f mode fz
    let fma := fmaF f mode fz
    let nan : FRes := (f.nan, flagI)
    (∀ a b : FVal, a.isNan = true ∨ b.isNan = true →
      let r : FRes := (f.nan, if a.snan || b.snan then flagI else 0)
      add a b = r ∧ mul a b = r ∧ div a b = r ∧
        ∀ c, fma a b c = (f.nan, if a.snan || b.snan || c.snan then flagI else 0)) ∧
    (∀ (n k : Bool) (m : Nat) (e : Int) (c : FVal),
      add (.inf n) (.inf k) = (if n = k then (infOf f n, 0) else nan) ∧
      add (.inf n) (.fin k m e) = (infOf f n, 0) ∧ add (.fin k m e) (.inf n) = (infOf f n, 0) ∧
      mul (.inf n) (.inf k) = (infOf f (n != k), 0) ∧
      mul (.inf n) (.fin k m e) = (if m = 0 then nan else (infOf f (n != k), 0)) ∧
      mul (.fin k m e) (.inf n) = (if m = 0 then nan else (infOf f (n != k), 0)) ∧
      div (.inf n) (.inf k) = nan ∧ div (.inf n) (.fin k m e) = (infOf f (n != k), 0) ∧
      div (.fin k m e) (.inf n) = (zeroOf f (n != k), 0) ∧
      fma (.inf n) (.inf k) c = add (.inf (n != k)) c ∧
      fma (.inf n) (.fin k m e) c = (if m = 0 then nan else add (.inf (n != k)) c) ∧
      fma (.fin k m e) (.inf n) c = (if m = 0 then nan else add (.inf (n != k)) c)) ∧
    ∀ (na nb : Bool) (ma mb : Nat) (ea eb : Int),
      let a : FVal := .fin na ma ea
      let b : FVal := .fin nb mb eb
      let t := signedInt na ma (ea - min ea eb).toNat + signedInt nb mb (eb - min ea eb).toNat
      (t = 0 → add a b = (zeroOf f (if na = nb then na else mode = 2), 0)) ∧
      (t ≠ 0 → RoundedF f mode fz (t < 0) (fun n q => cmpPow n q t.natAbs (min ea eb)) (add a b)) ∧
      (ma * mb = 0 → mul a b = (zeroOf f (na != nb), 0)) ∧
      (ma * mb ≠ 0 → RoundedF f mode fz (na != nb) (fun n q => cmpPow n q (ma * mb) (ea + eb)) (mul a b)) ∧
      (mb = 0 → div a b = if ma = 0 then nan else (infOf f (na != nb), flagZ)) ∧
      (mb ≠ 0 → ma = 0 → div a b = (zeroOf f (na != nb), 0)) ∧
      (mb ≠ 0 → ma ≠ 0 →
        RoundedF f mode fz (na != nb) (fun n q => cmpPow (n * mb) (q + eb) ma ea) (div a b)) ∧
      (∀ s, fma a b (.nan s) = (f.nan, if s then flagI else 0)) ∧
      (∀ n, fma a b (.inf n) = (infOf f n, 0)) ∧
      ∀ nc mc ec, let e := min (ea + eb) ec
        let t := signedInt (na != nb) (ma * mb) (ea + eb - e).toNat + signedInt nc mc (ec - e).toNat
        (t = 0 → fma a b (.fin nc mc ec) = (zeroOf f (if (na != nb) = nc then nc else mode = 2), 0)) ∧
        (t ≠ 0 → RoundedF f mode fz (t < 0) (fun n q => cmpPow n q t.natAbs e) (fma a b (.fin nc mc ec)))

/-- R225 to R231: the integer vector instructions complete, in the lanes that execute, with the results the rules give:
the typed ones exact before they are wrapped or clamped, the others on the words or pairs of their operands. -/
def Obligations.IntegerInstructions : Prop :=
  ∀ (s : State) (o : OpsR) (p : Cx),
    let t := o.m.ty
    let w := t.wide
    (∀ x ∈ ([(0x000, .vadd o, fun a b _ => a + b), (0x001, .vsub o, fun a b _ => a - b),
        (0x002, .vmul o, fun a b _ => a * b), (0x003, .vmulhi o, fun a b _ => a * b / 2 ^ 32),
        (0x004, .vmad o, fun a b c => a * b + c), (0x005, .vneg o, fun a _ _ => -a),
        (0x006, .vabs o, fun a _ _ => if a < 0 then -a else a), (0x007, .vmin o, fun a b _ => if a ≤ b then a else b),
        (0x008, .vmax o, fun a b _ => if a ≤ b then b else a)] : List (Nat × Instr × (Int → Int → Int → Int))),
      laneReady s x.1 o = some p → exec x.2.1 s = .next (laneEnd p o w w w w fun _ a b c =>
        finishInt t (o.m.flags % 2 = 1) (x.2.2 (t.int a) (t.int b) (t.int c)))) ∧
    (∀ x ∈ ([(0x009, .vand o, fun a b => a &&& b), (0x00A, .vor o, fun a b => a ||| b),
        (0x00B, .vxor o, fun a b => a ^^^ b), (0x00C, .vnot o, fun a _ => ~~~a), (0x017, .vmov o, fun a _ => a),
        (0x00D, .vshl o, fun a b => shiftLeft t a (b.toNat % 2 ^ 32)),
        (0x00E, .vshr o, fun a b => shiftRight t a (b.toNat % 2 ^ 32))] :
          List (Nat × Instr × (DWord → DWord → DWord))),
      laneReady s x.1 o = some p → exec x.2.1 s = .next (laneEnd p o w w w w fun _ a b _ => (x.2.2 a b, 0))) ∧
    (∀ x ∈ ([(0x00F, .vrot o, fun a b _ => a.rotateLeft (b.toNat % 32)),
        (0x010, .vpopc o, fun a _ _ => BitVec.ofNat 32 (popCount a)),
        (0x011, .vclz o, fun a _ _ => BitVec.ofNat 32 (leadingZeros a)), (0x012, .vbrev o, fun a _ _ => bitReverse a),
        (0x013, .vbfx o, extractField t), (0x01B, .vlea o, fun a b c => a + b <<< (c.toNat % 32)),
        (0x087, .vsplit6 o, fun a _ _ => if o.m.variant = 0 then (a >>> 2) &&& 0xF else a &&& 3),
        (0x088, .vjoin6 o, fun a b _ => (a &&& 0xF) <<< 2 ||| (b &&& 3))] :
          List (Nat × Instr × (Word → Word → Word → Word))),
      laneReady s x.1 o = some p → exec x.2.1 s = .next (laneEnd p o false false false false fun _ a b c =>
        ((x.2.2 (a.setWidth 32) (b.setWidth 32) (c.setWidth 32)).setWidth 64, 0))) ∧
    (laneReady s 0x014 o = some p → exec (.vbfi o) s = .next (laneEnd p o false false false false fun l a b c =>
      ((insertField (p.reg o.d l) (a.setWidth 32) (b.setWidth 32) (c.setWidth 32)).setWidth 64, 0))) ∧
    (laneReady s 0x015 o = some p → exec (.vcmp o) s = .next (laneEnd p o false w w false fun _ a b _ =>
      (if compareInt o.m.variant (t.int a) (t.int b) then 1 else 0, 0))) ∧
    (laneReady s 0x016 o = some p → exec (.vsel o) s = .next (laneEnd p o w w w false fun _ a b c =>
      (if c.setWidth 32 = (0 : Word) then b else a, 0))) ∧
    (laneReady s 0x018 o = some p → exec (.vmovi o) s = .next (laneEnd p o false false false false fun l a _ _ =>
      ((match o.m.variant with
        | 1 => (p.reg o.d l &&& 0xFFFF0000) ||| (a.setWidth 32 &&& 0xFFFF)
        | 2 => (p.reg o.d l &&& 0xFFFF) ||| (a.setWidth 32 <<< 16)
        | _ => a.setWidth 32 : Word).setWidth 64, 0))) ∧
    (laneReady s 0x019 o = some p → exec (.vdot4 o) s = .next (laneEnd p o false false false false fun _ a b c =>
      finishInt .i32 (o.m.flags % 2 = 1) (Ty.i32.int c + dotSum 8 o.m.variant (a.setWidth 32) (b.setWidth 32)))) ∧
    (laneReady s 0x01A o = some p → exec (.vdot8 o) s = .next (laneEnd p o false false false false fun _ a b c =>
      finishInt .i32 (o.m.flags % 2 = 1) (Ty.i32.int c + dotSum 4 o.m.variant (a.setWidth 32) (b.setWidth 32))))

/-- R145, R146, R228, R232 to R235: the floating-point vector instructions complete, in the lanes that execute, with
the operation of their format on the operand values, under the rounding mode and the flush of subnormals that the
instruction or the lane's quad asks for, rounded once. R233: √a, 1 ÷ √a, 2^a and log2 a have the special results of the
table; the roots are the exact ones rounded once, and so are 2^a at an integer and log2 a at a power of two; 2^a
elsewhere is inexact, and both are right on the values written out. (Where the spec leaves room, this is the model's
reading: log entries 24, 25 and 27.) -/
def Obligations.FloatInstructions : Prop :=
  (∀ (s : State) (o : OpsR) (p : Cx),
    let f := ffmt o.m.ty
    let val := fun l (v : DWord) => operandF f (p.flush o.m l) v.toNat
    (∀ x ∈ ([(0x040, .vfadd o, fun m z a b _ => addF f m z a b), (0x041, .vfsub o, fun m z a b _ => addF f m z a b.negate),
        (0x042, .vfmul o, fun m z a b _ => mulF f m z a b), (0x043, .vffma o, fun m z a b c => fmaF f m z a b c),
        (0x047, .vfrcp o, fun m z a _ _ => divF f m z (.fin false 1 0) a),
        (0x048, .vfrsq o, fun m z a _ _ => rsqrtF f m z a), (0x049, .vfsqrt o, fun m z a _ _ => sqrtF f m z a),
        (0x04A, .vfexp2 o, fun m z a _ _ => exp2F f m z a), (0x04B, .vflog2 o, fun m z a _ _ => log2F f m z a),
        (0x04D, .vfdiv o, fun m z a b _ => divF f m z a b)] :
          List (Nat × Instr × (Nat → Bool → FVal → FVal → FVal → FRes))),
      laneReady s x.1 o = some p → exec x.2.1 s = .next (laneEnd p o false false false false fun l a b c =>
        flagged (x.2.2 (p.mode o.m l) (p.flush o.m l) (val l a) (val l b) (val l c)))) ∧
    (∀ x ∈ ([(0x044, .vfmin o, false), (0x045, .vfmax o, true)] : List (Nat × Instr × Bool)),
      laneReady s x.1 o = some p → exec x.2.1 s = .next (laneEnd p o false false false false fun l a b _ =>
        flagged (minmaxF f (p.flush o.m l) x.2.2 a.toNat b.toNat))) ∧
    (laneReady s 0x046 o = some p → exec (.vfcmp o) s = .next (laneEnd p o false false false false fun l a b _ =>
      (if (compareF o.m.variant (val l a) (val l b)).1 then 1 else 0,
        (compareF o.m.variant (val l a) (val l b)).2))) ∧
    (laneReady s 0x04C o = some p → exec (.vfclass o) s = .next (laneEnd p o false false false false fun l a _ _ =>
      (BitVec.ofNat 64 (classF f (p.flush o.m l) a.toNat), 0)))) ∧
  (∀ f ∈ [ffmt .f32, ffmt .f16, ffmt .bf16], ∀ (mode : Nat) (fz : Bool), mode < 4 →
    let root := sqrtF f mode fz
    let iroot := rsqrtF f mode fz
    let power := exp2F f mode fz
    let log := log2F f mode fz
    let nan : FRes := (f.nan, flagI)
    (∀ s, ∀ g ∈ [root, iroot, power, log], g (.nan s) = (f.nan, if s then flagI else 0)) ∧
    root (.inf true) = nan ∧ root (.inf false) = (infOf f false, 0) ∧
    iroot (.inf true) = nan ∧ iroot (.inf false) = (zeroOf f false, 0) ∧
    power (.inf true) = (zeroOf f false, 0) ∧ power (.inf false) = (infOf f false, 0) ∧
    log (.inf true) = nan ∧ log (.inf false) = (infOf f false, 0) ∧
    (∀ n e, root (.fin n 0 e) = (zeroOf f n, 0) ∧ iroot (.fin n 0 e) = (infOf f n, flagZ) ∧
      log (.fin n 0 e) = (infOf f true, flagZ) ∧
      RoundedF f mode fz false (fun a q => cmpPow a q 1 0) (power (.fin n 0 e))) ∧
    ∀ m e, m ≠ 0 →
      root (.fin true m e) = nan ∧ iroot (.fin true m e) = nan ∧ log (.fin true m e) = nan ∧
      RoundedF f mode fz false (fun n q => cmpPow (n * n) (2 * q) m e) (root (.fin false m e)) ∧
      RoundedF f mode fz false (fun n q => cmpPow (n * n * m) (2 * q + e) 1 0) (iroot (.fin false m e)) ∧
      (∀ neg (i : Int), cmpPow m e i.natAbs 0 = .eq → neg = decide (i < 0) → (Nat.log2 m : Int) + e < 12 →
        RoundedF f mode fz false (fun n q => cmpPow n q 1 i) (power (.fin neg m e))) ∧
      (∀ neg, -320 ≤ e → (∀ i, cmpPow m e i 0 ≠ .eq) → (power (.fin neg m e)).2.getLsbD 0 = true) ∧
      ∀ j : Nat, m = 2 ^ j → let k : Int := (j : Int) + e
        if k = 0 then log (.fin false m e) = (zeroOf f false, 0)
        else RoundedF f mode fz (k < 0) (fun n q => cmpPow n q k.natAbs 0) (log (.fin false m e))) ∧
  exp2F f32 0 false (fval f32 0x3F000000) = (0x3FB504F3, flagX) ∧
  exp2F f32 3 false (fval f32 0x3F000000) = (0x3FB504F4, flagX) ∧
  exp2F f32 0 false (fval f32 0xC0490FDB) = (0x3DE8118D, flagX) ∧
  exp2F (ffmt .f16) 0 false (fval (ffmt .f16) 0x3800) = (0x3DA8, flagX) ∧
  log2F f32 0 false (fval f32 0x40400000) = (0x3FCAE00D, flagX) ∧
  log2F f32 1 false (fval f32 0x41200000) = (0x40549A78, flagX) ∧
  log2F f32 0 false (fval f32 0x3F7FFFFF) = (0xB3B8AA3C, flagX) ∧
  log2F (ffmt .bf16) 0 false (fval (ffmt .bf16) 0x4040) = (0x3FCB, flagX)

/-- R238 to R242: conversions, packing, planes and `fmt`. `vpack` puts the low bits, or under `.sat` the clamped value,
into field N and keeps the rest; `vunpk` extends field N by its type; `vplx` gathers a plane over the present lanes;
`vpli` inserts a plane; `sfmt` gives each quad the value of its lowest executing lane, or traps with reason 4, and a
quad that traps pops no port and parks no lane. R148: a conversion is the exact value rounded once, with the overflow
of its destination; to an integer it is rounded and clamped, with I where it is out of range. (Where the spec leaves
room, this is the model's reading: log entries 21 and 23.) -/
def Obligations.ConversionInstructions : Prop :=
  ∀ (s : State) (o : OpsR) (p : Cx),
    let w := packWidth o.m
    let field := fun (v : DWord) => v.toNat / 2 ^ (w * o.m.variant) % 2 ^ w
    (laneReady s 0x080 o = some p → exec (.vcvt o) s = .next (laneEnd p o false false false false fun l a _ _ =>
      flagged (convertF (ffmt (convSource o.m.variant)) (ffmt o.m.ty) (p.mode o.m l) (p.flush o.m l) (p.satc l)
        a.toNat))) ∧
    (laneReady s 0x081 o = some p → exec (.vfcvti o) s =
      .next (laneEnd p o o.m.ty.wide false false false fun l a _ _ =>
        convertToInt (ffmt (convSource o.m.variant)) o.m.ty (p.mode o.m l) (p.flush o.m l) a.toNat)) ∧
    (laneReady s 0x082 o = some p →
      let src := p.src (intSource o.m.variant) (intSource o.m.variant).wide o.a
      exec (.vicvtf o) s = .next (p.finishLanes false o.d fun l =>
        flagged (convertFromInt (ffmt o.m.ty) (p.mode o.m l) (p.satc l)
          ((intSource o.m.variant).int (at64 src l)))).finished) ∧
    (laneReady s 0x083 o = some p → ∃ g : Nat → DWord → Flagged,
      exec (.vpack o) s = .next (laneEnd p o false false false false fun l a _ _ => g l a) ∧
      ∀ l a, let x := if o.m.ty.signed then (a.setWidth 32 : Word).toInt else ((a.setWidth 32 : Word).toNat : Int)
        let lo : Int := if o.m.ty.signed then -(2 ^ (w - 1)) else 0
        let hi : Int := if o.m.ty.signed then 2 ^ (w - 1) - 1 else 2 ^ w - 1
        let y := if o.m.flags % 2 = 1 then max lo (min hi x) else x
        (w * o.m.variant + w ≤ 32 → (field (g l a).1 : Int) = y % 2 ^ w ∧
          (∀ i < 32, i < w * o.m.variant ∨ w * o.m.variant + w ≤ i →
            (g l a).1.getLsbD i = (p.reg o.d l).getLsbD i)) ∧
        (g l a).2 = (if o.m.flags % 2 = 1 ∧ x ≠ y then 0b000100 else 0)) ∧
    (laneReady s 0x084 o = some p → exec (.vunpk o) s = .next (laneEnd p o false false false false fun _ a _ _ =>
      (if o.m.ty.signed ∧ 2 ^ (w - 1) ≤ field a then (BitVec.ofInt 32 ((field a : Int) - 2 ^ w)).setWidth 64
        else BitVec.ofNat 64 (field a), 0))) ∧
    (laneReady s 0x085 o = some p → exec (.vplx o) s =
      .next (p.finishLanes false o.d fun l =>
        ((maskOf fun i => inMask (p.runs &&& ~~~p.helpers) i &&
          (at32 (p.src .i32 false o.a) i).getLsbD (7 - (at32 (p.src .i32 false o.b) l).toNat % 8)).setWidth 64,
          0)).finished) ∧
    (laneReady s 0x086 o = some p → ∃ g : Nat → DWord → DWord → Word,
      exec (.vpli o) s = .next (laneEnd p o false false false false fun l a b _ => ((g l a b).setWidth 64, 0)) ∧
      ∀ l a b, l < 32 → (∀ i < 8, (g l a b).getLsbD i =
          if i = 7 - b.toNat % 8 then a.getLsbD l else (p.reg o.d l).getLsbD i) ∧
        ∀ i < 32, 8 ≤ i → (g l a b).getLsbD i = (g l a b).getLsbD 7) ∧
    (∀ c, readyCx s 0x089 (.r o) o.h = some c → c.peekPorts 0x089 (.r o) = none → exec (.sfmt o) s = .next s) ∧
    (∀ c, readyCx s 0x089 (.r o) o.h = some c → c.peekPorts 0x089 (.r o) = some p → p.qs.Nodup →
      let value := fun q => if q ∈ p.qs then (lowest (p.runs &&& spread 0xF q)).map (at32 (p.src .i32 false o.a)) else none
      let bad := fun q => (value q).any fun v => !fmtOk o.m.variant v
      ∃ e : Cx, exec (.sfmt o) s = .next e.finished ∧
        e = { p with s := e.s, k := e.k, out := e.out, parks := e.parks } ∧
        e.k = { p.k with quads := e.k.quads, queues := e.k.queues, kdFrom := e.k.kdFrom } ∧
        (∀ q < p.k.quads.length,
          match value q with
          | none => e.k.quad q = p.k.quad q
          | some v =>
            if bad q then e.k.quad q = p.k.quad q ∧ FMap.get .adv e.out q = .trap 1 4 v
            else e.k.quad q = { p.k.quad q with
              fmt := ((p.k.quad q).fmt &&& ~~~fmtMask o.m.variant) ||| (v &&& fmtMask o.m.variant) }) ∧
        (∀ l < 32, e.parks.find? l = if bad (l / 4) then none else p.parks.find? l) ∧
        ∀ j < 7, ∀ l < 32, e.k.port j l =
          if inMask (p.solid &&& ~~~p.parked) l = true ∧ bad (l / 4) = false ∧
              ∃ x ∈ portsAmong (sourceRegs 0x089 (.r o)), x.number = j then (p.k.port j l).tail
          else p.k.port j l) ∧
    ∀ src ∈ formatTypes, ∀ dst ∈ formatTypes, ∀ (mode : Nat) (fz satc : Bool) (v : Nat), mode < 4 →
      let f := ffmt src
      let g := ffmt dst
      let beyond := fun (neg : Bool) => (if g.narrow && satc then (maxOf g neg, flagO ||| flagX)
        else if g.hasInf then (overflowRule g mode neg, flagO ||| flagX) else (g.nan, flagO ||| flagX ||| flagI) : FRes)
      (match operandF f (fz && !f.narrow) v with
        | .nan s => convertF f g mode fz satc v = (g.nan, if s then flagI else 0)
        | .inf n => convertF f g mode fz satc v =
            if g.hasInf then (infOf g n, 0) else if satc then (maxOf g n, 0) else (g.nan, flagI)
        | .fin n m e => if m = 0 then convertF f g mode fz satc v = (zeroOf g n, 0)
            else RoundedOnce g mode (fz && !g.narrow) n (fun a q => cmpPow a q m e) (beyond n)
              (convertF f g mode fz satc v)) ∧
      (∀ t : Ty, t.code < 8 →
        match operandF f (fz && !f.narrow) v with
        | .nan _ => convertToInt f t mode fz v = (0, flagI)
        | .inf n => convertToInt f t mode fz v = (t.wrap (if n then t.least else t.greatest), flagI)
        | .fin n m e => ∃ k, RoundsAt mode n (fun a q => cmpPow a q m e) 0 k ∧
            let i : Int := if n then -(k : Int) else k
            convertToInt f t mode fz v = if i < t.least then (t.wrap t.least, flagI)
              else if t.greatest < i then (t.wrap t.greatest, flagI)
              else (t.wrap i, if cmpPow k 0 m e = .eq then 0 else flagX)) ∧
      ∀ i : Int, if i = 0 then convertFromInt g mode satc i = (zeroOf g false, 0)
        else RoundedOnce g mode false (i < 0) (fun a q => cmpPow a q i.natAbs 0) (beyond (i < 0)) (convertFromInt g mode satc i)

/-- R200, R236, R237: a scalar instruction executes once for the sub-gang when its guard is true in some active lane,
and is skipped otherwise; it has the results of R229 and R230 on its one value. R127, R236: the result stands in its
scalar, a 64-bit one with its high half in the next, every quad of the sub-gang takes its flags and advances, the
last-result file shifts in every lane of those quads, unless under `%nh` or in supervisor state, and nothing else of
the module changes. (Where the spec leaves room, this is the model's reading: log entry 37.) -/
def Obligations.ScalarInstructions : Prop :=
  (∀ (c : Cx) (o : OpsR) (wide : Bool) (r : Flagged),
    (match o.d with | .s _ | .hs _ => true | _ => false) = true → o.d.wf = true → (wide = true → o.d.oddPair = false) →
    c.em ≠ 0 → c.qs.Nodup → c.qs ≠ [] → (∀ q ∈ c.qs, q < c.k.quads.length) → c.parks = [] → c.out = [] →
    ∃ e : Cx, e = { c with k := e.k } ∧
      e.k = { c.k with scal := e.k.scal, preScal := e.k.preScal, lanes := e.k.lanes, shifts := e.k.shifts
                       quads := e.k.quads } ∧
      e.endsAs (fun q => (e.k.quad q).advance) (scalarEnd c o wide r) ∧
      (∀ q, e.k.quad q = if q ∈ c.qs then { c.k.quad q with vflags := (c.k.quad q).vflags ||| r.2 } else c.k.quad q) ∧
      (∀ code < 1024, e.scalar code = if code = o.d.code then r.1.setWidth 32
        else if wide = true ∧ code = o.d.code + 1 then (r.1 >>> 32).setWidth 32 else c.scalar code) ∧
      (∀ code l, l < 32 → code < 624 ∨ 640 ≤ code → (e.row code).lane l = (c.row code).lane l) ∧
      c.entered e fun _ => if wide then [e.scalar (o.d.code + 1), e.scalar o.d.code] else [e.scalar o.d.code]) ∧
  ∀ (s : State) (o : OpsR) (c : Cx),
    let t := o.m.ty
    let w := t.wide
    let a := at64 (c.src t w o.a) 0
    let b := at64 (c.src t w o.b) 0
    (∀ x ∈ ([(0x060, .sadd o), (0x061, .ssub o), (0x062, .smul o), (0x063, .sand o), (0x064, .sor o), (0x065, .sxor o),
        (0x066, .sshl o), (0x067, .sshr o), (0x068, .scmp o), (0x069, .smov o), (0x06A, .smovi o), (0x06B, .ssel o)] :
          List (Nat × Instr)),
      readyCx s x.1 (.r o) o.h = some c → c.em = 0 → exec x.2 s = .next c.finished) ∧
    (c.em ≠ 0 →
      (∀ x ∈ ([(0x060, .sadd o, fun a b => a + b), (0x061, .ssub o, fun a b => a - b),
          (0x062, .smul o, fun a b => a * b)] : List (Nat × Instr × (Int → Int → Int))),
        readyCx s x.1 (.r o) o.h = some c → exec x.2.1 s =
          .next (scalarEnd c o w (finishInt t (o.m.flags % 2 = 1) (x.2.2 (t.int a) (t.int b))))) ∧
      (∀ x ∈ ([(0x063, .sand o, a &&& b), (0x064, .sor o, a ||| b), (0x065, .sxor o, a ^^^ b), (0x069, .smov o, a),
          (0x066, .sshl o, shiftLeft t a (b.toNat % 2 ^ 32)), (0x067, .sshr o, shiftRight t a (b.toNat % 2 ^ 32))] :
            List (Nat × Instr × DWord)),
        readyCx s x.1 (.r o) o.h = some c → exec x.2.1 s = .next (scalarEnd c o w (x.2.2, 0))) ∧
      (readyCx s 0x068 (.r o) o.h = some c → exec (.scmp o) s = .next (scalarEnd c o false
        (if compareInt o.m.variant (t.int a) (t.int b) then 1 else 0, 0))) ∧
      (readyCx s 0x06A (.r o) o.h = some c → exec (.smovi o) s = .next (scalarEnd c o false
        ((moveHalf o.m.variant (if o.m.variant = 0 then 0 else c.reg o.d 0)
          (at32 (c.src t false o.a) 0)).setWidth 64, 0))) ∧
      (readyCx s 0x06B (.r o) o.h = some c → exec (.ssel o) s = .next (scalarEnd c o w
        (if (at32 (c.src t false o.c) 0) = 0 then b else a, 0))))

/-- R123, R256, R258 to R262: the cross-lane instructions complete with these results in every active lane. R158 to
R160: a reduction of an integer type gives the sum modulo 2^w, the least, the greatest or the bitwise combination of its
lanes' values, and a scan gives the same over the lanes up to its own; for any combination the tree joins the lower half
with the upper, an absent one passing the other, and a scan joins the aligned nodes in ascending order. R145, R146, R149:
each node of a float type is one sum, minimum or maximum under the mode and flush of `fmt` or the modifiers. (Where
the spec leaves room, this is the model's reading: log entries 27, 28 and 29.) -/
def Obligations.CrossLaneInstructions : Prop :=
  (∀ (s : State) (o : OpsR) (p : Cx),
    let t := o.m.ty
    let w := t.wide
    let a := p.src t w o.a
    let b := p.src .i32 false o.b
    let present := p.runs &&& ~~~p.helpers
    let done := fun (wd : Bool) (m : Word) (f : Nat → DWord) (fl : BitVec 6) => (p.finishCross wd o.d m f fl).finished
    let node := fun l => treeNode (combine o.m (p.k.quad p.sgt).fmt) (leaves t a (present &&& at32 b l)) 5 0
    (laneReady s 0x100 o = some p → exec (.vshfl o) s = .next (done w p.runs (fun l =>
      let n := (at64 b l).toNat % 32
      let m := if o.m.variant = 0 then n else if o.m.variant = 1 then (if n ≤ l then l - n else l)
        else if o.m.variant = 2 then (if l + n ≤ 31 then l + n else l) else l ^^^ n
      if inMask (quadLanes p.qs) m then at64 a m else 0) 0)) ∧
    (laneReady s 0x101 o = some p → exec (.vvote o) s = .next (done false p.runs (fun l =>
      let a := p.src t false o.a
      let ls := lanesOf (present &&& at32 b l)
      let r : Word := match o.m.variant with
        | 0 => if ls.any fun m => at32 a m ≠ 0 then 1 else 0
        | 1 => if ls.all fun m => at32 a m ≠ 0 then 1 else 0
        | 2 => (present &&& at32 b l) &&& maskOf fun m => at32 a m ≠ 0
        | _ => if ls.all fun m => ls.all fun n => at32 a m = at32 a n then 1 else 0
      r.setWidth 64) 0)) ∧
    (laneReady s 0x104 o = some p → exec (.vmatch o) s = .next (done false p.runs (fun l =>
      (present &&& maskOf fun m => at64 a m = at64 a l).setWidth 64) 0)) ∧
    (laneReady s 0x105 o = some p → exec (.vconf o) s = .next (done false p.runs (fun l =>
      (present &&& maskOf fun m => m < l && at64 a m = at64 a l).setWidth 64) 0)) ∧
    (laneReady s 0x106 o = some p → exec (.vquad o) s = .next (done w p.runs (fun l =>
      at64 a (l ^^^ (o.m.variant + 1))) 0)) ∧
    (laneReady s 0x102 o = some p →
      let e := p.finishCross w o.d p.runs (fun l => (node l).1.getD (identity o.m)) (p.nodeFlags node)
      exec (.vred o) s = .next (match reducePred o with
        | some n => e.setPred n p.runs fun l => (node l).1.isSome
        | none => e).finished) ∧
    (laneReady s 0x103 o = some p →
      let scan := fun l => scanFrom (combine o.m (p.k.quad p.sgt).fmt) (leaves t a (present &&& at32 b l)) l 5 0 (none, 0)
      exec (.vscan o) s = .next (done w (p.runs &&& maskOf fun l => (scan l).1.isSome) (fun l => (scan l).1.getD 0)
        (p.nodeFlags scan))) ∧
    (laneReady s 0x107 o = some p →
      let head := fun m => inMask (quadLanes p.qs) m && at32 b m ≠ 0
      let seg := fun l => treeNode (combine o.m (p.k.quad p.sgt).fmt)
        (leaves t a (present &&& maskOf fun m => segmentStart head m = segmentStart head l)) 5 0
      exec (.vsegred o) s = .next (done w p.runs (fun l => (seg l).1.getD (identity o.m)) (p.nodeFlags seg)))) ∧
  (∀ (o : Mods) (fmt : Word) (a : List DWord) (set : Word) (l : Nat), o.ty.code < 8 → o.variant < 6 → l < 32 →
    let t := o.ty
    let f := combine o fmt
    let node := treeNode f (leaves t a set) 5 0
    let vals := (lanesOf set).map fun m => t.int (at64 a m)
    (set = 0 → node = (none, 0)) ∧
    (set ≠ 0 → ∃ v, node = (some v, 0) ∧ v = t.wrap (t.int v) ∧
      (o.variant = 0 → v = t.wrap vals.sum) ∧
      (o.variant = 1 → t.int v ∈ vals ∧ ∀ x ∈ vals, t.int v ≤ x) ∧
      (o.variant = 2 → t.int v ∈ vals ∧ ∀ x ∈ vals, x ≤ t.int v) ∧
      ∀ i < t.width,
        (o.variant = 3 → v.getLsbD i = (lanesOf set).all fun m => (at64 a m).getLsbD i) ∧
        (o.variant = 4 → v.getLsbD i = (lanesOf set).any fun m => (at64 a m).getLsbD i) ∧
        (o.variant = 5 → v.getLsbD i =
          decide (((lanesOf set).filter fun m => (at64 a m).getLsbD i).length % 2 = 1))) ∧
    scanFrom f (leaves t a set) l 5 0 (none, 0) = treeNode f (leaves t a (set &&& maskOf fun m => m ≤ l)) 5 0) ∧
  (∀ (f : DWord → DWord → Flagged) (leaf : Nat → Option DWord) (n start : Nat),
    treeNode f leaf 0 start = (leaf start, 0) ∧
    treeNode f leaf (n + 1) start =
      (match treeNode f leaf n start, treeNode f leaf n (start + 2 ^ n) with
        | (some x, p), (some y, q) => (some (f x y).1, p ||| q ||| (f x y).2)
        | (x, p), (none, q) => (x, p ||| q)
        | (none, p), (y, q) => (y, p ||| q)) ∧
    (n ≤ 5 → scanFrom f leaf (2 ^ n - 1) 5 0 (none, 0) = treeNode f leaf n 0) ∧
    ∀ x : Nat → DWord, (∀ m < 32, leaf m = some (x m)) →
      let g := fun a b => (f a b).1
      (scanFrom f leaf 2 5 0 (none, 0)).1 = some (g (g (x 0) (x 1)) (x 2)) ∧
      (scanFrom f leaf 6 5 0 (none, 0)).1 =
        some (g (g (g (g (x 0) (x 1)) (g (x 2) (x 3))) (g (x 4) (x 5))) (x 6))) ∧
  ∀ (o : Mods) (fmt : Word) (x y : DWord), o.ty ∈ [Ty.f32, .f16, .bf16] →
    let f := ffmt o.ty
    let mode := if o.flags % 4 = 0 then bits 18 16 fmt.toNat else o.flags % 4
    let fz := decide (4 ≤ o.flags) || fmt.getLsbD 15
    combine o fmt x y = flagged (match o.variant with
      | 0 => addF f mode fz (operandF f fz x.toNat) (operandF f fz y.toNat)
      | 1 => minmaxF f fz false x.toNat y.toNat
      | _ => minmaxF f fz true x.toNat y.toNat)

/-- R128, R136, R263, R265: the port and index-window instructions. A binding is the gang number given, none for
all-ones, or port misuse where the number is not a gang on the neighbouring core; `pcnt` reads counts; `pflush`
empties queues; `xwin` sets a window, and beyond `.regs` it traps with reason 2 and the window keeps its value.
(Where the spec leaves room, this is the model's reading: log entries 21, 50 and 51.) -/
def Obligations.PortInstructions : Prop :=
  ∀ (s : State) (o : OpsR),
    (∀ x ∈ ([(0x108, .pbind o), (0x10B, .xwin o)] : List (Nat × Instr)), ∀ c,
      readyCx s x.1 (.r o) o.h = some c → c.em = 0 → exec x.2 s = .next c.finished) ∧
    (∀ c q, readyCx s 0x108 (.r o) o.h = some c → c.em ≠ 0 → o.a = .reg (.port q) (.rot 0) → 2 ≤ q.number →
      q.number < 6 →
      let v := (at32 (c.src .i32 false o.b) 0).toNat
      exec (.pbind o) s = .next (if v = 0xFFFFFFFF then { c with k := { c.k with binds := c.k.binds.erase (q.number - 2) } }
        else if v < (c.grp.block + 31) / 32 ∧ neighbour c.grp c.k.core q = some ((c.gangOf v).core) then
          { c with k := { c.k with binds := c.k.binds.insert (q.number - 2) v } }
        else { c with out := c.qs.map fun u => (u, .trap 2 5 (BitVec.ofNat 32 v)) } : Cx).finished) ∧
    (∀ c, readyCx s 0x108 (.r o) o.h = some c → c.em ≠ 0 → o.a = .reg (.port .kd) (.rot 0) →
      let v := (at64 (c.src .n64 true o.b) 0).toNat
      (1024 ≤ v → exec (.pbind o) s =
        .next ({ c with out := c.qs.map fun u => (u, .trap 2 5 (BitVec.ofNat 32 v)) } : Cx).finished) ∧
      (v < 1024 → (kdFaces c v).1 = false → exec (.pbind o) s = .next ({ c with
        s := (kdFaces c v).2, out := c.qs.map fun u => (u, .trap 2 5 (BitVec.ofNat 32 v)) } : Cx).finished) ∧
      ((kdFaces c v).1 = true → c.coreOf % Config.meshW c.dn = 0 ∨ c.coreOf % Config.meshW c.dn = Config.meshW c.dn - 1) ∧
      (v < 1024 → (kdFaces c v).1 = true → c.k.kdFree = [] → exec (.pbind o) s =
        .next ({ c with s := (kdFaces c v).2
                        k := { c.k with kdImport := some v, kdDesc := none, kdFree := [] } } : Cx).finished) ∧
      (v < 1024 → (kdFaces c v).1 = true → c.k.kdFree ≠ [] → exec (.pbind o) s = .next s)) ∧
    (∀ p q, laneReady s 0x109 o = some p → o.a = .reg (.port q) (.rot 0) → exec (.pcnt o) s =
      .next (p.finishLanes false o.d fun l => (BitVec.ofNat 64
        (if o.m.variant = 0 then (p.k.port q.number l).length else freeEntries p q l), 0)).finished) ∧
    (∀ c, readyCx s 0x10A (.r o) o.h = some c →
      ∃ e : Cx, exec (.pflush o) s = .next e.finished ∧ e = { c with s := e.s, k := e.k } ∧
        e.k = { c.k with queues := e.k.queues, kdFrom := e.k.kdFrom } ∧
        ∀ j < 7, ∀ l < 32, e.k.port j l =
          if inMask (c.em &&& ~~~c.helpers) l && (o.m.variant = 1 || (match namedPort o.a with
              | some q => j = q.number
              | none => false)) then [] else c.k.port j l) ∧
    ∀ c k, readyCx s 0x10B (.r o) o.h = some c → c.em ≠ 0 → o.a = .reg (.x k) (.rot 0) →
      let w : Nat × Nat := match o.b with
        | .imm v => (v.toNat / 65536, v.toNat % 65536)
        | b => ((at32 (c.src .i32 false b) 0).toNat, (at32 (c.src .i32 false o.c) 0).toNat)
      exec (.xwin o) s = .next (if 32 * c.grp.regs < w.1 + w.2 then
          { c with out := c.qs.map fun q => (q, .trap 2 2 (windowValue o.b w.1)) }
        else { c with k := { c.k with xwin := FMap.set (0, 0) c.k.xwin k w } } : Cx).finished

/-- R125, R126, R127, R150, R187, R225: what a result leaves. Where no lane parks: a 32-bit result in a lane register
(v, o, x or hv) is in it in the executing lanes; a 64-bit one has its low half there and the high half in the next
register; one in a predicate sets its bit in the executing lanes to whether the result is nonzero; one in a
group-shared register writes, on the gang's core, the value of the highest executing lane that is not a helper lane,
and marks it pending, unless a higher gang has it pending already. Unless the instruction carries `%nh` or the sub-gang
is in supervisor state, every lane of the sub-gang's quads shifts its last-result file: t0 takes what the destination
now holds there, and of a pair t1 the low half and t0 the high half. Each quad ORs the flags of its executing lanes
that are not helper lanes into VFLAGS and advances. Whatever lanes park: a result of any instruction written in the
lanes of a mask does the same to its destination and to the last-result file, in the same way where the destination is
an indexed register or a pair of them (a lane whose index names none keeps its registers, and t0 takes an open value
there: log entries 20 and 132), a pair of group-shared registers, a predicate (of a 64-bit result, whether all of it is
nonzero), or a scalar, which takes the value of the mask's highest lane. All else of the gang, the group, the memory
and the rest of the module is unchanged. -/
def Obligations.LaneResults : Prop :=
  (∀ (c : Cx) (d : Reg) (wide : Bool) (f : Nat → Flagged),
    (match d with | .v _ | .o _ | .x _ | .hv _ => true | _ => false) = true → d.wf = true →
    (wide = true → d.oddPair = false) →
    c.qs.Nodup → (∀ q ∈ c.qs, q < c.k.quads.length) → c.parks = [] → c.out = [] →
    ∃ e : Cx, e = { c with k := e.k } ∧
      e.k = { c.k with lanes := e.k.lanes, preLanes := e.k.preLanes, shifts := e.k.shifts, quads := e.k.quads } ∧
      e.endsAs (fun q => (e.k.quad q).advance) (c.finishLanes wide d f).finished ∧
      (∀ q, e.k.quad q = if q ∈ c.qs then { c.k.quad q with
          vflags := (lanesOf (c.em &&& ~~~c.helpers &&& spread 0xF q)).foldl (fun v l => v ||| (f l).2)
            (c.k.quad q).vflags }
        else c.k.quad q) ∧
      (∀ code l, l < 32 → code < 624 ∨ 640 ≤ code → (e.row code).lane l =
        if code = d.code ∧ inMask c.em l = true then (f l).1.setWidth 32
        else if wide = true ∧ code = d.code + 1 ∧ inMask c.em l = true then ((f l).1 >>> 32).setWidth 32
        else (c.row code).lane l) ∧
      c.entered e fun l => if wide then [(e.row (d.code + 1)).lane l, (e.row d.code).lane l] else [(e.row d.code).lane l]) ∧
  (∀ (c : Cx) (f : Nat → Flagged), c.qs.Nodup → (∀ q ∈ c.qs, q < c.k.quads.length) → c.parks = [] → c.out = [] →
    (∀ n < 7, ∃ e : Cx, e = { c with k := e.k } ∧
      e.k = { c.k with lanes := e.k.lanes, preds := e.k.preds, shifts := e.k.shifts, quads := e.k.quads } ∧
      e.endsAs (fun q => (e.k.quad q).advance) (c.finishLanes false (.p n) f).finished ∧
      (∀ m l, l < 32 → e.pred m l =
        if m = n ∧ inMask c.em l = true then (if (f l).1.setWidth 32 = (0 : Word) then 0 else 1) else c.pred m l) ∧
      (∀ q, e.k.quad q = if q ∈ c.qs then { c.k.quad q with
          vflags := (lanesOf (c.em &&& ~~~c.helpers &&& spread 0xF q)).foldl (fun v l => v ||| (f l).2)
            (c.k.quad q).vflags }
        else c.k.quad q) ∧
      (∀ code l, l < 32 → code < 624 ∨ 640 ≤ code → (e.row code).lane l = (c.row code).lane l) ∧
      c.entered e fun l => [e.pred n l]) ∧
    ∀ n < 8, c.k.core < c.grp.homes.length → ∃ e : Cx, e = { c with k := e.k, grp := e.grp } ∧
      e.k = { c.k with lanes := e.k.lanes, shifts := e.k.shifts, quads := e.k.quads } ∧
      e.grp = { c.grp with homes := e.grp.homes } ∧
      e.endsAs (fun q => (e.k.quad q).advance) (c.finishLanes false (.g n) f).finished ∧
      (∀ m, e.gReg m = match highest (c.em &&& ~~~c.helpers) with
        | some l => if m = n then (f l).1.setWidth 32 else c.gReg m
        | none => c.gReg m) ∧
      (∀ j, j ≠ c.k.core → e.grp.home j = c.grp.home j) ∧
      e.grp.home c.k.core = { c.grp.home c.k.core with
        g := (e.grp.home c.k.core).g, gPend := (e.grp.home c.k.core).gPend } ∧
      (∀ m, (e.grp.home c.k.core).gPend.find? m =
        (match highest (c.em &&& ~~~c.helpers), (c.grp.home c.k.core).gPend.find? m with
          | none, old => old
          | some l, old => if m ≠ n then old
            else some (match old with
              | some (gi, w) => if c.gi < gi then (gi, w) else (c.gi, (f l).1.setWidth 32)
              | none => (c.gi, (f l).1.setWidth 32)))) ∧
      (∀ q, e.k.quad q = if q ∈ c.qs then { c.k.quad q with
          vflags := (lanesOf (c.em &&& ~~~c.helpers &&& spread 0xF q)).foldl (fun v l => v ||| (f l).2)
            (c.k.quad q).vflags }
        else c.k.quad q) ∧
      (∀ code l, l < 32 → code < 624 ∨ 640 ≤ code → (e.row code).lane l = (c.row code).lane l) ∧
      c.entered e fun _ => [e.gReg n]) ∧
  ∀ (c : Cx) (wide : Bool) (m : Word) (f : Nat → DWord), c.qs.Nodup →
    let lo : Nat → Word := fun l => (f l).setWidth 32
    let hi : Nat → Word := fun l => (f l >>> 32).setWidth 32
    let both := fun (h l : Word) => if wide then [h, l] else [l]
    let kept := fun (e : Cx) => ∀ code l, l < 32 → code < 624 ∨ 640 ≤ code → (e.row code).lane l = (c.row code).lane l
    (∀ d : Reg, (match d with | .v _ | .o _ | .x _ | .hv _ => true | _ => false) = true → d.wf = true →
      (wide = true → d.oddPair = false) →
      let e := c.resultTy wide d m f
      e = { c with k := { c.k with lanes := e.k.lanes, preLanes := e.k.preLanes, shifts := e.k.shifts } } ∧
      (∀ code l, l < 32 → code < 624 ∨ 640 ≤ code → (e.row code).lane l =
        if code = d.code ∧ inMask m l = true then lo l
        else if wide = true ∧ code = d.code + 1 ∧ inMask m l = true then hi l
        else (c.row code).lane l) ∧
      c.entered e fun l => both ((e.row (d.code + 1)).lane l) ((e.row d.code).lane l)) ∧
    (∀ x off : Nat, (FMap.get (0, 0) c.k.xwin x).1 + (FMap.get (0, 0) c.k.xwin x).2 ≤ 576 → x < 8 →
      let e := c.resultTy wide (.idx x off) m f
      let named := fun l => (c.indexed x off l).filter fun n => !wide || n % 2 = 0
      let part := fun half l => match named l with
        | some n => (e.row (n + half)).lane l
        | none => c.openResult x off l half
      e = { c with k := { c.k with lanes := e.k.lanes, shifts := e.k.shifts } } ∧
      (∀ code l, l < 32 → code < 624 ∨ 640 ≤ code → (e.row code).lane l =
        if inMask m l = true ∧ named l = some code then lo l
        else if inMask m l = true ∧ wide = true ∧ 0 < code ∧ named l = some (code - 1) then hi l
        else (c.row code).lane l) ∧
      c.entered e fun l => both (part 1 l) (part 0 l)) ∧
    (∀ n < 7,
      let e := c.resultTy wide (.p n) m f
      e = { c with k := { c.k with lanes := e.k.lanes, preds := e.k.preds, shifts := e.k.shifts } } ∧ kept e ∧
      (∀ r l, l < 32 → e.pred r l = if r = n ∧ inMask m l = true then
          (if (if wide then f l = 0 else lo l = 0) then 0 else 1) else c.pred r l) ∧
      c.entered e fun l => [e.pred n l]) ∧
    (∀ n, n + wide.toNat < 8 → c.k.core < c.grp.homes.length →
      let e := c.resultTy wide (.g n) m f
      let old := c.grp.home c.k.core
      let new := e.grp.home c.k.core
      let value := fun r l => if r = n then some (lo l) else if wide = true ∧ r = n + 1 then some (hi l) else none
      e = { c with k := { c.k with lanes := e.k.lanes, shifts := e.k.shifts }, grp := { c.grp with homes := e.grp.homes } } ∧
      kept e ∧ (∀ j, j ≠ c.k.core → e.grp.home j = c.grp.home j) ∧ new = { old with g := new.g, gPend := new.gPend } ∧
      (∀ r, match (highest (m &&& ~~~c.helpers)).bind (value r) with
        | none => e.gReg r = c.gReg r ∧ new.gPend.find? r = old.gPend.find? r
        | some v => e.gReg r = v ∧ new.gPend.find? r = some (match old.gPend.find? r with
            | some (gi, w) => if c.gi < gi then (gi, w) else (c.gi, v)
            | none => (c.gi, v))) ∧
      c.entered e fun _ => both (e.gReg (n + 1)) (e.gReg n)) ∧
    ∀ d : Reg, (match d with | .s _ | .hs _ => true | _ => false) = true → d.wf = true →
      (wide = true → d.oddPair = false) → c.qs ≠ [] →
      let e := c.resultTy wide d m f
      e = { c with k := { c.k with scal := e.k.scal, preScal := e.k.preScal, lanes := e.k.lanes, shifts := e.k.shifts } } ∧
      kept e ∧
      (∀ code < 1024, e.scalar code = match highest m with
        | some l => if code = d.code then lo l else if wide = true ∧ code = d.code + 1 then hi l else c.scalar code
        | none => c.scalar code) ∧
      c.entered e fun _ => both (e.scalar (d.code + 1)) (e.scalar d.code)

/-- R125, R127, R135: a result in a port other than `kd` is pushed by the executing lanes that are not helper lanes: the
target queue of each takes the value at its end. No other queue changes, no lane register, and the last-result file does
not shift. (That a bound gang is one of the group's is what R263 grants.) -/
def Obligations.LanePush : Prop :=
  ∀ (c : Cx) (p : Port) (wide : Bool) (f : Nat → Flagged), p ≠ .kd →
    c.qs.Nodup → (∀ q ∈ c.qs, q < c.k.quads.length) → c.parks = [] → c.out = [] → c.gi < c.grp.gangs.length →
    (∀ i g, c.k.binds.find? i = some g → g < c.grp.gangs.length) →
    ∃ e : Cx, e = { c with k := e.k, grp := e.grp } ∧ e.grp = { c.grp with gangs := e.grp.gangs } ∧
      e.k = { c.k with queues := e.k.queues, quads := e.k.quads } ∧
      e.endsAs (fun q => (e.k.quad q).advance) (c.finishLanes wide (.port p) f).finished ∧
      (∀ g j t, (∃ l < 32, inMask (c.em &&& ~~~c.helpers) l = true ∧ pushTarget c.k c.gi p l = some (g, j, t) ∧
          (e.gangOf g).port j t = (c.gangOf g).port j t ++ [(f l).1.setWidth 32]) ∨
        ((∀ l < 32, inMask (c.em &&& ~~~c.helpers) l = true → pushTarget c.k c.gi p l ≠ some (g, j, t)) ∧
          (e.gangOf g).port j t = (c.gangOf g).port j t)) ∧
      ∀ g, e.gangOf g = { c.gangOf g with queues := (e.gangOf g).queues, quads := (e.gangOf g).quads }

/-- R128, R137: an instruction that pops or pushes waits whole, with no effect, until every executing lane that is not
a helper lane and does not park finds an entry in each queue it pops and room where it pushes; then each such queue
gives up its oldest entry in each such lane, once. A lane of those whose index lies outside its window is to park with
an index-bound fault: class 4, ADDR the index, LOC the index register, VALUE its content. R37, R183: a lane that pushes
through `kd` and fails its check is to park with that fault, and its queues keep their entries. (Where the spec leaves
room, this is the model's reading: log entries 19, 21, 22 and 64.) -/
def Obligations.PortsAndIndexes : Prop :=
  (∀ (i : Instr) (op : Nat) (o : OpsR) (s : State) (c : Cx), opcodeAndOps i = some (op, .r o) →
    isScalar op = false → op ∉ [0x089, 0x108, 0x10A, 0x10B] → readyCx s op (.r o) o.h = some c →
    laneReady s op o = none → exec i s = .next s) ∧
  ∀ (c : Cx) (op : Nat) (ops : Ops) (dest : Option Port), c.parks = [] →
    let outside := fun l => (indexOperands op ops).find? fun x => (c.indexed x.1 x.2 l).isNone
    let m := maskOf fun l => inMask (c.em &&& ~~~c.helpers) l && (outside l).isNone
    (c.prepare op ops dest = none ↔ ∃ l < 32, inMask m l = true ∧
      ((∃ p ∈ portsAmong (sourceRegs op ops), c.k.port p.number l = []) ∨
        ∃ p, dest = some p ∧ freeEntries c p l = 0)) ∧
    ∀ e, c.prepare op ops dest = some e →
      let failed : Option Cause := if dest = some .kd ∧ m ≠ 0 then
          (match (kdDescriptor c).1 with
            | .error x => some x
            | .ok _ => none)
        else none
      e = { c with s := e.s, k := e.k, pops := e.pops, parks := e.parks } ∧
      e.k = { c.k with queues := e.k.queues, kdFrom := e.k.kdFrom, kdDesc := e.k.kdDesc } ∧
      (dest ≠ some .kd → e.k.kdDesc = c.k.kdDesc) ∧
      (∀ p ∈ portsAmong (sourceRegs op ops), ∀ l < 32, inMask m l = true →
        FMap.get 0 e.pops (32 * p.number + l) = (c.k.port p.number l).headD 0) ∧
      (∀ j < 7, ∀ l < 32, e.k.port j l =
        if inMask m l = true ∧ failed = none ∧ ∃ p ∈ portsAmong (sourceRegs op ops), p.number = j then
          (c.k.port j l).tail
        else c.k.port j l) ∧
      ∀ l < 32, e.parks.find? l = if inMask (c.em &&& ~~~c.helpers) l then
          (match outside l with
            | some x =>
              let v := (c.row (704 + x.1)).lane l
              some ⟨4, 0, c.gi, l, c.op % 256, c.pc, (v.toNat + x.2) % 2 ^ 32, x.1, v⟩
            | none => failed.map fun x =>
              ⟨x.1, x.2, c.gi, l, c.op % 256, c.pc, peerBase + (c.k.kdImport.getD 0) * 2 ^ 38, 0xFFFF, 0⟩)
        else none

/-- R181, R183, R187: when an instruction ends, each lane that is to park does so in user state: its PARK bit is set, its
record is written where it held none, and the number in issue order of its first fault is kept; in supervisor state the
records are written in the same way, and the gang is beyond recovery with the class of the first. Nothing else of the
gang changes. (Where the spec leaves room,
this is the model's reading: log entry 32.) -/
def Obligations.LanesPark : Prop :=
  ∀ (c : Cx), (c.parks.map (·.1)).Nodup → (∀ e ∈ c.parks, e.1 / 4 < c.k.quads.length) →
    let record := fun l => match c.parks.find? l with
      | some r => if (FMap.get FaultRec.none c.k.records l).cls = 0 then r else FMap.get FaultRec.none c.k.records l
      | none => FMap.get FaultRec.none c.k.records l
    (c.sup = true → (parkAll c).k.lost = (if c.k.lost.isSome then c.k.lost else
        c.parks.head?.map fun e => (e.2.cls, c.k.issued)) ∧
      (parkAll c).k = { c.k with lost := (parkAll c).k.lost, records := (parkAll c).k.records } ∧
      ∀ l, FMap.get FaultRec.none (parkAll c).k.records l = record l) ∧
    (c.sup = false →
      (parkAll c).k = { c.k with quads := (parkAll c).k.quads, records := (parkAll c).k.records
                                 parkedAt := (parkAll c).k.parkedAt } ∧
      (∀ q, (parkAll c).k.quad q = { c.k.quad q with park := ((parkAll c).k.quad q).park } ∧
        ∀ i < 4, ((parkAll c).k.quad q).park.getLsbD i =
          ((c.k.quad q).park.getLsbD i || decide (q < c.k.quads.length) && (c.parks.find? (4 * q + i)).isSome)) ∧
      ∀ l, FMap.get FaultRec.none (parkAll c).k.records l = record l ∧
        FMap.find? (parkAll c).k.parkedAt l =
          if (c.parks.find? l).isSome then some ((FMap.find? c.k.parkedAt l).getD c.k.issued)
          else FMap.find? c.k.parkedAt l)

/-! ### Control -/

/-- R119, R122, R183, R250: how an instruction ends in which no lane parks and no quad traps. The gang has issued
one more instruction; each quad of the sub-gang advances, goes to its target or stays; those that neither left the
sub-gang nor exited part by PC, each under the lowest quad number at its PC. Beside the group as the instruction
left it, and its count of stalled cycles, nothing else changes. (Where the spec leaves room, this is the model's
reading: log entry 6.) -/
def Obligations.InstructionEnds : Prop :=
  ∀ (c : Cx), c.qs.Nodup → (∀ q ∈ c.qs, q < c.k.quads.length) → c.parks = [] →
    (∀ q ∈ c.qs, ∀ a b v, FMap.get QOut.adv c.out q ≠ .trap a b v) →
    c.endsAs (fun q => (FMap.get .adv c.out q).apply (c.k.quad q)) c.finished ∧
    ∃ k : Gang, c.finished = c.put k ∧ ∀ q ∈ c.qs,
      let stays := fun p => p ∈ c.qs ∧ (c.k.quad p).exited = false ∧ (c.k.quad p).sgt = c.sgt
      if stays q then
        (∃ p, stays p ∧ (k.quad p).pc = (k.quad q).pc ∧ (k.quad q).sgt = p) ∧
        ∀ p, stays p → (k.quad p).pc = (k.quad q).pc → (k.quad q).sgt ≤ p
      else (k.quad q).sgt = (c.k.quad q).sgt

/-- R134, R250, R266: counted loops. Where the next PC is not the end of the innermost level, PC advances by one modulo
5 × 2^50. Where it is, LCk falls by one (a count is 32 bits); while it is then not zero PC goes to the body's first PC,
and when it is zero the level closes and PC := end completes the enclosing body in the same way. A transfer closes
exactly the levels whose bodies it leaves, and keeps every count. `rep` on each quad: a fourth level is a stack
overflow; else an offset outside 2 to 257, or a body that ends beyond an open level's, is an illegal instruction with
reason 7 and the offset as VALUE. A count of 0 goes to the end PC, which completes the innermost open body where it
ends there too; any other count opens the lowest free level. (That a quad with no live lane keeps the count and skips
the body is the model's reading: log entry 40.) (Where the spec leaves room, this is the model's reading: log entry
39.) -/
def Obligations.CountedLoops : Prop :=
  ((∀ (lc : List Word) (pc : Nat), completeBodies lc [] pc = (pc, [], lc)) ∧
  (∀ (lc : List Word) (r : RepLevel) (rs : List RepLevel) (pc : Nat),
    (r.stop ≠ pc → completeBodies lc (r :: rs) pc = (pc, r :: rs, lc)) ∧
    (r.stop = pc → lc.getD rs.length 0 ≠ 1 →
      completeBodies lc (r :: rs) pc = (r.first, r :: rs, lc.set rs.length (lc.getD rs.length 0 - 1))) ∧
    (r.stop = pc → lc.getD rs.length 0 = 1 →
      completeBodies lc (r :: rs) pc = completeBodies (lc.set rs.length 0) rs pc)) ∧
  (∀ u : Quad, let e := completeBodies u.lc u.reps ((u.pc + 1) % (5 * 2 ^ 50))
    u.advance = { u with pc := e.1, reps := e.2.1, lc := e.2.2 }) ∧
  ∀ (u : Quad) (pc : Nat), pc < 5 * 2 ^ 50 →
    u.jumpTo pc = { u with pc := pc, reps := (u.jumpTo pc).reps } ∧
    ∀ r, r ∈ (u.jumpTo pc).reps ↔
      r ∈ u.reps ∧ ¬ ((r.first ≤ u.pc ∧ u.pc < r.stop) ∧ ¬ (r.first ≤ pc ∧ pc < r.stop))) ∧
  (∀ (s : State) (c : Cx) (o : OpsC), readyCx s 0x0CC (.c o) o.h = some c →
    let n := BitVec.ofNat 32 (c.aVal o.a)
    let e := ((c.pc + o.off) % (5 * 2 ^ 50)).toNat
    let first := (c.pc + 1) % (5 * 2 ^ 50)
    let goTo := fun (u : Quad) => match u.reps with
      | r :: _ => if r.stop = e then
          let x := completeBodies u.lc u.reps e
          { u with pc := x.1, reps := x.2.1, lc := x.2.2 }
        else { u with pc := e }
      | [] => { u with pc := e }
    ∃ t, exec (.rep o) s = .next t ∧ c.does (fun q =>
      let u := c.k.quad q
      if u.reps.length = 3 then (.trap 13 0 0, u)
      else if o.off < 2 ∨ 257 < o.off ∨ ∃ r ∈ u.reps, r.stop < e then (.trap 1 7 (BitVec.ofInt 32 o.off), u)
      else if c.aVal o.a = 0 then (.hold, goTo u)
      else
        let u' := { u with lc := u.lc.set u.reps.length n }
        if (if u.sup then u.lmask else u.lmask &&& ~~~u.park) = 0 then (.hold, goTo u')
        else (.hold, { u' with reps := ⟨first, e⟩ :: u.reps, pc := first })) t)

/-- R124, R246, R247: the structured instructions on each quad of the sub-gang, whatever LMASK holds. A condition
holds in the lanes whose value is not zero; a live lane is one of LMASK that, in user state, is not parked; a mask
that leaves no live lane sends the quad to the target. A stack that is full, or whose top does not fit, traps.
(Where the spec leaves room, this is the model's reading: log entries 32 and 38.) -/
def Obligations.StructuredDivergence : Prop :=
  (∀ (c : Cx) (r : Reg) (q i : Nat), q < 8 → i < 4 →
    (c.condition (.reg r) q).getLsbD i = decide (c.reg r (4 * q + i) ≠ 0)) ∧
  ∀ (s : State) (c : Cx) (o : OpsC),
    let skip := fun (u : Quad) (m : BitVec 4) =>
      if (if u.sup then m else m &&& ~~~u.park) = 0 then QOut.jump ((c.pc + o.off) % (5 * 2 ^ 50)).toNat else .adv
    (readyCx s 0x0C0 (.c o) o.h = some c → ∃ t, exec (.ifMask o) s = .next t ∧ c.does (fun q =>
      let u := c.k.quad q
      if u.stack.length = 32 then (.trap 13 0 0, u)
      else
        let m := u.lmask &&& (c.condition o.a q ||| (if u.sup then 0 else u.park))
        (skip u m, { u with stack := ⟨u.fmt, 0, u.lmask⟩ :: u.stack, lmask := m })) t) ∧
    (readyCx s 0x0C1 (.c o) o.h = some c → ∃ t, exec (.elseMask o) s = .next t ∧ c.does (fun q =>
      let u := c.k.quad q
      match u.stack with
      | ⟨fmt, 0, mask⟩ :: r =>
        let m := mask &&& ~~~u.lmask
        (skip u m, { u with stack := ⟨fmt, 1, mask⟩ :: r, fmt := fmt, lmask := m })
      | _ => (.trap 1 6 0, u)) t) ∧
    (readyCx s 0x0C2 (.c o) o.h = some c → ∃ t, exec (.endif o) s = .next t ∧ c.does (fun q =>
      let u := c.k.quad q
      match u.stack with
      | ⟨fmt, 0, mask⟩ :: r | ⟨fmt, 1, mask⟩ :: r => (.adv, { u with stack := r, fmt := fmt, lmask := mask })
      | _ => (.trap 1 6 0, u)) t) ∧
    (readyCx s 0x0C3 (.c o) o.h = some c → ∃ t, exec (.loop o) s = .next t ∧ c.does (fun q =>
      let u := c.k.quad q
      if 31 ≤ u.stack.length then (.trap 13 0 0, u)
      else (skip u u.lmask, { u with stack := ⟨u.fmt, 2, u.lmask⟩ :: ⟨u.fmt, 2, u.lmask⟩ :: u.stack })) t) ∧
    (∀ x ∈ [(0x0C4, Instr.brk o, true), (0x0C5, Instr.cont o, false)],
      readyCx s x.1 (.c o) o.h = some c → ∃ t, exec x.2.1 s = .next t ∧ c.does (fun q =>
        let u := c.k.quad q
        let b := (if u.sup then u.lmask else u.lmask &&& ~~~u.park) &&& c.condition o.a q
        match u.stack.findIdx? (·.kind = 2) with
        | none => (.trap 1 6 0, u)
        | some n =>
          let drop := fun e : MaskEntry => { e with mask := e.mask &&& ~~~b }
          (skip u (u.lmask &&& ~~~b), { u with
            stack := (u.stack.take n).map drop ++ (if x.2.2 then (u.stack.drop n).modify 0 drop else u.stack.drop n)
            lmask := u.lmask &&& ~~~b })) t) ∧
    (readyCx s 0x0C6 (.c o) o.h = some c → ∃ t, exec (.endloop o) s = .next t ∧ c.does (fun q =>
      let u := c.k.quad q
      match u.stack with
      | ⟨yf, 2, ym⟩ :: ⟨xf, 2, xm⟩ :: r =>
        if ym ≠ 0 then (.jump ((c.pc + (o.off + 1)) % (5 * 2 ^ 50)).toNat, { u with lmask := ym, fmt := yf })
        else (.adv, { u with stack := r, lmask := xm, fmt := xf })
      | _ => (.trap 1 6 0, u)) t)

/-- R210, R245, R249: jumps, branches, calls and returns act on a quad where they are unguarded, or where the guard
holds in some active lane of it; elsewhere the quad only advances. `bra` counts the lanes that are live and whose guard
is true. The mask stack and LMASK stay. -/
def Obligations.Transfers : Prop :=
  ∀ (s : State) (c : Cx) (o : OpsC),
    let acts := fun q => (o.h.pred = 7 ∧ o.h.neg = false) ∨ quadBits c.em q ≠ 0
    let rel := ((c.pc + o.off) % (5 * 2 ^ 50)).toNat
    let target := if o.m.variant = 1 then (match o.a with
      | .reg r => (c.reg64 r 0).toNat % (5 * 2 ^ 50)
      | .imm _ => 0) else rel
    (readyCx s 0x0C8 (.c o) o.h = some c → ∃ t, exec (.jmp o) s = .next t ∧ c.does (fun q =>
      (if acts q then .jump target else .adv, c.k.quad q)) t) ∧
    (readyCx s 0x0C9 (.c o) o.h = some c → ∃ t, exec (.bra o) s = .next t ∧ c.does (fun q =>
      let m := quadBits c.em q
      let a := c.condition o.a q
      (if acts q ∧ (if o.m.variant = 0 then m &&& a ≠ 0 else m ≠ 0 ∧ m &&& ~~~a = 0) then .jump rel else .adv,
        c.k.quad q)) t) ∧
    (readyCx s 0x0CA (.c o) o.h = some c → ∃ t, exec (.call o) s = .next t ∧ c.does (fun q =>
      let u := c.k.quad q
      if ¬ acts q then (.adv, u)
      else if u.calls.length = 16 then (.trap 13 0 0, u)
      else (.jump target, { u with calls := ⟨(c.pc + 1) % (5 * 2 ^ 50), u.stack.length⟩ :: u.calls })) t) ∧
    (readyCx s 0x0CB (.c o) o.h = some c → ∃ t, exec (.ret o) s = .next t ∧ c.does (fun q =>
      let u := c.k.quad q
      if ¬ acts q then (.adv, u)
      else match u.calls with
        | e :: r => if e.depth = u.stack.length then (.jump e.ret, { u with calls := r }) else (.trap 1 6 0, u)
        | [] => (.trap 1 6 0, u)) t)

/-- R185, R190, R196, R251: `exit` ends each quad on which it acts, in user state: its mask stack, call stack and levels
are discarded. When the gang's last quad exits, the gang leaves the acquire queue of its core, and is beyond
recovery if it still owes faults found after issue, with the class of the earliest in issue order, the lowest lane's
among those of one instruction. In supervisor state it is an illegal instruction with reason 4.
(Where the spec leaves room, this is the model's reading: log entries 35 and 72.) -/
def Obligations.ExitEndsQuads : Prop :=
  ∀ (s : State) (c : Cx) (o : OpsC), readyCx s 0x0CD (.c o) o.h = some c →
    let acts := fun q => (o.h.pred = 7 ∧ o.h.neg = false) ∨ quadBits c.em q ≠ 0
    (c.sup = true → ∃ t, exec (.exit o) s = .next t ∧ c.does (fun q =>
      (if acts q then .trap 1 4 0 else .adv, c.k.quad q)) t) ∧
    (c.sup = false → ∃ e : Cx, exec (.exit o) s = .next e.finished ∧
      e = { c with s := e.s, k := e.k, out := e.out } ∧ e.k = { c.k with quads := e.k.quads, lost := e.k.lost } ∧
      (∀ q, if q ∈ c.qs ∧ acts q then FMap.get .adv e.out q = .hold ∧
          e.k.quad q = { c.k.quad q with exited := true, stack := [], calls := [], reps := [] }
        else FMap.get .adv e.out q = .adv ∧ e.k.quad q = c.k.quad q) ∧
      (e.k.liveQuads ≠ [] → e.s = c.s ∧ e.k.lost = c.k.lost) ∧
      ((∃ q ∈ c.qs, acts q) → e.k.liveQuads = [] →
        (let owed := c.k.lateC ++ c.k.lateA ++ c.k.lateJ;
          (owed = [] → e.k.lost = c.k.lost) ∧
          (owed ≠ [] → ∃ f ∈ owed, (∀ g ∈ owed, f.issue < g.issue ∨ (f.issue = g.issue ∧ f.lane ≤ g.lane)) ∧
            e.k.lost = (match c.k.lost with
              | some (x, m) => if f.issue < m then some (f.record.cls, f.issue) else some (x, m)
              | none => some (f.record.cls, f.issue)))) ∧
        e.s = c.s.onDie c.dn fun d =>
          let n := c.grp.cores.getD c.k.core 0
          d.setCore n { d.core n with waiters := (d.core n).waiters.filter (· ≠ (c.gid, c.gi)) }))

/-- R245, R248, R252 to R255: `regang`, `bar` and `gsync` make the quads of the sub-gang arrive and wait at their PC;
`yield` sends every quad to the label, to wait there until C ≤ n and A ≤ m, unless that holds already, when the faults of
the commands that it requires complete are taken (R185); `nop` only advances. A guard that is false in every active lane
makes `bar`, `gsync` and `yield` only advance. (What these do in supervisor state beyond R248 is the model's reading:
log entry 41.) -/
def Obligations.Arrivals : Prop :=
  ∀ (s : State) (c : Cx) (o : OpsC),
    let acts := (o.h.pred = 7 ∧ o.h.neg = false) ∨ c.em ≠ 0
    let n := c.aVal o.a % 64
    let m := c.aVal o.a / 64 % 64
    (readyCx s 0x0C7 (.c o) o.h = some c → ∃ t, exec (.regang o) s = .next t ∧ c.does (fun q =>
      (.hold, { c.k.quad q with atRegang := true })) t) ∧
    (readyCx s 0x0D0 (.c o) o.h = some c → ∃ t, exec (.bar o) s = .next t ∧ c.does (fun q =>
      if acts then (.hold, { c.k.quad q with barArrived := true }) else (.adv, c.k.quad q)) t) ∧
    (readyCx s 0x0D1 (.c o) o.h = some c → ∃ t, exec (.gsync o) s = .next t ∧ c.does (fun q =>
      if acts then (.hold, { c.k.quad q with gsyncArrived := true }) else (.adv, c.k.quad q)) t) ∧
    (readyCx s 0x0CF (.c o) o.h = some c → ∃ t, exec (.nop o) s = .next t ∧
      c.endsAs (fun q => (c.k.quad q).advance) t) ∧
    (readyCx s 0x0CE (.c o) o.h = some c →
      (¬ acts → ∃ t, exec (.yield o) s = .next t ∧ c.does (fun q => (.adv, c.k.quad q)) t) ∧
      (acts → c.sup = false → ¬ (c.k.c ≤ n ∧ c.k.a ≤ m) → ∃ t, exec (.yield o) s = .next t ∧ c.does (fun q =>
        (.jump ((c.pc + o.off) % (5 * 2 ^ 50)).toNat, { c.k.quad q with ywait := some (n, m) })) t) ∧
      (acts → c.k.c ≤ n → c.k.a ≤ m → ∃ e : Cx, exec (.yield o) s = .next e.finished ∧
        e = { c with k := e.k, out := e.out } ∧
        (∀ q ∈ c.qs, FMap.get .adv e.out q = .jump ((c.pc + o.off) % (5 * 2 ^ 50)).toNat) ∧
        ∃ k : Gang, e.k = k.takeLate c.sup (n, m) ∧ k = { c.k with quads := k.quads } ∧ ∀ q, k.quad q =
          if q ∈ c.qs then { c.k.quad q with ywait := if c.sup then (c.k.quad q).ywait else none } else c.k.quad q))

/-! ### Memory and engines -/

/-- R131, R132, R182, R187: the checks of a scratchpad access. The byte addresses of an access are those of its
offset and the bytes after it, each swizzled, from the window's base. A misaligned access, or else one that ends
beyond EXTENT, is a window-bound fault of its lane with reason 1 or 2: the lane is to park, with the offset as ADDR
and VALUE and the window as LOC. (Where the spec leaves room, this is the model's reading: log entries 21 and 52.)
-/
def Obligations.ScratchpadChecks : Prop :=
  (∀ (w : Win) (off n : Nat), w.bytes off n = (List.range n).map fun i =>
    w.base + if w.swz = 0 then off + i else (off + i) ^^^ ((((off + i) >>> (w.swz + 7)) &&& 0x3F) <<< 2)) ∧
  ∀ (c : Cx) (win n : Nat) (off : Nat → Nat), c.parks = [] → n ∈ [1, 2, 4, 8, 16] →
    let e := c.checkWindow win n off
    e = { c with parks := e.parks } ∧ ∀ l,
      let fault := fun reason => some (⟨3, reason, c.gi, l, c.op % 256, c.pc, off l, win, BitVec.ofNat 32 (off l)⟩ : FaultRec)
      e.parks.find? l = if l < 32 ∧ inMask (c.em &&& ~~~c.helpers) l = true then
          (if off l % n ≠ 0 then fault 1 else if (c.window win).extent < off l + n then fault 2 else none)
        else none

/-- R125, R127, R226, R270: what `ld` loads in each lane that does not park. One byte is extended by its sign for i8,
two bytes for i16; other narrow types with zeros; four bytes are the word, eight the pair, and `.x4` fills four
registers in ascending order. A helper lane loads zeros. R79: beside that the gang takes note of the releases whose
values the other lanes have read (log entry 124). -/
def Obligations.ScratchpadLoads : Prop :=
  ∀ (s : State) (o : OpsM) (p : Cx),
    let off := fun l => (((p.reg o.roff l).toNat + o.disp) % 2 ^ 32).toNat
    let bytes := fun n l => if inMask p.helpers l = true then List.replicate n 0
      else ((p.window o.win).bytes (off l) n).map fun a => (p.grp.home p.k.core).area.read a
    let saw := fun n => (lanesOf (p.em &&& ~~~p.helpers &&& ~~~p.parked)).foldl (fun (c : Cx) l =>
      c.sees ((p.window o.win).bytes (off l) n)) p
    (o.m.variant ≠ 1 → memReady s 0x140 o (o.m.ty.width / 8) = some p → exec (.ld o) s =
      .next ((saw (o.m.ty.width / 8)).resultTy o.m.ty.wide o.d p.runs fun l =>
        let v := leNat (bytes (o.m.ty.width / 8) l)
        if o.m.ty = .i8 then ((BitVec.ofNat 8 v).signExtend 32).setWidth 64
        else if o.m.ty = .i16 then ((BitVec.ofNat 16 v).signExtend 32).setWidth 64
        else BitVec.ofNat 64 v).finished) ∧
    (o.m.variant = 1 → memReady s 0x140 o 16 = some p →
      let put := fun (c : Cx) (i : Nat) =>
        c.result (o.d.plus i) p.runs fun l => BitVec.ofNat 32 (leNat (((bytes 16 l).drop (4 * i)).take 4))
      exec (.ld o) s = .next (put (put (put (put (saw 16) 0) 1) 2) 3).finished)

/-- R125, R132, R270: what `st` stores. Each lane that executes, is no helper lane and does not park stores the low bytes
of its data, or under `.x4` its four registers, at the addresses of its access; where two lanes store to one byte the
higher lane's remains. Every other byte of the area, the areas of other cores, and everything else of the group, the
gang and the module are unchanged before the instruction ends, but for the notes of where the values of releases stand
(R79, log entry 124): none, where there was none and the gang has made no release fence. -/
def Obligations.ScratchpadStores : Prop :=
  ∀ (s : State) (o : OpsM) (p : Cx),
    let n := if o.m.variant = 1 then 16 else o.m.ty.width / 8
    let addrs := fun l => (p.window o.win).bytes (((p.reg o.roff l).toNat + o.disp) % 2 ^ 32).toNat n
    let stores := fun l => l < 32 ∧ inMask (p.em &&& ~~~p.helpers &&& ~~~p.parked) l = true
    let data := fun l (i : Nat) => if o.m.variant = 1 then (p.reg (o.data.plus (i / 4)) l).toNat / 256 ^ (i % 4)
      else if o.m.ty.wide then (p.reg64 o.data l).toNat / 256 ^ i else (p.reg o.data l).toNat / 256 ^ i
    memReady s 0x141 o n = some p → p.k.core < p.grp.homes.length →
    ∃ e : Cx, exec (.st o) s = .next e.finished ∧ e = { p with grp := e.grp, s := e.s } ∧
      e.s = { p.s with notes := e.s.notes } ∧ (p.s.notes = [] → p.k.know.fences = [] → e.s = p.s) ∧
      e.grp = { p.grp with homes := e.grp.homes } ∧ (∀ j, j ≠ p.k.core → e.grp.home j = p.grp.home j) ∧
      e.grp.home p.k.core = { p.grp.home p.k.core with area := e.area } ∧
      (∀ l i a, stores l → (addrs l)[i]? = some a → (∀ m, stores m → l < m → a ∉ addrs m) →
        e.area.read a = BitVec.ofNat 8 (data l i)) ∧
      ∀ a, (∀ l, stores l → a ∉ addrs l) → e.area.read a = p.area.read a

/-- R80, R125, R150, R271: `atom` is one step for each executing lane that is no helper lane and does not park, in
ascending order: each reads the old value of its bytes, leaves the new value there, and gives the old one as its
result. With `.rel` or `.ar` (ORD 4 and 5) the instruction first waits until what the release covers has been
performed, and its stores release at its scope; with `.acq` or `.ar` it acquires at its scope from the releases whose
values it reads, after which the group sees the code that they cover (R79, R208). Each lane's step raises its flags in
its quad: those of the f32 sum, minimum or maximum. The new value is the old one plus the operand modulo 2^w, the
smaller or greater by the type, the bitwise combination, the operand, or the operand where the old value equals the
destination. (Where the spec leaves room, this is the model's reading: log entries 68, 124 and 129.) -/
def Obligations.ScratchpadAtomics : Prop :=
  (∀ ty ∈ [Ty.i32, .n32, .i64, .n64], ∀ old a d : DWord,
    atomStep ty 0 old a d = (if ty.wide then old + a else (old.setWidth 32 + a.setWidth 32 : Word).setWidth 64) ∧
    atomStep ty 1 old a d = (if ty.int old ≤ ty.int a then old else a) ∧
    atomStep ty 2 old a d = (if ty.int a ≤ ty.int old then old else a) ∧ atomStep ty 3 old a d = old &&& a ∧
    atomStep ty 4 old a d = old ||| a ∧ atomStep ty 5 old a d = old ^^^ a) ∧
  (∀ (ty : Ty) (old a d : DWord), atomStep ty 6 old a d = a ∧ atomStep ty 7 old a d = (if old = d then a else old)) ∧
  (∀ old a d : DWord,
    atomStep .f32 0 old a d = BitVec.ofNat 64 (addF f32 0 false (fval f32 old.toNat) (fval f32 a.toNat)).1 ∧
    atomStep .f32 1 old a d = BitVec.ofNat 64 (minmaxF f32 false false old.toNat a.toNat).1 ∧
    atomStep .f32 2 old a d = BitVec.ofNat 64 (minmaxF f32 false true old.toNat a.toNat).1) ∧
  ∀ (s : State) (o : OpsM) (p : Cx),
    let n := o.m.ty.width / 8
    let m := p.em &&& ~~~p.helpers &&& ~~~p.parked
    let addrs := fun l => (p.window o.win).bytes (((p.reg o.roff l).toNat + o.disp) % 2 ^ 32).toNat n
    let val := fun r l => if o.m.ty.wide then p.reg64 r l else (p.reg r l).setWidth 64
    let seen := (lanesOf m).foldl (fun (c : Cx) l => c.sees (addrs l)) p
    let found := (lanesOf m).flatMap fun l => releasesAt p.s.notes (spotsOf p.spot (addrs l))
    let q := if o.m.variant = 3 ∨ o.m.variant = 5 then seen.acquire (acquired found p.agent o.m.flags) else seen
    let flags := fun (v a : DWord) => if o.m.ty ≠ .f32 then (0 : BitVec 6) else match o.opx with
      | 0 => (addF f32 0 false (fval f32 v.toNat) (fval f32 a.toNat)).2
      | 1 => (minmaxF f32 false false v.toNat a.toNat).2
      | 2 => (minmaxF f32 false true v.toNat a.toNat).2
      | _ => 0
    memReady s 0x142 o n = some p → p.k.core < p.grp.homes.length →
    (p.em ≠ 0 → 4 ≤ o.m.variant → releasePending p.s p.dn p.gid p.gi = true → exec (.atom o) s = .next s) ∧
    ((p.em ≠ 0 → 4 ≤ o.m.variant → releasePending p.s p.dn p.gid p.gi = false) →
    ∃ (areas : Nat → Memory) (old : Nat → DWord) (notes : List Note), areas 0 = p.area ∧
      (p.s.notes = [] → p.k.know.fences = [] → o.m.variant < 4 → notes = []) ∧
      (∀ l < 32, if inMask m l = true then
          old l = BitVec.ofNat 64 (leNat ((areas l).readAll (addrs l))) ∧
          areas (l + 1) = (areas l).writeAll ((addrs l).zip
            (leBytes n (atomStep o.m.ty o.opx (old l) (val o.data l) (val o.d l)).toNat))
        else areas (l + 1) = areas l) ∧
      exec (.atom o) s = .next ((({ q with
          s := { p.s with notes := notes }
          grp := q.grp.onHome p.k.core fun h => { h with area := areas 32 } } : Cx).resultTy
        o.m.ty.wide o.d m old).raise m fun l => flags (old l) (val o.data l)).finished)

/-- R129, R131, R272, R285: `wset`, `nres` and `nhand`. `wset` with a base that is not a multiple of 64, or that
ends beyond the group's area, is to park its lowest active lane with reason 2; otherwise window N of the gang's core
has the base, extent and swizzle given, and stands pending for the other cores, where the highest-numbered gang
prevails; other windows and cores keep theirs. `nres` and `nhand`: in each executing lane that is no helper lane, a
child that the node does not have, a misaligned offset, and one that ends beyond RSIZE are window-bound faults that
name no window; the other lanes write their value, low byte first, into the group's result, or into the slot of the
child, the higher lane's byte remaining. `nhand` in an upward node is an illegal instruction with reason 4 in each
quad with such a lane. (That the value slots stand RSIZE bytes apart in the group's buffer is the model's layout:
log entry 42.) (Where the spec leaves room, this is the model's reading: log entry 66.) -/
def Obligations.WindowsAndResults : Prop :=
  (∀ (s : State) (o : OpsE) (c : Cx) (n : Nat) (r : Reg),
    readyCx s 0x143 (.e o) o.h = some c → acquirePending c.s c.dn c.gid c.gi = false → o.a = .win n r →
    c.k.core < c.grp.homes.length →
    let base := c.uniform o.b
    let ext := c.uniform o.c
    (c.em = 0 → exec (.wset o) s = .next c.finished) ∧
    (∀ l, lowest c.em = some l → base % 64 ≠ 0 ∨ 4096 * c.grp.spad < base + ext → exec (.wset o) s =
      .next (c.park l ⟨3, 2, c.gi, l, 0x43, c.pc, base + ext, n, BitVec.ofNat 32 base⟩).finished) ∧
    (c.em ≠ 0 → base % 64 = 0 → base + ext ≤ 4096 * c.grp.spad →
      ∃ e : Cx, exec (.wset o) s = .next e.finished ∧ e = { c with grp := e.grp } ∧
        e.grp = { c.grp with homes := e.grp.homes } ∧ (∀ j, j ≠ c.k.core → e.grp.home j = c.grp.home j) ∧
        (let h := c.grp.home c.k.core
         let h' := e.grp.home c.k.core
         h' = { h with wins := h'.wins, winPend := h'.winPend } ∧
         (∀ k, e.window k = if k = n then ⟨base, ext, o.m.variant⟩ else c.window k) ∧
         ∀ k, h'.winPend.find? k = if k = n then
             (match h.winPend.find? n with
               | some (g, v) => if c.gi < g then some (g, v) else some (c.gi, ⟨base, ext, o.m.variant⟩)
               | none => some (c.gi, ⟨base, ext, o.m.variant⟩))
           else h.winPend.find? k))) ∧
  ((∀ (s : State) (o : OpsE) (c : Cx), readyCx s 0x150 (.e o) o.h = some c →
    acquirePending c.s c.dn c.gid c.gi = false → c.grp.down = false → exec (.nhand o) s =
      .next ({ c with out := (c.qs.filter fun q => quadBits (c.em &&& ~~~c.helpers) q ≠ 0).map fun q =>
        (q, .trap 1 4 0) } : Cx).finished) ∧
  ∀ (s : State) (o : OpsE) (p : Cx) (hand : Bool),
    let n := if o.m.ty.wide then 8 else 4
    let child := fun l => if hand then p.descLane o.a l else 0
    let off := fun l => p.descLane (if hand then o.b else o.a) l
    let value := fun l => (p.descData o.m.ty.wide (if hand then o.c else o.b) l).toNat
    let runs := fun l => l < 32 ∧ inMask (p.em &&& ~~~p.helpers) l = true
    let fault := fun l => if hand = true ∧ p.grp.kids ≤ child l then some (2, child l)
      else if off l % n ≠ 0 then some (1, off l) else if p.grp.rsize < off l + n then some (2, off l) else none
    let slot := fun (g : Group) => if hand then g.values else g.result
    let addr := fun l i => if hand then p.grp.rsize * child l + (off l + i) else off l + i
    engineReady s (if hand then 0x150 else 0x14F) o = some p → (hand = true → p.grp.down = true) →
    ∃ e : Cx, exec (if hand then .nhand o else .nres o) s =
        .next (e.popPeeked (if hand then 0x150 else 0x14F) (.e o)).finished ∧
      e = { p with grp := e.grp, parks := e.parks } ∧
      e.grp = { p.grp with result := e.grp.result, values := e.grp.values } ∧
      (if hand then e.grp.result = p.grp.result else e.grp.values = p.grp.values) ∧
      (∀ l, runs l → e.parks.find? l = (fault l).map fun x =>
        ⟨3, x.1, p.gi, l, p.op % 256, p.pc, x.2, 0xFFFF, BitVec.ofNat 32 x.2⟩) ∧
      (∀ l, runs l → fault l = none → ∀ i < n, (∀ m, runs m → fault m = none → l < m → ∀ j < n, addr l i ≠ addr m j) →
        (slot e.grp).read (addr l i) = BitVec.ofNat 8 (value l / 256 ^ i)) ∧
      ∀ a, (∀ l, runs l → fault l = none → ∀ i < n, a ≠ addr l i) → (slot e.grp).read a = (slot p.grp).read a)

/-- R64, R69, R133, R181, R269, R273: the checks of an engine command at issue, in each executing lane that is no
helper lane: an invalid record, then the index against each extent, then each scratchpad side; the first that fails is
the record with which the lane is to park, and the lanes that pass are the elements. Issuing it adds one to the number
of its class; where an element survives, or an earlier command of the class is outstanding, the class's counter rises
by one and the die holds the command under a new number, in issue order; one with a register result holds, for each quad,
how often its last-result file has shifted (log entry 131). (Where the spec leaves room, this is the
model's reading: log entries 21 and 56.) -/
def Obligations.EngineIssue : Prop :=
  (∀ (c : Cx) (bad : Option Nat) (bounds : List (Nat × Rec)) (idx : Nat → Nat) (sides : List Side) (mk : Nat → Elem),
    c.parks = [] →
    let e := c.checkElems bad bounds idx sides mk
    let fault := fun l cls reason addr loc (v : Nat) =>
      some (⟨cls, reason, c.gi, l, c.op % 256, c.pc, addr, loc, BitVec.ofNat 32 v⟩ : FaultRec)
    let first : Nat → Option FaultRec := fun l => match bad with
      | some id => fault l 5 2 (idx l) id (idx l)
      | none => match bounds.find? fun b => b.2.extent ≤ idx l with
        | some b => fault l 5 1 (idx l) b.1 (idx l)
        | none => sides.findSome? fun x => let off := x.2.2.1 l
          if off % min x.2.2.2 64 ≠ 0 then fault l 3 1 off x.1 off
          else if x.2.1.extent < off + x.2.2.2 then fault l 3 2 off x.1 off else none
    e.1 = { c with parks := e.1.parks } ∧ ∀ l, let runs := l < 32 ∧ inMask (c.em &&& ~~~c.helpers) l = true
      e.1.parks.find? l = (if runs then first l else none) ∧
      e.2.find? l = if runs ∧ first l = none then some (mk l) else none) ∧
  ∀ (c : Cx) (isA : Bool) (op : CmdOp) (elems : FMap Elem) (scope : Nat) (dest : Option Nat) (wide release : Bool),
    c.dn < c.s.dies.length →
    let e := c.command isA op elems scope dest wide release
    let d := c.s.die c.dn
    let d' := e.s.die c.dn
    let kept := elems ≠ [] ∨ ∃ x ∈ d.cmds, x.2.gid = c.gid ∧ x.2.gang = c.gi ∧ x.2.isA = isA
    e = { c with k := e.k, s := e.s } ∧
    e.k = { c.k with a := e.k.a, c := e.k.c, issuedA := e.k.issuedA, issuedC := e.k.issuedC } ∧
    e.k.issuedA = c.k.issuedA + (if isA then 1 else 0) ∧ e.k.issuedC = c.k.issuedC + (if isA then 0 else 1) ∧
    (kept → e.k.a = c.k.a + (if isA then 1 else 0) ∧ e.k.c = c.k.c + (if isA then 0 else 1)) ∧
    (¬ kept → e.k.a = c.k.a ∧ e.k.c = c.k.c ∧ e.s = c.s) ∧
    (kept → (∀ n, n ≠ c.dn → e.s.die n = c.s.die n) ∧ d' = { d with cmds := d'.cmds, nextId := d.nextId + 1 } ∧
      (∀ n, n ≠ d.nextId → d'.cmds.find? n = d.cmds.find? n) ∧
      ∃ x, d'.cmds.find? d.nextId = some x ∧ x.gid = c.gid ∧ x.gang = c.gi ∧ x.isA = isA ∧ x.pc = c.pc ∧ x.scope = scope ∧
        x.ord = (if isA then c.k.issuedA else c.k.issuedC) ∧ x.op = op ∧ x.elems = elems ∧ x.dest = dest ∧
        x.wide = wide ∧ x.release = release ∧ x.sup = c.sup ∧ x.lanes = c.em ∧ x.issue = c.k.issued ∧
        x.pre = c.grp.pre ∧ x.flag = false ∧ x.marks = (if dest.isSome = true ∧ c.nh = false ∧ c.sup = false then
          c.qs.map fun u => (u, FMap.get 0 c.k.shifts u) else []) ∧
        x.seen = ⟨[], [], []⟩ ∧
        x.covers = (if release then (d.cmds.filter fun y => y.2.gid = c.gid && y.2.gang = c.gi).map (·.1) else []))

/-- R84, R133, R268, R273 to R276: the engine commands of the lane class. Each reads its records, checks its elements
as `EngineIssue` says, and issues; the scratchpad bytes that it sends are read at issue. `ratom` shifts the last-result
file as it issues, for the result that lands later (log entry 131). With no executing lane each issues a command of
which no element survives (R200, R273); with its counter at 63 each waits. (Where the spec leaves room, this is the
model's reading: log entries 56, 58 and 63.) -/
def Obligations.LaneCommands : Prop :=
  ∀ (s : State) (o : OpsE) (p : Cx),
    let done := fun op (c : Cx) => Host.Outcome.next (c.popPeeked op (.e o)).finished
    let ra := (p.record_ o.a.rid).1
    let rb := (p.record_ o.b.rid).1
    let a := p.descLane o.a
    let b := p.descLane o.b
    let c := p.descLane o.c
    let core := (p.reg o.d ((lowest p.em).getD 0)).toNat
    let read := fun (w : Win) n off => p.area.readAll (w.bytes off n)
    let send := fun (e : Cx × FMap Elem) (op : CmdOp) => e.1.command false op e.2
    let loads := fun (e : Cx × FMap Elem) (w : Win) n (off : Nat → Nat) =>
      (e.2.foldl (fun (c : Cx) x => c.sees (w.bytes (off x.1) n)) e.1, e.2)
    let at_ := fun l i off data => (⟨l, i, i, off, data, 0, 0, 0, .waiting⟩ : Elem)
    (∀ x ∈ [(0x144, Instr.copy o, false), (0x145, .gath o, false), (0x146, .scat o, false), (0x147, .ratom o, true)],
      engineReady s x.1 o = some p → 63 ≤ (if x.2.2 then p.k.a else p.k.c) → exec x.2.1 s = .next s) ∧
    (engineReady s 0x144 o = some p → p.k.c < 63 →
      (o.m.variant = 0 → exec (.copy o) s = done 0x144 (send
        ((p.record_ o.b.rid).2.checkElems (if rb.invalid then some o.b.rid else none) [(o.b.rid, rb)] c
          [(o.a.window, p.window o.a.window, a, rb.size)] fun l => at_ l (c l) (a l) [])
        (.copyIn o.b.rid rb (p.window o.a.window)))) ∧
      (o.m.variant = 1 → exec (.copy o) s = done 0x144 (send
        (loads ((p.record_ o.a.rid).2.checkElems (if ra.invalid then some o.a.rid else none) [(o.a.rid, ra)] b
          [(o.c.window, p.window o.c.window, c, ra.size)]
          fun l => at_ l (b l) (c l) (read (p.window o.c.window) ra.size (c l))) (p.window o.c.window) ra.size c)
        (.copyOut o.a.rid ra))) ∧
      (o.m.variant = 2 → core < p.grp.cores.length →
        let n := p.uniform o.c
        let w := FMap.get Win.none (p.grp.home core).wins o.a.window
        exec (.copy o) s = done 0x144 (send
          (loads (p.checkElems none [] (fun _ => 0) [(o.a.window, w, a, n), (o.b.window, p.window o.b.window, b, n)]
            fun l => at_ l 0 (a l) (read (p.window o.b.window) n (b l))) (p.window o.b.window) n b)
          (.copyXc core n w))) ∧
      (o.m.variant = 2 → p.grp.cores.length ≤ core →
        exec (.copy o) s = done 0x144 (((lanesOf (p.em &&& ~~~p.helpers)).foldl (fun q l => q.park l
            ⟨3, 2, p.gi, l, p.op % 256, p.pc, a l, o.a.window, BitVec.ofNat 32 core⟩) p).command false
          (.copyXc core (p.uniform o.c) (FMap.get Win.none (p.grp.home core).wins o.a.window)) [])) ∧
      (3 ≤ o.m.variant → let q := (p.record_ o.a.rid).2
        let rc := (q.record_ o.c.rid).1
        exec (.copy o) s = done 0x144 (send
          ((q.record_ o.c.rid).2.checkElems
            (if ra.invalid then some o.a.rid else if rc.invalid then some o.c.rid
              else if ra.esize = rc.esize then none else some o.a.rid)
            [(o.a.rid, ra), (o.c.rid, rc)] b [] fun l => at_ l (b l) 0 [])
          (.copyDd o.a.rid ra o.c.rid rc)))) ∧
    (engineReady s 0x145 o = some p → p.k.c < 63 → ∃ rs bad q, p.levels o.m.variant o.b.rid o.d = (rs, bad, q) ∧
      exec (.gath o) s = done 0x145 (send
        (q.checkElems bad (rs.drop o.m.variant) c [(o.a.window, q.window o.a.window, a, ((rs.map (·.2)).getD 0 (recOf [])).size)]
          fun l => ⟨l, c l, c l, a l, [], 0, o.m.variant, 0, .waiting⟩)
        (.gath (rs.map (·.1)) (rs.map (·.2)) (q.window o.a.window)))) ∧
    (engineReady s 0x146 o = some p → p.k.c < 63 → ∃ rs bad q, p.levels o.m.variant o.a.rid o.d = (rs, bad, q) ∧
      let n := ((rs.map (·.2)).getD 0 (recOf [])).size
      exec (.scat o) s = done 0x146 (send
        (loads (q.checkElems bad (rs.drop o.m.variant) b [(o.c.window, q.window o.c.window, c, n)]
          fun l => ⟨l, b l, b l, 0, read (q.window o.c.window) n (c l), 0, o.m.variant, 0, .waiting⟩)
          (q.window o.c.window) n c)
        (.scat (rs.map (·.1)) (rs.map (·.2))))) ∧
    (engineReady s 0x147 o = some p → p.k.a < 63 → ∀ x r, o.c = .reg x r →
      let val := fun (q : Reg) l => if o.m.ty.wide then p.reg64 q l else (p.reg q l).setWidth 64
      let e := (p.record_ o.a.rid).2.checkElems (if ra.invalid then some o.a.rid else none) [(o.a.rid, ra)] b []
        fun l => ⟨l, b l, b l, 0, leBytes 8 (val r l).toNat, (val o.d l).toNat, 0, 0, .waiting⟩
      let op := CmdOp.ratom o.a.rid ra x o.m.ty o.m.variant
      let sh := e.1.shiftAhead o.m.ty.wide o.d
      exec (.ratom o) s = done 0x147 (if ra.size = o.m.ty.width / 8 then
          sh.command true op e.2 o.m.flags (some o.d.code) o.m.ty.wide (4 ≤ o.m.variant)
        else (e.2.foldl (fun q x => q.park x.1
          ⟨5, 2, p.gi, x.1, p.op % 256, p.pc, b x.1, o.a.rid, BitVec.ofNat 32 (b x.1)⟩) sh).command true op []))

/-- R133, R200, R269, R277, R281, R282, R284: the gang instructions that write memory. With no executing lane but
helper lanes each only advances; with its counter at 63 it waits. A cause at issue parks the lowest active lane, and
the command counts and completes at once; otherwise one element of that lane is issued. `publish` and `launch` with a
predicate shift the last-result file as they issue (log entry 131), and `launch` is first a release fence at .die.
(Where the spec leaves room, this is the model's reading: log entries 37, 56 and 59.) -/
def Obligations.GangCommands : Prop :=
  ∀ (s : State) (o : OpsE) (c : Cx),
    let r := (c.record_ o.a.rid).1
    let q := (c.record_ o.a.rid).2
    let el := fun l (e : Nat) => [(l, (⟨l, e, e, 0, [], 0, 0, 0, .waiting⟩ : Elem))]
    let park := fun (c : Cx) l reason addr (v : Nat) =>
      c.park l ⟨5, reason, c.gi, l, c.op % 256, c.pc, addr, o.a.rid, BitVec.ofNat 32 v⟩
    let e := c.uniform o.b
    let bad := fun (r : Rec) size => if r.invalid = true ∨ r.esize ≠ size then some 2 else if r.extent ≤ e then some 1 else none
    (∀ x ∈ [(0x148, Instr.coll o, false), (0x14A, .publish o, true), (0x14C, .sigadd o, true), (0x14E, .launch o, true)],
      readyCx s x.1 (.e o) o.h = some c → acquirePending c.s c.dn c.gid c.gi = false →
      (c.em &&& ~~~c.helpers = 0 → exec x.2.1 s = .next c.finished) ∧
      (c.em &&& ~~~c.helpers ≠ 0 → 63 ≤ (if x.2.2 then c.k.a else c.k.c) → exec x.2.1 s = .next s)) ∧
    ∀ l, lowest (c.em &&& ~~~c.helpers) = some l → acquirePending c.s c.dn c.gid c.gi = false →
      (readyCx s 0x14A (.e o) o.h = some c → c.k.a < 63 → exec (.publish o) s = .next (if r.invalid
        then (park (q.shiftPred o.b.theReg) l 2 0 0).command true (.publish o.a.rid) []
        else (q.shiftPred o.b.theReg).command true (.publish o.a.rid) (el l 0) o.m.flags (predCode o.b.theReg) false true).finished) ∧
      (readyCx s 0x14C (.e o) o.h = some c → c.k.a < 63 →
        let op := CmdOp.sigadd o.a.rid r (q.uniform64 o.c)
        exec (.sigadd o) s = .next (match bad r 3 with
          | some n => (park q l n e e).command true op []
          | none => q.command true op (el l e) o.m.flags none false (o.m.variant = 4)).finished) ∧
      (readyCx s 0x14E (.e o) o.h = some c → c.k.a < 63 → releasePending c.s c.dn c.gid c.gi = false →
        let f : Cx := { c with k := { c.k with know := { c.k.know with fences := (2, c.k.issued) :: c.k.know.fences } } }
        let r := (f.record_ o.a.rid).1
        let op := CmdOp.launch o.a.rid r (c.uniform o.c)
        let t := (f.record_ o.a.rid).2.shiftPred o.d
        exec (.launch o) s = .next (match bad r 6 with
          | some n => (park t l n e e).command true op []
          | none => t.command true op (el l e) 2 (predCode o.d) false true).finished) ∧
      ∀ p, readyCx s 0x148 (.e o) o.h = some c → c.k.c < 63 → c.peekPorts 0x148 (.e o) = some p →
        let rd := (p.record_ o.a.rid).1
        let rs := ((p.record_ o.a.rid).2.record_ o.b.rid).1
        let off := p.descLane o.c l
        let read := ((p.record_ o.a.rid).2.record_ o.b.rid).2
        let q := if (p.window o.c.window).extent < off + 32 then read
          else read.sees ((p.window o.c.window).bytes off 32)
        let desc := if (p.window o.c.window).extent < off + 32 then none
          else collDescOf (p.area.readAll ((p.window o.c.window).bytes off 32))
        exec (.coll o) s = .next ((match desc with
          | some d => if rd.invalid = false ∧ rs.invalid = false ∧ collOk d o.m.ty rd rs = true then
              q.command false (.coll o.a.rid rd o.b.rid rs d o.m.ty) (el l 0) o.m.flags none false true
            else (park q l 2 0 off).command false (.coll o.a.rid rd o.b.rid rs ⟨0, 0, 0, 0, 0, 0, 0⟩ o.m.ty) []
          | none => (park q l 2 0 off).command false (.coll o.a.rid rd o.b.rid rs ⟨0, 0, 0, 0, 0, 0, 0⟩ o.m.ty) []
            ).popPeeked 0x148 (.e o)).finished

/-- R80, R81, R85, R133, R185, R208, R279, R280, R283: `wait` completes when C ≤ n and A ≤ m, with the faults of the
commands that these require complete taken; `fence` with a release order completes when what the release covers has
been performed, and with another order at once; `sigwait` completes when the element read on the front side of its
snapshot holds at least the value, and until then every quad of the sub-gang stays at it; on an SO page the first read
waits for the gang's earlier accesses of such pages, queued join instructions' too. A `sigwait` that completes acquires
at its scope from the releases whose values it has read, and a `wait` from the collectives that it finds complete; a
`fence` of acquire order acquires at its scope from the releases that the gang's completed reads have observed, and one
of release order is a release of what happens before it, by any later write of the gang. With no executing lane each
only advances. R78, R79: an acquire takes the writes of those releases whose agent and its own lie each in the other's
scope. R208: of a line of code that a group goes on fetching as it stood, an acquire shows the last write that is among
those acquired. (How writes of code are numbered and releases followed is the model's reading: log entry 124.) (Where
the spec leaves room, this is the model's reading: log entries 36, 65, 68, 124 and 128.) -/
def Obligations.WaitsAndFences : Prop :=
  (∀ (k : KeptLine) (ws : List Nat), k.later ≠ [] →
    ((∀ w ∈ k.later, w.number ∉ ws) → KeptLine.acquire ws k.later k = some k) ∧
    ∀ xs w ys, k.later = xs ++ w :: ys → w.number ∈ ws → (∀ z ∈ ys, z.number ∉ ws) →
      KeptLine.acquire ws k.later k = if ys = [] then none else some ⟨w.bytes, ys⟩) ∧
  (∀ (g : Group) (ws : List Nat) (line : Nat), (g.code.map (·.1)).Nodup →
    (g.acquire ws).code.find? line = (g.code.find? line).bind fun k => KeptLine.acquire ws k.later k) ∧
  (∀ (rs : List Release) (y : Agent) (scope w : Nat),
    let within := fun (x y : Agent) (scope : Nat) => x = y ∨ match scope with
      | 0 => False
      | 1 => ∃ d g i j, x = .gang d g i ∧ y = .gang d g j
      | 2 => x.die = y.die ∧ x.die ≠ none
      | 3 => x.die ≠ none ∧ y.die ≠ none
      | _ => True
    w ∈ acquired rs y scope ↔ ∃ r ∈ rs, within r.by_ y r.scope ∧ within y r.by_ scope ∧ w ∈ r.writes) ∧
  (∀ (k : Know) (who : Agent) (n : Nat) (own : Option Nat) (r : Release),
    let before := fun m => k.known.filterMap fun e => if e.2 ≤ m then some e.1 else none
    r ∈ k.releases who n own ↔ r.by_ = who ∧ r.writes ≠ [] ∧
      ((own = some r.scope ∧ r.writes = before n) ∨
        ∃ f, r.scope < 5 ∧ k.fences.find? (fun f => f.1 = r.scope && f.2 ≤ n) = some f ∧ r.writes = before f.2)) ∧
  (∀ (c : Cx) (ord scope : Nat) (ws : List Nat) (v : Nat × Nat),
    let know := c.k.know
    let a := acquired know.reads c.agent scope
    (c.acquire ws = { c with k := { c.k with know := know.learn c.k.issued ws }, grp := c.grp.acquire ws }) ∧
    c.collects v = { c with
      k := { c.k with know := know.took c.k.issued (c.k.seesDone v) }
      grp := c.grp.acquire ((know.unseen.filter (c.k.seesDone v)).flatMap (·.acquired)) } ∧
    let b := if ord = 3 ∨ ord = 5 then c.acquire a else c
    c.ordered ord scope = if 4 ≤ ord then
        { b with k := { b.k with know := { b.k.know with fences := (scope, c.k.issued) :: know.fences } } }
      else b) ∧
  ∀ (s : State) (o : OpsE) (c : Cx),
    (∀ x ∈ [(0x149, Instr.wait o), (0x14B, .fence o)],
      readyCx s x.1 (.e o) o.h = some c → c.em = 0 → exec x.2 s = .next c.finished) ∧
    (readyCx s 0x149 (.e o) o.h = some c → c.em ≠ 0 →
      let n := c.uniform o.a % 64
      let m := c.uniform o.a / 64 % 64
      exec (.wait o) s = if c.k.c ≤ n ∧ c.k.a ≤ m then .next (({ c with k := c.k.takeLate c.sup (n, m) } : Cx).collects (n, m)).finished
        else .next s) ∧
    (readyCx s 0x14B (.e o) o.h = some c → c.em ≠ 0 → exec (.fence o) s =
      if 4 ≤ o.m.variant ∧ releasePending c.s c.dn c.gid c.gi = true then .next s
      else .next (c.ordered o.m.variant o.m.flags).finished) ∧
    (readyCx s 0x14D (.e o) o.h = some c → acquirePending c.s c.dn c.gid c.gi = false →
      (c.em = 0 → exec (.sigwait o) s = .next c.finished) ∧
      (∀ l, lowest c.em = some l →
        let r := (c.record_ o.a.rid).1
        let q := (c.record_ o.a.rid).2
        let e := c.uniform o.b
        let v := q.uniform64 o.c
        ((∀ u ∈ c.qs, (c.k.quad u).sigw = none) → r.invalid = false → r.esize = 3 → e < r.extent →
          let later := (∃ a ∈ r.frontAddrs e, kindAt q.s c.dn (a / 65536 * 65536) = 0) ∧
            (soPending q.s c.dn c.gid c.gi = true ∨
              ∃ j ∈ joinQueued q.s c.dn c.gid c.gi, j.2.has q.s c.dn (fun k => k = 0) = true)
          (later → exec (.sigwait o) s = .next s) ∧
          ∀ bs t, ¬ later → readElem q.s c.dn (r.frontAddrs e) = (.ok bs, t) →
            exec (.sigwait o) s = .next (if v ≤ leNat bs then
                (({ q with s := t.rested } : Cx).onKnow fun k => k.observe t.trace.saw).acquire
                  (acquired t.trace.saw c.agent o.m.flags)
              else { q with
                  s := t.rested, out := c.qs.map fun u => (u, .hold)
                  k := c.qs.foldl (fun k u => k.onQuad u fun x =>
                    { x with sigw := some ⟨c.pc, o.a.rid, r, e, v, l, false, []⟩ }) c.k } : Cx).finished) ∧
        ∀ w, (∀ u ∈ c.qs, (c.k.quad u).sigw = some w) → w.pc = c.pc → exec (.sigwait o) s =
          if w.met then .next ((({ c with
              k := c.qs.foldl (fun k u => k.onQuad u fun x => { x with sigw := none }) c.k } : Cx).onKnow fun k =>
                k.observe w.saw).acquire (acquired w.saw c.agent o.m.flags)).finished
          else .next s))

/-! ### The join engine and the cabinet -/

/-- R160, R161, R223, R290, R292: ownership. Every join and cabinet instruction but `macq`, of a gang that is not the
owner, is a join-ownership trap once its register codes stand as words, and so is `macq` of the owner or of a gang in
the queue. `macq` puts the gang at the tail of the acquire queue and its quads wait. `mrel` with a session open is a
cabinet-misuse trap; once the queue is empty and what its release covers has been performed it takes the faults that no
`jwait` has taken, clears tile registers, trays, JSTEP and queue, and gives the engine up: a release of what happens
before it, which the next owner acquires (R93). With no executing lane each but `cacc` and `cprobe`, which act in each
lane, only advances (R200). (A grant made while no quad stood at `macq` is taken by the next `macq`: log entry 43.)
(Where the spec leaves room, this is the model's reading: log entries 69, 71 and 124.) -/
def Obligations.JoinOwnership : Prop :=
  ∀ (s : State) (o : OpsE) (c : Cx),
    let trap := fun (cls : Nat) => Host.Outcome.next ({ c with out := c.qs.map fun q => (q, .trap cls 0 0) } : Cx).finished
    let mine := (c.gid, c.gi)
    let joins := [(0x181, Instr.mrel o), (0x182, .tfill o), (0x183, .tzero o), (0x184, .tstore o), (0x185, .jmm o),
      (0x186, .jmms o), (0x187, .jstream o), (0x188, .jbatch o), (0x189, .jwait o), (0x18A, .copen o), (0x18B, .cacc o),
      (0x18C, .cprobe o), (0x18D, .cdrain o), (0x18E, .cclose o), (0x18F, .cstat o), (0x190, .tsave o),
      (0x191, .tload o), (0x192, .csave o), (0x193, .cload o)]
    (∀ x ∈ joins, issuedCx s x.1 o.h = some c → c.em ≠ 0 ∨ x.1 ∈ [0x18B, 0x18C] → c.jcore.owner ≠ some mine → exec x.2 s =
      match wordRegFault c.grp.regs c.sup x.1 (.e o) with
      | some r => .next ({ c with out := c.qs.map fun q => (q, .trap 2 r 0) } : Cx).finished
      | none => trap 11) ∧
    (∀ x ∈ (0x180, Instr.macq o) :: joins, readyCx s x.1 (.e o) o.h = some c → c.em = 0 →
      x.1 ∉ [0x18B, 0x18C] → exec x.2 s = .next c.finished) ∧
    (readyCx s 0x180 (.e o) o.h = some c → c.em ≠ 0 →
      (c.jcore.owner = some mine → exec (.macq o) s = if c.jcore.unclaimed = true then
          .next (c.onCore fun j => { j with unclaimed := false }).finished else trap 11) ∧
      (c.jcore.owner ≠ some mine → mine ∈ c.jcore.waiters → (∃ q ∈ c.k.liveQuads, (c.k.quad q).atMacq = true) →
        exec (.macq o) s = trap 11) ∧
      (c.jcore.owner ≠ some mine → mine ∉ c.jcore.waiters → exec (.macq o) s =
        .next ({ c.onCore (fun j => { j with waiters := j.waiters ++ [mine] }) with
          k := c.qs.foldl (fun k q => k.onQuad q fun u => { u with atMacq := true }) c.k
          out := c.qs.map fun q => (q, .hold) } : Cx).finished)) ∧
    (readyCx s 0x181 (.e o) o.h = some c → c.em ≠ 0 → c.jcore.owner = some mine →
      (c.jcore.issue.isOpen = true → exec (.mrel o) s = trap 12) ∧
      (c.jcore.issue.isOpen = false → c.jcore.frozen = false → c.jcore.freezeAsked = false → c.jcore.queue = [] →
        releasePending c.s c.dn c.gid c.gi = false →
        let k := c.k.takeLateJ c.sup c.jcore.openBatch
        exec (.mrel o) s =
          .next (({ c with k := k } : Cx).onCore fun j =>
            { j with passed := withAll j.passed (k.know.before k.issued), owner := none, unclaimed := false, tiles := [], trays := [], jstep := ⟨0, 0, 0, 0⟩, queue := [],
                     openBatch := 1, doneBatch := 0, issue := j.session, frozen := false,
                     freezeAsked := false }).finished))

/-- R168, R170, R176, R289 to R291, R293 to R298, R300 to R302, R304, R305: the queued instructions of the owner. The
checks come in the order of R290: a cabinet misuse, with the operand tested as VALUE (R181), or a format combination
that R152 does not have (illegal instruction with reason 8), traps the sub-gang; a window too small or misaligned, or a
record of `cload` that is invalid, is to park the lowest active lane; otherwise the instruction enters the join queue
with its operands as they are at issue, a window that the engine reads loaded by the gang then (R84), a `cdrain` with
the snapshot of its record; one with a register result shifts the last-result file as it issues (log entry 131). While
the engine is frozen, those that R291 names execute at once, once the gang's earlier accesses that their own must
follow are performed (log entry 133). One waits while the gang has an acquire pending, while the engine is frozen and
it is not of those, while a freeze is asked for, while 16 entries are queued, and while a `cload` is queued (the last
is the model's: log entry 44). `cacc` and `cprobe` do all this with no executing lane too. (Where the spec leaves room,
this is the model's reading: log entries 70 and 77.) -/
def Obligations.JoinQueue : Prop :=
  ∀ (s : State) (o : OpsE) (c : Cx), c.jcore.owner = some (c.gid, c.gi) →
    let j := c.jcore
    let se := j.issue
    let waits := fun direct => acquirePending c.s c.dn c.gid c.gi = true ∨ (j.frozen = true ∧ direct = false) ∨
      (j.frozen = false ∧ (j.freezeAsked = true ∨ 16 ≤ j.queue.length ∨ ∃ e ∈ j.queue, ∃ a b d, e.op = .cload a b d))
    let lane := (lowest c.em).getD 0
    let run := fun (c : Cx) (op : JoinOp) (dest : Option Nat) =>
      let c := match dest with
        | some code => c.shiftAhead op.wide (regOf code)
        | none => c
      let e := c.entry op dest
      Host.Outcome.next (if c.jcore.frozen then
        (if joinWaits c.s c.dn c.gid c.gi e (joinReach c.s c.dn c.jcore.session e) then s else (c.atOnce e).finished)
      else (c.onCore fun j => { j with queue := j.queue ++ [e] }).finished)
    let misuse := fun (c : Cx) (v : Nat) =>
      Host.Outcome.next ({ c with out := c.qs.map fun q => (q, .trap 12 0 (BitVec.ofNat 32 v)) } : Cx).finished
    let load := fun (e : Cx) (d : Desc) (n : Nat) => e.sees ((c.window d.window).bytes (c.descLane d lane) n)
    let window := fun (d : Desc) (n : Nat) (loads : Bool) (op : JoinOp) (dest : Option Nat) =>
      let off := c.descLane d lane
      let park := fun r => Host.Outcome.next (c.park lane
        ⟨3, r, c.gi, lane, c.op % 256, c.pc, off, d.window, BitVec.ofNat 32 off⟩).finished
      if off % 64 ≠ 0 then park 1 else if (c.window d.window).extent < off + n then park 2
      else run (if loads then load c d n else c) op dest
    let ready := fun op => readyCx s op (.e o) o.h = some c ∧ (c.em ≠ 0 ∨ op ∈ [0x18B, 0x18C])
    let f := jfmtOf (c.k.quad c.sgt).fmt
    let step := fun (op : JoinOp) => if f.ok = false then
        Host.Outcome.next ({ c with out := c.qs.map fun q => (q, .trap 1 8 0) } : Cx).finished
      else if se.isOpen = true ∧ se.block = true ∧ se.acc = f.acc then run c op none else misuse c 0
    let n := o.m.variant + 1
    let feeds := se.isOpen = true ∧ se.block = false ∧ n ≤ se.wm1 + 1
    let solid := lanesOf (c.em &&& ~~~c.helpers)
    (∀ x ∈ [(0x182, Instr.tfill o, true), (0x183, .tzero o, false), (0x184, .tstore o, true), (0x185, .jmm o, false),
        (0x186, .jmms o, false), (0x187, .jstream o, false), (0x18A, .copen o, false), (0x18B, .cacc o, false),
        (0x18C, .cprobe o, false), (0x18D, .cdrain o, false), (0x18E, .cclose o, false), (0x18F, .cstat o, true),
        (0x190, .tsave o, true), (0x191, .tload o, true), (0x192, .csave o, true), (0x193, .cload o, true)],
      ready x.1 → waits x.2.2 → exec x.2.1 s = .next s) ∧
    (¬ waits true →
      (ready 0x182 → exec (.tfill o) s =
        let size := if o.m.variant = 1 then 12352 else 12288
        window o.b size true (.tfill o.a.tileNo (bytesFrom0 (c.windowBytes o.b size)) (o.m.variant = 1)
          (if o.c = Desc.zero then none else some (BitVec.ofNat 32 (c.uniform o.c)))) none) ∧
      (ready 0x184 → exec (.tstore o) s = window o.a (if o.m.variant = 1 then 12352 else 12288) false
        (.tstore o.b.tileNo (c.window o.a.window) (c.descLane o.a lane) (o.m.variant = 1)) none) ∧
      (ready 0x18F → exec (.cstat o) s = run c (.cstat o.m.variant) (some o.d.code)) ∧
      (ready 0x190 → exec (.tsave o) s = window o.a 26112 false (.tsave (c.window o.a.window) (c.descLane o.a lane)) none) ∧
      (ready 0x191 → exec (.tload o) s =
        window o.a 26112 true (.tload (bytesFrom0 (c.windowBytes o.a 26112))) none) ∧
      (ready 0x192 → let r := (c.record_ o.a.rid).1
        let q := (c.record_ o.a.rid).2
        exec (.csave o) s = if r.invalid = true ∨ r.esize ≠ 6 ∨ r.ro = true then misuse q o.a.rid
          else run q (.csave o.a.rid r (q.uniform o.b)) none) ∧
      (ready 0x193 → let r := (c.record_ o.a.rid).1
        let q := (c.record_ o.a.rid).2
        exec (.cload o) s = if (if q.jcore.frozen then q.jcore.session else q.jcore.issue).isOpen then misuse q 0
          else if r.invalid = true ∨ r.esize ≠ 6 then .next (q.park lane
            ⟨5, 2, c.gi, lane, c.op % 256, c.pc, q.uniform o.b, o.a.rid, BitVec.ofNat 32 (q.uniform o.b)⟩).finished
          else run q (.cload o.a.rid r (q.uniform o.b)) none)) ∧
    (¬ waits false →
      (ready 0x183 → exec (.tzero o) s = run c (.tzero o.a.tileNo) none) ∧
      (ready 0x185 → exec (.jmm o) s = step (.jmm o.a.tileNo o.b.tileNo (c.uniform o.c) (c.reg o.d lane).toNat
        (Ty.code f.af) (Ty.code f.bf) f.acc f.k)) ∧
      (ready 0x186 → exec (.jmms o) s = step (.jmms o.a.tileNo o.b.tileNo (c.reg o.c.theReg 0).toNat
        (c.reg (o.c.theReg.plus 1) 0).toNat
        ((c.reg (o.d.plus 0) 0).toNat + (c.reg (o.d.plus 1) 0).toNat % 2 ^ 16 * 2 ^ 32) (c.reg (o.d.plus 2) 0).toNat
        (Ty.code f.af) (Ty.code f.bf) f.acc f.k)) ∧
      (ready 0x187 → let na := (c.reg o.c.theReg 0).toNat
        let nb := (c.reg (o.c.theReg.plus 1) 0).toNat
        let bw := (8 + 4 * n + 15) / 16 * 16
        (¬ feeds ∨ 2 ^ 28 ≤ na ∨ 2 ^ 28 ≤ nb →
          exec (.jstream o) s = misuse c (if ¬ feeds then 0 else if 2 ^ 28 ≤ na then na else nb)) ∧
        (feeds → na < 2 ^ 28 → nb < 2 ^ 28 → c.windowFate o.a (16 * na) = none → c.windowFate o.b (bw * nb) = none →
          exec (.jstream o) s = run (load (load c o.b (bw * nb)) o.a (16 * na)) (.jstream n na nb (streamTuples (c.windowBytes o.a (16 * na)) 16 na)
            (streamTuples (c.windowBytes o.b (bw * nb)) bw nb)) none)) ∧
      (ready 0x18B → (¬ feeds → exec (.cacc o) s = misuse c 0) ∧ (feeds → exec (.cacc o) s = run c (.cacc n (solid.map fun l =>
        (l, (c.reg64 o.a.theReg l).toNat, (List.range n).map fun i => c.reg (o.b.theReg.plus i) l))) none)) ∧
      (ready 0x18C → exec (.cprobe o) s = if se.isOpen then run c (.cprobe
          (solid.map fun l => (l, (c.reg64 o.a.theReg l).toNat))
          (match o.b with
            | .imm m => if o.m.variant = 1 then some m else none
            | _ => none) c.em) (some o.d.code) else misuse c 0) ∧
      (ready 0x18A → let r := (c.record_ o.a.rid).1
        let q := (c.record_ o.a.rid).2
        let p := q.uniform o.b
        let w := q.uniform o.c
        let block := decide (o.m.variant = 1)
        let acc := if o.m.ty = .f32 then 0 else if o.m.flags = 1 then 2 else 1
        exec (.copen o) s = if q.jcore.issue.isOpen = true ∨ (q.jcore.session.isOpen = false ∧ q.jcore.drawers ≠ []) then misuse q 0
          else if r.takesImages = false then misuse q o.a.rid
          else if block = true ∧ w ≠ 8 then misuse q w
          else if p < 1 ∨ 16 < p then misuse q p
          else if w < 1 ∨ 8 < w then misuse q w
          else run (q.onCore fun j => { j with issue := ⟨true, block, acc, p - 1, w - 1, false, o.a.rid, 0⟩ })
            (.copen o.a.rid block acc (p - 1) (w - 1)) none) ∧
      (ready 0x18E → exec (.cclose o) s = if se.isOpen then
          run (c.onCore fun j => { j with issue := { j.issue with isOpen := false } }) .cclose none else misuse c 0) ∧
      (ready 0x18D → (se.isOpen = false → exec (.cdrain o) s = misuse c 0) ∧ (se.isOpen = true →
        (∀ i, o.a = .record i → exec (.cdrain o) s = if (c.record_ i).1.takesImages then
            run (c.record_ i).2 (.cdrain (o.m.variant = 1) (some (i, (c.record_ i).1)) Win.none 0) (some o.d.code)
          else misuse (c.record_ i).2 i) ∧
        ∀ w r, o.a = .win w r → exec (.cdrain o) s = window o.a 64 false
          (.cdrain (o.m.variant = 1) none (c.window w) (c.descLane o.a lane)) (some o.d.code))))

/-- R142, R144, R154, R155, R164, R166, R168, R171 to R173, R293, R299: batches, trays and drawers. `jbatch` closes the
open batch, gives its number and opens the next; it waits while the gang has an acquire pending, and while the queue or
the open batches stand at 16. `jwait n` completes once batch n has, with the faults of that batch
and of earlier ones taken; an n above the last closed number is a cabinet misuse. A tray whose key changes retires and
is begun; at the end of a batch every tray with a product retires, in ascending order, and holds zero. A tuple or a
tray's block goes to the first place of its probe order that holds its key, where each value is added, or that is
empty, where it is stored; with neither it spills to the annex as images, counted in SPILL or in LOST. A k-block adds
to each word of a tray the products of its row of A and its column of B, the elements taken from where R142, R144 and
R293 have them: the float update is tray + sA·sB·S rounded once, with I and the canonical NaN for a NaN or Inf × 0.
(Where the spec leaves room, this is the model's reading: log entries 70, 73 and 79.) -/
def Obligations.JoinBatches : Prop :=
  (∀ (s : State) (o : OpsE) (c : Cx), c.em ≠ 0 → c.jcore.owner = some (c.gid, c.gi) → c.jcore.frozen = false →
    c.jcore.freezeAsked = false →
    let j := c.jcore
    (readyCx s 0x188 (.e o) o.h = some c → exec (.jbatch o) s =
      if acquirePending c.s c.dn c.gid c.gi = true ∨ 16 ≤ j.queue.length ∨ 16 ≤ j.openBatch - j.doneBatch then .next s
      else .next ((c.onCore fun j => { j with queue := j.queue ++ [c.entry .jbatch none], openBatch := j.openBatch + 1 }).result
        o.d c.em fun _ => BitVec.ofNat 32 j.openBatch).finished) ∧
    (readyCx s 0x189 (.e o) o.h = some c →
      let n := c.uniform o.a
      exec (.jwait o) s = if j.openBatch ≤ n then
          .next ({ c with out := c.qs.map fun q => (q, .trap 12 0 (BitVec.ofNat 32 n)) } : Cx).finished
        else if j.doneBatch < n then .next s
        else .next ({ c with k := c.k.takeLateJ c.sup n } : Cx).finished)) ∧
  (∀ (acc : Nat) (x w : Word) (v : FVal) (n : Int), acc < 3 →
    let float := fun (r : FRes) => (BitVec.ofNat 32 r.1, r.2)
    let fixed := fun (n : Int) => if acc = 2 ∧ n < -2 ^ 31 then ((0x80000000 : Word), flagO)
      else if acc = 2 ∧ 2 ^ 31 - 1 < n then (0x7FFFFFFF, flagO) else (BitVec.ofInt 32 n, 0)
    drawerAdd acc x (.word w) = (if acc = 0 then float (addF f32 0 false (fval f32 x.toNat) (fval f32 w.toNat))
      else fixed (x.toInt + w.toInt)) ∧
    drawerAdd acc x (.exactF v) = float (addF f32 0 false (fval f32 x.toNat) v) ∧
    drawerAdd acc x (.exactI n) = fixed (x.toInt + n) ∧
    (Fed.word w).toWord acc = (w, 0) ∧ (Fed.exactI n).toWord acc = fixed n ∧
    (∀ k, (Fed.exactF (.inf k)).toWord acc = (BitVec.ofNat 32 (infOf f32 k), 0) ∧
      (Fed.exactF (.nan k)).toWord acc = (0x7FC00000, 0)) ∧
    ∀ k m e, if m = 0 then (Fed.exactF (.fin k m e)).toWord acc = (BitVec.ofNat 32 (zeroOf f32 k), 0)
      else ∃ r, RoundedF f32 0 false k (fun a q => cmpPow a q m e) r ∧ (Fed.exactF (.fin k m e)).toWord acc = float r) ∧
  (∀ (tray : Word) (ps : List (FVal × FVal)) (sA sB : FVal),
    let parts := [sA, sB] ++ ps.map (·.1) ++ ps.map (·.2)
    let r := trayUpdateF tray ps sA sB
    ((fval f32 tray.toNat).isNan = true ∨ (∃ x ∈ parts, x.isNan = true) ∨
      (∃ p ∈ ps, ∃ n k e, p = (.inf n, .fin k 0 e) ∨ p = (.fin k 0 e, .inf n)) → r = (f32.nan, flagI)) ∧
    ∀ nt mt et na ma ea nb mb eb (zs : List ((Bool × Nat × Int) × (Bool × Nat × Int))) (least : Int),
      fval f32 tray.toNat = .fin nt mt et → sA = .fin na ma ea → sB = .fin nb mb eb →
      ps = zs.map (fun z => (.fin z.1.1 z.1.2.1 z.1.2.2, .fin z.2.1 z.2.2.1 z.2.2.2)) → least ≤ et →
      (∀ z ∈ zs, least ≤ z.1.2.2 + z.2.2.2 + ea + eb) →
      let t := signedInt nt mt (et - least).toNat + (zs.map fun z =>
        signedInt ((z.1.1 != z.2.1) != (na != nb)) (z.1.2.1 * z.2.2.1 * (ma * mb))
          (z.1.2.2 + z.2.2.2 + ea + eb - least).toNat).sum
      (t = 0 → r = (0, 0) ∨ (r = (zeroOf f32 true, 0) ∧ nt = true ∧ mt = 0)) ∧
      (t ≠ 0 → RoundedF f32 0 false (t < 0) (fun n q => cmpPow n q t.natAbs least) r)) ∧
  (∀ (t : Tile) (ty : Ty) (slot e k : Nat),
    let b := fun (i : Nat) => (Memory.read t.bytes (256 * slot + i)).toNat
    let q := ((List.range k).map fun p => 2 ^ (k - 1 - p) * (b (32 * p + e / 8) / 2 ^ (e % 8) % 2)).sum
    (t.elem ty slot e = if ty = .f16 ∨ ty = .bf16 then b (2 * e) + 256 * b (2 * e + 1)
      else if ty = .f6 then 4 * (b (e / 2) / 16 ^ (e % 2) % 16) + b (128 + e / 4) / 4 ^ (e % 4) % 4 else b e) ∧
    (0 < k → t.planes slot e k = if q < 2 ^ (k - 1) then (q : Int) else (q : Int) - 2 ^ k)) ∧
  (∀ (f : JFmt) (ta tb : Tile) (r n kb : Nat) (t : Tray), f.acc < 3 →
    let two := f.af = .f16 ∨ f.af = .bf16
    let sa := if two then 2 * (4 * r + kb) else 8 * r + kb
    let sb := if f.bf = .f16 ∨ f.bf = .bf16 then 2 * (4 * kb + n) else 4 * kb + n
    let byte := fun (t : Tile) (slot e : Nat) => (BitVec.ofNat 8 (t.elem .i8 slot e)).toInt
    let word := fun (i : Nat) => FMap.get 0 t.words i
    let res := fun (i : Nat) =>
      let a := fun (z : Nat) => 16 * (i / 16) + z
      let b := fun (z : Nat) => 16 * z + i % 16
      let x := trayUpdateF (word i) ((List.range 16).map fun z => (fval (ffmt f.af) (ta.elem f.af sa (a z)),
        fval (ffmt f.bf) (tb.elem f.bf sb (b z)))) (fval f32 ta.scale.toNat) (fval f32 tb.scale.toNat)
      if f.acc = 0 then (BitVec.ofNat 32 x.1, x.2) else drawerAdd f.acc (word i) (.exactI ((List.range 16).map fun z =>
        byte ta sa (a z) * if f.bf = .bp then tb.planes sb (b z) f.k else byte tb sb (b z)).sum)
    let y := stepTray f ta tb r n kb t
    y.1.key = t.key ∧ y.1.prod = true ∧ (∀ i < 256, FMap.get 0 y.1.words i = (res i).1) ∧
    ∀ m < 6, y.2.getLsbD m = true ↔ ∃ i < 256, (res i).2.getLsbD m = true) ∧
  (∀ (c : Core) (key : Nat) (vals : List Fed),
    let se := c.session
    let m := key * 0x9E3779B97F4A7C15 % 2 ^ 64
    let places := if se.block then (List.range (se.pm1 + 1)).map fun i => (m / 2 ^ 53 + i * (i + 1) / 2) % 2048
      else (List.range (se.pm1 + 1)).flatMap fun i => (List.range 4).map fun d =>
        4 * ((m / 2 ^ 50 + i * (i + 1) / 2) % 16384) + d
    let n := if se.block then 32 else 1
    let first := fun (p : Nat) => if se.block then 32 * p else p
    let takes := fun (p : Nat) => ∀ x, c.drawers.find? (first p) = some x → x.key = key
    ((∀ p ∈ places, ¬ takes p) → c.place key vals = none) ∧
    ∀ before p after, places = before ++ p :: after → (∀ x ∈ before, ¬ takes x) → takes p →
      ∃ c', c.place key vals = some c' ∧
        c' = { c with drawers := c'.drawers, cflags := c'.cflags, session := { se with occ := c'.session.occ } } ∧
        (∀ i, i < first p ∨ first p + n ≤ i → c'.drawers.find? i = c.drawers.find? i) ∧
        (c.drawers.find? (first p) = none → c'.session.occ = se.occ + n ∧
          (∀ b < 5, c'.cflags.getLsbD b = true ↔
            c.cflags.getLsbD b = true ∨ ∃ v ∈ vals, (v.toWord se.acc).2.getLsbD b = true) ∧
          ∀ i < n, c'.drawers.find? (first p + i) = some ⟨key, (List.range 8).map fun j =>
            (vals[8 * i + j]?.map fun v => (v.toWord se.acc).1).getD 0⟩) ∧
        (c.drawers.find? (first p) ≠ none → c'.session.occ = se.occ ∧
          (∀ b < 5, c'.cflags.getLsbD b = true ↔ c.cflags.getLsbD b = true ∨
            ∃ i < n, ∃ x, c.drawers.find? (first p + i) = some x ∧ ∃ j < 8, ∃ v, vals[8 * i + j]? = some v ∧
              (drawerAdd se.acc (x.words.getD j 0) v).2.getLsbD b = true) ∧
          ∀ i < n, c'.drawers.find? (first p + i) = (c.drawers.find? (first p + i)).map fun x =>
            { x with words := (List.range 8).map fun j => match vals[8 * i + j]? with
              | some v => (drawerAdd se.acc (x.words.getD j 0) v).1
              | none => x.words.getD j 0 })) ∧
  ∀ (s : State) (d n : Nat) (own : Nat × Nat) (e : JoinEntry) (lane key : Nat),
    let c := s.jcore d n
    let counted := fun (t : State) (f : Core → Core) => t.setDie d ((t.die d).setCore n (f ((t.die d).core n)))
    (∀ vals, accumulate s d n own e lane key vals = match c.place key vals with
      | some c' => counted s fun _ => c'
      | none => spill s d n own e lane key (vals.map fun v => (v.toWord c.session.acc).1)) ∧
    (∀ ws, let image := fun (ws : List Word) (pos : Nat) => leBytes 8 key ++
          (List.range 8).flatMap (fun i => leBytes 4 (ws.getD i 0).toNat) ++ leBytes 2 pos ++ [1] ++ List.replicate 21 0
      let x := compressedOut s d own e lane c.session.annex none (if c.session.block then
        (List.range 32).map fun p => image ((ws.drop (8 * p)).take 8) p else [image ws 0])
      spill s d n own e lane key ws = counted x.1 fun c => if x.2 then { c with spill := min (c.spill + 1) 0xFFFFFFFF }
        else { c with lost := min (c.lost + 1) 0xFFFFFFFF }) ∧
    (∀ rid (snap : Option Rec) (imgs : List (List Byte)),
      let x := readRec s d rid
      let r := snap.getD x.1
      let out := compressedOut s d own e lane rid snap imgs
      (r.takesImages = false ∨ x.1.ovf = true → out = (x.2, false)) ∧
      (r.takesImages = true → x.1.ovf = false → if r.extent < x.1.scnt + imgs.length then
          out = (writeCounts x.2 d rid x.1.scnt true, false)
        else ∃ st : Nat → State, st 0 = writeCounts x.2 d rid (x.1.scnt + imgs.length) false ∧
          (∀ i < imgs.length, st (i + 1) =
            joinWrite (st i) d own e lane rid r (x.1.scnt + i) (imgs.getD i []) 0) ∧
          out = (st imgs.length, true))) ∧
    (∃ st : Nat → State, st 0 = s ∧ retireAll s d n own e = st 24 ∧ ∀ i < 24,
      let t := ((st i).jcore d n).tray i
      st (i + 1) = if t.prod then counted (accumulate (st i) d n own e e.lane t.key
          ((List.range 256).map fun j => .word (FMap.get 0 t.words j)))
        fun c => c.setTray i { c.tray i with words := [], prod := false } else st i) ∧
    ∀ i, let t := c.tray i
      beginTray s d n own e i key = if t.key = key then s else
        counted (if t.prod then accumulate s d n own e e.lane t.key
          ((List.range 256).map fun j => .word (FMap.get 0 t.words j)) else s) fun c => c.setTray i ⟨key, false, []⟩

/-! ### System state -/

/-- R310, R311: what `sysrd` reads, and which registers it may read. A reserved number, and `.clr` on any register but
VFLAGS, is an illegal instruction with reason 4; a register that user state may not read, one with reason 5, both with
the number as VALUE (R181). A register
code that is not allowed comes before both. `.clr` sets VFLAGS of each quad in which it executes to 0 after the read.
(Where the spec leaves room, this is the model's reading: log entries 30 and 82.) -/
def Obligations.SpecialRegisterReads : Prop :=
  (∀ (c : Cx) (l : Nat),
    let u := c.k.quad (l / 4)
    let d := c.s.die c.dn
    ∀ x ∈ ([(0x000, (inMask c.helpers l).toNat + 2 * (u.held.getLsbD (l % 4)).toNat), (0x001, d.cyc.toNat),
        (0x002, u.vflags.toNat), (0x003, u.fmt.toNat), (0x004, (u.lc.getD 0 0).toNat), (0x005, (u.lc.getD 1 0).toNat),
        (0x006, (u.lc.getD 2 0).toNat), (0x007, u.sgt), (0x008, u.lmask.toNat),
        (0x009, u.stack.length + u.calls.length * 2 ^ 8 + (2 ^ u.reps.length - 1) * 2 ^ 16), (0x00A, c.dn),
        (0x00B, c.k.core + c.grp.cores.length * 2 ^ 16), (0x010, u.epc), (0x011, u.emask.toNat + 16 * u.eflt.toNat),
        (0x012, u.edepth), (0x013, u.eclass), (0x014, u.park.toNat + 16 * u.released.toNat),
        (0x015, c.grp.pre.toNat + 2 * c.grp.restore.toNat + c.grp.pslot * 2 ^ 16), (0x016, u.ppc),
        (0x017, u.pLmask.toNat + 16 * u.pPark.toNat + 256 * u.pSup.toNat), (0x100, d.ptroot), (0x101, d.rtbase),
        (0x102, d.impbase), (0x103, d.busy.toNat * 2 ^ 62), (0x104, d.ftbase),
        (0x105, d.fttail + d.fthead * 2 ^ 16 + d.ftready * 2 ^ 32 + d.ftempty.toNat * 2 ^ 63), (0x106, d.trapbase)] :
          List (Nat × Nat)), c.srValue x.1 l = BitVec.ofNat 64 x.2) ∧
  (∀ (sr : Nat) (clr sup : Bool),
    let user := sr ≤ 0x00A
    let listed := user ∨ sr = 0x00B ∨ (0x010 ≤ sr ∧ sr ≤ 0x017) ∨ (0x100 ≤ sr ∧ sr ≤ 0x106)
    srCause sr clr false sup = (if ¬ listed ∨ (clr = true ∧ sr ≠ 0x002) then some (1, 4)
      else if sup = false ∧ ¬ user then some (1, 5) else none) ∧
    srWide sr = decide (sr = 0x001 ∨ sr = 0x010 ∨ sr = 0x016 ∨ (0x100 ≤ sr ∧ sr ≤ 0x106))) ∧
  ∀ (s : State) (o : OpsS) (c : Cx),
    (∀ r, issuedCx s 0x1C2 o.h = some c → regFault c.k c.grp.regs c.sup 0x1C2 (.s o) = some r → exec (.sysrd o) s =
      .next ({ c with out := c.qs.map fun q => (q, .trap 2 r 0) } : Cx).finished) ∧
    (∀ cause, issuedCx s 0x1C2 o.h = some c → regFault c.k c.grp.regs c.sup 0x1C2 (.s o) = none →
      srCause o.a.number (o.m.variant = 1) false c.sup = some cause →
      exec (.sysrd o) s = .next ({ c with out := c.qs.map fun q => (q, .trap cause.1 cause.2 (BitVec.ofNat 32 o.a.number)) } : Cx).finished) ∧
    (readyChecked s 0x1C2 (.s o) o.h (fun c => srCause o.a.number (o.m.variant = 1) false c.sup) = some c →
      o.m.variant = 1 →
      let e := c.resultTy (srWide o.a.number) o.d c.em (c.srValue o.a.number)
      let k := (c.qs.filter fun q => quadBits c.em q ≠ 0).foldl
        (fun k q => k.onQuad q fun u => { u with vflags := 0 }) e.k
      exec (.sysrd o) s = .next ({ e with k := k } : Cx).finished)

/-- R61, R310, R312: what `syswr` writes. A quad register takes, in each quad with an executing lane, the value of the
lowest such lane, and a die register that of the sub-gang's lowest; bits that the register does not have are dropped.
An EDEPTH above 32, and a register that is not writable, is an illegal instruction with reason 4, the value or the
number of the register as VALUE (R181); a source code that is not allowed comes first. (Where the spec leaves room,
this is the model's reading: log entry 81.) -/
def Obligations.SpecialRegisterWrites : Prop :=
  (∀ sr : Nat, srCause sr false true true = none ↔
    sr ∈ [0x002, 0x004, 0x005, 0x006, 0x010, 0x011, 0x012, 0x016, 0x100, 0x101, 0x102, 0x103, 0x104, 0x105, 0x106]) ∧
  ∀ (s : State) (o : OpsS) (c : Cx),
    let sr := o.a.number
    let v := fun l => if srWide sr then (c.reg64 o.b l).toNat else (c.reg o.b l).toNat
    let ready := readyChecked s 0x1C3 (.s o) o.h (fun c => srCause sr false true c.sup) = some c
    let set := fun (d : Die) (v : Nat) =>
      match sr with
      | 0x100 => { d with ptroot := v / 2 ^ 20 % 2 ^ 32 * 2 ^ 20 }
      | 0x101 => { d with rtbase := v / 2 ^ 21 % 2 ^ 35 * 2 ^ 21 }
      | 0x102 => { d with impbase := v / 2 ^ 16 % 2 ^ 40 * 2 ^ 16 }
      | 0x103 => let what := if v / 2 ^ 63 % 2 = 1 then none else some (v / 2 ^ 16 % 2 ^ 40 * 2 ^ 16)
        { d with busy := true, invalidating := d.invalidating ++ [what] }
      | 0x104 => { d with ftbase := v / 2 ^ 15 % 2 ^ 37 * 2 ^ 15 }
      | 0x105 => let empty := if v / 2 ^ 63 % 2 = 1 then false else d.ftempty
        { d with fttail := v % 2 ^ 12, ftempty := empty }
      | _ => { d with trapbase := v / 2 ^ 8 % 2 ^ 48 * 2 ^ 8 }
    (∀ r, issuedCx s 0x1C3 o.h = some c → c.sup = true → regFault c.k c.grp.regs c.sup 0x1C3 (.s o) = some r →
      exec (.syswr o) s = .next ({ c with out := c.qs.map fun q => (q, .trap 2 r 0) } : Cx).finished) ∧
    (∀ cause, issuedCx s 0x1C3 o.h = some c → c.sup = true → regFault c.k c.grp.regs c.sup 0x1C3 (.s o) = none →
      srCause sr false true true = some cause →
      exec (.syswr o) s = .next ({ c with out := c.qs.map fun q => (q, .trap cause.1 cause.2 (BitVec.ofNat 32 o.a.number)) } : Cx).finished) ∧
    (ready → c.em = 0 → exec (.syswr o) s = .next c.finished) ∧
    (ready → c.em ≠ 0 → sr < 0x100 → ∃ t, exec (.syswr o) s = .next t ∧ c.does (fun q =>
      let u := c.k.quad q
      match lowest (c.em &&& spread 0xF q) with
      | none => (.adv, u)
      | some l =>
        if sr = 0x002 then (.adv, { u with vflags := BitVec.ofNat 6 (v l) })
        else if sr = 0x004 ∨ sr = 0x005 ∨ sr = 0x006 then
          (.adv, { u with lc := u.lc.set (sr - 4) (BitVec.ofNat 32 (v l)) })
        else if sr = 0x010 then (.adv, { u with epc := v l })
        else if sr = 0x011 then (.adv, { u with emask := BitVec.ofNat 4 (v l) })
        else if sr = 0x012 then
          if 32 < v l % 64 then (.trap 1 4 (BitVec.ofNat 32 (v l)), u) else (.adv, { u with edepth := v l % 64 })
        else (.adv, { u with ppc := v l })) t) ∧
    ∀ l, ready → lowest c.em = some l → 0x100 ≤ sr → exec (.syswr o) s =
      .next ({ c with s := c.s.onDie c.dn fun d => set d (v l) } : Cx).finished

/-- R181, R314: `fltrd` reads the 8 bytes of the given part of the record of lane a mod 32 of the issuing gang, in each
active lane, as the record stands. No record changes. -/
def Obligations.FaultRecordsRead : Prop :=
  ∀ (s : State) (o : OpsS) (c : Cx) (r : Reg), readyCx s 0x1C4 (.s o) o.h = some c → c.em ≠ 0 → o.a = .reg r →
    exec (.fltrd o) s = .next (c.result64 o.d c.em fun l =>
      let f := FMap.get FaultRec.none c.k.records ((c.reg r l).toNat % 32)
      BitVec.ofNat 64 (if o.m.variant = 0 then
          f.cls * 2 ^ 56 + f.reason * 2 ^ 48 + f.gang * 2 ^ 32 + f.lane * 2 ^ 27 + f.opc * 2 ^ 16
        else if o.m.variant = 1 then f.pc else if o.m.variant = 2 then f.addr
        else f.loc * 2 ^ 48 + f.value.toNat)).finished ∧
    (c.result64 o.d c.em fun l => BitVec.ofNat 64
      (recordPart (FMap.get FaultRec.none c.k.records ((c.reg r l).toNat % 32)) o.m.variant)).k.records = c.k.records

/-- R57 to R59, R65, R66, R71 to R73, R318, R319: translation, `pmap` and `tlbinv`. A walk reads four tables, and an
entry that is not present at any level comes before a malformed one; an access then fails for the first of: MIG without
an open migration, a frame beyond the memory, an empty key slot, a page not writable, a poisoned die or line. A read
gives the bytes of its line, a write changes those it names and no other, and with a line that fails nothing moves; an
atomic checks its lines as a write does, before it reads. Each group keeps the line of a write as it fetched it, with the
write and its number after it, until an acquire shows it the write (R208); what the bytes then hold of releases, and
which releases a read observes, is noted (R79).
Elements of a record lie at its base, one STEP apart, swizzled by SWZ, on the front or the write side. `pmap` takes its
lanes in ascending order, and each lane's step comes after those of the lanes below it: 4 for an address or attributes
that are not allowed, 1 for a page that a present leaf covers, 3 where a table is missing, 2 with FTEMPTY set where no
frame is ready, and 0 with the leaf written and the oldest ready frame taken. `tlbinv` drops the entries it covers. (In
a quad that vectored for a page fault, 2 also makes the quad wait for frames when it returns: R189.) (Where the spec
leaves room, this is the model's reading: log entries 12, 80, 83, 101, 121, 122 and 124.) -/
def Obligations.PagesAndTranslations : Prop :=
  (∀ (d : Die) (dn va : Nat),
    let page := va / 2 ^ 16
    let table := fun (base index : Nat) => physWord d (base + 8 * index)
    let next := fun (w : Nat) => w / 2 ^ 4 % 2 ^ 44 * 2 ^ 8
    let w1 := table d.ptroot (va / 2 ^ 39 % 2 ^ 17)
    let w2 := table (next w1) (va / 2 ^ 30 % 2 ^ 9)
    let w3 := table (next w2) (va / 2 ^ 21 % 2 ^ 9)
    let w4 := table (next w3) (va / 2 ^ 16 % 2 ^ 5)
    let p := fun (w : Nat) => w % 2 = 1
    let leaf := fun (w : Nat) => w / 2 ^ 2 % 2 = 1
    let badTable := fun (w : Nat) => w / 2 ^ 48 ≠ 0 ∨ w / 2 ^ 3 % 2 = 1 ∨ w / 2 % 2 = 1
    let absent := 0xFF000000000000 ≤ va ∨ ¬ p w1 ∨
      (¬ leaf w1 ∧ (¬ p w2 ∨ (¬ leaf w2 ∧ (¬ p w3 ∨ (¬ leaf w3 ∧ ¬ p w4)))))
    let v := if leaf w3 then w3 else w4
    let bad := leaf w1 ∨ leaf w2 ∨ badTable w1 ∨ badTable w2 ∨ (¬ leaf w3 ∧ (badTable w3 ∨ ¬ leaf w4)) ∨
      v / 2 ^ 44 % 2 ^ 5 ≠ 0 ∨ v / 2 ^ 3 % 2 ^ 5 ≠ 0 ∨ v / 2 ^ 62 = 3 ∨ (leaf w3 ∧ v / 2 ^ 8 % 2 ^ 5 ≠ 0)
    walk d va = (if absent then .error (6, 0) else if bad then .error (7, 4)
      else if leaf w3 ∧ (next w2 + 8 * (va / 2 ^ 21 % 2 ^ 9), page) ∈ d.gone then .error (6, 0) else .ok (v, decide (leaf w3))) ∧
    (∀ c write, d.tlb.find? page = none → walk d va = .error c → translate dn d va write = .error c) ∧
    ∀ (e : Nat × Bool) (write : Bool),
      d.tlb.find? page = some e ∨ (d.tlb.find? page = none ∧ walk d va = .ok e) →
      let frame := e.1 / 2 ^ 8 % 2 ^ 36 * 2 ^ 16
      let size := if e.2 then 2 ^ 21 else 2 ^ 16
      let m := d.migrations.find? page
      (translate dn d va write).map (·.2) =
        if e.1 / 2 ^ 49 % 2 = 1 ∧ (m.any fun m => m.valid ≠ BitVec.allOnes 1024) = false then .error (7, 4)
        else if Config.dramBytes dn < frame + size then .error (7, 2)
        else if (d.keys.find? (e.1 / 2 ^ 50 % 2 ^ 12)).isNone then .error (7, 3)
        else if write = true ∧ e.1 / 2 % 2 = 0 then .error (7, 1)
        else if d.service = .poisoned then .error (8, 1)
        else if (m.any fun m => m.poisoned.getLsbD (va / 64 % 1024)) = true then .error (8, 2)
        else .ok (frame + va % size)) ∧
  (∀ (s : State) (dn : Nat), s.hasDies = true → dn < 8 →
    let d := s.die dn
    let under := fun (key : BitVec 512) (pa : Nat) => match d.lineKeys.find? (pa / 64) with
      | some k => if k = key then d.mem.read pa
        else Config.underOtherKey k key pa ((span (pa / 64 * 64) 64).map d.mem.read)
      | none => d.mem.read pa
    (∀ vas : List Nat, (∀ a ∈ vas, a < 0xFF000000000000) → readElem s dn vas = mappedRead s dn vas ∧
      (∀ bs, writeElem s dn (vas.zip bs) = mappedWrite s dn (vas.zip bs)) ∧
      ∀ request f, let lines := distinct (vas.map (· / 64))
        atomicElem s dn vas request f = match translateLines dn d true lines with
        | .error c => (.error (c, faultLine dn d true lines), s)
        | .ok _ => match mappedRead s dn vas with
          | (.error e, t) => (.error e, t)
          | (.ok bs, t) =>
            let x := t.atomically fun t => mappedWrite t dn (vas.zip (leBytes vas.length (f (leNat bs))))
            (x.1.map fun _ => leNat bs, x.2)) ∧
    (∀ (vas : List Nat) (bs : List Byte) (before after : List Nat) (line : Nat) (c : Cause),
      distinct (vas.map (· / 64)) = before ++ line :: after → bs.length = vas.length →
      ((∀ l ∈ before, (translate dn d (64 * l) false).toOption ≠ none) → translate dn d (64 * line) false = .error c →
        mappedRead s dn vas = (.error (c, 64 * line), s)) ∧
      ((∀ l ∈ before, (translate dn d (64 * l) true).toOption ≠ none) → translate dn d (64 * line) true = .error c →
        mappedWrite s dn (vas.zip bs) = (.error (c, 64 * line), s))) ∧
    ∀ (vas : List Nat) (line : Nat) (l : Leaf) (pa : Nat),
      let spots := fun vas => spotsOf (.dram dn) (vas.map fun a => pa + a % 64)
      vas ≠ [] → (∀ a ∈ vas, a / 64 = line) →
      d.migrations.find? (64 * line / 65536) = none →
      (translate dn d (64 * line) false = .ok (l, pa) → ∃ t, mappedRead s dn vas =
          (.ok (vas.map fun a => under ((d.keys.find? l.key).getD 0) (pa + a % 64)), t) ∧
        t = { s.setDie dn { d with tlb := (t.die dn).tlb, accesses := d.accesses + 1 } with
          trace := { s.trace with saw := s.trace.saw ++ releasesAt s.notes (spots vas) } }) ∧
      ∀ bs : List Byte, bs.length = vas.length → vas.Nodup → translate dn d (64 * line) true = .ok (l, pa) →
        let key := (d.keys.find? l.key).getD 0
        let kept := s.dies.any fun d => !d.groups.isEmpty
        ∃ t, mappedWrite s dn (vas.zip bs) = (.ok (), t) ∧
          t = { s with
            dies := t.dies
            writes := s.writes + kept.toNat
            notes := noteWrite s.notes s.trace.releases s.trace.atomic (spots vas)
            trace := { s.trace with wrote := s.trace.wrote ++ if kept then [(s.writes, decide (l.kind = 2))] else [] } } ∧ t.dies.length = 8 ∧
          (∀ n, n ≠ dn → t.die n = { s.die n with groups := (t.die n).groups }) ∧
          t.die dn = { d with tlb := (t.die dn).tlb, accesses := d.accesses + 1, mem := (t.die dn).mem
                              lineKeys := d.lineKeys.insert (pa / 64) key, groups := (t.die dn).groups
                              gone := d.gone.filter fun x => !vas.any fun a => x.1 ≤ pa + a % 64 && pa + a % 64 < x.1 + 8 } ∧
          (∀ w ∈ vas.zip bs, (t.die dn).mem.read (pa + w.1 % 64) = w.2) ∧
          (∀ a, a / 64 = pa / 64 → (∀ v ∈ vas, a ≠ pa + v % 64) → (t.die dn).mem.read a = under key a) ∧
          (∀ a, a / 64 ≠ pa / 64 → (t.die dn).mem.read a = d.mem.read a) ∧
          ∀ n gid g, (t.die n).group gid = some g ↔ ∃ g', (s.die n).group gid = some g' ∧
            let kept := (g'.code.find? (dn * 2 ^ 48 + pa / 64)).getD ⟨(span (pa / 64 * 64) 64).map (under key), []⟩
            g = { g' with code := g'.code.insert (dn * 2 ^ 48 + pa / 64) { kept with later :=
              kept.later ++ [⟨(span (pa / 64 * 64) 64).map (t.die dn).mem.read, s.writes⟩] } }) ∧
  (∀ (r : Rec) (e : Nat),
    let size := 2 ^ r.esize
    let at_ := fun (base b : Nat) =>
      let off := e * (if r.stride = 0 then size else r.stride) + b
      (base + (if r.swz = 0 then off else off ^^^ (off / 2 ^ (r.swz + 3) &&& 0x3C0))) % 2 ^ 56
    r.frontAddrs e = (span 0 size).map (at_ (if r.shadow = true ∧ r.front = true then r.sbase else r.base)) ∧
    r.writeAddrs e = (span 0 size).map (at_ (if r.shadow = true ∧ r.front = false then r.sbase else r.base))) ∧
  (∀ (s : State) (dn va b : Nat),
    let page := va / 2 ^ 16 % 2 ^ 40 * 2 ^ 16
    let d := s.die dn
    (2 ^ 56 ≤ va ∨ inPeer va = true ∨ b % 4 = 3 ∨ b / 2 ^ 15 % 2 ^ 17 ≠ 0 → pmapLane s dn va b = (4, s)) ∧
    (va < 2 ^ 56 → inPeer va = false → b % 4 ≠ 3 → b / 2 ^ 15 % 2 ^ 17 = 0 →
      (pageState d page 4 1 d.ptroot = .present → pmapLane s dn va b = (1, s)) ∧
      (pageState d page 4 1 d.ptroot = .noTable → pmapLane s dn va b = (3, s)) ∧
      (∀ fuel l base, l ≤ 4 → let a := base + 8 * (if l = 1 then page / 2 ^ 39 % 2 ^ 17 else if l = 2 then page / 2 ^ 30 % 2 ^ 9
            else if l = 3 then page / 2 ^ 21 % 2 ^ 9 else page / 2 ^ 16 % 2 ^ 5)
          let v := physWord d a
          pageState d page (fuel + 1) l base = if v % 2 = 0 then (if l = 4 then .free a else .noTable)
            else if l = 4 ∨ v / 2 ^ 2 % 2 = 1 then .present
            else pageState d page fuel (l + 1) (v / 2 ^ 4 % 2 ^ 44 * 2 ^ 8)) ∧
      ∀ a, pageState d page 4 1 d.ptroot = .free a → if d.ftready = 0 then pmapLane s dn va b = (2, setFtempty s dn)
        else pmapLane s dn va b = (0, s.setDie dn (physWrite
          { d with fthead := (d.fthead + 1) % 4096, ftready := d.ftready - 1 } a
          (leBytes 8 (leafWord (b % 4) (b / 4 % 2 ^ 12) false (b / 2 ^ 14 % 2 = 1)
            (bits 51 16 (physWord d (d.ftbase + 8 * d.fthead)) * 2 ^ 16))))))) ∧
  ∀ (s : State) (o : OpsS) (c : Cx),
    (∀ x ∈ [(0x1C6, Instr.pmap o), (0x1C7, .tlbinv o)], readyCx s x.1 (.s o) o.h = some c → c.em = 0 →
      exec x.2 s = .next c.finished) ∧
    (readyCx s 0x1C6 (.s o) o.h = some c → c.em ≠ 0 → ∀ r, o.a = .reg r →
      ∃ (st : Nat → State) (code : Nat → Nat) (e : Cx), st 0 = c.s ∧
        (∀ l < 32, if inMask c.em l = true then
            pmapLane (st l) c.dn (c.reg64 r l).toNat (c.reg o.b l).toNat = (code l, st (l + 1))
          else st (l + 1) = st l) ∧
        e = { c with s := st 32, k := e.k } ∧ e.k = { c.k with quads := e.k.quads } ∧
        (∀ q, e.k.quad q = { c.k.quad q with poolWait := (e.k.quad q).poolWait }) ∧
        exec (.pmap o) s = .next (e.result o.d c.em fun l => BitVec.ofNat 32 (code l)).finished) ∧
    ∀ l r, readyCx s 0x1C7 (.s o) o.h = some c → lowest c.em = some l → o.a = .reg r →
      let page := (c.reg64 r l).toNat / 2 ^ 16 % 2 ^ 40
      let tlb := fun (d : Die) => if o.m.variant = 1 then [] else
        d.tlb.filter fun e => ¬ (e.1 = page ∨ (e.2.2 = true ∧ e.1 / 32 = page / 32))
      let imports := fun (d : Die) => if o.m.variant = 1 then [] else if inPeer (page * 2 ^ 16) then
        d.imports.erase (peerIndex (page * 2 ^ 16)) else d.imports
      exec (.tlbinv o) s = .next
        ({ c with s := c.s.onDie c.dn fun d => { d with tlb := tlb d, imports := imports d } } : Cx).finished

/-- R181, R194, R195, R321 to R325, R327: images, `gsave`, `gload` and `jfrz`. A gang image holds, line by line, the
header, the quads as they stood before the vector, fault records, scalars, index windows, predicates, bindings, queues
and lane registers; a core image the windows, g registers, pending values and the area. What one gang's image holds,
another's `gload` gives back: every quad that has not exited, every register, queue, binding and record, C and A; a
core image likewise. `gsave.gang` holds the quads of the gang until all of them stand at one, and the last to arrive
writes the gang image; `gsave.core` and `gload.core` act in the lowest-numbered gang of the core that has not exited,
and otherwise complete at once. `gload.gang` waits for its core's image. A record that is invalid, of another ESIZE or,
for `gsave`, RO, is a record-bound fault with reason 2, a line that does not lie below EXTENT one with reason 1, an
image that fails the checks a protection fault with reason 4, and a line that cannot be written or read a fault of that
cause: the lowest active lane takes it, with the record's number as LOC, and in supervisor state that is beyond
recovery. Where the gang has accesses under way that must come before those of the image (R85), the instruction waits.
An owner's gang waits at the head of the acquire queue, and the join queue comes back frozen. `jfrz.frz` asks for the
freeze and completes when the engine is frozen; `jfrz.thaw` ends it; a gang that is not the owner takes a
join-ownership trap, and a thaw with PRE = 1 and RESTORE = 0 an illegal instruction with reason 4. (What the pending
section holds, and that the die keeps the rest under the number in it, is the model's choice: log entry 86. The
register of an instruction of the gang is read in lane 0, log entry 18. Where else the spec leaves room, this is the
model's reading: log entries 30, 77 and 87.) -/
def Obligations.SaveAndFreeze : Prop :=
  (∀ (g : Group) (gi : Nat) (owner : Bool) (key : BitVec 512) (id : Option Nat),
    let k := g.gang gi
    let n := 32 * g.regs
    let nq := k.quads.length
    let sec := id.isSome.toNat
    let ls := gangLines g gi owner sec ++ pendingLinesOf key id
    let num := fun i b n => (lineAt ls i).num b n
    let row := fun i code => ∀ l < 32, num (i + l / 16) (4 * (l % 16)) 4 = ((FMap.get zeroRow k.lanes code).lane l).toNat
    g.fits = true → k.fits = true → gi < 2 ^ 16 → (∀ i ∈ id, i < 2 ^ 64) →
    (ls.length = 308 + 2 * n + sec ∧ num 0 0 2 = 1 ∧ num 0 2 1 = g.regs ∧ num 0 3 1 = owner.toNat + 2 * k.waited.toNat ∧
      num 0 4 4 = 308 + 2 * n + sec ∧ num 0 8 2 = gi ∧ num 0 10 1 = nq ∧ num 0 11 1 = 0 ∧ num 0 12 4 = g.node ∧
      num 0 16 1 = k.c ∧ num 0 17 1 = k.a ∧ num 0 20 44 = 0 ∧
      (∀ q < nq, bit q (num 0 18 1) = (k.quad q).barArrived ∧ bit q (num 0 19 1) = (k.quad q).gsyncArrived) ∧
      (∀ q < nq, let u := k.quad q
        let b := 1 + 8 * q
        num b 0 8 = u.ppc ∧ num b 8 1 = u.pLmask.toNat + 16 * u.pPark.toNat ∧
        num b 9 1 = u.ended.toNat + 16 * u.pSup.toNat ∧ num b 10 1 = u.pSgt ∧ num b 11 1 = u.stack.length ∧
        num b 12 1 = u.calls.length ∧ num b 13 1 = 2 ^ u.reps.length - 1 ∧ num b 14 1 = u.edepth ∧
        num b 15 1 = u.eclass ∧ num b 16 4 = u.fmt.toNat ∧ num b 20 4 = u.vflags.toNat ∧ num b 24 8 = u.epc ∧
        num b 32 1 = u.emask.toNat + 16 * u.eflt.toNat ∧ num b 33 1 = u.ywait.isSome.toNat ∧
        num b 34 1 = (u.ywait.getD (0, 0)).1 ∧ num b 35 1 = (u.ywait.getD (0, 0)).2 ∧ num b 36 28 = 0 ∧
        (∀ i < 3, num (b + 1) (4 * i) 4 = (u.lc.getD i 0).toNat) ∧ num (b + 1) 12 4 = 0 ∧
        (∀ i < 3, num (b + 1) (16 + 16 * i) 8 = (u.reps.reverse.getD i ⟨0, 0⟩).first ∧
          num (b + 1) (24 + 16 * i) 8 = (u.reps.reverse.getD i ⟨0, 0⟩).stop) ∧
        (∀ i < 32, let e := u.stack.reverse.getD i ⟨0, 0, 0⟩
          num (b + 2 + i / 8) (8 * (i % 8)) 8 = e.fmt.toNat * 2 ^ 8 + e.kind * 2 ^ 6 + e.mask.toNat) ∧
        ∀ i < 16, let e := u.calls.reverse.getD i ⟨0, 0⟩
          num (b + 6 + i / 8) (8 * (i % 8)) 8 = e.ret + e.depth * 2 ^ 53) ∧
      (∀ q < 8, nq ≤ q → ∀ i < 8, num (1 + 8 * q + i) 0 64 = 0) ∧
      (∀ l < 32, let r := FMap.get FaultRec.none k.records l
        let b := fun i => num (65 + l / 2) (32 * (l % 2) + 8 * i) 8
        b 0 = r.cls * 2 ^ 56 + r.reason * 2 ^ 48 + r.gang * 2 ^ 32 + r.lane * 2 ^ 27 + r.opc * 2 ^ 16 ∧ b 1 = r.pc ∧
        b 2 = r.addr ∧ b 3 = r.loc * 2 ^ 48 + r.value.toNat) ∧
      (∀ i < 64, num (81 + i / 16) (4 * (i % 16)) 4 = (FMap.get 0 k.scal (640 + i)).toNat) ∧
      (∀ i < 8, num 85 (4 * i) 4 = (FMap.get 0 k.scal (744 + i)).toNat ∧
        num 85 (32 + 4 * i) 2 = (FMap.get (0, 0) k.xwin i).1 ∧ num 85 (34 + 4 * i) 2 = (FMap.get (0, 0) k.xwin i).2) ∧
      (∀ i < 7, num 86 (4 * i) 4 = (FMap.get 0 k.preds (712 + i)).toNat) ∧
      (∀ i < 4, num 86 (28 + 2 * i) 2 = (k.binds.find? i).getD 0xFFFF) ∧ num 86 36 2 = k.kdImport.getD 0xFFFF ∧
      num 86 38 26 = 0 ∧
      (∀ j < 7, ∀ l < 32, num (143 + (32 * j + l) / 64) ((32 * j + l) % 64) 1 = (k.port j l).length ∧
        ∀ m < 4, num (87 + 8 * j + 2 * m + l / 16) (4 * (l % 16)) 4 = ((k.port j l).getD m 0).toNat) ∧
      (∀ l < 32, num 146 (32 + l) 1 = FMap.get 4 k.kdFree l) ∧
      (∀ i < n, row (147 + 2 * i) i) ∧ (∀ i < 48, row (147 + 2 * (n + i)) (576 + i)) ∧
      (∀ i < 16, row (147 + 2 * (n + 48 + i)) (624 + i)) ∧ (∀ i < 8, row (147 + 2 * (n + 64 + i)) (704 + i)) ∧
      (∀ i < 8, row (147 + 2 * (n + 72 + i)) (752 + i)) ∧ num (307 + 2 * n) 0 4 = sec) ∧
    ∀ (g' : Group) (p : Pending), g'.regs = g.regs → (g'.gang gi).quads.length = nq →
      gangImageOk g' gi ls = true ∧
      let e := gangOfLines g' gi ls p
      (∀ q < nq, e.quad q = if ((g'.gang gi).quad q).exited then (g'.gang gi).quad q else
        let u := k.quad q
        { (g'.gang gi).quad q with
            ppc := u.ppc, pLmask := u.pLmask, pPark := u.pPark, ended := u.ended, pSup := u.pSup, pSgt := u.pSgt
            edepth := u.edepth, eclass := u.eclass, fmt := u.fmt, vflags := u.vflags, epc := u.epc, emask := u.emask
            eflt := u.eflt, ywait := u.ywait, lc := u.lc, reps := u.reps, stack := u.stack, calls := u.calls
            barArrived := u.barArrived, gsyncArrived := u.gsyncArrived, released := p.released.getD q 0 }) ∧
      (∀ code, code < n ∨ (576 ≤ code ∧ code < 640) ∨ (704 ≤ code ∧ code < 712) ∨ (752 ≤ code ∧ code < 760) →
        ∀ l < 32, (FMap.get zeroRow e.lanes code).lane l = (FMap.get zeroRow k.lanes code).lane l) ∧
      (∀ i < 64, FMap.get 0 e.scal (640 + i) = FMap.get 0 k.scal (640 + i)) ∧
      (∀ i < 8, FMap.get 0 e.scal (744 + i) = FMap.get 0 k.scal (744 + i) ∧
        FMap.get (0, 0) e.xwin i = FMap.get (0, 0) k.xwin i) ∧
      (∀ i < 7, FMap.get 0 e.preds (712 + i) = FMap.get 0 k.preds (712 + i)) ∧
      (∀ i < 4, e.binds.find? i = k.binds.find? i) ∧ e.kdImport = k.kdImport ∧
      (∀ l < 32, FMap.get FaultRec.none e.records l = FMap.get FaultRec.none k.records l ∧
        FMap.get 4 e.kdFree l = FMap.get 4 k.kdFree l ∧ ∀ j < 7, e.port j l = k.port j l) ∧
      e.c = k.c ∧ e.a = k.a ∧ e.loaded = true) ∧
  (∀ (g : Group) (j : Nat), let h := g.home j
    let ls := coreLines g j
    let num := fun i b n => (lineAt ls i).num b n
    let room := 64 * (g.areaBytes / 64)
    g.fits = true → h.fits = true → j < 2 ^ 16 →
    (ls.length = 3 + g.areaBytes / 64 ∧ num 0 0 2 = 2 ∧ num 0 2 1 = g.regs ∧ num 0 3 1 = 0 ∧
      num 0 4 4 = 3 + g.areaBytes / 64 ∧ num 0 8 2 = j ∧ num 0 10 1 = 0 ∧ num 0 12 4 = g.node ∧ num 0 16 48 = 0 ∧
      (∀ i < 8, let w := FMap.get Win.none h.wins i
        num 1 (8 * i) 8 = w.swz * 2 ^ 56 + w.extent * 2 ^ 32 + w.base ∧ num 2 (4 * i) 4 = (FMap.get 0 h.g i).toNat ∧
        bit i (num 0 11 1) = (h.gPend.find? i).isSome ∧ num 2 (32 + 4 * i) 4 = ((h.gPend.find? i).getD (0, 0)).2.toNat) ∧
      ∀ a < room, num (3 + a / 64) (a % 64) 1 = (h.area.read a).toNat) ∧
    ∀ (g' : Group) (was : GroupCore), g'.regs = g.regs → g'.areaBytes = g.areaBytes →
      coreImageOk g' ls = true ∧
      let e := homeOfLines ls was
      e = { was with area := e.area, wins := e.wins, g := e.g, gPend := e.gPend, loaded := true } ∧
      (∀ a < room, e.area.read a = h.area.read a) ∧
      ∀ i < 8, FMap.get Win.none e.wins i = FMap.get Win.none h.wins i ∧ FMap.get 0 e.g i = FMap.get 0 h.g i ∧
        e.gPend.find? i = (h.gPend.find? i).map fun x => (((was.gPend.find? i).getD (0, 0)).1, x.2)) ∧
  ∀ (s : State) (o : OpsS) (c : Cx), c.em ≠ 0 →
    let hold := fun (c : Cx) => ({ c with out := c.qs.map fun q => (q, .hold) } : Cx).finished
    let trap := fun cls reason => Host.Outcome.next
      ({ c with out := c.qs.map fun q => (q, .trap cls reason 0) } : Cx).finished
    let leads : Bool := (List.range c.gi).all fun i => (c.grp.gang i).core ≠ c.k.core ∨ (c.grp.gang i).liveQuads = []
    let fault := fun (x : Cx) (cause : Cause) (addr : Nat) => let l := (lowest x.em).getD 0
      x.park l ⟨cause.1, cause.2, x.gi, l, x.op % 256, x.pc, addr, x.aVal o.a, x.reg o.b 0⟩
    let bad := fun (x : Cx) => let r := (x.record_ (x.aVal o.a)).1
      fault (x.record_ (x.aVal o.a)).2 (7, 4) ((r.frontAddrs (x.reg o.b 0).toNat).headD 0 / 64 * 64)
    (∀ (x : Cx) (as : List Nat) (w : Bool), (∀ y ∈ (x.s.die x.dn).cmds, ¬ (y.2.gid = x.gid ∧ y.2.gang = x.gi)) →
      x.jcore.frozen = true ∨ joinQueued x.s x.dn x.gid x.gi = [] → x.linesWait as w = false) ∧
    (readyCx s 0x1C8 (.s o) o.h = some c →
      (o.m.variant ≠ 1 → (∃ q ∈ c.k.liveQuads, q ∉ c.qs ∧ (c.k.quad q).atGsave = false) →
        exec (.gsave o) s = .next (hold { c with
          k := c.qs.foldl (fun k q => k.onQuad q fun u => { u with atGsave := true }) c.k })) ∧
      (∀ lines : List Line,
        let r := (c.record_ (c.aVal o.a)).1
        let u := (c.record_ (c.aVal o.a)).2
        let first := (u.reg o.b 0).toNat
        if r.invalid = true ∨ r.esize ≠ 6 ∨ r.ro = true then c.saveLines o lines = some (fault u (5, 2) first)
        else if r.extent < first + lines.length then
          c.saveLines o lines = some (fault u (5, 1) (max first r.extent))
        else if u.linesWait ((span first lines.length).flatMap r.writeAddrs) true then c.saveLines o lines = none
        else ∀ st : Nat → State, st 0 = u.s.acting (u.k.know.releases u.agent u.k.issued none) →
          (∀ m ≤ lines.length, (∀ i < m, writeElem (st i) c.dn ((r.writeAddrs (first + i)).zip (lines.getD i [])) =
              (.ok (), st (i + 1))) →
            (m = lines.length → c.saveLines o lines = some (u.written (st m))) ∧
            ∀ cause a t, m < lines.length →
              writeElem (st m) c.dn ((r.writeAddrs (first + m)).zip (lines.getD m [])) = (.error (cause, a), t) →
              c.saveLines o lines = some (fault (u.written t) cause (a / 64 * 64)))) ∧
      (o.m.variant ≠ 1 → (∀ q ∈ c.k.liveQuads, q ∉ c.qs → (c.k.quad q).atGsave = true) →
        let d := c.s.die c.dn
        let some_ := c.hasPending c.pendingOf
        let kept := if some_ then { c with s := c.s.setDie c.dn { d with
          nextId := d.nextId + 1, pendings := d.pendings.insert d.nextId c.pendingOf } } else c
        match kept.saveLines o (gangLines c.wholeGroup c.gi c.owns some_.toNat ++
          pendingLinesOf c.s.hub.bootKey (if some_ then some d.nextId else none)) with
        | none => exec (.gsave o) s = .next s
        | some saved => ∃ e : Cx, exec (.gsave o) s = .next e.finished ∧ e = { saved with k := e.k } ∧
          e.k = { saved.k with quads := e.k.quads } ∧ ∀ q, e.k.quad q =
            if q ∈ c.k.liveQuads ∧ q ∉ c.qs then { (c.k.quad q).advance with atGsave := false } else c.k.quad q) ∧
      (o.m.variant = 1 → exec (.gsave o) s =
        match if leads then c.saveLines o (coreLines c.wholeGroup c.k.core) else some c with
        | none => .next s
        | some e => .next e.finished)) ∧
    (readyCx s 0x1C9 (.s o) o.h = some c →
      (o.m.variant ≠ 1 → (c.grp.home c.k.core).loaded = false → exec (.gload o) s = .next s) ∧
      (∀ (cx : Cx) (first n : Nat),
        let r := (cx.record_ (cx.aVal o.a)).1
        let u := (cx.record_ (cx.aVal o.a)).2
        let seen := fun (t : State) => ({ u with s := t.rested } : Cx).onKnow fun k => k.observe t.trace.saw
        if r.invalid = true ∨ r.esize ≠ 6 then cx.loadLines o first n = some (.error ((5, 2), first), u)
        else if u.linesWait ((span first (min n (r.extent - first))).flatMap r.frontAddrs) false then
          cx.loadLines o first n = none
        else ∀ (st : Nat → State) (ls : List Line), st 0 = u.s → ls.length ≤ n →
          (∀ i < ls.length, first + i < r.extent ∧
            readElem (st i) cx.dn (r.frontAddrs (first + i)) = (.ok (ls.getD i []), st (i + 1))) →
          (ls.length = n → cx.loadLines o first n = some (.ok ls, seen (st n))) ∧
          (ls.length < n → r.extent ≤ first + ls.length →
            cx.loadLines o first n = some (.error ((5, 1), first + ls.length), seen (st ls.length))) ∧
          ∀ cause a t, ls.length < n → first + ls.length < r.extent →
            readElem (st ls.length) cx.dn (r.frontAddrs (first + ls.length)) = (.error (cause, a), t) →
            cx.loadLines o first n = some (.error (cause, a / 64 * 64), seen t)) ∧
      (o.m.variant ≠ 1 → (c.grp.home c.k.core).loaded = true →
        let e := (c.reg o.b 0).toNat
        let n := 308 + 64 * c.grp.regs
        (c.loadLines o e n = none → exec (.gload o) s = .next s) ∧
        (∀ cause a u, c.loadLines o e n = some (.error (cause, a), u) → exec (.gload o) s = .next (fault u cause a).finished) ∧
        ∀ ls v, c.loadLines o e n = some (.ok ls, v) →
          let pn := (lineAt ls (n - 1)).num 0 4
          (v.loadLines o (e + n) (min pn 256) = none → exec (.gload o) s = .next s) ∧
          (∀ cause a u, v.loadLines o (e + n) (min pn 256) = some (.error (cause, a), u) →
            exec (.gload o) s = .next (fault u cause a).finished) ∧
          ∀ sec u, v.loadLines o (e + n) (min pn 256) = some (.ok sec, u) →
            let kept := match sec with
              | l :: _ => (u.s.die u.dn).pendings.find? (leNat (l.take 8))
              | [] => some Pending.empty
            let sound := gangImageOk u.wholeGroup u.gi ls = true ∧
              (lineAt ls (n - 1)).num 4 4 = (Config.contextCheck u.s.hub.bootKey (sec.map leNat)).toNat
            let owner := (lineAt ls 0).num 3 1 % 2 = 1
            let waiting := (lineAt ls 0).num 3 1 / 2 % 2 = 1
            (kept = none ∨ ¬ sound → exec (.gload o) s = .next (bad u).finished) ∧
            ∀ p, kept = some p → sound →
              (owner → u.owns = false →
                (u.jcore.waiters.head? = some (u.gid, u.gi) → exec (.gload o) s = .next s) ∧
                (u.jcore.waiters.head? ≠ some (u.gid, u.gi) → exec (.gload o) s = .next (hold (u.onCore fun j =>
                  { j with waiters := (u.gid, u.gi) :: j.waiters.filter (· ≠ (u.gid, u.gi)) })))) ∧
              (¬ owner ∨ u.owns = true →
                let x := if owner then u.onCore fun j =>
                    { j with unclaimed := p.unclaimed, queue := p.queue, jstep := p.jstep, issue := p.issue
                             openBatch := p.openBatch, doneBatch := p.doneBatch, frozen := true }
                  else if waiting then u.onCore fun j => { j with waiters := j.waiters ++ [(u.gid, u.gi)] } else u
                exec (.gload o) s = .next ({ x with
                  s := x.s.onDie u.dn fun d =>
                    { d with cmds := p.held.foldl (fun (cs : FMap Cmd) y => cs.insert y.1 y.2) d.cmds }
                  k := gangOfLines x.wholeGroup u.gi ls p } : Cx).finished)) ∧
      (o.m.variant = 1 → (leads = false → exec (.gload o) s = .next c.finished) ∧ (leads = true →
        let n := 3 + c.grp.areaBytes / 64
        (c.loadLines o (c.reg o.b 0).toNat n = none → exec (.gload o) s = .next s) ∧
        (∀ cause a u, c.loadLines o (c.reg o.b 0).toNat n = some (.error (cause, a), u) →
          exec (.gload o) s = .next (fault u cause a).finished) ∧
        ∀ ls u, c.loadLines o (c.reg o.b 0).toNat n = some (.ok ls, u) → exec (.gload o) s = .next
          (if coreImageOk u.grp ls then { u with grp := u.grp.onHome u.k.core (homeOfLines ls) } else bad u : Cx).finished))) ∧
    (readyCx s 0x1CA (.s o) o.h = some c →
      (c.jcore.owner ≠ some (c.gid, c.gi) → exec (.jfrz o) s = trap 11 0) ∧
      (c.jcore.owner = some (c.gid, c.gi) →
        (o.m.variant = 0 → exec (.jfrz o) s = if c.jcore.frozen then .next c.finished
          else if c.jcore.freezeAsked then .next s
          else .next (hold (c.onCore fun j => { j with freezeAsked := true }))) ∧
        (o.m.variant ≠ 0 → exec (.jfrz o) s = if c.grp.pre = true ∧ c.grp.restore = false then trap 1 4
          else .next (c.onCore fun j => { j with frozen := false, freezeAsked := false }).finished)))

/-! ### Invariants -/

/-- Every step keeps the memory of every die in its canonical form: addresses strictly rising, and no entry equal to what
an unlisted address reads as. -/
def Obligations.StepKeepsMemory : Prop :=
  ∀ s t : State, s.memOk = true → step s = .next t → t.memOk = true

/-! ### The hub -/

/-- R9, R10, R14 to R19, R23 to R25, R42: the hub. Boot checks the two image slots: with both refused the module is in
the safe state with both reasons, else the first accepted image runs, and with STAGGER = 1 the module holds; where it
does not hold, and at the end of a hold, phases 2 to 6 leave every die ready with zero-filled memory and a key in slot
0 only, or end in the safe state with the code of the phase that failed, or stand in a phase that neither passes nor
fails, which 90 s without holding end with code 0x50. A power loss keeps what flash, fuses, the protected store and
NVMe hold. A die's power, and that of hub and links, moves by no more than its share toward its demand, under its
ceiling. A failed boot is logged where an image runs and the NVMe ports do (log entry 109). Readings that arrive together
merge into the highest class they raise; each is logged, and one management
interrupt raised; class 2 and 3 erase every memory and port key, reset the dies, whose functions report it, and repeat
phases 2 to 6. R9, R20, R27 to R30, R41, R76: the management requests. GO submits the request in MREQ, or answers at
once in the safe state and where the request is not assigned or sets a reserved byte; each request clears GO, sets
MSTAT and MRSP, raises the management interrupt, and has its effect where its status is OK. (Where the spec leaves
room, this is the model's reading: log entries 14, 16, 106, 108 to 113, 115, 116, 137 and 138.) -/
def Obligations.HubSteps : Prop :=
  (∀ (s : State) (env : BootEnv),
    let fresh := fun (h : Hub) => (List.range 8).map fun d =>
      { Die.reset d with ceiling := (if d % 2 = 0 then 740 else 525) * h.limit / 5800 }
    let inSafe := fun (t : State) (phase code die unit : Nat) =>
      t.hub.safe = true ∧ t.hub.ready = false ∧ t.hub.phase = phase ∧ t.hub.code = code ∧ t.hub.die = die ∧
        t.hub.unit = unit ∧ t.dies = fresh t.hub ∧ t.links = []
    let trained := fun (t : State) => ∀ p < 8, (t.port p).status = if p ∈ env.portsUp then 1 else 0
    let rest := fun (h : Hub) (t : State) => t.hub.holding = false ∧ t.hub.limit = h.limit ∧
      let fails := env.failPhase.map fun p => if p < 2 ∨ 5 < p then 5 else p
      match fails.filter fun p => p ≤ env.stuck.getD 6, env.stuck with
      | some p, _ =>
        let code := if p = 2 then 0x10 else if p = 3 then (if env.die % 2 = 0 then 0x21 else 0x20)
          else if p = 4 then 0x30 else 0x40
        inSafe t p code env.die env.unit ∧ (p = 5 → trained t) ∧ t.hub.log = (if Config.nvmeDown s.free = true then h.log
          else h.log ++ [.bootFailure code env.die env.unit])
      | none, some p => t.hub.phase = max 2 (min p 6) ∧ t.hub.ready = h.ready ∧ t.hub.safe = h.safe ∧ t.hub.log = h.log ∧
        (4 < p → trained t)
      | none, none => t.hub.ready = true ∧ t.hub.phase = 6 ∧ t.hub.log = h.log ∧
        trained t ∧
        t.hub.floor = (match h.running with
          | some i => max h.floor i.version
          | none => h.floor) ∧
        ∀ d < 8, (t.die d).ready = true ∧ (t.die d).mem = [] ∧ (t.die d).keys.map (·.1) = [0] ∧
          (t.die d).ceiling = (if d % 2 = 0 then 740 else 525) * h.limit / 5800
    let boots := fun (t : State) =>
      let r0 := imageRefusal s.hub (s.hub.image 0)
      let r1 := imageRefusal s.hub (s.hub.image 1)
      if env.stuck = some 1 then t.hub.phase = 1 ∧ t.hub.ready = false ∧ t.hub.safe = false ∧ t.hub.running = none
      else if r0 ≠ 0 ∧ r1 ≠ 0 then inSafe t 1 (if r0 = r1 then r0 else 4) 8 (r0 + 16 * r1) ∧ t.hub.log = s.hub.log
      else
        let slot := if r0 = 0 then 0 else 1
        t.hub.slot = slot ∧ t.hub.running = some (s.hub.image slot) ∧
        if s.hub.flashStagger then t.hub.holding = true ∧ t.hub.phase = 1 ∧ t.hub.ready = false ∧ t.hub.safe = false
        else rest { s.hub with running := some (s.hub.image slot), limit := 5800, ready := false, safe := false } t
    (∀ i : Image, imageRefusal s.hub i = if 2 ^ 25 < i.length then 3
      else if i.signer ≠ s.hub.keyDigest ∨ Config.verifies i.signer i.digest i.signature = false then 1
      else if i.version < s.hub.floor then 2 else 0) ∧
    (∃ t, exec (.powerGood env) s = .next t ∧ boots t) ∧
    (s.hub.powered = true → ∃ t, exec (.hostModuleReset env) s = .next t ∧ boots t) ∧
    (s.hub.powered = true → s.hub.ready = false → s.hub.safe = false → s.hub.holding = false →
      90 * 1200000000 + s.hub.held < s.hub.time - s.hub.bootSince → ∃ t, exec .bootTimeExceeded s = .next t ∧
        inSafe t s.hub.phase 0x50 0xF 0xFFF ∧
        t.hub.log = if s.hub.running = none ∨ Config.nvmeDown s.free = true then s.hub.log
          else s.hub.log ++ [.bootFailure 0x50 0xF 0xFFF]) ∧
    (s.hub.holding = true → ∀ arrived base step, s.hub.pending = some (arrived, base, step) →
      arrived + base + s.hub.rpos * step ≤ s.hub.time →
      ∃ t, exec (.restaggerDelayExpiry env) s = .next t ∧ rest s.hub t) ∧
    (s.hub.holding = true → 600 * 1200000000 ≤ s.hub.time - s.hub.holdSince →
      ∃ t, exec (.holdTimeout env) s = .next t ∧ rest s.hub t) ∧
    (∃ t, exec .modulePowerLoss s = .next t ∧ t.dies = State.reset.dies ∧ t.links = [] ∧ t.msix = [] ∧
      t.resetReports = [] ∧ t.hub = { Hub.reset with
        powered := false, images := s.hub.images, floor := s.hub.floor, alarms2 := s.hub.alarms2, log := s.hub.log
        attestKey := s.hub.attestKey, certificate := s.hub.certificate, serial := s.hub.serial
        keyDigest := s.hub.keyDigest, flashRpos := s.hub.flashRpos, flashStagger := s.hub.flashStagger
        rpos := s.hub.flashRpos, stagger := s.hub.flashStagger }) ∧
    (∀ d demand, d < 8 → (s.die d).ready = true → s.hasDies = true →
      ∃ t, exec (.pacingWindow d demand) s = .next t ∧
        let p := (s.die d).power
        let u := t.die d
        let share := if d % 2 = 0 then 45 else 27
        u = { s.die d with power := u.power, filler := u.filler, withheld := u.withheld } ∧
        u.power ≤ p + share ∧ p ≤ u.power + share ∧ (p ≤ (s.die d).ceiling → u.power ≤ (s.die d).ceiling) ∧
        (demand ≤ (s.die d).ceiling → demand ≤ p + share → p ≤ demand + share → u.power = demand) ∧
        u.filler = u.power - demand ∧ (u.withheld = true ↔ u.power < demand)) ∧
    (∀ demand, s.hub.powered = true → ∃ p, exec (.pacingWindow 8 demand) s = .next { s with
      hub := { s.hub with power := p } } ∧ p ≤ s.hub.power + 2 ∧ s.hub.power ≤ p + 2 ∧ (s.hub.power ≤ 300 → p ≤ 300) ∧
        (demand ≤ 300 → demand ≤ s.hub.power + 2 → s.hub.power ≤ demand + 2 → p = demand)) ∧
    (∀ (ppm milli : Int) (ns : Nat) (x : Bool),
      alarmClass (.voltage ppm ns) = (if ppm < -150000 ∨ 150000 < ppm then 2
        else if (ppm < -50000 ∨ 50000 < ppm) ∧ 1000 < ns then 1 else 0) ∧
      alarmClass (.clock x ppm) = (if x = true ∨ ppm < -100000 ∨ 100000 < ppm then 2
        else if ppm < -20000 ∨ 20000 < ppm then 1 else 0) ∧
      alarmClass (.temperature milli) = (if milli < -20000 ∨ 125000 < milli then 2 else if 105000 < milli then 1 else 0) ∧
      alarmClass (.lid x) = if x then 3 else 0) ∧
    ∀ (r : Reading) (others : List Reading), s.hub.powered = true →
      let rs := r :: others
      let merged := fun (cls : Nat) => (∃ r ∈ rs, alarmClass r = cls) ∧ ∀ r ∈ rs, alarmClass r ≤ cls
      let log := s.hub.log ++ (rs.filter fun r => alarmClass r ≠ 0).map fun r =>
        LogEntry.alarm (alarmClass r) r s.hub.time
      let erased := fun (t : State) (alarms : Nat) (key : Bool) => t.hub.alarms2 = alarms ∧ t.hub.attestKey = key ∧
        (8, 0) ∈ t.msix ∧ (∀ p, (t.port p).sendKeys = [] ∧ (t.port p).recvKeys = []) ∧
        if s.hub.safe then t.hub.safe = true ∧ t.dies = fresh s.hub ∧ t.hub.log = log
        else if s.hub.ready then
          t.resetReports = List.range 8 ∧ rest { s.hub with log := log, ready := false, safe := false } t
        else inSafe t s.hub.phase 0x60 0xF 0xFFF ∧ t.hub.log = if s.hub.running = none ∨ Config.nvmeDown s.free = true
          then log else log ++ [.bootFailure 0x60 0xF 0xFFF]
      (∀ x ∈ [(1, Instr.securityAlarmClass1 r others), (2, .securityAlarmClass2 r others env),
          (3, .securityAlarmClass3 r others env)],
        ¬ merged x.1 → exec x.2 s = .next s) ∧
      (merged 1 → exec (.securityAlarmClass1 r others) s = .next { s with
        hub := { s.hub with log := log }, msix := s.msix ++ [(8, 0)] }) ∧
      (merged 2 → ∃ t, exec (.securityAlarmClass2 r others env) s = .next t ∧
        erased t (s.hub.alarms2 + 1) s.hub.attestKey) ∧
      (merged 3 → ∃ t, exec (.securityAlarmClass3 r others env) s = .next t ∧ erased t s.hub.alarms2 false)) ∧
  (∀ (s : State) (env : BootEnv),
    let h := s.hub
    let asked := fun (op : Nat) => h.go = true ∧ h.reqOp = op ∧ h.safe = false
    let reply := fun (t : State) (st : Nat) (rsp : List Byte) => (.next { t with
      hub := { t.hub with go := false, mstat := st, mrsp := Memory.writeAll [] ((span 0 rsp.length).zip rsp) }
      msix := t.msix ++ [(8, 0)] } : Host.Outcome State Fault Refusal)
    let serves := fun (d : Nat) => h.ready = true ∧ (s.die d).ready = true ∧ (s.die d).service = .inService
    h.window 0x000 = h.unit + h.die * 2 ^ 12 + h.code * 2 ^ 16 + h.phase * 2 ^ 24 + h.slot * 2 ^ 29 +
      h.ready.toNat * 2 ^ 30 + h.safe.toNat * 2 ^ 31 ∧
    h.window 0x008 = h.go.toNat + h.mstat * 2 ^ 32 ∧
    h.window 0x010 = ((List.range 8).map fun p => (s.port p).status * 2 ^ (4 * p)).sum ∧
    h.window 0x018 = h.limit + h.rpos * 2 ^ 32 + h.stagger.toNat * 2 ^ 48 + h.holding.toNat * 2 ^ 49 ∧
    (h.powered = true → h.go = false → exec .go s = if h.safe = true then reply s 0 (leBytes 4 h.bstat)
      else if h.badReq = true then reply s 4 [] else .next { s with hub := { h with go := true } }) ∧
    (∀ x ∈ [(1, Instr.setlimit), (2, .loadkey), (3, .clearkey), (4, .portkey), (5, .setpos), (6, .release env), (7, .attest),
        (8, .handles), (9, .cert)], h.go = true → h.reqOp = x.1 → h.safe = true →
      exec x.2 s = reply s 0 (leBytes 4 (h.window 0))) ∧
    (asked 1 → let w := h.req 4 4
      if w < 1500 ∨ 5800 < w then exec .setlimit s = reply s 1 []
      else ∃ t, exec .setlimit s = reply t 0 [] ∧ t.hub = { h with limit := w } ∧ (s.hasDies = true → ∀ d < 8,
        t.die d = { s.die d with ceiling := (if d % 2 = 0 then 740 else 525) * w / 5800 })) ∧
    (∀ x ∈ [(2, Instr.loadkey), (3, .clearkey)], asked x.1 →
      let d := h.req 4 1
      let slot := h.req 6 2
      if 7 < d ∨ slot = 0 ∨ 4095 < slot then exec x.2 s = reply s 1 []
      else if ¬ serves d then exec x.2 s = reply s 5 []
      else exec x.2 s = reply (s.setDie d { s.die d with
        keys := if x.1 = 2 then (s.die d).keys.insert slot (BitVec.ofNat 512 (h.req 8 64)) else (s.die d).keys.erase slot })
          0 []) ∧
    (asked 4 → let p := h.req 4 1
      let slot := h.req 5 1
      let key := (BitVec.ofNat 256 (h.req 8 32), BitVec.ofNat 32 (h.req 40 4))
      let x := s.port (p % 8)
      if 15 < p ∨ 1 < slot then exec .portkey s = reply s 1 []
      else if ((if p < 8 then x.sendKeys else x.recvKeys).find? slot).isSome = true then exec .portkey s = reply s 2 []
      else ∃ t, exec .portkey s = reply t 0 [] ∧
        ((if p < 8 then (t.port (p % 8)).sendKeys else (t.port (p % 8)).recvKeys).find? slot) = some key ∧
        (p < 8 → (t.port (p % 8)).sendSlot = slot) ∧ (8 ≤ p → x.recvKeys = [] → (t.port (p % 8)).recvSlot = slot)) ∧
    (asked 5 → exec .setpos s = if 4095 < h.req 4 2 ∨ 1 < h.req 6 1 then reply s 1 []
      else reply { s with hub := { h with flashRpos := h.req 4 2, flashStagger := h.req 6 1 = 1 } } 0 []) ∧
    (asked 6 → ∃ t, exec (.release env) s = reply t 0 [] ∧ t.hub.holding = false ∧ (h.holding = false → t = s) ∧
      (h.holding = true → h.ready = false → t.hub.ready = (env.failPhase.isNone && env.stuck.isNone))) ∧
    (asked 7 → exec .attest s = if h.attestKey = false then reply s 3 []
      else
        let image := h.running.getD Image.empty
        let body := leBytes 16 h.serial.toNat ++ leBytes 4 h.bstat ++ leBytes 4 h.slot ++ leBytes 32 image.digest.toNat ++
          leBytes 4 image.version ++ leBytes 4 h.floor ++ leBytes 4 h.alarms2 ++ h.mreq.readAll (span 4 32)
        reply s 0 (leBytes 4 100 ++ body ++ (leBytes 384 (Config.attestSign body).toNat).reverse)) ∧
    (asked 8 → exec .handles s = if 7 < h.req 4 1 then reply s 1 []
      else if serves (h.req 4 1) then
        let all := (s.die (h.req 4 1)).handles
        let part := (all.drop (h.req 8 4)).take 63
        reply s 0 (leBytes 4 part.length ++ leBytes 4 all.length ++ List.replicate 8 0 ++
          part.flatMap fun e => leBytes 8 e.1 ++ leBytes 8 e.2)
      else reply s 5 []) ∧
    (asked 9 → exec .cert s =
      reply s 0 (leBytes 4 (h.certificate.take 1020).length ++ h.certificate.take 1020)))

/-! ### The host's side of a die -/

/-- R44 to R47: the aperture and the queue registers. A host access through the aperture is carried out line by line; a
faulted line reads all-ones or is dropped, and the first fault is kept in APFC and APFA until APF is cleared; a
poisoned die, and then a link of the hub that is down, comes before any fault of the line; over one that retrains no such
step is taken (`crossed`: log entry 105). A read acquires what the values that it returns release at .sys, and a doorbell
covers what the host knows. The queue registers take a
configuration word, a TAIL, a reservation and a COMMIT under the conditions of the rules, and set QERR and keep their
values where one fails. R39, R45, R46, R61, R73, R186, R312: the memory-management registers and the export slots. A
write of TLBCTL starts an invalidation, and BUSY stays 1 until its end, when what it covers is dropped; FTTAIL is set,
frames are zeroed in order and counted into FTREADY, and FTEMPTY is cleared; a plain register takes the bits that it
has. An export slot is filled with its generation kept, and revoked by counting that on. (Where the spec leaves room,
this is the model's reading: log entries 97, 98, 102, 105, 124 and 127.) -/
def Obligations.HostRegisters : Prop :=
  (∀ (s : State) (d : Nat), d < 8 →
    let die := s.die d
    let vas := fun off len => (span (die.apbase + off) len).map (· % 2 ^ 56)
    let apf := fun (t : State) (cls va : Nat) => if (t.die d).apf = true then t
      else t.setDie d { t.die d with apf := true, apfc := cls, apfa := va / 64 * 64 }
    let queue := fun (q : Nat) (u : Queue) => Host.Outcome.next (s.setDie d { die with queues := FMap.set Queue.empty die.queues q u })
    let from_ := (if s.linkRetrains 8 d = true then { s with crossed := true } else s).rested
    (∀ off len line, off + len ≤ 2 ^ 36 → 0 < len → (∀ a ∈ vas off len, a / 64 = line) →
      let way : Option Cause := if die.service = .poisoned then some (8, 1)
        else if s.linkDown 8 d = true ∨ s.linkDown d 8 = true then some (9, 1) else none
      (∀ e, way = some e → exec (.apertureRead d off len) s =
          .next { apf s e.1 (64 * line) with apertureRead := List.replicate len 0xFF } ∧
        ∀ data, data.length = len → exec (.apertureWrite d off data) s = .next (apf s e.1 (64 * line))) ∧
      (way = none →
        (∀ bs t, memRead from_ d (vas off len) = (.ok bs, t) →
          exec (.apertureRead d off len) s = .next { t.rested with
            hostKnown := withAll t.hostKnown (acquired t.trace.saw .host 4), apertureRead := bs }) ∧
        (∀ e a t, memRead from_ d (vas off len) = (.error (e, a), t) → exec (.apertureRead d off len) s =
          .next { apf t.rested e.1 (64 * line) with apertureRead := List.replicate len 0xFF }) ∧
        ∀ data, data.length = len →
          (∀ t, memWrite from_ d ((vas off len).zip data) = (.ok (), t) → exec (.apertureWrite d off data) s =
            .next { t.rested with hostKnown := withAll t.hostKnown t.written }) ∧
          ∀ e a t, memWrite from_ d ((vas off len).zip data) = (.error (e, a), t) →
            exec (.apertureWrite d off data) s = .next (apf t.rested e.1 (64 * line)))) ∧
    (∀ off data, ∃ t u, exec (.apertureRead d off data.length) s = .next t ∧ exec (.apertureWrite d off data) s = .next u) ∧
    exec (.apfClear d) s = .next (s.setDie d { die with apf := false, apfc := 0, apfa := 0 }) ∧
    ∀ q < 64,
      let u := die.queue q
      (∀ v : DWord, v.toNat / 2 ^ 7 % 2 = 1 →
        let log := v.toNat % 32
        let u' := { u with dev := bit 8 v.toNat, en := true, prio := v.toNat / 2 ^ 5 % 4, log := log }
        exec (.queueConfigWrite d q v) s = queue q (if log < 4 ∨ 16 < log then { u with qerr := 5 }
          else if (u.head ≠ u.tail ∨ u.resv ≠ u.tail) ∧ { u' with en := u.en } ≠ u then { u with qerr := 5 } else u')) ∧
      (∀ v : DWord, v.toNat / 2 ^ 7 % 2 = 0 →
        let log := v.toNat % 32
        exec (.queueDisable d q v) s = .next (s.setDie d { die with
          queues := FMap.set Queue.empty die.queues q { u with
            dev := bit 8 v.toNat, en := false, prio := v.toNat / 2 ^ 5 % 4
            log := if log < 4 ∨ 16 < log then u.log else log
            head := 0, tail := 0, resv := 0, qerr := 0, committed := [], shared := false, told := [] }
          hostCmds := die.hostCmds.filter fun c => !(decide (c.2.queue = q) && decide (c.2.phase = .read)) })) ∧
      (∀ v : Word, let ahead := fun (a b : Nat) => (a + 2 ^ 32 - b) % 2 ^ 32
        let told := fun (first k : Nat) => if s.hostKnown = [] then u.told
          else (List.range k).foldl (fun m i => m.insert ((first + i) % 2 ^ 32) s.hostKnown) u.told
        exec (.tail d q v) s = queue q (if u.dev = true then { u with qerr := 4 }
          else if u.resv ≠ u.tail ∨ u.shared = true then { u with qerr := 6 }
          else if 2 ^ u.log < ahead v.toNat u.head ∨ 2 ^ u.log < ahead v.toNat u.tail then { u with qerr := 3 }
          else { u with tail := v.toNat, resv := v.toNat, told := told u.tail (ahead v.toNat u.tail) }) ∧
        (u.dev = true → exec (.commit d q v) s = queue q { u with qerr := 4 }) ∧
        (u.dev = false → u.committed = [] → exec (.commit d q v) s = queue q
          (if v.toNat = u.tail ∧ 0 < ahead u.resv u.tail then { u with
              tail := (u.tail + 1) % 2 ^ 32, told := told v.toNat 1 }
            else if ahead v.toNat u.tail < ahead u.resv u.tail then { u with
              committed := [v.toNat], told := told v.toNat 1 }
            else u)) ∧
        ∃ t, exec (.commit d q v) s = .next t) ∧
      (u.dev = true → exec (.resv d q) s = .next { s.setDie d { die with
        queues := FMap.set Queue.empty die.queues q { u with qerr := 4 } } with resvRead := 0xFFFFFFFF }) ∧
      (u.dev = false → u.en = false ∨ u.qerr ≠ 0 ∨ 2 ^ u.log ≤ (u.resv + 2 ^ 32 - u.head) % 2 ^ 32 →
        exec (.resv d q) s = .next { s with resvRead := 0xFFFFFFFF }) ∧
      (u.dev = false → u.en = true → u.qerr = 0 → (u.resv + 2 ^ 32 - u.head) % 2 ^ 32 < 2 ^ u.log →
        exec (.resv d q) s = .next { s.setDie d { die with
          queues := FMap.set Queue.empty die.queues q { u with resv := (u.resv + 1) % 2 ^ 32 } } with
            resvRead := BitVec.ofNat 32 u.resv })) ∧
  (∀ (s : State) (d : Nat), d < 8 →
    let die := s.die d
    let becomes := fun (t : Die) => Host.Outcome.next (φ := Fault) (ρ := Refusal) (s.setDie d t)
    let covers := fun (x : Option Nat) => { die with busy := true, invalidating := die.invalidating ++ [x] }
    (exec (.tlbctlAll d) s = becomes (covers none) ∧
      ∀ v : DWord, exec (.tlbctlPage d v) s = becomes (covers (some (v.toNat / 2 ^ 16 % 2 ^ 40 * 2 ^ 16)))) ∧
    (die.busy = true → ∃ t, exec (.invalidationDone d) s = becomes t ∧
      t = { die with tlb := t.tlb, imports := t.imports, busy := false, invalidating := [] } ∧
      (none ∈ die.invalidating → t.tlb = [] ∧ t.imports = []) ∧
      ∀ p, some (p * 2 ^ 16) ∈ die.invalidating → t.tlb.find? p = none) ∧
    (∀ v : DWord, exec (.fttail d v) s = becomes { die with fttail := v.toNat % 4096 }) ∧
    (die.ftzero = die.fttail → exec (.frameZeroed d) s = .next (s.setDie d die)) ∧
    (die.ftzero ≠ die.fttail → ∃ t : Die,
      let frame := physWord die (die.ftbase + 8 * die.ftzero) / 2 ^ 16 % 2 ^ 36 * 2 ^ 16
      exec (.frameZeroed d) s = .next ((s.setDie d t).moveFrame d frame none) ∧
      t = { die with mem := t.mem, lineKeys := t.lineKeys, ftzero := (die.ftzero + 1) % 4096, ftready := die.ftready + 1 } ∧
      (∀ a, t.mem.read a = if frame ≤ a ∧ a < frame + 65536 then 0 else die.mem.read a) ∧
      ∀ n ∈ ((s.setDie d t).moveFrame d frame none).notes, ∀ line m, (Spot.dram d line, m) ∈ n.bytes →
        line < frame / 64 ∨ frame / 64 + 1024 ≤ line) ∧
    exec (.ftemptyClear d) s = becomes { die with ftempty := false } ∧
    (∀ v : DWord, let n := v.toNat
      let writes := fun (off : Nat) (t : Die) => exec (.controlRegisterWrite d off v) s = becomes t
      writes 0x10 { die with apbase := n / 2 ^ 36 % 2 ^ 20 * 2 ^ 36 } ∧
      writes 0x2000 { die with ptroot := n / 2 ^ 20 % 2 ^ 32 * 2 ^ 20 } ∧
      writes 0x2008 { die with rtbase := n / 2 ^ 21 % 2 ^ 35 * 2 ^ 21 } ∧
      writes 0x2010 { die with impbase := n / 2 ^ 16 % 2 ^ 40 * 2 ^ 16 } ∧
      writes 0x2020 { die with ftbase := n / 2 ^ 15 % 2 ^ 37 * 2 ^ 15 } ∧
      writes 0x3000 { die with trapbase := n / 2 ^ 8 % 2 ^ 48 * 2 ^ 8 } ∧
      (∀ q < 64, writes (0x1000 + 64 * q) { die with
        queues := FMap.set Queue.empty die.queues q { die.queue q with qbase := n / 2 ^ 6 % 2 ^ 50 * 2 ^ 6 } }) ∧
      ∀ off, exec (.controlRegisterWrite 8 off v) s = .next s) ∧
    (∀ slot base len rights, slot < 4096 → len % 65536 = 0 → exec (.exportSlotFill d slot base len rights) s =
      becomes { die with exports_ := die.exports_.insert slot ⟨base, len, bit 0 rights, bit 1 rights, bit 2 rights,
        bit 3 rights, (FMap.get Export.empty die.exports_ slot).gen, true⟩ }) ∧
    ∀ slot e, die.exports_.find? slot = some e → ∃ t, exec (.exportRevoke d slot) s = becomes t ∧
      t = { die with exports_ := t.exports_ } ∧ t.exports_.find? slot = some { e with gen := (e.gen + 1) % 65536 } ∧
      ∀ n, n ≠ slot → t.exports_.find? n = die.exports_.find? n)

/-- R43, R48 to R51, R53, R54, R67, R74, R75, R101, R112: the command processor. A record that TAIL covers is read and
counted into HEAD, and one that breaks R48 or R49 sets QERR and is not kept. The wait condition of a queue's next
command is read, and once met, or found to fault, that is kept; the queue served is that of the highest priority whose
next command can start, round-robin, and a QUIESCE under way shuts out every other command; the command starts, or ends
with FAULT where its wait signal cannot be read. Each command ends with the status of the rule that its operands meet.
A completion writes STATA and then adds to CSIG, a release at .sys, each dropped with QERR 7 where it faults, raises
the interrupt and removes the command; the command processor releases what its commands know. A MIGRATE switches page
after page, each once a frame has been taken and the source's accesses to it are complete, and pulls the lines by cell;
a line poisoned at its source, or that cannot be reached, arrives poisoned. A die whose QUIESCE has completed drains:
it gives its pages and exports to the first die in service with room for all of them, or else part by part to dies that
leave room for the rest, and stays where they do not fit; its links are off but where it is retained. A QUIESCE ends
once the die has drained, with QUIESCED set, and the queues resume at its completion or, with HOLD, at a RESUME. (Where
the spec leaves room, this is the model's reading: log entries 2, 12, 97 to 101, 114, 124, 139 and 143.) -/
def Obligations.CommandSteps : Prop :=
  ∀ (s : State) (d : Nat), d < 8 →
    let die := s.die d
    (∀ q < 64, let u := die.queue q
      (die.quiesced = true → exec (.commandRecordRead d q) s = .next s) ∧
      (die.quiesced = false → u.en = true → u.qerr = 0 → u.head ≠ u.tail →
      (∀ e t, readElem s d (span (u.qbase + 64 * (u.head % 2 ^ u.log)) 64) = (.error e, t) →
        exec (.commandRecordRead d q) s = .next s) ∧
      ∀ bs t, readElem s d (span (u.qbase + 64 * (u.head % 2 ^ u.log)) 64) = (.ok bs, t) →
        let w := fun i => leNat ((bs.drop (8 * i)).take 8)
        let c : HostCmd := {
          queue := q, seq := u.head, op := w 0 % 2 ^ 8, waits := bit 8 (w 0), serial := bit 9 (w 0), intr := bit 10 (w 0)
          add := w 0 / 2 ^ 32 % 2 ^ 32, wsig := w 1, wval := w 2, csig := w 3, stata := w 4, p0 := w 5, p1 := w 6
          p2 := w 7, phase := .read, page := 0, early := false, frame := none, met := none
          known := (u.told.find? u.head).getD [] }
        let e := if 7 < c.op then 1 else if w 0 / 2 ^ 11 % 2 ^ 21 ≠ 0 ∨ 2 ^ 56 ≤ c.wsig ∨ 2 ^ 56 ≤ c.csig ∨
          2 ^ 56 ≤ c.stata ∨ paramsBad c = true then 2 else 0
        let v := (t.die d).queue q
        let v' := { v with
          head := (v.head + 1) % 2 ^ 32, qerr := if e = 0 then v.qerr else e, told := v.told.erase u.head }
        let read := { t.die d with queues := FMap.set Queue.empty (t.die d).queues q v' }
        exec (.commandRecordRead d q) s = .next (t.rested.setDie d (if e = 0 then
            { read with nextId := read.nextId + 1, hostCmds := read.hostCmds.insert read.nextId c }
          else read)))) ∧
    (∀ q n c, ableCmd die q = some (n, c) ↔ nextCmd die q = some (n, c) ∧ (die.queue q).qerr = 0 ∧ die.quiesced = false ∧
      ((die.quiesce = none ∧ ∀ x ∈ die.hostCmds, ¬ (x.2.op = 7 ∧ x.2.phase = .started)) ∨ c.op = 7) ∧
      (c.serial = true ∨ (c.op = 1 ∧ c.p1 % 2 ^ 24 = 0) →
        ∀ x ∈ die.hostCmds, x.1 < n → x.2.queue ≠ c.queue) ∧ (c.op = 1 → launchFits die c = true)) ∧
    (∃ st : Nat → State, st 0 = s ∧ pollWaits s d = st 64 ∧ ∀ q < 64, st (q + 1) =
      match ableCmd ((st q).die d) q with
      | none => st q
      | some (n, c) => if c.waits = false ∨ c.met.isSome = true then st q else
        let found := fun (t : State) (ok : Bool) => if t.crossed = true then st q else (t.setDie d { t.die d with
          hostCmds := (t.die d).hostCmds.modify n fun x => { x with
            met := some ok, known := withAll x.known (acquired t.trace.saw (.commandProcessor d) 4) } }).rested
        match readElem (st q).rested d (span c.wsig 8) with
        | (.error _, t) => found t false
        | (.ok bs, t) => if c.wval ≤ leNat bs then found t true else st q) ∧
    (let u := pollWaits s d
      let able := fun (q : Nat) => ∃ n c, ableCmd (u.die d) q = some (n, c) ∧ (c.waits = false ∨ c.met.isSome = true)
      let turn := fun (q : Nat) => (q + 127 - (u.die d).lastQueue % 64) % 64
      ∀ q < 64, ((¬ able q ∨ ∃ p < 64, able p ∧ (((u.die d).queue p).prio < ((u.die d).queue q).prio ∨
          (((u.die d).queue p).prio = ((u.die d).queue q).prio ∧ turn p < turn q))) → exec (.commandStart d q) s = .next u) ∧
        ∀ n c, ableCmd (u.die d) q = some (n, c) → c.waits = false ∨ c.met.isSome = true → ((u.die d).queue q).prio < 4 →
          (∀ p < 64, able p → ((u.die d).queue q).prio < ((u.die d).queue p).prio ∨
            (((u.die d).queue q).prio = ((u.die d).queue p).prio ∧ turn q ≤ turn p)) →
          exec (.commandStart d q) s = .next (u.setDie d { u.die d with
            lastQueue := q, commandKnown := withAll (u.die d).commandKnown c.known
            hostCmds := (u.die d).hostCmds.modify n fun x => { x with
              known := withAll (u.die d).commandKnown c.known
              phase := if c.met = some false then .finished 3 0 else .started } })) ∧
    (∀ n c code count, die.hostCmds.find? n = some c → c.phase = .finished code count →
      let stop := fun (x : Access Unit) => match x with
        | (.ok _, t) => t
        | (.error _, t) => t.setDie d { t.die d with queues :=
            (FMap.set Queue.empty (t.die d).queues c.queue { (t.die d).queue c.queue with qerr := 7 }) }
      let t1 := if c.stata = 0 then s else
        stop (s.byCommand d n [] false fun t =>
          writeElem t d ((span c.stata 8).zip (leBytes 8 (code + count % 2 ^ 24 * 2 ^ 8))))
      let t2 := if c.csig = 0 then t1 else
        stop (t1.byCommand d n (commandRelease t1 d n 4) false fun t =>
          let x := atomicElem t d (span c.csig 8)
            (fun h => .atomicReq h ((span c.csig 8).map peerOffset) 0 .n64 c.add 0) fun old => (old + c.add) % 2 ^ 64
          (x.1.map fun _ => (), x.2))
      let known := withAll (t2.die d).commandKnown (((t2.die d).hostCmds.find? n).elim [] (·.known))
      let left := { t2.die d with hostCmds := (t2.die d).hostCmds.erase n, commandKnown := known }
      exec (.commandCompletion d n) s = .next ((if c.intr = true then { t2 with
          msix := t2.msix ++ [(d, c.queue)], interruptKnown := withAll t2.interruptKnown known }
        else t2).setDie d (match left.quiesce with
          | none => left
          | some q => if q.complete = true ∧ q.hold = false ∧ q.offline = false ∧
              (∀ m ∈ q.cmds, left.hostCmds.find? m = none) then { left with quiesced := false, quiesce := none }
            else left))) ∧
    (∀ n c, die.hostCmds.find? n = some c → c.phase = .started →
      let ends := fun (t : State) (code : Nat) => Host.Outcome.next (φ := Fault) (ρ := Refusal) (t.setDie d { t.die d with
        hostCmds := (t.die d).hostCmds.modify n fun x => { x with phase := .finished code 0 } })
      (c.op = 0 → exec (.nopCommand d n) s = ends s 0) ∧
      (c.op = 1 → (let cap := c.p1 / 2 ^ 24 % 2 ^ 16
          let roots := c.p1 % 2 ^ 24
          if cap = 0 ∨ 32768 < cap ∨ c.p2 % 2 ^ 24 < roots ∨ c.p0 % 64 ≠ 0 then exec (.launchCommand d n) s = ends s 5
          else if roots = 0 then exec (.launchCommand d n) s = ends s 0
          else (∃ t, exec (.launchCommand d n) s = .next t) ∧
            (die.launches.find? n ≠ none ∨ die.quiesced = true → exec (.launchCommand d n) s = .next s) ∧
            (die.launches.find? n = none → die.quiesced = false →
            (∀ code t, checkPass s d c.p0 roots (c.p2 % 2 ^ 24) cap (bit 40 c.p1) = (.refused code, t) →
              exec (.launchCommand d n) s = ends t code) ∧
            ∀ run t, checkPass s d c.p0 roots (c.p2 % 2 ^ 24) cap (bit 40 c.p1) = (.accepted run, t) →
              let l : Launch := ⟨c.p0, roots, cap, bit 40 c.p1, bit 41 c.p1, ((t.die d).queue c.queue).prio, run, 0, c.known⟩
              exec (.launchCommand d n) s =
                .next (t.setDie d { t.die d with launches := (t.die d).launches.insert n l })))) ∧
      (c.op = 2 → (c.p2 ≤ c.page → exec (.copyCommand d n) s = ends s 0) ∧ (c.page < c.p2 →
        let src := (c.p0 + c.page) % 2 ^ 56
        let dst := (c.p1 + c.page) % 2 ^ 56
        let m := min (c.p2 - c.page) (min (64 - src % 64) (64 - dst % 64))
        let reads := s.byCommand d n [] false fun t => memRead t d (span src m)
        (∀ e t, reads = (.error e, t) → exec (.copyCommand d n) s = ends t 3) ∧ ∀ bs t, reads = (.ok bs, t) →
          let writes := t.byCommand d n [] false fun u => memWrite u d ((span dst m).zip bs)
          (∀ e u, writes = (.error e, u) → exec (.copyCommand d n) s = ends u 3) ∧ ∀ u, writes = (.ok (), u) → exec (.copyCommand d n) s = .next (u.setDie d {
            u.die d with hostCmds := (u.die d).hostCmds.modify n fun x => { x with page := x.page + m } }))) ∧
      (∀ scope, commandRelease s d n scope =
        let ws := withAll die.commandKnown c.known
        if ws = [] then [] else [⟨.commandProcessor d, scope, ws⟩]) ∧
      (c.op = 3 → let id := c.p0 % 2 ^ 16
        let r := (readRec s.rested d id).1
        let t := (readRec s.rested d id).2.rested
        exec (.publishCommand d n) s = if r.invalid = true then ends t 3 else if r.shadow = false then ends t 6
          else if r.ovf = true then ends t 4
          else
            let w := t.byCommand d n (commandRelease t d n (c.p0 / 2 ^ 16 % 8)) false fun u => publishRecord u d id
            ends w.2 (if w.1.toOption.isSome then 0 else 3)) ∧
      (c.op = 4 → let released := fun (f : State → Access Unit) => s.byCommand d n (commandRelease s d n 4) false f
        (c.p2 % 2 = 1 → let w := released fun t => writeElem t d ((span c.p0 8).zip (leBytes 8 c.p1))
          exec (.signalCommand d n) s = ends w.2 (if w.1.toOption.isSome then 0 else 3)) ∧
        (c.p2 % 2 = 0 →
          let request := fun h => CellBody.atomicReq h ((span c.p0 8).map peerOffset) 0 .n64 c.p1 0
          let w := released fun t =>
            let x := atomicElem t d (span c.p0 8) request fun old => (old + c.p1) % 2 ^ 64
            (x.1.map fun _ => (), x.2)
          exec (.signalCommand d n) s = ends w.2 (if w.1.toOption.isSome then 0 else 3))) ∧
      (c.op = 5 → (die.quiesced = true → exec (.waitCommand d n) s = .next s) ∧ (die.quiesced = false →
        let reads := s.byCommand d n [] true fun t => readElem t d (span c.p0 8)
        (∀ e t, reads = (.error e, t) → exec (.waitCommand d n) s = ends t 3) ∧ ∀ bs t, reads = (.ok bs, t) →
          exec (.waitCommand d n) s = if c.p1 ≤ leNat bs then ends t 0 else .next s)) ∧
      (c.op = 6 → (migrateBad s d c = true → c.page = 0 ∨ 65536 * c.page < c.p1 → exec (.migrate d n) s = ends s 5) ∧
        (∀ va, va = (c.p0 + 65536 * c.page) % 2 ^ 56 → (pageInUse die va = true ↔
            (∃ m, die.migrations.find? (va / 65536) = some m ∧ m.valid ≠ BitVec.allOnes 1024) ∨
            ∃ x ∈ die.cmds, ∃ e ∈ x.2.elems, (e.2.state = .waiting ∨ ∃ tags, e.2.state = .sent tags) ∧
              ((∃ a ∈ elemAddrs die x.2.op e.2 ++ laterWrites die x.2.op e.2, a / 65536 = va / 65536) ∨
                ∃ r ∈ laterRecs x.2.op e.2, recOnPage va r = true)) ∧
          let target := s.die c.target
          pageStep s d c = match walk die va with
            | .error e => if e = (6, 0) then .skip else .fault
            | .ok (v, big) => match pageState target va 4 1 target.ptroot with
              | .free a => if c.frame = none ∧ target.ftready = 0 then .fault else .switch (leafOf v big) ((leafOf v big).phys va) a
              | _ => .fault) ∧
        (migrateBad s d c = false → c.p1 ≤ 65536 * c.page → bit 4 c.p2 = false ∨ c.early = true →
          (∀ m ∈ (s.die c.target).migrations, m.2.src = d → m.2.cmd = n → m.2.valid = BitVec.allOnes 1024) →
          exec (.migrate d n) s = ends s 0) ∧
        (migrateBad s d c = false → 65536 * c.page < c.p1 →
          (pageStep s d c = .skip → exec (.migrate d n) s = .next (s.setDie d { die with
            hostCmds := die.hostCmds.modify n fun x => { x with page := x.page + 1 } })) ∧
          (pageStep s d c = .fault → exec (.migrate d n) s = ends s 3) ∧
          ∀ l pa a, pageStep s d c = .switch l pa a →
            exec (.migrate d n) s = .next (match nextPull (s.die c.target) d n with
              | some (page, line) => askLine s c.target d page line
              | none => s) ∧
            (c.frame = none → let target := s.die c.target
              let frame := physWord target (target.ftbase + 8 * target.fthead) / 2 ^ 16 % 2 ^ 36 * 2 ^ 16
              exec (.migrationPageSwitch d n) s = .next ((s.setDie c.target { target with
                fthead := (target.fthead + 1) % 4096, ftready := target.ftready - 1 }).setDie d { die with
                  hostCmds := die.hostCmds.modify n fun x => { x with frame := some frame } })) ∧
            ∀ frame, c.frame = some frame →
            (256 ≤ (openMigrations (s.die c.target)).length ∨ pageInUse die ((c.p0 + 65536 * c.page) % 2 ^ 56) = true →
              exec (.migrationPageSwitch d n) s = .next s) ∧
            ((openMigrations (s.die c.target)).length < 256 →
              pageInUse die ((c.p0 + 65536 * c.page) % 2 ^ 56) = false → s.hasDies = true →
              ∃ t, exec (.migrationPageSwitch d n) s = .next t ∧
                (t.die d).hostCmds = die.hostCmds.modify n (fun x => { x with page := x.page + 1, frame := none }) ∧
                (t.die c.target).ftready = (s.die c.target).ftready ∧
                (∀ p, p ≠ d → p ≠ c.target → { t.die p with groups := (s.die p).groups } = s.die p) ∧
                ((t.die c.target).migrations.find? (((c.p0 + 65536 * c.page) % 2 ^ 56) / 65536)).map
                  (fun m => (m.src, m.cmd, m.oldFrame, m.newFrame, m.oldKey, m.valid)) =
                    some (d, n, pa, frame, l.key, 0))) ∧
        ∃ t, exec (.migrate d n) s = .next t) ∧
      (c.op = 7 → ∃ t, exec (.quiesce d n) s = .next t ∧ (s.hasDies = true → (t.die d).quiesce.isSome = true ∧
        ∀ q, (t.die d).quiesce = some q → n ∈ q.cmds ∧ (die.quiesce = none → q = ⟨bit 0 c.p0, bit 1 c.p0, bit 2 c.p0, [n],
          false⟩)))) ∧
    (∀ page line, line < 1024 → let va := page * 65536 + 64 * line
      (∀ m, die.migrations.find? page = some m → m.valid.getLsbD line = true →
        exec (.migrationLinePulled d page line) s = .next s) ∧
      (die.migrations.find? page = none → exec (.migrationLinePulled d page line) s = .next s) ∧
      ∀ m, die.migrations.find? page = some m → m.valid.getLsbD line = false →
        let src := s.die m.src
        let tag := die.nextId % 2 ^ 32
        ((∀ p ∈ die.pulls, p.2 ≠ (page, line)) → exec (.migrationLinePulled d page line) s = .next
          (if routeDown s d 8 m.src = true ∨ routeDown s m.src 8 d = true then lineArrived s d va true
          else sendCell (s.setDie d { die with nextId := die.nextId + 1, pulls := die.pulls.insert tag (page, line) }) d
            (mkCell d m.src 0 0x04 tag noPayload (.pull page line)))) ∧
        (∀ p ∈ die.pulls, p.2 = (page, line) → (pullAnswer s d va = none →
            exec (.migrationLinePulled d page line) s = .next s) ∧
          ∀ x, pullAnswer s d va = some x → exec (.migrationLinePulled d page line) s = .next
            (if routeRetrains s d 8 m.src = true then { s with crossed := true } else match x with
              | none => lineArrived s d va true
              | some bs => lineArrived (s.setDie d (writeUnder die ((die.keys.find? m.key).getD 0)
                  ((span (m.newFrame + 64 * line) 64).zip bs))) d va false)) ∧
        ∀ poison, let m' := { m with
            valid := m.valid ||| BitVec.ofNat 1024 (2 ^ line)
            poisoned := if poison then m.poisoned ||| BitVec.ofNat 1024 (2 ^ line) else m.poisoned }
          (m'.valid ≠ BitVec.allOnes 1024 → lineArrived s d va poison = s.setDie d { die with
            migrations := die.migrations.insert page m', pulls := die.pulls.filter fun p => p.2 ≠ (page, line) }) ∧
          (m'.valid = BitVec.allOnes 1024 → s.hasDies = true → m.src < 8 → m.src ≠ d →
            let t := lineArrived s d va poison
            (t.die d).pulls = (die.pulls.filter fun p => p.2 ≠ (page, line)) ∧
            (t.die d).tlb = die.tlb.erase page ∧ (t.die d).migrations = (if m'.poisoned = 0 then die.migrations.erase page
              else die.migrations.insert page m') ∧
            (∀ a, lineArrived.walkTable die va = some a →
              physWord (t.die d) a = physWord die a / 2 ^ 50 * 2 ^ 50 + physWord die a % 2 ^ 49) ∧
            (t.die m.src).fttail = (src.fttail + 1) % 4096 ∧
            physWord (t.die m.src) (src.ftbase + 8 * src.fttail) = m.oldFrame / 65536 * 65536 % 2 ^ 64)) ∧
    (∀ q, die.quiesce = some q →
      (q.complete = false → (die.hostCmds.all fun c => quiesceIgnores q c.1 c.2) = true → die.cmds = [] →
        die.remote = [] → die.pulls = [] → (∀ g ∈ die.groups, g.2.state = .saved) →
        ∃ hc, exec (.quiesceComplete d) s = .next (s.setDie d { die with
            hostCmds := hc, quiesced := true, quiesce := some { q with complete := true } }) ∧
          ∀ n, s.hasDies = true → hc.find? n = (die.hostCmds.find? n).map fun x =>
            if n ∈ q.cmds then { x with phase := .finished 0 0 } else x) ∧
      exec (.resume d) s = .next (if die.quiesced = true ∧ q.hold = true ∧ q.offline = false then
        s.setDie d { die with quiesced := false, quiesce := none } else s) ∧
      (die.service = .inService → ∀ room up,
        (q.offline = false ∨ q.complete = false ∨ (∃ n ∈ q.cmds, die.hostCmds.find? n ≠ none) →
          exec (.dieOfflineTransition d room up) s = .next s) ∧
        (q.offline = true → q.complete = true → (∀ n ∈ q.cmds, die.hostCmds.find? n = none) → die.groups = [] →
          exec (.dieOfflineTransition d room up) s =
            .next (s.setDie d { die with offline := true, service := .draining })))) ∧
    ∀ room up, die.service = .draining →
      let moving := (∃ m ∈ die.migrations, m.2.valid ≠ BitVec.allOnes 1024) ∨
        ∃ t < 8, ∃ m ∈ (s.die t).migrations, m.2.valid ≠ BitVec.allOnes 1024 ∧ m.2.src = d
      (moving → exec (.dieOfflineTransition d room up) s = .next s) ∧ (¬ moving →
        (drain s d = none ∨ room = false →
          exec (.dieOfflineTransition d room up) s = .next (if up then s.setDie d { die with service := .retained }
            else
              let t := takeAnswers (s.setDie d { die with service := .poisoned }) d
              failWays { t with links := t.links.map fun l =>
                if l.1 / 32 = d ∨ l.1 % 32 = d then (l.1, { l.2 with off := true }) else l })) ∧
        (∀ t, room = true → s.hasDies = true → drain s d = some t → ∃ u, exec (.dieOfflineTransition d room up) s =
          .next u ∧ (u.die d).service = .evacuated ∧ (u.die d).mem = [] ∧ (u.die d).exports_ = [] ∧
          ∀ l ∈ u.links, l.1 / 32 = d ∨ l.1 % 32 = d → l.2.off = true) ∧
        (let whole := drainWhole die
          let fits := fun (t : Nat) (x : DrainUnit) => t ≠ d ∧ s.hub.ready = true ∧ (s.die t).ready = true ∧
            (s.die t).service = .inService ∧ x.pages.length ≤ (s.die t).ftready ∧ x.slots.length + filledSlots (s.die t) ≤ 4096 ∧
            ∀ va ∈ x.pages, ∃ a, pageState (s.die t) va 4 1 (s.die t).ptroot = .free a
          let others := (List.range 8).filter fun t => decide (t ≠ d) && inService s t
          (∀ t x, dieFits s d x t = true ↔ fits t x) ∧
          (∀ t, moveUnits d [whole] s = some t → drain s d = some t) ∧
          (moveUnits d [whole] s = none → drain s d = moveUnits d (drainUnits die) s) ∧
          moveUnits d [] s = some s ∧ ∀ x xs, moveUnits d (x :: xs) s =
            if ((x :: xs).map (·.pages.length)).sum ≤ (others.map fun t => (s.die t).ftready).sum ∧
                ((x :: xs).map (·.slots.length)).sum ≤ (others.map fun t => 4096 - filledSlots (s.die t)).sum then
              (List.range 8).findSome? fun t => if dieFits s d x t = true then moveUnits d xs (moveUnit d t s x) else none
            else none))

/-! ### The sweep unit and groups -/

/-- R94, R101 to R106, R110 to R114, R161, R190 to R193, R320: the sweep unit. A node opens where its turn has come and
the usage stays within the cap; a placement starts a group on cores that have room for it; the oldest node that 64
later ones have passed stops placement; a group that has ended leaves its die, and its node is DONE where it has no
RESA; one beyond recovery stops, and when it has drained its node is FAILED; a waiting node of higher priority
pre-empts the lowest one; the groups that are pre-empted together are all pre-empted or none, and none while one of them
is being restored; the end of a group is a release of its gangs' writes, and a group's start comes after the ends that it
receives results or a value of; a group whose quads have
all stopped is saved once what no image records has landed, and vectors with RESTORE = 1 when it is placed again.
(Where the spec leaves room, this is the model's reading: log entries 85, 90 to 96, 124, 144 and 145.) -/
def Obligations.SweepSteps : Prop :=
  ∀ (s : State) (d n i : Nat), d < 8 → s.hasDies = true →
    let die := s.die d
    let phase := fun (t : State) (m j : Nat) => ((t.die d).launches.find? m).bind fun l => (l.run.find? j).map (·.phase)
    (∀ l x, die.launches.find? n = some l → l.run.find? i = some x →
      (l.mayOpen i = false ∨ die.quiesced = true → exec (.nodeOpen d n i) s = .next s) ∧
      (l.mayOpen i = true → die.quiesced = false → x.closed = true ∧
        ({ l with run := l.run.insert i { x with phase := .opened } } : Launch).usage ≤ l.cap ∧
        (l.down = false → x.order ≠ [] → exec (.nodeOpen d n i) s = .next (s.setDie d { die with
          launches := die.launches.insert n { l with run := l.run.insert i { x with phase := .opened } } })) ∧
        (l.down = true ∨ x.order = [] → ∃ t, exec (.nodeOpen d n i) s = .next t ∧ (x.node.block ≠ 0 → x.node.pred = 0 →
          (t.die d).launches.find? n ≠ none → phase t n i = some (.ready die.cyc.toNat 0))))) ∧
    (∀ w pl l x, waiterOf die n i = some w → placedNext d die w = true → w.cores = false →
      placement d (roomOf die []) (w.rec_.shape w.down) none = some pl → die.launches.find? n = some l →
      l.run.find? i = some x →
      (∀ y ∈ pl, (roomOf die [] y.1).spad + (w.rec_.shape w.down).bytes ≤ 0x600000) ∧
      ∃ t g, exec (.groupPlacement d n i) s = .next t ∧ (t.die d).group die.nextId = some g ∧
        g.launch = n ∧ g.node = i ∧ g.cores = pl.map (·.1) ∧ g.block = x.node.block ∧ g.state = .running ∧
        g.gangs.length = (x.node.block + 31) / 32 ∧
        ∀ v ∈ g.gangs, v.know = Know.empty.learn 0 ((if l.down then [x.node.parent] else span x.node.first x.node.kids).foldl
          (fun ws j => withAll ws ((l.run.find? j).elim [] (·.known))) l.start)) ∧
    (∀ w ∈ waiters die, 64 ≤ w.passed → die.placeOnly = none → ∃ old ∈ waiters die,
      exec (.placementStarvation d) s = .next (s.setDie d { die with placeOnly := some (old.launch, old.node) }) ∧
      64 ≤ old.passed ∧ ∀ x ∈ waiters die, 64 ≤ x.passed → x.before old = false) ∧
    (∀ w x r p pc t0, waiterOf die n i = some w → 16384 ≤ die.cyc.toNat - w.since → placementHeld die = false →
      fits d die [] w = false →
      let leaving := (die.groups.filter fun e => e.2.pre && !e.2.restore).map (·.1)
      fits d die leaving w = false → fits d die (leaving ++ (lowerGroups die w.prio).map (·.1)) w = true →
      lowerGroups die w.prio = x :: r → die.group x.1 = some x.2 →
      (∀ l, die.launches.find? x.2.launch = some l → l.cores = false) → elementsQuiet die x.1 = true →
      (∃ v ∈ x.2.gangs, v.liveQuads ≠ []) →
      freePslot die = some p → handlerPc s d 0 = (some pc, t0) →
      (∀ y ∈ die.groups, y.2.runs = true → y.2.pre = false → w.prio < y.2.prio →
        y.2.prio < x.2.prio ∨ (y.2.prio = x.2.prio ∧ y.2.placedAt ≤ x.2.placedAt)) ∧
      ∃ t g, exec (.priorityPreemption d n i) s = .next t ∧ (t.die d).group x.1 = some g ∧ g.pre = true ∧
        g.restore = false ∧ g.pslot = p) ∧
    (∀ gids, let gs := gids.filter fun gid => match die.group gid with
        | some g => decide (g.runs = true ∧ g.pre = false ∧ ∃ v ∈ g.gangs, v.liveQuads ≠ [])
        | none => false
      let free := (List.range 256).filter fun p => ∀ y ∈ die.groups, y.2.pre = true ∨ y.2.state = .saved → y.2.pslot ≠ p
      free.length < gs.length ∨ (∃ gid ∈ gs, elementsQuiet die gid = false) ∨ (∃ gid ∈ gids, ∃ g, die.group gid = some g ∧
        g.runs = true ∧ g.pre = true ∧ g.restore = true ∧ ∃ v ∈ g.gangs, v.liveQuads ≠ []) → preemptAll s d gids = s) ∧
    ∀ gid g, die.group gid = some g →
      (g.runs = true → (∀ j < g.gangs.length, gangEnded die g gid j = true) →
        ∃ t, exec (.groupEnd d gid) s = .next t ∧ (t.die d).group gid = none ∧
          (∀ v ∈ g.gangs, ∀ w ∈ v.know.all, w ∈ (t.die d).sweepKnown) ∧
          ∀ l x, die.launches.find? g.launch = some l → l.run.find? g.node = some x → l.down = false → x.node.resa = 0 →
            (t.die d).launches.find? g.launch ≠ none → phase t g.launch g.node = some (.final 1)) ∧
      (∀ cls k, g.loss = some (cls, k) → g.state ≠ .saved →
        let halted := stopCores (discardHeld { die with groups := die.groups.insert gid { g with state := .lost } } gid) gid
        (groupDrained halted gid = false → ∃ t, exec (.faultBeyondRecovery d gid) s = .next t ∧
          (t.die d).group gid = some { g with state := .lost } ∧ ∀ m, gid ∉ ((t.die d).core m).waiters.map (·.1)) ∧
        (groupDrained halted gid = true → ∃ t, exec (.faultBeyondRecovery d gid) s = .next t ∧
          (t.die d).group gid = none ∧ (∀ m, ((t.die d).core m).ownedBy gid = false) ∧
          (∀ v ∈ g.gangs, ∀ w ∈ v.know.all, w ∈ (t.die d).sweepKnown) ∧
          ∀ l x, die.launches.find? g.launch = some l → l.run.find? g.node = some x → l.down = false →
            (t.die d).launches.find? g.launch ≠ none → phase t g.launch g.node = some (.final 4))) ∧
      (g.runs = true → g.pre = true → g.restore = false → g.allStopped = true → (∃ v ∈ g.gangs, v.liveQuads ≠ []) →
        (∀ c ∈ die.cmds, c.2.gid = gid → c.2.pre = false) →
        (∀ j < g.gangs.length, (g.gang j).liveQuads = [] → gangEnded die g gid j = true) →
        ∃ t g', exec (.groupSaved d gid) s = .next t ∧ (t.die d).group gid = some g' ∧ g'.state = .saved ∧
          g'.pre = false ∧ g'.cores = [] ∧ g'.pslot = g.pslot ∧ (∀ m, ((t.die d).core m).ownedBy gid = false) ∧
          ∀ c ∈ (t.die d).cmds, c.2.gid ≠ gid) ∧
      ∀ pl, savedFits d die g = true → (∀ w ∈ waiters die, w.passed < 64) → savedPlacement d die g = some pl →
        let again := s.setDie d { die with
          groups := die.groups.insert gid (g.placedAgain die.nextId pl), nextId := die.nextId + 1 }
        ∀ pc t0, handlerPc again d 0 = (some pc, t0) → ∃ t g', exec (.savedGroupPlacement d gid) s = .next t ∧
          (t.die d).group gid = some g' ∧ g'.pre = true ∧ g'.restore = true ∧ g'.pslot = g.pslot ∧
          g'.cores = pl.map (·.1) ∧ ∀ k ∈ g'.gangs, ∀ q ∈ k.liveQuads, (k.quad q).pc = pc ∧ (k.quad q).sup = true

/-! ### Gangs, engines and the join engine -/

/-- R65, R71, R89, R129, R133, R138, R160, R168, R176, R184, R187, R189, R248, R254, R255, R283, R292: the steps of
gangs and engines outside an instruction. Quads vector at a convergence point, for a page that is not present, and
after 256 stalled cycles. Elements are performed at memory, level by level, or faulted or held, or go out as request
cells: a copy, gather, scatter, atomic, publish, signal and launch each as its rule says, and a collective takes the
reduction or the data of the ring of its participants, all of which fault where two disagree. A command completes when
it is the oldest of its class and its elements are; a `sigwait` ends when its element suffices. Queue entries of the
join engine execute up to the next boundary: a k-block of `jmm` or `jmms`, a pair of `jstream` in stream order, a lane
of `cacc`, a place of `cdrain` in ascending key or index; batches complete, the engine freezes and is granted; and
`bar`, `gsync` and `regang` let their quads go on, `bar`, the grant, an acquiring atomic and a collective as acquires,
after which code is fetched as the releases they take cover it. A result that was late lands in its register and, where
it is a last result, in the place to which later instructions have shifted it. (Where the spec leaves room, this is the
model's reading: log entries 6, 43, 49, 53 to 58, 60, 62, 73, 74, 76, 78, 117, 120, 124, 129 to 131 and 133.) -/
def Obligations.GangAndEngineSteps : Prop :=
  (∀ (c : Cx) (wide : Bool) (r : Reg) (marks : FMap Nat) (m : Word) (f : Nat → DWord), (marks.map (·.1)).Nodup →
    let b := ({ c with nh := true } : Cx).resultTy wide r m f
    let e := c.land wide r marks m f
    let all := fun l => (match r with
      | .s _ | .hs _ => true
      | _ => inMask m l) = true
    e = { b with k := { b.k with lanes := e.k.lanes } } ∧
    (∀ code, code < 624 ∨ 640 ≤ code → FMap.get zeroRow e.k.lanes code = FMap.get zeroRow b.k.lanes code) ∧
    ∀ i < 16, ∀ l < 32, (e.row (624 + i)).lane l = match marks.find? (l / 4) with
      | some mark =>
        let j := FMap.get 0 c.k.shifts (l / 4) - mark
        if all l ∧ j = i then (f l >>> (if wide then 32 else 0)).setWidth 32
        else if all l ∧ wide = true ∧ j + 1 = i then (f l).setWidth 32 else (b.row (624 + i)).lane l
      | none => (b.row (624 + i)).lane l) ∧
  ∀ (s : State) (d gid k q : Nat) (g : Group), d < 8 → s.hasDies = true → (s.die d).group gid = some g →
    let die := s.die d
    let u := (g.gang k).quad q
    let at_ := fun (t : State) (j p : Nat) => quadIn t ⟨d, gid, j, 0⟩ p
    let trapped := fun (v : Quad) (cls pc : Nat) => { u with
      epc := u.pc, emask := u.lmask, eflt := v.eflt, lmask := v.eflt, edepth := u.stack.length, eclass := cls, sup := true
      pc := pc, sgt := q, atRegang := false, poolWait := false, barArrived := false, gsyncArrived := false, sigw := none
      atMacq := false }
    (∀ op ops h c cls m pc s', nextInstr s ⟨d, gid, k, u.sgt⟩ = some (op, ops, h, c) →
      parkedClass (g.gang k) q = some (cls, m) → g.runs = true → u.sup = false → u.exited = false → u.park ≠ 0 →
      (c.blocked = false ∨ u.atRegang = true) → op ∈ convergenceOps → handlerPc s d cls = (some pc, s') →
      ∃ t, exec (.faultVector d gid k q) s = .next t ∧ at_ t k q = trapped (at_ t k q) cls pc ∧ (at_ t k q).eflt = m) ∧
    (∀ x xs pc s', heldOf die gid k q = x :: xs → g.runs = true → u.sup = false → u.exited = false → u.stopped = false →
      u.poolWait = false ∨ die.ftready ≠ 0 → q < (g.gang k).quads.length → handlerPc s d 6 = (some pc, s') →
      ∃ t, exec (.pageFaultVector d gid k q) s = .next t ∧ at_ t k q = trapped (at_ t k q) 6 pc ∧
        (∀ b < 4, (at_ t k q).eflt.getLsbD b = true ↔ ∃ y ∈ x :: xs, y.2.2.lane % 4 = b)) ∧
    (256 ≤ g.stalled → deadlocked s d gid g = true → ∃ t, exec (.portDeadlock d gid) s = .next t ∧
      ∀ gang tag op ops h c, g.gangs = [gang] → gang.tags = [tag] →
        nextInstr (s.setDie d { die with groups := die.groups.insert gid { g with stalled := 0 } }) ⟨d, gid, 0, tag⟩ =
          some (op, ops, h, c) →
        t = (settle { c with out := c.qs.map fun p => (p, .trap 10 0 0) }).close) ∧
    (∀ n cmd e el, die.cmds.find? n = some cmd → cmd.elems.find? e = some el → el.state = .waiting →
      let does := exec (.engineElementPerformed d n e) s
      let know := (cmdGang s d cmd).know
      let acts := fun (ws : List Nat) => s.acting ((know.learn cmd.issue ws).releases (.gang d cmd.gid cmd.gang) cmd.issue
        (if cmd.release = true ∧ cmd.isColl = false then some cmd.scope else none))
      let s1 := acts (if cmd.acquires = true ∧ cmd.release = true then
        acquired (performElem (acts []) d n e cmd el).trace.saw (.gang d cmd.gid cmd.gang) cmd.scope else [])
      let becomes := fun (t : State) => Host.Outcome.next (φ := Fault) (ρ := Refusal) (t.credit d n cmd)
      let with_ := fun (t : State) (x : Elem) => t.setDie d { t.die d with
        cmds := (t.die d).cmds.modify n fun c => { c with elems := c.elems.insert e x } }
      let put := fun (t : State) (x : Elem) => becomes (with_ t x)
      let putFlag := fun (t : Die) (b : Bool) => { t with cmds := t.cmds.modify n fun c => { c with
        flag := b, elems := c.elems.insert e { el with state := .performed } } }
      let as := elemAddrs die cmd.op el
      let rid := elemRecord cmd.op el
      let record := fun (cause : Cause) (addr loc : Nat) =>
        (⟨cause.1, cause.2, cmd.gang, el.lane, cmd.opc, cmd.pc, addr, loc, BitVec.ofNat 32 el.issued⟩ : FaultRec)
      let faulted := fun (cause : Cause) (addr loc : Nat) => { el with state := .faulted (record cause addr loc) }
      let fails := fun (x : Cause × Nat) (t : State) =>
        (x.1.1 ≠ 6 → does = put t (faulted x.1 (x.2 / 64 * 64) rid)) ∧
        (x.1.1 = 6 → cmd.sup = false → (cmdGang t d cmd).goneQuad (el.lane / 4) = false →
          does = put t { el with state := .held (x.2 / 64 * 64) false }) ∧
        (x.1.1 = 6 → cmd.sup = true ∨ (cmdGang t d cmd).goneQuad (el.lane / 4) = true →
          does = becomes ((with_ t { el with state := .held (x.2 / 64 * 64) false }).onGang d cmd.gid cmd.gang fun v =>
            (v.putRecord el.lane (record x.1 (x.2 / 64 * 64) rid)).loseAt 6 cmd.issue))
      let reads := fun (after : List Byte → Elem) => (∀ bs t, readElem s1 d as = (.ok bs, t) → does = put t (after bs)) ∧
        ∀ x t, readElem s1 d as = (.error x, t) → fails x t
      let writes := fun (ro : Bool) => (ro = true → does = put s1 (faulted (7, 5) (as.headD 0 / 64 * 64) rid)) ∧
        (ro = false → (∀ t, writeElem s1 d (as.zip el.data) = (.ok (), t) → does = put t { el with state := .performed }) ∧
          ∀ x t, writeElem s1 d (as.zip el.data) = (.error x, t) → fails x t)
      let atomic := fun (ro : Bool) (bytes : Nat) (f : Nat → Nat) =>
        (ro = true → does = put s1 (faulted (7, 5) ((as.take bytes).headD 0 / 64 * 64) rid)) ∧
        (ro = false → ∀ request, (∀ old t, atomicElem s1 d (as.take bytes) request f = (.ok old, t) →
            does = put t { el with old := old, state := .performed }) ∧
          ∀ x t, atomicElem s1 d (as.take bytes) request f = (.error x, t) → fails x t)
      let next := fun (ids : List Nat) (rs : List Rec) (bs : List Byte) =>
        let j := leNat bs
        if (rs.getD (el.level - 1) (recOf [])).extent ≤ j then faulted (5, 1) j (ids.getD (el.level - 1) noLoc)
        else { el with idx := j, level := el.level - 1, state := .waiting }
      let ended := ((cmdGang s d cmd).quad (el.lane / 4)).ended.getLsbD (el.lane % 4)
      (∃ t, does = .next t) ∧ (ended = true → does = .next (with_ s { el with state := .faulted FaultRec.none })) ∧
      (ended = false → mayPerform s d n e cmd el = false → does = .next s) ∧
      (ended = false → mayPerform s d n e cmd el = true →
        ((∀ a ∈ as, a < 0xFF000000000000) →
          (∀ r x w, cmd.op = .copyIn r x w → reads fun bs => { el with data := bs, state := .performed }) ∧
          (∀ r x, cmd.op = .copyOut r x → writes x.ro) ∧
          (∀ dr x sr y, cmd.op = .copyDd dr x sr y →
            (el.level = 0 → reads fun bs => { el with data := bs, level := 1 }) ∧ (el.level = 1 → writes x.ro)) ∧
          (∀ ids rs w, cmd.op = .gath ids rs w → reads fun bs =>
            if el.level = 0 then { el with data := bs, state := .performed } else next ids rs bs) ∧
          (∀ ids rs, cmd.op = .scat ids rs → (el.level ≠ 0 → reads (next ids rs)) ∧
            (el.level = 0 → writes (rs.getD 0 (recOf [])).ro)) ∧
          (∀ r x op ty ord, cmd.op = .ratom r x op ty ord → atomic x.ro (ty.width / 8) fun old =>
            (atomStep ty op (BitVec.ofNat 64 old) (BitVec.ofNat 64 (leNat el.data)) (BitVec.ofNat 64 el.compare)).toNat) ∧
          (∀ r x v, cmd.op = .sigadd r x v → atomic x.ro 8 fun old => (old + v) % 2 ^ 64) ∧
          (∀ r x q, cmd.op = .launch r x q → el.level = 0 → reads fun bs => { el with data := bs, level := 1 }) ∧
          ∀ dr x sr y cd ty, cmd.op = .coll dr x sr y cd ty →
            (el.level = 0 → reads fun bs => { el with data := bs, level := 1 }) ∧ (el.level = 2 → writes x.ro)) ∧
        (∀ core size w, cmd.op = .copyXc core size w → does = put s1 { el with state := .performed }) ∧
        (∀ r, cmd.op = .publish r → (∀ x t, publishRecord s1 d r = (.error x, t) → fails x t) ∧
          ∀ b t, publishRecord s1 d r = (.ok b, t) → does = becomes (t.setDie d (putFlag (t.die d) b))) ∧
        (∀ r x qn, cmd.op = .launch r x qn → el.level = 1 ∨ el.level = 2 → let q := die.queue qn
          let full := 2 ^ q.log ≤ (q.resv + 2 ^ 32 - q.head) % 2 ^ 32
          let refused := el.level = 1 ∧ (63 < qn ∨ q.en = false ∨ q.qerr ≠ 0)
          (refused → does = becomes (s1.setDie d (putFlag die false))) ∧
          (¬ refused → full → does = if el.level = 1 then put s1 { el with level := 2 } else becomes s1) ∧
          (¬ refused → ¬ full → let slot := span (q.qbase + 64 * (q.resv % 2 ^ q.log)) 64
            (∀ x t, writeElem s1 d (slot.zip el.data) = (.error x, t) → fails x t) ∧
            ∀ t, writeElem s1 d (slot.zip el.data) = (.ok (), t) → q.committed = [] → let r' := (q.resv + 1) % 2 ^ 32
              does = becomes (t.setDie d (putFlag { t.die d with queues := FMap.set Queue.empty (t.die d).queues qn { q with
                resv := r', shared := true
                told := q.told.insert q.resv (acquired t.trace.releases (.commandProcessor d) 2)
                tail := if q.resv = q.tail then r' else q.tail
                committed := if q.resv = q.tail then [] else [q.resv] } } true)))) ∧
        (∀ dr x sr y cd ty c, cmd.op = .coll dr x sr y cd ty → el.level = 1 →
          (collsOpen s1 d).find? (fun z => z.cid = n) = some c →
          let all := fun (ring : List CollCmd) (f : CollCmd → Elem) => ∃ t, does = .next t ∧
            ∀ z ∈ ring, ((t.die z.dn).cmds.find? z.cid).bind (fun c => c.elems.find? z.e.lane) = some (f z)
          (∀ z : CollCmd, z.fault s1 = match (importHandle s1 z.dn z.d.next).1 with
            | .error e => some e.1
            | .ok h => match wayFault s1 z.dn h with
              | some e => some e
              | none => if elsewhere h then none else match exporterCheck (s1.die (handleDie h)) h 0 65536 .write with
                | .error e => some e
                | .ok _ => none) ∧
          (∀ x, c.fault s1 = some x → all [c] fun z => { z.e with state := .faulted ⟨x.1, x.2, z.cmd.gang, z.e.lane,
            z.cmd.opc, z.cmd.pc, 0xFF000000000000 + z.d.next * 2 ^ 38, noLoc, BitVec.ofNat 32 z.e.issued⟩ }) ∧
          (c.fault s1 = none → collRing s1 c 4096 c [] = none → does = becomes s1) ∧
          ∀ ring closed, c.fault s1 = none → collRing s1 c 4096 c [] = some (ring, closed) →
            let cut := ring.any (CollCmd.held s1) || ring.any fun z => (z.fault s1).isSome
            (cut = true → does = becomes s1) ∧ (cut = false →
            let pairs := ring.zip (ring.drop 1 ++ ring.take 1)
            let agree := closed = true ∧ ∀ p ∈ pairs, p.1.agrees p.2 = true
            let ready := ∀ z ∈ ring, z.e.level = 1 ∧ z.e.state = .waiting
            (¬ agree → (∀ p < 8, ((s.die p).cmds.map (·.1)).Nodup) → all (collReached s1 ring) fun z =>
              { z.e with state := .faulted ⟨5, 2, z.cmd.gang, z.e.lane, z.cmd.opc, z.cmd.pc, 0,
              elemRecord z.cmd.op { z.e with level := 2 }, BitVec.ofNat 32 z.e.issued⟩ }) ∧
            (agree → ready → let sorted := (List.range c.d.np).filterMap fun r => ring.find? fun z => z.d.rank = r
              let sum := fun (z : CollCmd) (i : Nat) => match sorted with
                | [] => 0
                | a :: r => r.foldl (fun v b => collStep z.ty z.d.op v (b.elem i)) (a.elem i)
              all ring fun z =>
                let words := fun (o : Nat) => (List.range z.n).flatMap fun i => leBytes z.dr.size (sum z (o + i))
                let data := if z.d.kind = 0 then words 0 else if z.d.kind = 1 then words (z.d.rank * z.n)
                  else if z.d.kind = 2 then sorted.flatMap (fun b => b.e.data) else (sorted.map (·.e.data)).headD []
                { z.e with level := 2, data := data }) ∧
            (agree → ready → ∃ t, does = .next t ∧ ∀ z ∈ ring, ((t.die z.dn).cmds.find? z.cid).map (·.seen.ring) =
              some (ring.map fun y => ⟨.gang y.dn y.cmd.gid y.cmd.gang, y.cmd.scope,
                (groupGang s y.dn y.cmd.gid y.cmd.gang).know.before y.cmd.issue⟩)) ∧
            (agree → ¬ ready → does = becomes s1))) ∧
        (∀ (ro : Bool) (bytes cells : Nat), ((∃ r x w, cmd.op = .copyIn r x w ∧ ro = false ∧ bytes = as.length) ∨
            (∃ r x, cmd.op = .copyOut r x ∧ ro = x.ro ∧ bytes = as.length) ∨
            ∃ r x op ty ord, cmd.op = .ratom r x op ty ord ∧ ro = x.ro ∧ bytes = ty.width / 8) → ro = false →
          cells = (if bytes = as.length ∧ cmd.op.isAtomic = false then (lineChunks as).length else 1) →
          oneImport (as.take bytes) = true → ∀ h t, openImport s1 d (as.headD 0) = (.ok h, t) →
          ∃ u tags, does = .next u ∧ tags.length = cells ∧
            ((∃ r x w, cmd.op = .copyIn r x w) → u.peerKnown = s.peerKnown) ∧
            ((∀ r x w, cmd.op ≠ .copyIn r x w) → u.peerKnown = if elsewhere h = true then
              withAll s.peerKnown (acquired s1.trace.releases .peer 4) else s.peerKnown) ∧
            ((u.die d).cmds.find? n).bind (fun c => (c.elems.find? e).map (·.state)) = some (.sent tags)))) ∧
    (∀ n cmd, die.cmds.find? n = some cmd → oldest die cmd = true → heldBack s d cmd = false →
      (∀ x ∈ cmd.elems, x.2.pending = false) → ∃ t, exec (.engineCommandCompletion d n) s = .next t ∧
        (t.die d).cmds = die.cmds.erase n ∧ (cmd.gid = gid → cmd.gang < g.gangs.length →
          let v := gangIn t ⟨d, gid, cmd.gang, 0⟩
          v.c = (g.gang cmd.gang).c - (if cmd.isA then 0 else 1) ∧ v.a = (g.gang cmd.gang).a - (if cmd.isA then 1 else 0) ∧
          (cmd.dest = none → v.lanes = (g.gang cmd.gang).lanes ∧ v.preds = (g.gang cmd.gang).preds) ∧
          let who := Agent.gang d gid cmd.gang
          let got := if cmd.acquires = true then acquired cmd.seen.reads who cmd.scope else []
          v.know = (((g.gang cmd.gang).know.observe cmd.seen.reads).learn cmd.issue got).leave
            ⟨if cmd.isA then 1 else 0, cmd.ord, cmd.seen.own, acquired cmd.seen.ring who cmd.scope⟩ ∧
          ∀ g', (t.die d).group gid = some g' → g'.code = (g.acquire got).code ∧
            (∀ code, cmd.dest = some code →
              let c : Cx := {
                s := s, dn := d, gid := gid, gi := cmd.gang, sgt := 0, grp := g, k := g.gang cmd.gang
                qs := (List.range 8).filter fun p => quadBits cmd.lanes p ≠ 0, sup := cmd.sup, pc := cmd.pc, op := cmd.opc
                nh := true, act := cmd.lanes, em := cmd.lanes, helpers := helperMask g.block cmd.gang, pops := [], out := []
                parks := [] }
              let done := maskOf fun l => decide ((cmd.elems.find? l).map (·.state) = some .performed)
              let old := fun (l : Nat) => BitVec.ofNat 64 (((cmd.elems.find? l).map (·.old)).getD 0)
              let x := match regOf code with
                | .p m => c.land false (.p m) cmd.marks (if ∃ y ∈ cmd.elems, y.2.state ≠ ElemState.performed then 0 else cmd.lanes)
                    fun _ => if cmd.flag then 1 else 0
                | r => c.land cmd.wide r cmd.marks done old
              v.lanes = x.k.lanes ∧ v.scal = x.k.scal ∧ v.preds = x.k.preds ∧
                ∀ j, (g'.home j).g = (x.grp.home j).g ∧ (g'.home j).gPend = (x.grp.home j).gPend) ∧
            ∀ core size w, (cmd.dest = none ∧ ((∃ r x, cmd.op = .copyIn r x w ∧ size = x.size ∧ core = (g.gang cmd.gang).core) ∨
                (∃ ids rs, cmd.op = .gath ids rs w ∧ size = (rs.getD 0 (recOf [])).size ∧ core = (g.gang cmd.gang).core) ∨
                cmd.op = .copyXc core size w)) → core < g.homes.length →
              (g'.home core).area = (g.home core).area.writeAll (cmd.elems.flatMap fun x =>
                if x.2.state = .performed then (w.bytes x.2.off size).zip x.2.data else []))) ∧
    (∀ w, u.sigw = some w → w.met = false →
      (∀ e t, readElem s.rested d (w.snap.frontAddrs w.elem) = (.error e, t) →
        ∃ t', exec (.sigwaitReread d gid k q) s = .next t' ∧ at_ t' k q = { u with sigw := none }) ∧
      ∀ bs t, readElem s.rested d (w.snap.frontAddrs w.elem) = (.ok bs, t) →
        (leNat bs < w.target → exec (.sigwaitReread d gid k q) s = .next s) ∧
        (w.target ≤ leNat bs → ∃ t', exec (.sigwaitReread d gid k q) s = .next t' ∧
          at_ t' k q = { u with sigw := some { w with met := true, saw := t.trace.saw } })) ∧
    (∀ n, let c := die.core n
      let becomes := fun (c' : Core) =>
        Host.Outcome.next (φ := Fault) (ρ := Refusal) (s.setDie d { die with cores := FMap.set Core.empty die.cores n c' })
      (∀ e r, c.owner = some (gid, k) → c.queue = e :: r → (c.frozen || c.freezeAsked) = false → (g.gang k).liveQuads ≠ [] →
        let left := { c with queue := r, jstep := ⟨(c.jstep.slot + 1) % 16, 0, 0, 0⟩ }
        let at_ : JAt := ⟨d, n, gid, k⟩
        let own := (gid, k)
        let ran := fun (c' : Core) => Host.Outcome.next (φ := Fault) (ρ := Refusal)
          (s.setDie d { die with cores := FMap.set Core.empty die.cores n c' }).rested
        let s1 := s.acting ((g.gang k).know.releases (.gang d gid k) e.issue none)
        let run := runEntry at_ s1 e
        let back := fun (t : State) => (t.onGang d gid k fun v => { v with
          know := (v.know.observe t.trace.saw).leave ⟨2, e.batch, t.written, []⟩ }).rested
        let on := fun (t : State) (f : Core → Core) => t.setDie d ((t.die d).setCore n (f ((t.die d).core n)))
        let leave := fun (t : State) => on t fun c => { c with queue := r, jstep := ⟨(c.jstep.slot + 1) % 16, 0, 0, 0⟩ }
        (∃ t, exec (.joinEntryExecute d n) s = .next t) ∧
        (at_.waits s run.1 e = true → exec (.joinEntryExecute d n) s = .next s) ∧
        (at_.waits s run.1 e = true ↔ (∃ p < 8, (s.die p).accesses ≠ (run.1.die p).accesses) ∧
          joinWaits s d gid k e (joinReach s d c.session e) = true) ∧
        (at_.waits s run.1 e = false →
          (run.2 = .more → exec (.joinEntryExecute d n) s = .next (back run.1)) ∧
          (run.2 = .done → exec (.joinEntryExecute d n) s = .next (implicitRelease (leave (back run.1)) d n)) ∧
          (run.2 = .misuse →
            exec (.joinEntryExecute d n) s = .next (implicitRelease (entryTrap at_ (leave (back run.1)) e) d n))) ∧
        (∀ i, e.op = .tzero i → exec (.joinEntryExecute d n) s = ran { left with
          tiles := FMap.set Tile.empty c.tiles i ⟨[], 0x3F800000, true, true⟩ }) ∧
        (∀ annex block acc pm1 wm1, e.op = .copen annex block acc pm1 wm1 →
          exec (.joinEntryExecute d n) s = ran { left with
            session := ⟨true, block, acc, pm1, wm1, false, annex, 0⟩, cflags := 0, spill := 0, lost := 0 }) ∧
        (∀ a b i0 j0 ab bb af bf acc kp, e.op = .jmms a b i0 j0 ab bb af bf acc kp ∨
            (e.op = .jmm a b i0 j0 af bf acc kp ∧ ab = 2 ^ 48 - 1 ∧ bb = 2 ^ 32 - 1) →
          let f : JFmt := ⟨tyOf af, tyOf bf, acc, kp⟩
          let both := fun (kb i : Nat) => bit (8 * (i / 4) + kb) ab && bit (4 * kb + i % 4) bb
          ∃ st : Nat → State, st 0 = s1 ∧ (∀ i < 24, st (i + 1) = if c.jstep.kb = 0 then beginTray (st i) d n own e i
              ((i0 + i / 4) % 2 ^ 32 * 2 ^ 32 + (j0 + i % 4) % 2 ^ 32) else st i) ∧
            match (List.range (if twoSlots f.af then 4 else 8)).filter fun kb =>
              decide (c.jstep.kb ≤ kb) && (List.range 24).any (both kb) with
            | [] => run = (st 24, .done)
            | kb :: more => ∃ c', run = (on (st 24) fun _ => c', if more = [] then .done else .more) ∧
              let c0 := ((st 24).die d).core n
              let res := fun (i : Nat) => stepTray f (c0.tile a) (c0.tile b) (i / 4) (i % 4) kb (c0.tray i)
              c' = { c0 with trays := c'.trays, cflags := c'.cflags, jstep := { c0.jstep with kb := kb + 1 } } ∧
              (∀ i < 24, c'.tray i = if both kb i then (res i).1 else c0.tray i) ∧
              ∀ m < 5, c'.cflags.getLsbD m = true ↔
                c0.cflags.getLsbD m = true ∨ ∃ i < 24, both kb i = true ∧ (res i).2.getLsbD m = true) ∧
        (∀ w na nb ta tb, e.op = .jstream w na nb ta tb →
          let ka := fun (i : Nat) => ((ta.getD i []).getD 1 0).toNat
          let kb := fun (i : Nat) => ((tb.getD i []).getD 0 0).toNat
          let fall := fun (k : Nat → Nat) (n i : Nat) => i + 1 < n ∧ k (i + 1) < k i
          let seek := fun (x y : Nat) => seekPair ta tb na nb (na + nb + 1) x y
          let unsorted := fun (t : State) => on t fun c => { c with session := { c.session with order := true } }
          (∀ x y, x ≤ na → y ≤ nb → seek x y = if na ≤ x ∨ nb ≤ y then .ended
            else if ka x < kb y then (if fall ka na x then .fall else seek (x + 1) y)
            else if kb y < ka x then (if fall kb nb y then .fall else seek x (y + 1)) else .pair x y) ∧
          (seek c.jstep.apos c.jstep.bpos = .ended → run = (s1, .done)) ∧
          (seek c.jstep.apos c.jstep.bpos = .fall → run = (unsorted s1, .done)) ∧
          ∀ x y, seek c.jstep.apos c.jstep.bpos = .pair x y →
            let a := ta.getD x []
            let b := tb.getD y []
            let ps := (List.range w).map fun m => if c.session.acc = 0 then
                match exactMul (fval f32 (a.getD 2 0).toNat) (fval f32 (b.getD (2 + m) 0).toNat) with
                | some v => (Fed.exactF v, (0 : BitVec 6))
                | none => (.exactF (.nan false), flagI)
              else (.exactI ((a.getD 2 0).toInt * (b.getD (2 + m) 0).toInt), 0)
            let t := accumulate (on s1 fun c => { c with cflags := c.cflags |||
                (ps.foldl (fun v p => v ||| p.2) (0 : BitVec 6)).setWidth 5 }) d n own e e.lane
              ((a.getD 0 0).toNat * 2 ^ 32 + (b.getD 1 0).toNat) (ps.map (·.1))
            let go := fun (x y : Nat) => (on t fun c => { c with jstep := { c.jstep with apos := x, bpos := y } }, JDone.more)
            (y + 1 < nb → kb (y + 1) = kb y → run = go x (y + 1)) ∧
            (¬ (y + 1 < nb ∧ kb (y + 1) = kb y) → x + 1 < na → ka (x + 1) = ka x → ∀ y0 ≤ y,
              (∀ z, y0 ≤ z → z ≤ y → kb z = kb y) → (y0 = 0 ∨ kb (y0 - 1) ≠ kb y0) → run = go (x + 1) y0) ∧
            (¬ (y + 1 < nb ∧ kb (y + 1) = kb y) → ¬ (x + 1 < na ∧ ka (x + 1) = ka x) →
              run = if fall ka na x ∨ fall kb nb y then (unsorted t, .done) else go (x + 1) (y + 1))) ∧
        (∀ w tuples, e.op = .cacc w tuples → match tuples.filter fun t => decide (c.jstep.bpos ≤ t.1) with
          | [] => run = (s1, .done)
          | (l, key, ws) :: more => run = (on (accumulate s1 d n own e l key (ws.map Fed.word)) fun c =>
              { c with jstep := { c.jstep with bpos := l + 1 } }, if more = [] then .done else .more)) ∧
        (∀ byIndex record w off, e.op = .cdrain byIndex record w off → (c.drawers.map (·.1)).Pairwise (· < ·) →
          let size := if c.session.block then 32 else 1
          let first := fun (p : Nat) => c.drawers.find? (size * p)
          let finish := fun (t : State) =>
            (at_.land t e fun _ => BitVec.ofNat 64 ((t.die d).core n).jstep.apos, JDone.done)
          ((∀ p, first p = none) → run = finish s1) ∧
          ∀ p x, first p = some x → (∀ p' y, first p' = some y → if byIndex then p ≤ p' else
              x.key < y.key ∨ (x.key = y.key ∧ p ≤ p')) →
            let images := (List.range size).map fun i => match c.drawers.find? (size * p + i) with
              | some y => imageBytes y.key y.words (size * p + i)
              | none => imageBytes 0 [] (size * p + i)
            let emptied := fun (t : State) => ∃ c', run = (on t fun _ => c', .more) ∧
              let c0 := (t.die d).core n
              c' = { c0 with drawers := c'.drawers, session := { c0.session with occ := c0.session.occ - size },
                             jstep := { c0.jstep with apos := c0.jstep.apos + size } } ∧
              ∀ i, c'.drawers.find? i = if size * p ≤ i ∧ i < size * p + size then none else c0.drawers.find? i
            (∀ rid r', record = some (rid, r') → let out := compressedOut s1 d own e e.lane rid (some r') images
              if out.2 then emptied out.1 else run = finish out.1) ∧
            (record = none → let place := off + 64 * c.jstep.apos
              if w.extent < place + 64 * size then run = finish s1 else emptied (at_.store s1 w place images.flatten))) ∧
        (e.op = .jbatch → run = (retireAll s1 d n own e, .done)) ∧
        (e.op = .cclose → run = (on (retireAll s1 d n own e) fun c =>
          { c with drawers := [], session := { c.session with isOpen := false, occ := 0 } }, .done)) ∧
        (∀ w off bs, at_.store s1 w off bs =
          (s1.noteWritten (.area d gid (g.gang k).core) (w.bytes off bs.length)).setDie d { die with
          groups := die.groups.modify gid fun g => g.onHome (g.gang k).core fun h =>
            { h with area := h.area.writeAll ((w.bytes off bs.length).zip bs) } }) ∧
        (∀ f, (e.dest = none → at_.land s1 e f = s1) ∧ ∀ code, e.dest = some code → at_.land s1 e f = (({
            s := s1, dn := d, gid := gid, gi := k, sgt := 0, grp := g, k := g.gang k
            qs := (List.range 8).filter fun p => quadBits e.lanes p ≠ 0, sup := e.sup, pc := e.pc, op := e.opc, nh := true
            act := e.lanes, em := e.lanes, helpers := helperMask g.block k, pops := [], out := []
            parks := [] } : Cx).land e.op.wide (regOf code) e.marks e.lanes f).close) ∧
        (∀ i data hdr scale, e.op = .tfill i data hdr scale →
          let h := leNat ((span 12288 8).map (Memory.read data))
          let bad := h / 2 ^ 2 % 2 ^ 30 ≠ 0 ∨ h % 2 = 0 ∨ ∃ x ∈ data, 12296 ≤ x.1
          run = if hdr = true ∧ bad then (s1, .misuse)
            else (on s1 fun c => { c with tiles := FMap.set Tile.empty c.tiles i ⟨data.filter fun x => x.1 < 12288,
              if hdr then BitVec.ofNat 32 (h / 2 ^ 32) else scale.getD 0x3F800000, !hdr || bit 1 h, true⟩ }, .done)) ∧
        (∀ i w off hdr, e.op = .tstore i w off hdr → let x := c.tile i
          let line := if hdr then
              leBytes 8 (x.scale.toNat * 2 ^ 32 + x.dirty.toNat * 2 + x.inuse.toNat) ++ List.replicate 56 0 else []
          run = (on (at_.store s1 w off ((List.range 12288).map (Memory.read x.bytes) ++ line)) fun c =>
            { c with tiles := FMap.set Tile.empty c.tiles i { x with dirty := false } }, .done)) ∧
        (∀ w off, e.op = .tsave w off → run = (at_.store s1 w off ((List.range 24).flatMap fun i =>
          let t := c.tray i
          ((List.range 256).flatMap fun m => leBytes 4 (FMap.get 0 t.words m).toNat) ++ leBytes 8 t.key ++
            [BitVec.ofNat 8 t.prod.toNat] ++ List.replicate 55 0), .done)) ∧
        (∀ data, e.op = .tload data →
          let b := fun (i o m : Nat) => leNat ((span (1088 * i + o) m).map (Memory.read data))
          let bad := ∃ i < 24, 1 < b i 1032 1 ∨ b i 1033 55 ≠ 0
          (bad → run = (s1, .misuse)) ∧ (¬ bad → ∃ c', run = (on s1 fun _ => c', .done) ∧ c' = { c with trays := c'.trays } ∧
            ∀ i < 24, (c'.tray i).key = b i 1024 8 ∧ (c'.tray i).prod = decide (b i 1032 1 = 1) ∧
              ∀ m < 256, FMap.get 0 (c'.tray i).words m = BitVec.ofNat 32 (b i (4 * m) 4))) ∧
        (let stat := c.session.isOpen.toNat * 2 ^ 63 + c.session.block.toNat * 2 ^ 62 + c.session.acc * 2 ^ 60 +
            c.session.pm1 * 2 ^ 56 + c.session.wm1 * 2 ^ 53 + c.session.order.toNat * 2 ^ 52 + c.frozen.toNat * 2 ^ 51 +
            c.session.annex * 2 ^ 32 + c.session.occ
          let count := c.spill * 2 ^ 32 + c.lost
          (∀ v, e.op = .cstat v → run = (at_.land s1 e fun _ => BitVec.ofNat 64 (if v = 0 then stat else if v = 1 then count
            else if v = 2 then c.cflags.toNat
            else c.jstep.slot * 2 ^ 60 + c.jstep.kb * 2 ^ 56 + c.jstep.apos * 2 ^ 28 + c.jstep.bpos), .done)) ∧
          ∀ rid r e0, e.op = .csave rid r e0 →
            let lines := (leBytes 8 stat ++ leBytes 8 count ++ leBytes 4 c.cflags.toNat ++ List.replicate 44 0) ::
              (if c.session.isOpen then c.drawers.map fun x => imageBytes x.2.key x.2.words x.1 else [])
            let fit := min lines.length (r.extent - e0)
            let v := BitVec.ofNat 32 e0
            ∃ st : Nat → State, st 0 = s1 ∧
              (∀ i < fit, st (i + 1) = joinWrite (st i) d own e e.lane rid r (e0 + i) (lines.getD i []) v) ∧
              run = (if fit < lines.length then joinFault (st fit) d own e e.lane 5 1 (e0 + fit) rid v else st fit, .done)) ∧
        (∀ keys word active, e.op = .cprobe keys word active →
          let size := if c.session.block then 32 else 1
          let places := fun (key : Nat) => let m := key * 0x9E3779B97F4A7C15 % 2 ^ 64
            if c.session.block then (List.range (c.session.pm1 + 1)).map fun i => (m / 2 ^ 53 + i * (i + 1) / 2) % 2048
            else (List.range (c.session.pm1 + 1)).flatMap fun i => (List.range 4).map fun b =>
              4 * ((m / 2 ^ 50 + i * (i + 1) / 2) % 16384) + b
          let takes := fun (key p : Nat) => ((c.drawers.find? (size * p)).map (·.key)).getD key = key
          let miss : DWord := if word = none then 0xFFFFFFFF else 0
          let wordOf := fun (i m : Nat) => (((c.drawers.find? i).map fun (x : Drawer) => x.words.getD m 0).getD 0).setWidth 64
          ∃ value : Nat → DWord, run = (at_.land s1 e fun l => match keys.find? fun x => x.1 = l with
              | some (_, key) => value key
              | none => if inMask active l then miss else 0, .done) ∧
            ∀ key, match (places key).find? fun p => takes key p with
              | none => value key = miss
              | some p => if c.drawers.find? (size * p) = none then value key = miss else match word with
                | none => value key = BitVec.ofNat 64 (size * p % 2 ^ 32)
                | some m => value key = if c.session.block then wordOf (32 * p + m / 8) (m % 8)
                  else if m ≤ c.session.wm1 then wordOf p m else 0) ∧
        ∀ rid r e0, e.op = .cload rid r e0 →
          let v := BitVec.ofNat 32 e0
          let drawer := fun (bs : List Byte) => if leNat ((bs.drop 42).take 1) ≠ 1 ∨ leNat (bs.drop 43) ≠ 0 then none
            else some (leNat ((bs.drop 40).take 2), (⟨leNat (bs.take 8), (List.range 8).map fun i =>
              BitVec.ofNat 32 (leNat ((bs.drop (8 + 4 * i)).take 4))⟩ : Drawer))
          (∀ t i, joinRead at_ t e rid r e0 i = if r.extent ≤ i then (none, joinFault t d own e e.lane 5 1 i rid v)
            else match readElem t d (r.frontAddrs i) with
              | (.ok bs, u) => (some bs, u)
              | (.error (x, a), u) => (none, joinFault u d own e e.lane x.1 x.2 (a / 64 * 64) rid v)) ∧
          (∀ t, joinRead at_ s1 e rid r e0 e0 = (none, t) → run = (t, .done)) ∧
          ∀ bs t, joinRead at_ s1 e rid r e0 e0 = (some bs, t) →
            let w := leNat (bs.take 8)
            let cnt := leNat ((bs.drop 8).take 8)
            let fl := leNat ((bs.drop 16).take 4)
            let bad := w / 2 ^ 48 % 2 ^ 3 ≠ 0 ∨ w / 2 ^ 17 % 2 ^ 15 ≠ 0 ∨ w / 2 ^ 60 % 4 = 3 ∨ 32 ≤ fl ∨ leNat (bs.drop 20) ≠ 0
            let se : Session := ⟨bit 63 w, bit 62 w, w / 2 ^ 60 % 4, w / 2 ^ 56 % 16, w / 2 ^ 53 % 8, bit 52 w,
              w / 2 ^ 32 % 2 ^ 16, w % 2 ^ 17⟩
            (bad → run = (t, .misuse)) ∧ (¬ bad → se.isOpen = false → run = (t, .done)) ∧
            (¬ bad → se.isOpen = true → ∀ (st : Nat → State) (m : Nat), m ≤ se.occ →
              st 0 = on t (fun c => { c with session := se, issue := issueAfter c.queue se, cflags := BitVec.ofNat 5 fl,
                                             spill := cnt / 2 ^ 32, lost := cnt % 2 ^ 32 }) →
              (∀ i < m, ∃ bs u x y, joinRead at_ (st i) e rid r e0 (e0 + (i + 1)) = (some bs, u) ∧ drawer bs = some (x, y) ∧
                ((u.die d).core n).drawers.find? x = none ∧
                st (i + 1) = on u fun c => { c with drawers := c.drawers.insert x y }) →
              (m = se.occ → run = (st m, .done)) ∧ (m < se.occ →
                (∀ u, joinRead at_ (st m) e rid r e0 (e0 + (m + 1)) = (none, u) → run = (u, .done)) ∧
                ∀ bs u, joinRead at_ (st m) e rid r e0 (e0 + (m + 1)) = (some bs, u) →
                  (∀ x y, drawer bs = some (x, y) → ((u.die d).core n).drawers.find? x ≠ none) → run = (u, .misuse)))) ∧
      (c.owner = some (gid, k) → c.doneBatch + 1 < c.openBatch → (∀ e ∈ c.queue, e.batch ≠ c.doneBatch + 1) →
        exec (.batchComplete d n) s = becomes { c with doneBatch := c.doneBatch + 1 }) ∧
      (c.owner = some (gid, k) → c.freezeAsked = true → c.frozen = false →
        exec (.joinFreeze d n) s = becomes { c with frozen := true, freezeAsked := false }) ∧
      ∀ r, c.owner = none → c.waiters = (gid, k) :: r → ∃ t, exec (.macqGrant d n) s = .next t ∧
        (t.die d).core n = { c with
          owner := some (gid, k), waiters := r, openBatch := 1, doneBatch := 0, issue := c.session
          unclaimed := (g.gang k).liveQuads.all fun p => !((g.gang k).quad p).atMacq } ∧
        (∀ g', (t.die d).group gid = some g' → g'.code = (g.acquire c.passed).code) ∧
        (k < g.gangs.length → (gangIn t ⟨d, gid, k, 0⟩).know = (g.gang k).know.learn (g.gang k).issued c.passed) ∧
        ∀ p ∈ (g.gang k).liveQuads, ((g.gang k).quad p).atMacq = true →
          at_ t k p = { ((g.gang k).quad p).advance with atMacq := false, sgt := (at_ t k p).sgt }) ∧
    (g.runs = true → g.pre = false → (∃ v ∈ g.gangs, v.liveQuads ≠ []) →
      let lands := fun (t : State) => ∀ j < g.homes.length, ∀ m < 8, ∀ g', (t.die d).group gid = some g' →
        FMap.get 0 (g'.home j).g m = match prevailing (g.homes.map (·.gPend)) m with
          | some x => x.2
          | none => FMap.get 0 (g.home j).g m
      ((∀ v ∈ g.gangs, ∀ p ∈ v.liveQuads, (v.quad p).barArrived = true) →
        (∀ j < g.gangs.length, (g.gang j).liveQuads ≠ [] → releasePending s d gid j = false) →
        let live := (List.range g.gangs.length).filter fun j => decide ((g.gang j).liveQuads ≠ [])
        let ws := live.foldl (fun l j => withAll l ((g.gang j).know.before (g.gang j).issued)) []
        ∃ t, exec (.barRelease d gid) s = .next t ∧ lands t ∧
          (∀ g', (t.die d).group gid = some g' → g'.code = (g.acquire ws).code) ∧
          (∀ j ∈ live, (gangIn t ⟨d, gid, j, 0⟩).know = (g.gang j).know.learn (g.gang j).issued ws) ∧
          ∀ j < g.gangs.length, ∀ p ∈ (g.gang j).liveQuads,
            at_ t j p = { ({ (g.gang j).quad p with barArrived := false }).advance with sgt := (at_ t j p).sgt }) ∧
      ((∀ v ∈ g.gangs, ∀ p ∈ v.liveQuads, (v.quad p).gsyncArrived = true) →
        ∃ t, exec (.gsyncRelease d gid) s = .next t ∧ lands t ∧ ∀ j < g.gangs.length, ∀ p ∈ (g.gang j).liveQuads,
          at_ t j p = { ({ (g.gang j).quad p with gsyncArrived := false }).advance with sgt := (at_ t j p).sgt })) ∧
    (g.runs = true → g.pre = false → (g.gang k).liveQuads ≠ [] →
      (∀ p ∈ (g.gang k).liveQuads, ((g.gang k).quad p).atRegang = true ∧ ((g.gang k).quad p).sup = false ∧
        ((g.gang k).quad p).park = 0 ∧
        ∀ p' ∈ (g.gang k).liveQuads, ((g.gang k).quad p').pc = ((g.gang k).quad p).pc) →
      ∃ t, exec (.regangJoin d gid k) s = .next t ∧ ∀ p ∈ (g.gang k).liveQuads,
        at_ t k p = { ((g.gang k).quad p).advance with atRegang := false, sgt := (at_ t k p).sgt })

/-! ### Links and ports -/

/-- R31 to R42, R72, R75: the arrival of the next cell of a link direction. It is accepted where it is not damaged,
passes its checks, carries the SEQ expected and, on an external port, the right tag; else it is discarded, and the
first of a run of discarded cells sends one NAK. A link that retrains or is down carries nothing. An accepted cell for
another end is sent on. At its destination a read, write, atomic or pull is answered with data, a completion or a fault
reply; read data, a completion or a fault reply reaches the element or the migrating line that waits for its tag; the
halves of a `kd` push wait until both are there and the gang can take them, and then enter the `kd` queues, and a
return counts free entries back; a NAK brings every cell from the SEQ on again; a RESTAGGER cell on a port schedules
the start of a holding module. A request is served for the gang that sent it, or for a peer. A receiver that owes an ACK
sends one; once sixteen replays have failed the link retrains, and the third failure takes it down, so that the
elements whose way needs it fault; eight tag failures in a row take a port down with an alarm; a count of 2^48 reports
KEYEXP; and a port that is down is tried again. (Where the spec leaves room, this is the model's reading: log entries
60, 61, 67, 103 to 107, 109, 124 to 126.) -/
def Obligations.LinkSteps : Prop :=
  (∀ (s : State) (src dst : Nat) (x : LinkDir) (c : Cell) (w : List Cell) (damage : Bool), src ≠ dst →
    s.link src dst = some x → x.wire = c :: w →
    let good := damage = false ∧ c.intact = true ∧ c.seq = x.expect ∧ tagOk s src c = true
    let y := receive s src dst damage
    let open_ := x.discarding = true ∧ x.ahead ≠ some 0
    let left := { x with
      wire := w, discarding := decide open_
      ahead := match x.ahead with
        | some (n + 1) => some n
        | _ => none }
    let becomes := fun (l : LinkDir) => { s with links := s.links.insert (linkKey src dst) l }
    (s.linkHeld src dst = true → y = (none, s)) ∧
    (s.linkHeld src dst = false →
      (good → y.1 = some c ∧
        (y.2.link src dst).map (fun l => (l.expect, l.accepted, l.discarding, l.ahead, l.replays, l.wire)) =
          some ((x.expect + 1) % 65536, some c.seq, false, none, 0, w)) ∧
      (¬ good → y.1 = none ∧ (y.2.link src dst).map (fun l => (l.expect, l.accepted, l.discarding, l.ahead, l.wire)) =
        some (x.expect, x.accepted, true, left.ahead, w)) ∧
      (¬ good → portEnd src = none → c.type ≠ 0x31 → y.2 = if open_ then becomes left
        else enqueue (becomes { left with discarding := true }) dst src
          (mkCell (min dst 15) (min src 15) 3 0x31 x.expect noPayload .none)))) ∧
  (∀ (s : State) (src dst seq : Nat) (x : LinkDir), s.link src dst = some x →
    let cells := x.replay.dropWhile fun c => decide (c.seq ≠ seq)
    resend s src dst seq = { s with links := s.links.insert (linkKey src dst) (if cells = [] then
        { x with ahead := some x.wire.length }
      else if 16 ≤ x.replays then { x with replays := 17 }
      else { x with wire := x.wire ++ cells, ahead := some x.wire.length, replays := x.replays + 1 }) }) ∧
  (∀ (s : State) (l : LinkId) (damage : Bool) (x : LinkDir) (head : Cell) (w : List Cell), s.link l.src l.dst = some x →
    x.wire = head :: w →
    let y := receive s l.src l.dst damage
    let dn := l.dst
    let came := fun (ty : Nat) (c : Cell) => (head.type = ty ∨ head.intact = false) ∧ y.1 = some c ∧ l.src < 16 ∧
      c.dst = dn ∧ c.type = ty
    let u := fun (c : Cell) => freeBuffer y.2 l.src dn c
    let reply := fun (t : State) (c : Cell) (ty : Nat) (bs : List Byte) (body : CellBody) => Host.Outcome.next (φ := Fault)
      (ρ := Refusal) (sendCell t dn { mkCell dn c.src 1 ty c.tag bs body with port := c.port })
    let deny := fun (t : State) (c : Cell) (e : Cause) (off : Nat) => reply t c 0x13 [] (.fault e.1 e.2 off)
    let for_ := fun (f : State → Cell → State) (c : Cell) => match requester (u c) c with
      | some (_, cmd) =>
        let acts := fun (ws : List Nat) => (u c).acting (((cmdGang (u c) c.src cmd).know.learn cmd.issue ws).releases
          (.gang c.src cmd.gid cmd.gang) cmd.issue (if cmd.release = true ∧ cmd.isColl = false then some cmd.scope else none))
        acts (if cmd.acquires = true ∧ cmd.release = true then
          acquired (f (acts []) c).trace.saw (.gang c.src cmd.gid cmd.gang) cmd.scope else [])
      | none => if c.src ≤ 7 then (u c).rested else (u c).acting
          (if c.type = 0x02 ∧ (u c).peerKnown ≠ [] then [⟨.peer, 4, (u c).peerKnown⟩] else [])
    let answer := fun (t : State) (c : Cell) (ty : Nat) (bs : List Byte) (body : CellBody) =>
      let v := sendCell t dn { mkCell dn c.src 1 ty c.tag bs body with port := c.port }
      Host.Outcome.next (φ := Fault) (ρ := Refusal) (match requester (u c) c with
        | some (n, cmd) => v.credit c.src n cmd
        | none => if c.src ≤ 7 then v.rested else { v.rested with
            peerKnown := withAll (withAll v.peerKnown v.written) (acquired v.trace.saw .peer 4) })
    let refuse := fun (t : State) (c : Cell) (e : Cause) (off : Nat) => answer t c 0x13 [] (.fault e.1 e.2 off)
    (∀ t c, requester t c = if 7 < c.src then none else
      ((t.die c.src).remote.find? c.tag).bind fun x => ((t.die c.src).cmds.find? x.1).map fun z => (x.1, z)) ∧
    (∀ (t : State) h right parts,
      let bad := fun (t : State) => parts.findSome? fun (x : Nat × Nat) =>
        (exportFault t h x.1 x.2 right).map fun e => (e, x.1)
      let v := parts.foldl (fun t x => match exporterCheck (t.die (handleDie h)) h x.1 x.2 right with
        | .ok va => if right = .write ∧ x.2 = 64 then t else pullLine t (handleDie h) va
        | .error _ => t) t
      (∀ e, bad t = some e → partsCheck t h right parts = (.error e, t)) ∧
      (∀ e, bad t = none → bad v = some e → partsCheck t h right parts = (.error e, v)) ∧
      (bad t = none → bad v = none → partsCheck t h right parts = (.ok (), v))) ∧
    (∀ (t : State) h, partsWrite h [] t = (.ok (), t) ∧ ∀ x xs, partsWrite h (x :: xs) t =
      match exporterWrite t h x.1 x.2 with
      | (.ok _, v) => partsWrite h xs v
      | (.error e, v) => (.error (e.1, x.1), v)) ∧
    let events := [(0x00, Instr.readCell l damage), (0x01, .writeCell l damage), (0x02, .remoteAtomicCell l damage),
      (0x03, .copyElementCell l damage), (0x04, .migrationPull l damage), (0x10, .readData l damage),
      (0x11, .writeCompletion l damage), (0x12, .atomicResult l damage), (0x13, .faultReply l damage),
      (0x20, .kdPush l damage), (0x21, .kdReturn l damage), (0x22, .publishCell l damage), (0x23, .signalRelease l damage),
      (0x30, .ack l damage), (0x31, .nak l damage), (0x32, .creditOnly l damage), (0x33, .restagger l damage),
      (0x34, .keyControl l damage), (0x35, .linkStatus l damage)]
    (∀ e ∈ events, (∃ t, exec e.2 s = .next t) ∧ (head.type ≠ e.1 → head.intact = true → exec e.2 s = .next s) ∧
      (head.type = e.1 ∨ head.intact = false → y.1 = none → exec e.2 s = .next y.2) ∧
      ∀ c, head.type = e.1 ∨ head.intact = false → y.1 = some c → l.src < 16 → dn < 16 → c.dst ≠ dn →
        linkLocal c.type = false → exec e.2 s = .next (sendCell (u c) dn c)) ∧
    (∀ c h off len, came 0x00 c → c.body = .readReq h off len →
      let from_ := for_ (serveRead dn) c
      (handleDie h ≠ dn → exec (.readCell l damage) s = refuse from_ c (7, 7) off) ∧
      (handleDie h = dn → (∀ bs t, exporterRead from_ h off len = (.ok bs, t) →
          exec (.readCell l damage) s = answer t c 0x10 bs (.readData bs)) ∧
        ∀ e a t, exporterRead from_ h off len = (.error (e, a), t) → exec (.readCell l damage) s = refuse t c e off)) ∧
    (∀ c h chunks, c.body = .writeReq h chunks →
      ∀ i ∈ [(0x01, Instr.writeCell l damage), (0x03, .copyElementCell l damage)], came i.1 c →
        let from_ := for_ (serveWrite dn) c
        let check := partsCheck from_ h .write (chunks.map fun x => (x.1, x.2.length))
        (handleDie h ≠ dn → exec i.2 s = refuse from_ c (7, 7) 0) ∧
        (handleDie h = dn → (∀ e off t, check = (.error (e, off), t) → exec i.2 s = refuse t c e off) ∧ ∀ t, check = (.ok (), t) →
          (∀ e off v, partsWrite h chunks t = (.error (e, off), v) → exec i.2 s = refuse v c e off) ∧
          ∀ v, partsWrite h chunks t = (.ok (), v) → exec i.2 s = answer v c 0x11 [] .done)) ∧
    (∀ c h offs op ty value cmp, came 0x02 c → c.body = .atomicReq h offs op ty value cmp →
      let from_ := for_ (serveAtomic dn) c
      let check := partsCheck from_ h .atomic ((lineChunks offs).map fun x => (x.1, x.2.1))
      let does := exec (.remoteAtomicCell l damage) s
      (handleDie h ≠ dn → does = refuse from_ c (7, 7) (offs.headD 0)) ∧
      (handleDie h = dn → (∀ e off t, check = (.error (e, off), t) → does = refuse t c e off) ∧
        ∀ t0 ex, check = (.ok (), t0) → (t0.die dn).exports_.find? (handleSlot h) = some ex →
          let vas := offs.map fun o => ex.base + o
          let failed := fun (e : Cause) => if e.1 = 8 then e else (7, 7)
          (∀ e a t, mappedRead t0 dn vas = (.error (e, a), t) → does = refuse t c (failed e) (offs.headD 0)) ∧
          ∀ bs t, mappedRead t0 dn vas = (.ok bs, t) →
            let new := (atomStep ty op (BitVec.ofNat 64 (leNat bs)) (BitVec.ofNat 64 value) (BitVec.ofNat 64 cmp)).toNat
            let writes := t.atomically fun v => mappedWrite v dn (vas.zip (leBytes vas.length new))
            (∀ e a t', writes = (.error (e, a), t') → does = refuse t' c (failed e) (offs.headD 0)) ∧
            ∀ t', writes = (.ok (), t') →
              does = answer t' c 0x12 (leBytes 8 (leNat bs)) (.atomicResult (leNat bs)))) ∧
    (∀ c page line, came 0x04 c → c.body = .pull page line →
      let asked := ((u c).die c.src).pulls.find? c.tag
      let die := (u c).die dn
      let off := 65536 * page + 64 * line
      (asked = none → exec (.migrationPull l damage) s = .next (u c)) ∧
      ∀ m, asked ≠ none → ((u c).die c.src).migrations.find? page = some m → exec (.migrationPull l damage) s =
        if m.src ≠ dn ∨ die.service = .poisoned ∨ migPoisoned die off = true then deny (u c) c (8, 2) off
        else let bs := (span (m.oldFrame + 64 * line) 64).map (readUnder die (keyOf die m.oldKey))
          reply (u c) c 0x10 bs (.readData bs)) ∧
    (∀ c page line m, ((u c).die dn).pulls.find? c.tag = some (page, line) →
      ((u c).die dn).migrations.find? page = some m →
      let va := page * 65536 + 64 * line
      let t := (u c).setDie dn { (u c).die dn with pulls := ((u c).die dn).pulls.erase c.tag }
      (∀ bs, came 0x10 c → c.body = .readData bs → exec (.readData l damage) s = .next (if m.valid.getLsbD line then t
        else lineArrived (t.setDie dn (writeUnder (t.die dn) (keyOf (t.die dn) m.key)
          ((span (m.newFrame + 64 * line) 64).zip (bs.take 64)))) dn va false)) ∧
      (came 0x13 c → exec (.faultReply l damage) s =
        .next (if m.valid.getLsbD line then t else lineArrived t dn va true))) ∧
    (∀ c n e cmd el pos tags, ((u c).die dn).pulls.find? c.tag = none →
      ((u c).die dn).remote.find? c.tag = some (n, e, pos) → ((u c).die dn).cmds.find? n = some cmd →
      cmd.elems.find? e = some el → el.state = .sent tags → c.tag ∈ tags →
      let die := { (u c).die dn with remote := ((u c).die dn).remote.erase c.tag }
      let takes := fun (x : Elem) => Host.Outcome.next (φ := Fault) (ρ := Refusal) ((u c).setDie dn { die with
        cmds := die.cmds.modify n fun z => { z with elems := z.elems.insert e x } })
      let hears := fun (x : Elem) => if c.src ≠ 0xF ∨ (u c).peerKnown = [] then takes x else
        Host.Outcome.next (φ := Fault) (ρ := Refusal) ((u c).setDie dn { die with cmds := die.cmds.modify n fun z => { z with
          elems := z.elems.insert e x, seen := { z.seen with reads := z.seen.reads ++ [⟨.peer, 4, (u c).peerKnown⟩] } } })
      let more := tags.erase c.tag
      let state := if more = [] then ElemState.performed else .sent more
      (∀ bs, came 0x10 c → c.body = .readData bs →
        let data := el.data.take pos ++ bs ++ el.data.drop (pos + bs.length)
        (more ≠ [] → exec (.readData l damage) s = hears { el with data := data, state := .sent more }) ∧
        (more = [] → ((∃ r x w, cmd.op = .copyIn r x w) ∨ ∃ ids rs w, cmd.op = .gath ids rs w ∧ el.level = 0) →
          exec (.readData l damage) s = hears { el with data := data, state := .performed }) ∧
        (more = [] → ((∃ a b c d, cmd.op = .copyDd a b c d) ∨ (∃ a b c, cmd.op = .launch a b c) ∨
            ∃ a b c d f g, cmd.op = .coll a b c d f g) →
          exec (.readData l damage) s = hears { el with data := data, level := 1, state := .waiting }) ∧
        ∀ ids rs, more = [] → ((∃ w, cmd.op = .gath ids rs w) ∨ cmd.op = .scat ids rs) → el.level ≠ 0 →
          let j := leNat data
          exec (.readData l damage) s = hears (if (rs.getD (el.level - 1) (recOf [])).extent ≤ j
            then { el with data := data, state := .faulted ⟨5, 1, cmd.gang, el.lane, cmd.opc, cmd.pc, j,
              ids.getD (el.level - 1) noLoc, BitVec.ofNat 32 el.issued⟩ }
            else { el with data := data, idx := j, level := el.level - 1, state := .waiting })) ∧
      (came 0x11 c → exec (.writeCompletion l damage) s = takes { el with state := state }) ∧
      (∀ old, came 0x12 c → c.body = .atomicResult old →
        exec (.atomicResult l damage) s = hears { el with state := state, old := old }) ∧
      ∀ cls reason off, came 0x13 c → c.body = .fault cls reason off → cls ≠ 6 →
        let as := elemAddrs die cmd.op el
        let addr := (as.find? fun a => peerOffset a = off).getD (as.getD pos 0)
        exec (.faultReply l damage) s = takes { el with state := .faulted ⟨cls, reason, cmd.gang, el.lane, cmd.opc, cmd.pc,
          addr / 64 * 64, elemRecord cmd.op el, BitVec.ofNat 32 el.issued⟩ }) ∧
    (let waits := fun (z : KdWaiting) => Host.Outcome.next (φ := Fault) (ρ := Refusal)
        (deliverAll (y.2.setDie dn { y.2.die dn with kdWaiting := (y.2.die dn).kdWaiting ++ [z] }) dn);
      (∀ c desc half lanes words gid gang, came 0x20 c → c.body = .kdPush desc half lanes words gid gang →
        exec (.kdPush l damage) s = waits ⟨desc, half, lanes, words, c.src, gid, gang⟩) ∧
      ∀ c gid gang lanes, came 0x21 c → c.body = .kdReturn gid gang lanes →
        exec (.kdReturn l damage) s = waits ⟨⟨0, 0, 0⟩, 2, lanes, [], c.src, gid, gang⟩) ∧
    (∀ c, came 0x31 c → exec (.nak l damage) s = .next (resend (u c) dn l.src (c.tag % 65536))) ∧
    (∀ c, (∀ i ∈ [(0x30, Instr.ack l damage), (0x32, .creditOnly l damage), (0x22, .publishCell l damage),
      (0x23, .signalRelease l damage), (0x34, .keyControl l damage), (0x35, .linkStatus l damage)],
        came i.1 c → exec i.2 s = .next (u c)))) ∧
  (∀ (s : State) (dn : Nat) (v w : KdWaiting),
    let die := s.die dn
    let t := deliverAll s dn
    let freed := fun (src n : Nat) => ∀ x, s.link src dn = some x → (t.link src dn).map (fun z => FMap.get 0 z.freed 2) =
      some (FMap.get 0 x.freed 2 + n)
    let halves := v.half = 0 ∧ w.half = 1 ∧ v.desc = w.desc ∧ v.fromDie = w.fromDie ∧ v.gid = w.gid ∧ v.gang = w.gang
    (die.kdWaiting = [w] → w.half < 2 → t = s) ∧
    (die.kdWaiting = [w] → w.half = 2 → ∀ g, die.group w.gid = some g → if g.runs = true ∧ g.pre = false then
        (t.die dn).kdWaiting = [] ∧ freed w.fromDie 1 ∧ (w.gang < g.gangs.length → ∀ i < 32,
          FMap.get 4 (gangIn t ⟨dn, w.gid, w.gang, 0⟩).kdFree i = let n := FMap.get 4 (g.gang w.gang).kdFree i
            if w.lanes.getLsbD i then min 4 (n + 1) else n)
      else t = s) ∧
    (die.kdWaiting = [w] → w.half = 2 → die.group w.gid = none →
      (t.die dn).kdWaiting = [] ∧ (t.die dn).groups = die.groups ∧ freed w.fromDie 1) ∧
    (die.kdWaiting = [v, w] ∨ die.kdWaiting = [w, v] → halves → (kdReceiver die v.desc = none → t = s) ∧
      ∀ i r g, kdReceiver die v.desc = some (i, r) → die.group i = some g → r < g.gangs.length →
        (t.die dn).kdWaiting = [] ∧ freed v.fromDie 2 ∧ ∀ m < 32, let k := gangIn t ⟨dn, i, r, 0⟩
          FMap.get [] k.queues (32 * 6 + m) = FMap.get [] (g.gang r).queues (32 * 6 + m) ++ (if v.lanes.getLsbD m then
            [if m < 16 then v.words.getD m 0 else w.words.getD (m - 16) 0] else []) ∧
          FMap.get [] k.kdFrom m = FMap.get [] (g.gang r).kdFrom m ++ (if v.lanes.getLsbD m then
            [(v.fromDie, v.gid, v.gang)] else [])) ∧
    (let is := fun (i : Nat) (g : Group) => (i, g) ∈ die.groups ∧ g.runs = true ∧ g.pre = false ∧ g.node = v.desc.node ∧
        ((die.launches.find? g.launch).map (·.base)).getD 0 = v.desc.nbase ∧ v.desc.rgang < g.gangs.length;
      (∀ i r, kdReceiver die v.desc = some (i, r) → r = v.desc.rgang ∧ ∃ g, is i g) ∧
      (kdReceiver die v.desc = none → ∀ i g, ¬ is i g))) ∧
  (∀ (s : State) (p : Nat) (damage : Bool) (x : LinkDir) (head : Cell) (w : List Cell) (c : Cell),
    s.link (16 + p) 8 = some x → x.wire = head :: w → head.type = 0x33 → (receive s (16 + p) 8 damage).1 = some c →
    c.type = 0x33 → c.dst = 8 →
    let u := freeBuffer (receive s (16 + p) 8 damage).2 (16 + p) 8 { c with port := p, src := 0xF }
    let base := leNat (c.payload.take 4)
    let step := leNat ((c.payload.drop 4).take 4)
    exec (.restagger ⟨16 + p, 8⟩ damage) s = .next { u with hub := if u.hub.holding = true then
        { u.hub with pending := some (u.hub.time, base, step), holdSince := u.hub.time }
      else { u.hub with log := u.hub.log ++ [.restagger base step u.hub.time] } }) ∧
  (∀ (s : State) (l : LinkId) (x : LinkDir), s.link l.src l.dst = some x →
    let becomes := fun (y : LinkDir) => { s with links := s.links.insert (linkKey l.src l.dst) y }
    (exec (.ackDeadline l) s = if x.ackOwed then
        .next (enqueue s l.dst l.src (mkCell (min l.dst 15) (min l.src 15) 3 0x32 0 noPayload .none)) else .next s) ∧
    (x.replays < 17 → ∀ ok, exec (.linkRetrain l ok) s = .next s) ∧
    (17 ≤ x.replays → x.down = false →
      exec (.linkRetrain l true) s = .next (becomes { x with
        replays := 0, retrains := 0, discarding := false, ahead := none, wire := x.replay }) ∧
      (x.retrains < 2 → exec (.linkRetrain l false) s = .next (becomes { x with retrains := x.retrains + 1 })) ∧
      (2 ≤ x.retrains → (∃ t, exec (.linkRetrain l false) s = .next t ∧
          (t.link l.src l.dst).map (fun z => (z.down, z.wire)) = some (true, []) ∧ .linkDown l.src l.dst ∈ t.hub.log ∧
          ∀ p, linkPort l.src l.dst = some p → (t.port p).status = 0) ∧
        ∀ dn n cmd e el tags, linkPort l.src l.dst = none → dn < 8 → dn < s.dies.length →
          (∀ d < 8, (s.die d).pulls = [] ∧ (d ≠ dn → (s.die d).cmds = [])) → (s.die dn).cmds = [(n, cmd)] →
          cmd.elems = [(e, el)] → el.state = .sent tags →
          let t := { becomes { x with retrains := x.retrains + 1, down := true, wire := [] } with
            hub := { s.hub with log := s.hub.log ++ [.linkDown l.src l.dst] } }
          (unreachable t dn cmd el = none → exec (.linkRetrain l false) s = .next t) ∧
          ∀ x a, unreachable t dn cmd el = some (x, a) →
            a ∈ elemAddrs (s.die dn) cmd.op el ∧ inPeer a = true ∧
            (∃ h, (importHandle t dn (peerIndex a)).1 = .ok h ∧ wayFault t dn h = some x) ∧
            exec (.linkRetrain l false) s = .next (t.setDie dn { s.die dn with cmds := [(n, { cmd with elems :=
              [(e, { el with state := .faulted ⟨x.1, x.2, cmd.gang, el.lane, cmd.opc, cmd.pc, a / 64 * 64,
                elemRecord cmd.op el, BitVec.ofNat 32 el.issued⟩ })] })] })))) ∧
  ∀ (s : State) (p : Nat),
    let x := s.port p
    (x.tagFailures < 8 → exec (.tagFailureLimit p) s = .next s) ∧
    (8 ≤ x.tagFailures → ∃ t, exec (.tagFailureLimit p) s = .next t ∧
      t.port p = { x with status := 3, tagFailures := 0 } ∧
      (∀ y, t.link (16 + p) 8 = some y → y.down = true ∧ y.wire = []) ∧
      (∀ y, t.link 8 (16 + p) = some y → y.down = true ∧ y.wire = []) ∧
      t.msix = s.msix ++ [(8, 0)] ∧ t.hub.log = s.hub.log ++ [.tagAlarm p x.tagFailures s.hub.time]) ∧
    (∀ y key, s.link 8 (16 + p) = some y → x.sendKeys.find? x.sendSlot = some key → x.status = 1 →
      exec (.keyexp p) s = .next (if 2 ^ 48 ≤ 65536 * x.sendWraps + y.nextSeq then s.setPort p { x with status := 2 }
        else s)) ∧
    (p < 8 → x.status = 0 → s.hub.ready = true ∨ s.hub.holding = true ∨ 4 ≤ s.hub.phase →
      ∃ t, exec (.portRetry p true) s = .next t ∧
        t.port p = { x with status := 1 } ∧ (t.link 8 (16 + p)).map (·.down) = some false ∧
        (t.link (16 + p) 8).map (·.down) = some false) ∧
    exec (.portRetry p false) s = .next s
end

