-- ==== Sys2Proof/Laws/Issue.lean ====
section
/-!
SUPPORT. Laws of the issue of an instruction: what it answers where the sub-gang may execute it, where it is held
back, where it meets an illegal register, and where a body stalls; every later law of an instruction cites these.
-/
namespace Sys2Proof.Machine

/-- `complete` always answers a next state. -/
@[simp] theorem complete_next (c : Cx) : complete c = .next c.finished := rfl

/-- A trap of the whole sub-gang answers a next state. -/
theorem trapAll_next (c : Cx) (cause : Cause) (v : Word) :
    trapAll c cause v = .next { c with out := c.qs.map fun q => (q, .trap cause.1 cause.2 v) }.finished := rfl

/-- The quads of a context that `openCx` gives are those of the sub-gang, at least one. -/
theorem openCx_qs {s : State} {sg : SubGang} {op : Nat} {h : Head} {c : Cx} (hc : openCx s sg op h = some c) :
    c.qs ≠ [] := by
  unfold openCx at hc
  split at hc
  · cases hc
  · dsimp only at hc
    split at hc
    · cases hc
    · rename_i heq
      cases hc
      simp [heq]

/-- `enter` changes nothing but the gang's quads. -/
@[simp] theorem Cx.enter_qs (c : Cx) : c.enter.qs = c.qs := by unfold Cx.enter; split <;> rfl
@[simp] theorem Cx.enter_sup (c : Cx) : c.enter.sup = c.sup := by unfold Cx.enter; split <;> rfl
@[simp] theorem Cx.enter_s (c : Cx) : c.enter.s = c.s := by unfold Cx.enter; split <;> rfl
@[simp] theorem Cx.enter_grp (c : Cx) : c.enter.grp = c.grp := by unfold Cx.enter; split <;> rfl
@[simp] theorem Cx.enter_em (c : Cx) : c.enter.em = c.em := by unfold Cx.enter; split <;> rfl
@[simp] theorem Cx.enter_parks (c : Cx) : c.enter.parks = c.parks := by unfold Cx.enter; split <;> rfl
@[simp] theorem Cx.enter_out (c : Cx) : c.enter.out = c.out := by unfold Cx.enter; split <;> rfl
@[simp] theorem Cx.enter_gid (c : Cx) : c.enter.gid = c.gid := by unfold Cx.enter; split <;> rfl
@[simp] theorem Cx.enter_gi (c : Cx) : c.enter.gi = c.gi := by unfold Cx.enter; split <;> rfl
@[simp] theorem Cx.enter_dn (c : Cx) : c.enter.dn = c.dn := by unfold Cx.enter; split <;> rfl
@[simp] theorem Cx.enter_op (c : Cx) : c.enter.op = c.op := by unfold Cx.enter; split <;> rfl

/-- No quad vectors at a convergence point where the sub-gang is in supervisor state or no lane is parked. -/
theorem converge_of_unparked {c : Cx} (h : (!c.sup && c.qs.any fun q => (c.k.quad q).park ≠ 0) = false) :
    converge c = c := by
  unfold converge
  by_cases hs : c.sup
  · simp [hs]
  · simp only [hs, Bool.not_false, Bool.true_and] at h
    have key : ∀ (qs : List Nat), (∀ q ∈ qs, (c.k.quad q).park = 0) →
        qs.foldl (fun c q =>
          if (c.k.quad q).park ≠ 0 then
            let (s, k) := vectorParked c.s c.dn c.k q
            { c with s := s, k := k, qs := c.qs.filter (· ≠ q)
                     act := c.act &&& ~~~spread 0xF q, em := c.em &&& ~~~spread 0xF q }
          else c) c = c := by
      intro qs
      induction qs with
      | nil => intro _; rfl
      | cons q qs ih =>
        intro hq
        rw [List.foldl_cons, if_neg (by simpa using hq q (List.mem_cons_self ..))]
        exact ih fun p hp => hq p (List.mem_cons_of_mem _ hp)
    simp only [hs, Bool.false_eq_true, if_false]
    refine key c.qs fun q hq => ?_
    have := List.any_eq_false.mp h q hq
    simpa using this

/-- What `readyCx` says, taken apart. -/
theorem readyCx_iff {s : State} {op : Nat} {ops : Ops} {h : Head} {c : Cx} (hr : readyCx s op ops h = some c) :
    ∃ sg c0, s.cur = some sg ∧ openCx s sg op h = some c0 ∧ c0.blocked = false ∧ c = c0.enter ∧
      (convergenceOps.contains op = true → converge c = c) ∧ (privileged op && !c.sup) = false ∧
      regFault c.k c.grp.regs c.sup op ops = none ∧ interlocked c op ops h = false ∧ c.oddQuads op ops = [] := by
  unfold readyCx at hr
  split at hr
  · cases hr
  · rename_i sg hcur
    split at hr
    · cases hr
    · rename_i c0 hopen
      refine ⟨sg, c0, hcur, hopen, ?_⟩
      split at hr
      · cases hr
      · rename_i hb
        dsimp only at hr
        split at hr
        · cases hr
        · rename_i hv
          split at hr
          · cases hr
          · rename_i hp
            split at hr
            · cases hr
            · rename_i hreg
              split at hr
              · cases hr
              · rename_i hi
                cases hr
                refine ⟨by simpa using hb, rfl, ?_, by simpa using hp, by simpa using hreg, by simpa using hi⟩
                intro hc
                apply converge_of_unparked
                rw [hc, Bool.true_and] at hv
                simpa using hv

/-- An instruction that may execute and whose checks find nothing does what its body says: it completes, or stalls and leaves
all as it is. -/
theorem issueChecked_ready {s : State} {op : Nat} {ops : Ops} {h : Head} {checks : Cx → Option (Cause × Word)}
    {body : Cx → Option Cx} {c : Cx} (hr : readyCx s op ops h = some c) (hf : checks c = none) :
    issueChecked op ops h s checks body =
      (match body c with
        | none => .next s
        | some c => .next c.finished) := by
  obtain ⟨sg, c0, hcur, hopen, hb, rfl, hconv, hp, -, hi, ho⟩ := readyCx_iff hr
  have hq : c0.qs.isEmpty = false := by simpa using openCx_qs hopen
  unfold issueChecked
  simp only [hcur, hopen, hb, Bool.false_eq_true, if_false]
  by_cases hc : convergenceOps.contains op = true
  · simp only [hc, if_true, hconv hc]
    simp only [Cx.enter_qs, hq, Bool.false_eq_true, if_false, hp, hf, hi, ho, List.isEmpty_nil, Bool.not_true, complete_next]
    try (cases body c0.enter <;> rfl)
  · simp only [hc, Bool.false_eq_true, if_false]
    simp only [Cx.enter_qs, hq, Bool.false_eq_true, if_false, hp, hf, hi, ho, List.isEmpty_nil, Bool.not_true, complete_next]
    try (cases body c0.enter <;> rfl)

/-- The registers of an instruction that may execute are legal. -/
theorem readyCx_regCause {s : State} {op : Nat} {ops : Ops} {h : Head} {c : Cx} (hr : readyCx s op ops h = some c) :
    c.regCause op ops = none := by
  obtain ⟨_, _, _, _, _, _, _, _, hreg, _⟩ := readyCx_iff hr
  simp [Cx.regCause, hreg]

/-- The same for an instruction with no check but that of its registers. -/
theorem issueWith_ready {s : State} {op : Nat} {ops : Ops} {h : Head} {body : Cx → Option Cx} {c : Cx}
    (hr : readyCx s op ops h = some c) :
    issueWith op ops h s body =
      (match body c with
        | none => .next s
        | some c => .next c.finished) :=
  issueChecked_ready hr (by rw [readyCx_regCause hr]; rfl)

/-- An instruction that may execute and whose body does not stall completes. -/
theorem issueWith_completes {s : State} {op : Nat} {ops : Ops} {h : Head} {body : Cx → Option Cx} {c c' : Cx}
    (hr : readyCx s op ops h = some c) (hb : body c = some c') :
    issueWith op ops h s body = .next c'.finished := by
  rw [issueWith_ready hr, hb]

/-- A body that stalls leaves the state as it is. -/
theorem issueWith_stalls {s : State} {op : Nat} {ops : Ops} {h : Head} {body : Cx → Option Cx} {c : Cx}
    (hr : readyCx s op ops h = some c) (hb : body c = none) : issueWith op ops h s body = .next s := by
  rw [issueWith_ready hr, hb]

/-- Every issue answers a next state, whatever the state and the operands (R119, R223). -/
theorem issueChecked_next (s : State) (op : Nat) (ops : Ops) (h : Head) (checks : Cx → Option (Cause × Word))
    (body : Cx → Option Cx) : ∃ t, issueChecked op ops h s checks body = .next t := by
  unfold issueChecked
  repeat' split
  all_goals first
    | exact ⟨_, rfl⟩
    | (dsimp only; repeat' split) <;> exact ⟨_, rfl⟩

/-- What `issuedCx` says, taken apart. -/
theorem issued_iff {s : State} {op : Nat} {h : Head} {c : Cx} (hr : issuedCx s op h = some c) :
    ∃ sg c0, s.cur = some sg ∧ openCx s sg op h = some c0 ∧ c0.blocked = false ∧ c = c0.enter ∧
      (convergenceOps.contains op = true → converge c = c) := by
  unfold issuedCx at hr
  split at hr
  · cases hr
  · rename_i sg hcur
    split at hr
    · cases hr
    · rename_i c0 hopen
      split at hr
      · cases hr
      · rename_i hb
        dsimp only at hr
        split at hr
        · cases hr
        · rename_i hv
          cases hr
          refine ⟨sg, c0, hcur, hopen, by simpa using hb, rfl, ?_⟩
          intro hc
          apply converge_of_unparked
          rw [hc, Bool.true_and] at hv
          simpa using hv

/-- An instruction of a sub-gang that is not held back: its checks, then the interlock, then the
pairs that indices name, then its body (R223, R130, R126). -/
theorem issueChecked_issued {s : State} {op : Nat} {ops} {h : Head} {c : Cx} {checks body} (hr : issuedCx s op h = some c)
    (hp : (privileged op && !c.sup) = false) : issueChecked op ops h s checks body =
      match checks c with
      | some (cause, value) => trapAll c cause value
      | none =>
        if interlocked c op ops h then .next s
        else if !(c.oddQuads op ops).isEmpty then complete (c.trapOdd (c.oddQuads op ops))
        else match body c with
          | none => .next s
          | some c => complete c := by
  obtain ⟨sg, c0, hcur, hopen, hb, rfl, hconv⟩ := issued_iff hr
  have hq : c0.enter.qs.isEmpty = false := by simpa using openCx_qs hopen
  unfold issueChecked
  simp only [hcur, hopen, hb, Bool.false_eq_true, if_false]
  have : (if convergenceOps.contains op = true then converge c0.enter else c0.enter) = c0.enter := by
    split
    · rename_i h; exact hconv h
    · rfl
  rw [this]
  simp only [hq, hp, Bool.false_eq_true, if_false]
  all_goals (cases checks c0.enter <;> first | rfl | (cases body c0.enter <;> rfl))

/-- With nobody issuing nothing happens. -/
theorem issueChecked_idle {s : State} (op : Nat) (ops : Ops) (h : Head) (checks : Cx → Option (Cause × Word))
    (body : Cx → Option Cx) (hs : s.cur = none) : issueChecked op ops h s checks body = .next s := by
  simp [issueChecked, hs]

end Sys2Proof.Machine
end

