-- ==== Sys2Proof/Laws/Exec.lean ====
section
/-!
SUPPORT. The dispatch, one equation per constructor; and every instruction as an issue under its opcode and operands,
from which the rules of all instructions (R119, R130, R223) follow without looking at their bodies.
-/
namespace Sys2Proof.Machine

/-! ### The dispatch -/

theorem exec_powerGood (env) s : exec (.powerGood env) s = execPowerGood env s := rfl
theorem exec_bootTimeExceeded s : exec (.bootTimeExceeded) s = execBootTimeExceeded s := rfl
theorem exec_restaggerDelayExpiry (env) s : exec (.restaggerDelayExpiry env) s = execRestaggerDelayExpiry env s := rfl
theorem exec_holdTimeout (env) s : exec (.holdTimeout env) s = execHoldTimeout env s := rfl
theorem exec_modulePowerLoss s : exec (.modulePowerLoss) s = execModulePowerLoss s := rfl
theorem exec_hostModuleReset (env) s : exec (.hostModuleReset env) s = execHostModuleReset env s := rfl
theorem exec_pacingWindow (d demand) s : exec (.pacingWindow d demand) s = execPacingWindow d demand s := rfl
theorem exec_securityAlarmClass1 (r rs) s : exec (.securityAlarmClass1 r rs) s = execSecurityAlarmClass1 r rs s := rfl
theorem exec_securityAlarmClass2 (r rs env) s :
    exec (.securityAlarmClass2 r rs env) s = execSecurityAlarmClass2 r rs env s := rfl
theorem exec_securityAlarmClass3 (r rs env) s :
    exec (.securityAlarmClass3 r rs env) s = execSecurityAlarmClass3 r rs env s := rfl
theorem exec_go s : exec (.go) s = execGo s := rfl
theorem exec_setlimit s : exec (.setlimit) s = execSetlimit s := rfl
theorem exec_loadkey s : exec (.loadkey) s = execLoadkey s := rfl
theorem exec_clearkey s : exec (.clearkey) s = execClearkey s := rfl
theorem exec_portkey s : exec (.portkey) s = execPortkey s := rfl
theorem exec_setpos s : exec (.setpos) s = execSetpos s := rfl
theorem exec_release (env) s : exec (.release env) s = execRelease env s := rfl
theorem exec_attest s : exec (.attest) s = execAttest s := rfl
theorem exec_handles s : exec (.handles) s = execHandles s := rfl
theorem exec_cert s : exec (.cert) s = execCert s := rfl
theorem exec_readCell (l damage) s : exec (.readCell l damage) s = execReadCell l damage s := rfl
theorem exec_writeCell (l damage) s : exec (.writeCell l damage) s = execWriteCell l damage s := rfl
theorem exec_remoteAtomicCell (l damage) s : exec (.remoteAtomicCell l damage) s = execRemoteAtomicCell l damage s := rfl
theorem exec_copyElementCell (l damage) s : exec (.copyElementCell l damage) s = execCopyElementCell l damage s := rfl
theorem exec_migrationPull (l damage) s : exec (.migrationPull l damage) s = execMigrationPull l damage s := rfl
theorem exec_readData (l damage) s : exec (.readData l damage) s = execReadData l damage s := rfl
theorem exec_writeCompletion (l damage) s : exec (.writeCompletion l damage) s = execWriteCompletion l damage s := rfl
theorem exec_atomicResult (l damage) s : exec (.atomicResult l damage) s = execAtomicResult l damage s := rfl
theorem exec_faultReply (l damage) s : exec (.faultReply l damage) s = execFaultReply l damage s := rfl
theorem exec_kdPush (l damage) s : exec (.kdPush l damage) s = execKdPush l damage s := rfl
theorem exec_kdReturn (l damage) s : exec (.kdReturn l damage) s = execKdReturn l damage s := rfl
theorem exec_publishCell (l damage) s : exec (.publishCell l damage) s = execPublishCell l damage s := rfl
theorem exec_signalRelease (l damage) s : exec (.signalRelease l damage) s = execSignalRelease l damage s := rfl
theorem exec_ack (l damage) s : exec (.ack l damage) s = execAck l damage s := rfl
theorem exec_nak (l damage) s : exec (.nak l damage) s = execNak l damage s := rfl
theorem exec_creditOnly (l damage) s : exec (.creditOnly l damage) s = execCreditOnly l damage s := rfl
theorem exec_restagger (l damage) s : exec (.restagger l damage) s = execRestagger l damage s := rfl
theorem exec_keyControl (l damage) s : exec (.keyControl l damage) s = execKeyControl l damage s := rfl
theorem exec_linkStatus (l damage) s : exec (.linkStatus l damage) s = execLinkStatus l damage s := rfl
theorem exec_ackDeadline (l) s : exec (.ackDeadline l) s = execAckDeadline l s := rfl
theorem exec_linkRetrain (l trained) s : exec (.linkRetrain l trained) s = execLinkRetrain l trained s := rfl
theorem exec_tagFailureLimit (p) s : exec (.tagFailureLimit p) s = execTagFailureLimit p s := rfl
theorem exec_keyexp (p) s : exec (.keyexp p) s = execKeyexp p s := rfl
theorem exec_portRetry (p trained) s : exec (.portRetry p trained) s = execPortRetry p trained s := rfl
theorem exec_dieOfflineTransition (d room linksUp) s : exec (.dieOfflineTransition d room linksUp) s = execDieOfflineTransition d room linksUp s := rfl
theorem exec_apertureRead (d off len) s : exec (.apertureRead d off len) s = execApertureRead d off len s := rfl
theorem exec_apertureWrite (d off data) s : exec (.apertureWrite d off data) s = execApertureWrite d off data s := rfl
theorem exec_apfClear (d) s : exec (.apfClear d) s = execApfClear d s := rfl
theorem exec_resume (d) s : exec (.resume d) s = execResume d s := rfl
theorem exec_queueConfigWrite (d q v) s : exec (.queueConfigWrite d q v) s = execQueueConfigWrite d q v s := rfl
theorem exec_queueDisable (d q v) s : exec (.queueDisable d q v) s = execQueueDisable d q v s := rfl
theorem exec_tail (d q v) s : exec (.tail d q v) s = execTail d q v s := rfl
theorem exec_resv (d q) s : exec (.resv d q) s = execResv d q s := rfl
theorem exec_commit (d q v) s : exec (.commit d q v) s = execCommit d q v s := rfl
theorem exec_commandRecordRead (d q) s : exec (.commandRecordRead d q) s = execCommandRecordRead d q s := rfl
theorem exec_commandStart (d q) s : exec (.commandStart d q) s = execCommandStart d q s := rfl
theorem exec_commandCompletion (d c) s : exec (.commandCompletion d c) s = execCommandCompletion d c s := rfl
theorem exec_nopCommand (d c) s : exec (.nopCommand d c) s = execNopCommand d c s := rfl
theorem exec_launchCommand (d c) s : exec (.launchCommand d c) s = execLaunchCommand d c s := rfl
theorem exec_copyCommand (d c) s : exec (.copyCommand d c) s = execCopyCommand d c s := rfl
theorem exec_publishCommand (d c) s : exec (.publishCommand d c) s = execPublishCommand d c s := rfl
theorem exec_signalCommand (d c) s : exec (.signalCommand d c) s = execSignalCommand d c s := rfl
theorem exec_waitCommand (d c) s : exec (.waitCommand d c) s = execWaitCommand d c s := rfl
theorem exec_migrate (d c) s : exec (.migrate d c) s = execMigrate d c s := rfl
theorem exec_migrationPageSwitch (d c) s : exec (.migrationPageSwitch d c) s = execMigrationPageSwitch d c s := rfl
theorem exec_migrationLinePulled (d page line) s : exec (.migrationLinePulled d page line) s = execMigrationLinePulled d page line s := rfl
theorem exec_quiesce (d c) s : exec (.quiesce d c) s = execQuiesce d c s := rfl
theorem exec_quiesceComplete (d) s : exec (.quiesceComplete d) s = execQuiesceComplete d s := rfl
theorem exec_tlbctlAll (d) s : exec (.tlbctlAll d) s = execTlbctlAll d s := rfl
theorem exec_tlbctlPage (d v) s : exec (.tlbctlPage d v) s = execTlbctlPage d v s := rfl
theorem exec_invalidationDone (d) s : exec (.invalidationDone d) s = execInvalidationDone d s := rfl
theorem exec_fttail (d v) s : exec (.fttail d v) s = execFttail d v s := rfl
theorem exec_frameZeroed (d) s : exec (.frameZeroed d) s = execFrameZeroed d s := rfl
theorem exec_ftemptyClear (d) s : exec (.ftemptyClear d) s = execFtemptyClear d s := rfl
theorem exec_controlRegisterWrite (fn off v) s : exec (.controlRegisterWrite fn off v) s = execControlRegisterWrite fn off v s := rfl
theorem exec_nodeOpen (d n i) s : exec (.nodeOpen d n i) s = execNodeOpen d n i s := rfl
theorem exec_groupPlacement (d n i) s : exec (.groupPlacement d n i) s = execGroupPlacement d n i s := rfl
theorem exec_placementStarvation (d) s : exec (.placementStarvation d) s = execPlacementStarvation d s := rfl
theorem exec_groupEnd (d g) s : exec (.groupEnd d g) s = execGroupEnd d g s := rfl
theorem exec_priorityPreemption (d n i) s : exec (.priorityPreemption d n i) s = execPriorityPreemption d n i s := rfl
theorem exec_savedGroupPlacement (d g) s : exec (.savedGroupPlacement d g) s = execSavedGroupPlacement d g s := rfl
theorem exec_groupSaved (d g) s : exec (.groupSaved d g) s = execGroupSaved d g s := rfl
theorem exec_faultVector (d g k q) s : exec (.faultVector d g k q) s = execFaultVector d g k q s := rfl
theorem exec_pageFaultVector (d g k q) s : exec (.pageFaultVector d g k q) s = execPageFaultVector d g k q s := rfl
theorem exec_faultBeyondRecovery (d g) s : exec (.faultBeyondRecovery d g) s = execFaultBeyondRecovery d g s := rfl
theorem exec_portDeadlock (d g) s : exec (.portDeadlock d g) s = execPortDeadlock d g s := rfl
theorem exec_engineElementPerformed (d c e) s : exec (.engineElementPerformed d c e) s = execEngineElementPerformed d c e s := rfl
theorem exec_engineCommandCompletion (d c) s : exec (.engineCommandCompletion d c) s = execEngineCommandCompletion d c s := rfl
theorem exec_sigwaitReread (d g k q) s : exec (.sigwaitReread d g k q) s = execSigwaitReread d g k q s := rfl
theorem exec_joinEntryExecute (d core) s : exec (.joinEntryExecute d core) s = execJoinEntryExecute d core s := rfl
theorem exec_batchComplete (d core) s : exec (.batchComplete d core) s = execBatchComplete d core s := rfl
theorem exec_joinFreeze (d core) s : exec (.joinFreeze d core) s = execJoinFreeze d core s := rfl
theorem exec_macqGrant (d core) s : exec (.macqGrant d core) s = execMacqGrant d core s := rfl
theorem exec_barRelease (d g) s : exec (.barRelease d g) s = execBarRelease d g s := rfl
theorem exec_gsyncRelease (d g) s : exec (.gsyncRelease d g) s = execGsyncRelease d g s := rfl
theorem exec_regangJoin (d g k) s : exec (.regangJoin d g k) s = execRegangJoin d g k s := rfl
theorem exec_vadd (o) s : exec (.vadd o) s = execVadd o s := rfl
theorem exec_vsub (o) s : exec (.vsub o) s = execVsub o s := rfl
theorem exec_vmul (o) s : exec (.vmul o) s = execVmul o s := rfl
theorem exec_vmulhi (o) s : exec (.vmulhi o) s = execVmulhi o s := rfl
theorem exec_vmad (o) s : exec (.vmad o) s = execVmad o s := rfl
theorem exec_vneg (o) s : exec (.vneg o) s = execVneg o s := rfl
theorem exec_vabs (o) s : exec (.vabs o) s = execVabs o s := rfl
theorem exec_vmin (o) s : exec (.vmin o) s = execVmin o s := rfl
theorem exec_vmax (o) s : exec (.vmax o) s = execVmax o s := rfl
theorem exec_vand (o) s : exec (.vand o) s = execVand o s := rfl
theorem exec_vor (o) s : exec (.vor o) s = execVor o s := rfl
theorem exec_vxor (o) s : exec (.vxor o) s = execVxor o s := rfl
theorem exec_vnot (o) s : exec (.vnot o) s = execVnot o s := rfl
theorem exec_vshl (o) s : exec (.vshl o) s = execVshl o s := rfl
theorem exec_vshr (o) s : exec (.vshr o) s = execVshr o s := rfl
theorem exec_vrot (o) s : exec (.vrot o) s = execVrot o s := rfl
theorem exec_vpopc (o) s : exec (.vpopc o) s = execVpopc o s := rfl
theorem exec_vclz (o) s : exec (.vclz o) s = execVclz o s := rfl
theorem exec_vbrev (o) s : exec (.vbrev o) s = execVbrev o s := rfl
theorem exec_vbfx (o) s : exec (.vbfx o) s = execVbfx o s := rfl
theorem exec_vbfi (o) s : exec (.vbfi o) s = execVbfi o s := rfl
theorem exec_vcmp (o) s : exec (.vcmp o) s = execVcmp o s := rfl
theorem exec_vsel (o) s : exec (.vsel o) s = execVsel o s := rfl
theorem exec_vmov (o) s : exec (.vmov o) s = execVmov o s := rfl
theorem exec_vmovi (o) s : exec (.vmovi o) s = execVmovi o s := rfl
theorem exec_vdot4 (o) s : exec (.vdot4 o) s = execVdot4 o s := rfl
theorem exec_vdot8 (o) s : exec (.vdot8 o) s = execVdot8 o s := rfl
theorem exec_vlea (o) s : exec (.vlea o) s = execVlea o s := rfl
theorem exec_vfadd (o) s : exec (.vfadd o) s = execVfadd o s := rfl
theorem exec_vfsub (o) s : exec (.vfsub o) s = execVfsub o s := rfl
theorem exec_vfmul (o) s : exec (.vfmul o) s = execVfmul o s := rfl
theorem exec_vffma (o) s : exec (.vffma o) s = execVffma o s := rfl
theorem exec_vfmin (o) s : exec (.vfmin o) s = execVfmin o s := rfl
theorem exec_vfmax (o) s : exec (.vfmax o) s = execVfmax o s := rfl
theorem exec_vfcmp (o) s : exec (.vfcmp o) s = execVfcmp o s := rfl
theorem exec_vfrcp (o) s : exec (.vfrcp o) s = execVfrcp o s := rfl
theorem exec_vfrsq (o) s : exec (.vfrsq o) s = execVfrsq o s := rfl
theorem exec_vfsqrt (o) s : exec (.vfsqrt o) s = execVfsqrt o s := rfl
theorem exec_vfexp2 (o) s : exec (.vfexp2 o) s = execVfexp2 o s := rfl
theorem exec_vflog2 (o) s : exec (.vflog2 o) s = execVflog2 o s := rfl
theorem exec_vfclass (o) s : exec (.vfclass o) s = execVfclass o s := rfl
theorem exec_vfdiv (o) s : exec (.vfdiv o) s = execVfdiv o s := rfl
theorem exec_sadd (o) s : exec (.sadd o) s = execSadd o s := rfl
theorem exec_ssub (o) s : exec (.ssub o) s = execSsub o s := rfl
theorem exec_smul (o) s : exec (.smul o) s = execSmul o s := rfl
theorem exec_sand (o) s : exec (.sand o) s = execSand o s := rfl
theorem exec_sor (o) s : exec (.sor o) s = execSor o s := rfl
theorem exec_sxor (o) s : exec (.sxor o) s = execSxor o s := rfl
theorem exec_sshl (o) s : exec (.sshl o) s = execSshl o s := rfl
theorem exec_sshr (o) s : exec (.sshr o) s = execSshr o s := rfl
theorem exec_scmp (o) s : exec (.scmp o) s = execScmp o s := rfl
theorem exec_smov (o) s : exec (.smov o) s = execSmov o s := rfl
theorem exec_smovi (o) s : exec (.smovi o) s = execSmovi o s := rfl
theorem exec_ssel (o) s : exec (.ssel o) s = execSsel o s := rfl
theorem exec_vcvt (o) s : exec (.vcvt o) s = execVcvt o s := rfl
theorem exec_vfcvti (o) s : exec (.vfcvti o) s = execVfcvti o s := rfl
theorem exec_vicvtf (o) s : exec (.vicvtf o) s = execVicvtf o s := rfl
theorem exec_vpack (o) s : exec (.vpack o) s = execVpack o s := rfl
theorem exec_vunpk (o) s : exec (.vunpk o) s = execVunpk o s := rfl
theorem exec_vplx (o) s : exec (.vplx o) s = execVplx o s := rfl
theorem exec_vpli (o) s : exec (.vpli o) s = execVpli o s := rfl
theorem exec_vsplit6 (o) s : exec (.vsplit6 o) s = execVsplit6 o s := rfl
theorem exec_vjoin6 (o) s : exec (.vjoin6 o) s = execVjoin6 o s := rfl
theorem exec_sfmt (o) s : exec (.sfmt o) s = execSfmt o s := rfl
theorem exec_ifMask (o) s : exec (.ifMask o) s = execIfMask o s := rfl
theorem exec_elseMask (o) s : exec (.elseMask o) s = execElseMask o s := rfl
theorem exec_endif (o) s : exec (.endif o) s = execEndif o s := rfl
theorem exec_loop (o) s : exec (.loop o) s = execLoop o s := rfl
theorem exec_brk (o) s : exec (.brk o) s = execBrk o s := rfl
theorem exec_cont (o) s : exec (.cont o) s = execCont o s := rfl
theorem exec_endloop (o) s : exec (.endloop o) s = execEndloop o s := rfl
theorem exec_regang (o) s : exec (.regang o) s = execRegang o s := rfl
theorem exec_jmp (o) s : exec (.jmp o) s = execJmp o s := rfl
theorem exec_bra (o) s : exec (.bra o) s = execBra o s := rfl
theorem exec_call (o) s : exec (.call o) s = execCall o s := rfl
theorem exec_ret (o) s : exec (.ret o) s = execRet o s := rfl
theorem exec_rep (o) s : exec (.rep o) s = execRep o s := rfl
theorem exec_exit (o) s : exec (.exit o) s = execExit o s := rfl
theorem exec_yield (o) s : exec (.yield o) s = execYield o s := rfl
theorem exec_nop (o) s : exec (.nop o) s = execNop o s := rfl
theorem exec_bar (o) s : exec (.bar o) s = execBar o s := rfl
theorem exec_gsync (o) s : exec (.gsync o) s = execGsync o s := rfl
theorem exec_vshfl (o) s : exec (.vshfl o) s = execVshfl o s := rfl
theorem exec_vvote (o) s : exec (.vvote o) s = execVvote o s := rfl
theorem exec_vred (o) s : exec (.vred o) s = execVred o s := rfl
theorem exec_vscan (o) s : exec (.vscan o) s = execVscan o s := rfl
theorem exec_vmatch (o) s : exec (.vmatch o) s = execVmatch o s := rfl
theorem exec_vconf (o) s : exec (.vconf o) s = execVconf o s := rfl
theorem exec_vquad (o) s : exec (.vquad o) s = execVquad o s := rfl
theorem exec_vsegred (o) s : exec (.vsegred o) s = execVsegred o s := rfl
theorem exec_pbind (o) s : exec (.pbind o) s = execPbind o s := rfl
theorem exec_pcnt (o) s : exec (.pcnt o) s = execPcnt o s := rfl
theorem exec_pflush (o) s : exec (.pflush o) s = execPflush o s := rfl
theorem exec_xwin (o) s : exec (.xwin o) s = execXwin o s := rfl
theorem exec_ld (o) s : exec (.ld o) s = execLd o s := rfl
theorem exec_st (o) s : exec (.st o) s = execSt o s := rfl
theorem exec_atom (o) s : exec (.atom o) s = execAtom o s := rfl
theorem exec_wset (o) s : exec (.wset o) s = execWset o s := rfl
theorem exec_copy (o) s : exec (.copy o) s = execCopy o s := rfl
theorem exec_gath (o) s : exec (.gath o) s = execGath o s := rfl
theorem exec_scat (o) s : exec (.scat o) s = execScat o s := rfl
theorem exec_ratom (o) s : exec (.ratom o) s = execRatom o s := rfl
theorem exec_coll (o) s : exec (.coll o) s = execColl o s := rfl
theorem exec_wait (o) s : exec (.wait o) s = execWait o s := rfl
theorem exec_publish (o) s : exec (.publish o) s = execPublish o s := rfl
theorem exec_fence (o) s : exec (.fence o) s = execFence o s := rfl
theorem exec_sigadd (o) s : exec (.sigadd o) s = execSigadd o s := rfl
theorem exec_sigwait (o) s : exec (.sigwait o) s = execSigwait o s := rfl
theorem exec_launch (o) s : exec (.launch o) s = execLaunch o s := rfl
theorem exec_nres (o) s : exec (.nres o) s = execNres o s := rfl
theorem exec_nhand (o) s : exec (.nhand o) s = execNhand o s := rfl
theorem exec_macq (o) s : exec (.macq o) s = execMacq o s := rfl
theorem exec_mrel (o) s : exec (.mrel o) s = execMrel o s := rfl
theorem exec_tfill (o) s : exec (.tfill o) s = execTfill o s := rfl
theorem exec_tzero (o) s : exec (.tzero o) s = execTzero o s := rfl
theorem exec_tstore (o) s : exec (.tstore o) s = execTstore o s := rfl
theorem exec_jmm (o) s : exec (.jmm o) s = execJmm o s := rfl
theorem exec_jmms (o) s : exec (.jmms o) s = execJmms o s := rfl
theorem exec_jstream (o) s : exec (.jstream o) s = execJstream o s := rfl
theorem exec_jbatch (o) s : exec (.jbatch o) s = execJbatch o s := rfl
theorem exec_jwait (o) s : exec (.jwait o) s = execJwait o s := rfl
theorem exec_copen (o) s : exec (.copen o) s = execCopen o s := rfl
theorem exec_cacc (o) s : exec (.cacc o) s = execCacc o s := rfl
theorem exec_cprobe (o) s : exec (.cprobe o) s = execCprobe o s := rfl
theorem exec_cdrain (o) s : exec (.cdrain o) s = execCdrain o s := rfl
theorem exec_cclose (o) s : exec (.cclose o) s = execCclose o s := rfl
theorem exec_cstat (o) s : exec (.cstat o) s = execCstat o s := rfl
theorem exec_tsave (o) s : exec (.tsave o) s = execTsave o s := rfl
theorem exec_tload (o) s : exec (.tload o) s = execTload o s := rfl
theorem exec_csave (o) s : exec (.csave o) s = execCsave o s := rfl
theorem exec_cload (o) s : exec (.cload o) s = execCload o s := rfl
theorem exec_trap (o) s : exec (.trap o) s = execTrap o s := rfl
theorem exec_rfe (o) s : exec (.rfe o) s = execRfe o s := rfl
theorem exec_sysrd (o) s : exec (.sysrd o) s = execSysrd o s := rfl
theorem exec_syswr (o) s : exec (.syswr o) s = execSyswr o s := rfl
theorem exec_fltrd (o) s : exec (.fltrd o) s = execFltrd o s := rfl
theorem exec_unpark (o) s : exec (.unpark o) s = execUnpark o s := rfl
theorem exec_pmap (o) s : exec (.pmap o) s = execPmap o s := rfl
theorem exec_tlbinv (o) s : exec (.tlbinv o) s = execTlbinv o s := rfl
theorem exec_gsave (o) s : exec (.gsave o) s = execGsave o s := rfl
theorem exec_gload (o) s : exec (.gload o) s = execGload o s := rfl
theorem exec_jfrz (o) s : exec (.jfrz o) s = execJfrz o s := rfl
theorem exec_halt (o) s : exec (.halt o) s = execHalt o s := rfl
theorem exec_brkpt (o) s : exec (.brkpt o) s = execBrkpt o s := rfl
theorem exec_exportSlotFill (d slot base len rights) s : exec (.exportSlotFill d slot base len rights) s = execExportSlotFill d slot base len rights s := rfl
theorem exec_exportRevoke (d slot) s : exec (.exportRevoke d slot) s = execExportRevoke d slot s := rfl

/-! ### Every instruction is issued -/

/-- An instruction other than `rfe` is issued with its opcode and operands; outside the join and special-register
groups it makes no check but that of its registers. -/
def Issues (i : Instr) : Prop :=
  ∀ op ops s, opcodeAndOps i = some (op, ops) → op ≠ 0x1C1 →
    ∃ checks body, exec i s = issueChecked op ops ops.head s checks body ∧
      (op < 0x180 ∨ 0x1C4 ≤ op → checks = fun c => (c.regCause op ops).map (·, 0))

theorem issues_vadd (o) : Issues (.vadd o) := by
  rintro _ _ s ⟨⟩ -; rw [exec_vadd]; unfold execVadd intOp laneOp issueWith; exact ⟨_, _, rfl, fun h => by first | rfl | omega⟩
theorem issues_vsub (o) : Issues (.vsub o) := by
  rintro _ _ s ⟨⟩ -; rw [exec_vsub]; unfold execVsub intOp laneOp issueWith; exact ⟨_, _, rfl, fun h => by first | rfl | omega⟩
theorem issues_vmul (o) : Issues (.vmul o) := by
  rintro _ _ s ⟨⟩ -; rw [exec_vmul]; unfold execVmul intOp laneOp issueWith; exact ⟨_, _, rfl, fun h => by first | rfl | omega⟩
theorem issues_vmulhi (o) : Issues (.vmulhi o) := by
  rintro _ _ s ⟨⟩ -; rw [exec_vmulhi]; unfold execVmulhi intOp laneOp issueWith; exact ⟨_, _, rfl, fun h => by first | rfl | omega⟩
theorem issues_vmad (o) : Issues (.vmad o) := by
  rintro _ _ s ⟨⟩ -; rw [exec_vmad]; unfold execVmad intOp laneOp issueWith; exact ⟨_, _, rfl, fun h => by first | rfl | omega⟩
theorem issues_vneg (o) : Issues (.vneg o) := by
  rintro _ _ s ⟨⟩ -; rw [exec_vneg]; unfold execVneg intOp laneOp issueWith; exact ⟨_, _, rfl, fun h => by first | rfl | omega⟩
theorem issues_vabs (o) : Issues (.vabs o) := by
  rintro _ _ s ⟨⟩ -; rw [exec_vabs]; unfold execVabs intOp laneOp issueWith; exact ⟨_, _, rfl, fun h => by first | rfl | omega⟩
theorem issues_vmin (o) : Issues (.vmin o) := by
  rintro _ _ s ⟨⟩ -; rw [exec_vmin]; unfold execVmin intOp laneOp issueWith; exact ⟨_, _, rfl, fun h => by first | rfl | omega⟩
theorem issues_vmax (o) : Issues (.vmax o) := by
  rintro _ _ s ⟨⟩ -; rw [exec_vmax]; unfold execVmax intOp laneOp issueWith; exact ⟨_, _, rfl, fun h => by first | rfl | omega⟩
theorem issues_vand (o) : Issues (.vand o) := by
  rintro _ _ s ⟨⟩ -; rw [exec_vand]; unfold execVand bitOp laneOp issueWith; exact ⟨_, _, rfl, fun h => by first | rfl | omega⟩
theorem issues_vor (o) : Issues (.vor o) := by
  rintro _ _ s ⟨⟩ -; rw [exec_vor]; unfold execVor bitOp laneOp issueWith; exact ⟨_, _, rfl, fun h => by first | rfl | omega⟩
theorem issues_vxor (o) : Issues (.vxor o) := by
  rintro _ _ s ⟨⟩ -; rw [exec_vxor]; unfold execVxor bitOp laneOp issueWith; exact ⟨_, _, rfl, fun h => by first | rfl | omega⟩
theorem issues_vnot (o) : Issues (.vnot o) := by
  rintro _ _ s ⟨⟩ -; rw [exec_vnot]; unfold execVnot bitOp laneOp issueWith; exact ⟨_, _, rfl, fun h => by first | rfl | omega⟩
theorem issues_vshl (o) : Issues (.vshl o) := by
  rintro _ _ s ⟨⟩ -; rw [exec_vshl]; unfold execVshl bitOp laneOp issueWith; exact ⟨_, _, rfl, fun h => by first | rfl | omega⟩
theorem issues_vshr (o) : Issues (.vshr o) := by
  rintro _ _ s ⟨⟩ -; rw [exec_vshr]; unfold execVshr bitOp laneOp issueWith; exact ⟨_, _, rfl, fun h => by first | rfl | omega⟩
theorem issues_vrot (o) : Issues (.vrot o) := by
  rintro _ _ s ⟨⟩ -; rw [exec_vrot]; unfold execVrot wordOp laneOp issueWith; exact ⟨_, _, rfl, fun h => by first | rfl | omega⟩
theorem issues_vpopc (o) : Issues (.vpopc o) := by
  rintro _ _ s ⟨⟩ -; rw [exec_vpopc]; unfold execVpopc wordOp laneOp issueWith; exact ⟨_, _, rfl, fun h => by first | rfl | omega⟩
theorem issues_vclz (o) : Issues (.vclz o) := by
  rintro _ _ s ⟨⟩ -; rw [exec_vclz]; unfold execVclz wordOp laneOp issueWith; exact ⟨_, _, rfl, fun h => by first | rfl | omega⟩
theorem issues_vbrev (o) : Issues (.vbrev o) := by
  rintro _ _ s ⟨⟩ -; rw [exec_vbrev]; unfold execVbrev wordOp laneOp issueWith; exact ⟨_, _, rfl, fun h => by first | rfl | omega⟩
theorem issues_vbfx (o) : Issues (.vbfx o) := by
  rintro _ _ s ⟨⟩ -; rw [exec_vbfx]; unfold execVbfx wordOp laneOp issueWith; exact ⟨_, _, rfl, fun h => by first | rfl | omega⟩
theorem issues_vbfi (o) : Issues (.vbfi o) := by
  rintro _ _ s ⟨⟩ -; rw [exec_vbfi]; unfold execVbfi laneOp issueWith; exact ⟨_, _, rfl, fun h => by first | rfl | omega⟩
theorem issues_vcmp (o) : Issues (.vcmp o) := by
  rintro _ _ s ⟨⟩ -; rw [exec_vcmp]; unfold execVcmp laneOp issueWith; exact ⟨_, _, rfl, fun h => by first | rfl | omega⟩
theorem issues_vsel (o) : Issues (.vsel o) := by
  rintro _ _ s ⟨⟩ -; rw [exec_vsel]; unfold execVsel laneOp issueWith; exact ⟨_, _, rfl, fun h => by first | rfl | omega⟩
theorem issues_vmov (o) : Issues (.vmov o) := by
  rintro _ _ s ⟨⟩ -; rw [exec_vmov]; unfold execVmov bitOp laneOp issueWith; exact ⟨_, _, rfl, fun h => by first | rfl | omega⟩
theorem issues_vmovi (o) : Issues (.vmovi o) := by
  rintro _ _ s ⟨⟩ -; rw [exec_vmovi]; unfold execVmovi laneOp issueWith; exact ⟨_, _, rfl, fun h => by first | rfl | omega⟩
theorem issues_vdot4 (o) : Issues (.vdot4 o) := by
  rintro _ _ s ⟨⟩ -; rw [exec_vdot4]; unfold execVdot4 laneOp issueWith; exact ⟨_, _, rfl, fun h => by first | rfl | omega⟩
theorem issues_vdot8 (o) : Issues (.vdot8 o) := by
  rintro _ _ s ⟨⟩ -; rw [exec_vdot8]; unfold execVdot8 laneOp issueWith; exact ⟨_, _, rfl, fun h => by first | rfl | omega⟩
theorem issues_vlea (o) : Issues (.vlea o) := by
  rintro _ _ s ⟨⟩ -; rw [exec_vlea]; unfold execVlea wordOp laneOp issueWith; exact ⟨_, _, rfl, fun h => by first | rfl | omega⟩
theorem issues_vfadd (o) : Issues (.vfadd o) := by
  rintro _ _ s ⟨⟩ -; rw [exec_vfadd]; unfold execVfadd floatOp laneOp issueWith; exact ⟨_, _, rfl, fun h => by first | rfl | omega⟩
theorem issues_vfsub (o) : Issues (.vfsub o) := by
  rintro _ _ s ⟨⟩ -; rw [exec_vfsub]; unfold execVfsub floatOp laneOp issueWith; exact ⟨_, _, rfl, fun h => by first | rfl | omega⟩
theorem issues_vfmul (o) : Issues (.vfmul o) := by
  rintro _ _ s ⟨⟩ -; rw [exec_vfmul]; unfold execVfmul floatOp laneOp issueWith; exact ⟨_, _, rfl, fun h => by first | rfl | omega⟩
theorem issues_vffma (o) : Issues (.vffma o) := by
  rintro _ _ s ⟨⟩ -; rw [exec_vffma]; unfold execVffma floatOp laneOp issueWith; exact ⟨_, _, rfl, fun h => by first | rfl | omega⟩
theorem issues_vfmin (o) : Issues (.vfmin o) := by
  rintro _ _ s ⟨⟩ -; rw [exec_vfmin]; unfold execVfmin laneOp issueWith; exact ⟨_, _, rfl, fun h => by first | rfl | omega⟩
theorem issues_vfmax (o) : Issues (.vfmax o) := by
  rintro _ _ s ⟨⟩ -; rw [exec_vfmax]; unfold execVfmax laneOp issueWith; exact ⟨_, _, rfl, fun h => by first | rfl | omega⟩
theorem issues_vfcmp (o) : Issues (.vfcmp o) := by
  rintro _ _ s ⟨⟩ -; rw [exec_vfcmp]; unfold execVfcmp laneOp issueWith; exact ⟨_, _, rfl, fun h => by first | rfl | omega⟩
theorem issues_vfrcp (o) : Issues (.vfrcp o) := by
  rintro _ _ s ⟨⟩ -; rw [exec_vfrcp]; unfold execVfrcp floatOp laneOp issueWith; exact ⟨_, _, rfl, fun h => by first | rfl | omega⟩
theorem issues_vfrsq (o) : Issues (.vfrsq o) := by
  rintro _ _ s ⟨⟩ -; rw [exec_vfrsq]; unfold execVfrsq floatOp laneOp issueWith; exact ⟨_, _, rfl, fun h => by first | rfl | omega⟩
theorem issues_vfsqrt (o) : Issues (.vfsqrt o) := by
  rintro _ _ s ⟨⟩ -; rw [exec_vfsqrt]; unfold execVfsqrt floatOp laneOp issueWith; exact ⟨_, _, rfl, fun h => by first | rfl | omega⟩
theorem issues_vfexp2 (o) : Issues (.vfexp2 o) := by
  rintro _ _ s ⟨⟩ -; rw [exec_vfexp2]; unfold execVfexp2 floatOp laneOp issueWith; exact ⟨_, _, rfl, fun h => by first | rfl | omega⟩
theorem issues_vflog2 (o) : Issues (.vflog2 o) := by
  rintro _ _ s ⟨⟩ -; rw [exec_vflog2]; unfold execVflog2 floatOp laneOp issueWith; exact ⟨_, _, rfl, fun h => by first | rfl | omega⟩
theorem issues_vfclass (o) : Issues (.vfclass o) := by
  rintro _ _ s ⟨⟩ -; rw [exec_vfclass]; unfold execVfclass laneOp issueWith; exact ⟨_, _, rfl, fun h => by first | rfl | omega⟩
theorem issues_vfdiv (o) : Issues (.vfdiv o) := by
  rintro _ _ s ⟨⟩ -; rw [exec_vfdiv]; unfold execVfdiv floatOp laneOp issueWith; exact ⟨_, _, rfl, fun h => by first | rfl | omega⟩
theorem issues_sadd (o) : Issues (.sadd o) := by
  rintro _ _ s ⟨⟩ -; rw [exec_sadd]; unfold execSadd scalarInt scalarOp issueWith; exact ⟨_, _, rfl, fun h => by first | rfl | omega⟩
theorem issues_ssub (o) : Issues (.ssub o) := by
  rintro _ _ s ⟨⟩ -; rw [exec_ssub]; unfold execSsub scalarInt scalarOp issueWith; exact ⟨_, _, rfl, fun h => by first | rfl | omega⟩
theorem issues_smul (o) : Issues (.smul o) := by
  rintro _ _ s ⟨⟩ -; rw [exec_smul]; unfold execSmul scalarInt scalarOp issueWith; exact ⟨_, _, rfl, fun h => by first | rfl | omega⟩
theorem issues_sand (o) : Issues (.sand o) := by
  rintro _ _ s ⟨⟩ -; rw [exec_sand]; unfold execSand scalarBits scalarOp issueWith; exact ⟨_, _, rfl, fun h => by first | rfl | omega⟩
theorem issues_sor (o) : Issues (.sor o) := by
  rintro _ _ s ⟨⟩ -; rw [exec_sor]; unfold execSor scalarBits scalarOp issueWith; exact ⟨_, _, rfl, fun h => by first | rfl | omega⟩
theorem issues_sxor (o) : Issues (.sxor o) := by
  rintro _ _ s ⟨⟩ -; rw [exec_sxor]; unfold execSxor scalarBits scalarOp issueWith; exact ⟨_, _, rfl, fun h => by first | rfl | omega⟩
theorem issues_sshl (o) : Issues (.sshl o) := by
  rintro _ _ s ⟨⟩ -; rw [exec_sshl]; unfold execSshl scalarBits scalarOp issueWith; exact ⟨_, _, rfl, fun h => by first | rfl | omega⟩
theorem issues_sshr (o) : Issues (.sshr o) := by
  rintro _ _ s ⟨⟩ -; rw [exec_sshr]; unfold execSshr scalarBits scalarOp issueWith; exact ⟨_, _, rfl, fun h => by first | rfl | omega⟩
theorem issues_scmp (o) : Issues (.scmp o) := by
  rintro _ _ s ⟨⟩ -; rw [exec_scmp]; unfold execScmp scalarOp issueWith; exact ⟨_, _, rfl, fun h => by first | rfl | omega⟩
theorem issues_smov (o) : Issues (.smov o) := by
  rintro _ _ s ⟨⟩ -; rw [exec_smov]; unfold execSmov scalarBits scalarOp issueWith; exact ⟨_, _, rfl, fun h => by first | rfl | omega⟩
theorem issues_smovi (o) : Issues (.smovi o) := by
  rintro _ _ s ⟨⟩ -; rw [exec_smovi]; unfold execSmovi scalarOp issueWith; exact ⟨_, _, rfl, fun h => by first | rfl | omega⟩
theorem issues_ssel (o) : Issues (.ssel o) := by
  rintro _ _ s ⟨⟩ -; rw [exec_ssel]; unfold execSsel scalarOp issueWith; exact ⟨_, _, rfl, fun h => by first | rfl | omega⟩
theorem issues_vcvt (o) : Issues (.vcvt o) := by
  rintro _ _ s ⟨⟩ -; rw [exec_vcvt]; unfold execVcvt laneOp issueWith; exact ⟨_, _, rfl, fun h => by first | rfl | omega⟩
theorem issues_vfcvti (o) : Issues (.vfcvti o) := by
  rintro _ _ s ⟨⟩ -; rw [exec_vfcvti]; unfold execVfcvti laneOp issueWith; exact ⟨_, _, rfl, fun h => by first | rfl | omega⟩
theorem issues_vicvtf (o) : Issues (.vicvtf o) := by
  rintro _ _ s ⟨⟩ -; rw [exec_vicvtf]; unfold execVicvtf issueWith; exact ⟨_, _, rfl, fun h => by first | rfl | omega⟩
theorem issues_vpack (o) : Issues (.vpack o) := by
  rintro _ _ s ⟨⟩ -; rw [exec_vpack]; unfold execVpack laneOp issueWith; exact ⟨_, _, rfl, fun h => by first | rfl | omega⟩
theorem issues_vunpk (o) : Issues (.vunpk o) := by
  rintro _ _ s ⟨⟩ -; rw [exec_vunpk]; unfold execVunpk laneOp issueWith; exact ⟨_, _, rfl, fun h => by first | rfl | omega⟩
theorem issues_vplx (o) : Issues (.vplx o) := by
  rintro _ _ s ⟨⟩ -; rw [exec_vplx]; unfold execVplx issueWith; exact ⟨_, _, rfl, fun h => by first | rfl | omega⟩
theorem issues_vpli (o) : Issues (.vpli o) := by
  rintro _ _ s ⟨⟩ -; rw [exec_vpli]; unfold execVpli laneOp issueWith; exact ⟨_, _, rfl, fun h => by first | rfl | omega⟩
theorem issues_vsplit6 (o) : Issues (.vsplit6 o) := by
  rintro _ _ s ⟨⟩ -; rw [exec_vsplit6]; unfold execVsplit6 wordOp laneOp issueWith; exact ⟨_, _, rfl, fun h => by first | rfl | omega⟩
theorem issues_vjoin6 (o) : Issues (.vjoin6 o) := by
  rintro _ _ s ⟨⟩ -; rw [exec_vjoin6]; unfold execVjoin6 wordOp laneOp issueWith; exact ⟨_, _, rfl, fun h => by first | rfl | omega⟩
theorem issues_sfmt (o) : Issues (.sfmt o) := by
  rintro _ _ s ⟨⟩ -; rw [exec_sfmt]; unfold execSfmt issueWith; exact ⟨_, _, rfl, fun h => by first | rfl | omega⟩
theorem issues_ifMask (o) : Issues (.ifMask o) := by
  rintro _ _ s ⟨⟩ -; rw [exec_ifMask]; unfold execIfMask quadOp issueWith; exact ⟨_, _, rfl, fun h => by first | rfl | omega⟩
theorem issues_elseMask (o) : Issues (.elseMask o) := by
  rintro _ _ s ⟨⟩ -; rw [exec_elseMask]; unfold execElseMask quadOp issueWith; exact ⟨_, _, rfl, fun h => by first | rfl | omega⟩
theorem issues_endif (o) : Issues (.endif o) := by
  rintro _ _ s ⟨⟩ -; rw [exec_endif]; unfold execEndif quadOp issueWith; exact ⟨_, _, rfl, fun h => by first | rfl | omega⟩
theorem issues_loop (o) : Issues (.loop o) := by
  rintro _ _ s ⟨⟩ -; rw [exec_loop]; unfold execLoop quadOp issueWith; exact ⟨_, _, rfl, fun h => by first | rfl | omega⟩
theorem issues_brk (o) : Issues (.brk o) := by
  rintro _ _ s ⟨⟩ -; rw [exec_brk]; unfold execBrk leaveOp quadOp issueWith; exact ⟨_, _, rfl, fun h => by first | rfl | omega⟩
theorem issues_cont (o) : Issues (.cont o) := by
  rintro _ _ s ⟨⟩ -; rw [exec_cont]; unfold execCont leaveOp quadOp issueWith; exact ⟨_, _, rfl, fun h => by first | rfl | omega⟩
theorem issues_endloop (o) : Issues (.endloop o) := by
  rintro _ _ s ⟨⟩ -; rw [exec_endloop]; unfold execEndloop quadOp issueWith; exact ⟨_, _, rfl, fun h => by first | rfl | omega⟩
theorem issues_regang (o) : Issues (.regang o) := by
  rintro _ _ s ⟨⟩ -; rw [exec_regang]; unfold execRegang quadOp issueWith; exact ⟨_, _, rfl, fun h => by first | rfl | omega⟩
theorem issues_jmp (o) : Issues (.jmp o) := by
  rintro _ _ s ⟨⟩ -; rw [exec_jmp]; unfold execJmp guardedQuadOp quadOp issueWith; exact ⟨_, _, rfl, fun h => by first | rfl | omega⟩
theorem issues_bra (o) : Issues (.bra o) := by
  rintro _ _ s ⟨⟩ -; rw [exec_bra]; unfold execBra guardedQuadOp quadOp issueWith; exact ⟨_, _, rfl, fun h => by first | rfl | omega⟩
theorem issues_call (o) : Issues (.call o) := by
  rintro _ _ s ⟨⟩ -; rw [exec_call]; unfold execCall guardedQuadOp quadOp issueWith; exact ⟨_, _, rfl, fun h => by first | rfl | omega⟩
theorem issues_ret (o) : Issues (.ret o) := by
  rintro _ _ s ⟨⟩ -; rw [exec_ret]; unfold execRet guardedQuadOp quadOp issueWith; exact ⟨_, _, rfl, fun h => by first | rfl | omega⟩
theorem issues_rep (o) : Issues (.rep o) := by
  rintro _ _ s ⟨⟩ -; rw [exec_rep]; unfold execRep quadOp issueWith; exact ⟨_, _, rfl, fun h => by first | rfl | omega⟩
theorem issues_exit (o) : Issues (.exit o) := by
  rintro _ _ s ⟨⟩ -; rw [exec_exit]; unfold execExit guardedQuadOp quadOp issueWith; exact ⟨_, _, rfl, fun h => by first | rfl | omega⟩
theorem issues_yield (o) : Issues (.yield o) := by
  rintro _ _ s ⟨⟩ -; rw [exec_yield]; unfold execYield issueWith; exact ⟨_, _, rfl, fun h => by first | rfl | omega⟩
theorem issues_nop (o) : Issues (.nop o) := by
  rintro _ _ s ⟨⟩ -; rw [exec_nop]; unfold execNop issueWith; exact ⟨_, _, rfl, fun h => by first | rfl | omega⟩
theorem issues_bar (o) : Issues (.bar o) := by
  rintro _ _ s ⟨⟩ -; rw [exec_bar]; unfold execBar arriveOp issueWith; exact ⟨_, _, rfl, fun h => by first | rfl | omega⟩
theorem issues_gsync (o) : Issues (.gsync o) := by
  rintro _ _ s ⟨⟩ -; rw [exec_gsync]; unfold execGsync arriveOp issueWith; exact ⟨_, _, rfl, fun h => by first | rfl | omega⟩
theorem issues_vshfl (o) : Issues (.vshfl o) := by
  rintro _ _ s ⟨⟩ -; rw [exec_vshfl]; unfold execVshfl crossOp issueWith; exact ⟨_, _, rfl, fun h => by first | rfl | omega⟩
theorem issues_vvote (o) : Issues (.vvote o) := by
  rintro _ _ s ⟨⟩ -; rw [exec_vvote]; unfold execVvote crossOp issueWith; exact ⟨_, _, rfl, fun h => by first | rfl | omega⟩
theorem issues_vred (o) : Issues (.vred o) := by
  rintro _ _ s ⟨⟩ -; rw [exec_vred]; unfold execVred reduceOp issueWith; exact ⟨_, _, rfl, fun h => by first | rfl | omega⟩
theorem issues_vscan (o) : Issues (.vscan o) := by
  rintro _ _ s ⟨⟩ -; rw [exec_vscan]; unfold execVscan issueWith; exact ⟨_, _, rfl, fun h => by first | rfl | omega⟩
theorem issues_vmatch (o) : Issues (.vmatch o) := by
  rintro _ _ s ⟨⟩ -; rw [exec_vmatch]; unfold execVmatch crossOp issueWith; exact ⟨_, _, rfl, fun h => by first | rfl | omega⟩
theorem issues_vconf (o) : Issues (.vconf o) := by
  rintro _ _ s ⟨⟩ -; rw [exec_vconf]; unfold execVconf crossOp issueWith; exact ⟨_, _, rfl, fun h => by first | rfl | omega⟩
theorem issues_vquad (o) : Issues (.vquad o) := by
  rintro _ _ s ⟨⟩ -; rw [exec_vquad]; unfold execVquad crossOp issueWith; exact ⟨_, _, rfl, fun h => by first | rfl | omega⟩
theorem issues_vsegred (o) : Issues (.vsegred o) := by
  rintro _ _ s ⟨⟩ -; rw [exec_vsegred]; unfold execVsegred reduceOp issueWith; exact ⟨_, _, rfl, fun h => by first | rfl | omega⟩
theorem issues_pbind (o) : Issues (.pbind o) := by
  rintro _ _ s ⟨⟩ -; rw [exec_pbind]; unfold execPbind issueWith; exact ⟨_, _, rfl, fun h => by first | rfl | omega⟩
theorem issues_pcnt (o) : Issues (.pcnt o) := by
  rintro _ _ s ⟨⟩ -; rw [exec_pcnt]; unfold execPcnt issueWith; exact ⟨_, _, rfl, fun h => by first | rfl | omega⟩
theorem issues_pflush (o) : Issues (.pflush o) := by
  rintro _ _ s ⟨⟩ -; rw [exec_pflush]; unfold execPflush issueWith; exact ⟨_, _, rfl, fun h => by first | rfl | omega⟩
theorem issues_xwin (o) : Issues (.xwin o) := by
  rintro _ _ s ⟨⟩ -; rw [exec_xwin]; unfold execXwin issueWith; exact ⟨_, _, rfl, fun h => by first | rfl | omega⟩
theorem issues_ld (o) : Issues (.ld o) := by
  rintro _ _ s ⟨⟩ -; rw [exec_ld]; unfold execLd scratchOp memOp issueWith; exact ⟨_, _, rfl, fun h => by first | rfl | omega⟩
theorem issues_st (o) : Issues (.st o) := by
  rintro _ _ s ⟨⟩ -; rw [exec_st]; unfold execSt scratchOp memOp issueWith; exact ⟨_, _, rfl, fun h => by first | rfl | omega⟩
theorem issues_atom (o) : Issues (.atom o) := by
  rintro _ _ s ⟨⟩ -; rw [exec_atom]; unfold execAtom scratchOp memOp issueWith; exact ⟨_, _, rfl, fun h => by first | rfl | omega⟩
theorem issues_wset (o) : Issues (.wset o) := by
  rintro _ _ s ⟨⟩ -; rw [exec_wset]; unfold execWset memOp issueWith; exact ⟨_, _, rfl, fun h => by first | rfl | omega⟩
theorem issues_copy (o) : Issues (.copy o) := by
  rintro _ _ s ⟨⟩ -; rw [exec_copy]; unfold execCopy laneCommand memOp issueWith; exact ⟨_, _, rfl, fun h => by first | rfl | omega⟩
theorem issues_gath (o) : Issues (.gath o) := by
  rintro _ _ s ⟨⟩ -; rw [exec_gath]; unfold execGath laneCommand memOp issueWith; exact ⟨_, _, rfl, fun h => by first | rfl | omega⟩
theorem issues_scat (o) : Issues (.scat o) := by
  rintro _ _ s ⟨⟩ -; rw [exec_scat]; unfold execScat laneCommand memOp issueWith; exact ⟨_, _, rfl, fun h => by first | rfl | omega⟩
theorem issues_ratom (o) : Issues (.ratom o) := by
  rintro _ _ s ⟨⟩ -; rw [exec_ratom]; unfold execRatom laneCommand memOp issueWith; exact ⟨_, _, rfl, fun h => by first | rfl | omega⟩
theorem issues_coll (o) : Issues (.coll o) := by
  rintro _ _ s ⟨⟩ -; rw [exec_coll]; unfold execColl gangCommand memOp issueWith; exact ⟨_, _, rfl, fun h => by first | rfl | omega⟩
theorem issues_wait (o) : Issues (.wait o) := by
  rintro _ _ s ⟨⟩ -; rw [exec_wait]; unfold execWait issueWith; exact ⟨_, _, rfl, fun h => by first | rfl | omega⟩
theorem issues_publish (o) : Issues (.publish o) := by
  rintro _ _ s ⟨⟩ -; rw [exec_publish]; unfold execPublish gangCommand memOp issueWith; exact ⟨_, _, rfl, fun h => by first | rfl | omega⟩
theorem issues_fence (o) : Issues (.fence o) := by
  rintro _ _ s ⟨⟩ -; rw [exec_fence]; unfold execFence issueWith; exact ⟨_, _, rfl, fun h => by first | rfl | omega⟩
theorem issues_sigadd (o) : Issues (.sigadd o) := by
  rintro _ _ s ⟨⟩ -; rw [exec_sigadd]; unfold execSigadd gangCommand memOp issueWith; exact ⟨_, _, rfl, fun h => by first | rfl | omega⟩
theorem issues_sigwait (o) : Issues (.sigwait o) := by
  rintro _ _ s ⟨⟩ -; rw [exec_sigwait]; unfold execSigwait memOp issueWith; exact ⟨_, _, rfl, fun h => by first | rfl | omega⟩
theorem issues_launch (o) : Issues (.launch o) := by
  rintro _ _ s ⟨⟩ -; rw [exec_launch]; unfold execLaunch gangCommand memOp issueWith; exact ⟨_, _, rfl, fun h => by first | rfl | omega⟩
theorem issues_nres (o) : Issues (.nres o) := by
  rintro _ _ s ⟨⟩ -; rw [exec_nres]; unfold execNres nodeOp memOp issueWith; exact ⟨_, _, rfl, fun h => by first | rfl | omega⟩
theorem issues_nhand (o) : Issues (.nhand o) := by
  rintro _ _ s ⟨⟩ -; rw [exec_nhand]; unfold execNhand nodeOp memOp issueWith; exact ⟨_, _, rfl, fun h => by first | rfl | omega⟩
theorem issues_macq (o) : Issues (.macq o) := by
  rintro _ _ s ⟨⟩ -; rw [exec_macq]; unfold execMacq issueWith; exact ⟨_, _, rfl, fun h => by first | rfl | omega⟩
theorem issues_mrel (o) : Issues (.mrel o) := by
  rintro _ _ s ⟨⟩ -; rw [exec_mrel]; unfold execMrel joinOp; exact ⟨_, _, rfl, fun h => by first | rfl | omega⟩
theorem issues_tfill (o) : Issues (.tfill o) := by
  rintro _ _ s ⟨⟩ -; rw [exec_tfill]; unfold execTfill queuedOp joinOp; exact ⟨_, _, rfl, fun h => by first | rfl | omega⟩
theorem issues_tzero (o) : Issues (.tzero o) := by
  rintro _ _ s ⟨⟩ -; rw [exec_tzero]; unfold execTzero queuedOp joinOp; exact ⟨_, _, rfl, fun h => by first | rfl | omega⟩
theorem issues_tstore (o) : Issues (.tstore o) := by
  rintro _ _ s ⟨⟩ -; rw [exec_tstore]; unfold execTstore queuedOp joinOp; exact ⟨_, _, rfl, fun h => by first | rfl | omega⟩
theorem issues_jmm (o) : Issues (.jmm o) := by
  rintro _ _ s ⟨⟩ -; rw [exec_jmm]; unfold execJmm queuedOp joinOp; exact ⟨_, _, rfl, fun h => by first | rfl | omega⟩
theorem issues_jmms (o) : Issues (.jmms o) := by
  rintro _ _ s ⟨⟩ -; rw [exec_jmms]; unfold execJmms queuedOp joinOp; exact ⟨_, _, rfl, fun h => by first | rfl | omega⟩
theorem issues_jstream (o) : Issues (.jstream o) := by
  rintro _ _ s ⟨⟩ -; rw [exec_jstream]; unfold execJstream queuedOp joinOp; exact ⟨_, _, rfl, fun h => by first | rfl | omega⟩
theorem issues_jbatch (o) : Issues (.jbatch o) := by
  rintro _ _ s ⟨⟩ -; rw [exec_jbatch]; unfold execJbatch joinOp; exact ⟨_, _, rfl, fun h => by first | rfl | omega⟩
theorem issues_jwait (o) : Issues (.jwait o) := by
  rintro _ _ s ⟨⟩ -; rw [exec_jwait]; unfold execJwait joinOp; exact ⟨_, _, rfl, fun h => by first | rfl | omega⟩
theorem issues_copen (o) : Issues (.copen o) := by
  rintro _ _ s ⟨⟩ -; rw [exec_copen]; unfold execCopen queuedOp joinOp; exact ⟨_, _, rfl, fun h => by first | rfl | omega⟩
theorem issues_cacc (o) : Issues (.cacc o) := by
  rintro _ _ s ⟨⟩ -; rw [exec_cacc]; unfold execCacc queuedOp joinOp; exact ⟨_, _, rfl, fun h => by first | rfl | omega⟩
theorem issues_cprobe (o) : Issues (.cprobe o) := by
  rintro _ _ s ⟨⟩ -; rw [exec_cprobe]; unfold execCprobe queuedOp joinOp; exact ⟨_, _, rfl, fun h => by first | rfl | omega⟩
theorem issues_cdrain (o) : Issues (.cdrain o) := by
  rintro _ _ s ⟨⟩ -; rw [exec_cdrain]; unfold execCdrain queuedOp joinOp; exact ⟨_, _, rfl, fun h => by first | rfl | omega⟩
theorem issues_cclose (o) : Issues (.cclose o) := by
  rintro _ _ s ⟨⟩ -; rw [exec_cclose]; unfold execCclose queuedOp joinOp; exact ⟨_, _, rfl, fun h => by first | rfl | omega⟩
theorem issues_cstat (o) : Issues (.cstat o) := by
  rintro _ _ s ⟨⟩ -; rw [exec_cstat]; unfold execCstat queuedOp joinOp; exact ⟨_, _, rfl, fun h => by first | rfl | omega⟩
theorem issues_tsave (o) : Issues (.tsave o) := by
  rintro _ _ s ⟨⟩ -; rw [exec_tsave]; unfold execTsave queuedOp joinOp; exact ⟨_, _, rfl, fun h => by first | rfl | omega⟩
theorem issues_tload (o) : Issues (.tload o) := by
  rintro _ _ s ⟨⟩ -; rw [exec_tload]; unfold execTload queuedOp joinOp; exact ⟨_, _, rfl, fun h => by first | rfl | omega⟩
theorem issues_csave (o) : Issues (.csave o) := by
  rintro _ _ s ⟨⟩ -; rw [exec_csave]; unfold execCsave queuedOp joinOp; exact ⟨_, _, rfl, fun h => by first | rfl | omega⟩
theorem issues_cload (o) : Issues (.cload o) := by
  rintro _ _ s ⟨⟩ -; rw [exec_cload]; unfold execCload queuedOp joinOp; exact ⟨_, _, rfl, fun h => by first | rfl | omega⟩
theorem issues_trap (o) : Issues (.trap o) := by
  rintro _ _ s ⟨⟩ -; rw [exec_trap]; unfold execTrap sysOp issueWith; exact ⟨_, _, rfl, fun h => by first | rfl | omega⟩
theorem issues_rfe (o) : Issues (.rfe o) := by
  rintro _ _ s ⟨⟩ h; exact absurd rfl h
theorem issues_sysrd (o) : Issues (.sysrd o) := by
  rintro _ _ s ⟨⟩ -; rw [exec_sysrd]; unfold execSysrd; exact ⟨_, _, rfl, fun h => by first | rfl | omega⟩
theorem issues_syswr (o) : Issues (.syswr o) := by
  rintro _ _ s ⟨⟩ -; rw [exec_syswr]; unfold execSyswr; exact ⟨_, _, rfl, fun h => by first | rfl | omega⟩
theorem issues_fltrd (o) : Issues (.fltrd o) := by
  rintro _ _ s ⟨⟩ -; rw [exec_fltrd]; unfold execFltrd sysOp issueWith; exact ⟨_, _, rfl, fun h => by first | rfl | omega⟩
theorem issues_unpark (o) : Issues (.unpark o) := by
  rintro _ _ s ⟨⟩ -; rw [exec_unpark]; unfold execUnpark sysOp issueWith; exact ⟨_, _, rfl, fun h => by first | rfl | omega⟩
theorem issues_pmap (o) : Issues (.pmap o) := by
  rintro _ _ s ⟨⟩ -; rw [exec_pmap]; unfold execPmap sysOp issueWith; exact ⟨_, _, rfl, fun h => by first | rfl | omega⟩
theorem issues_tlbinv (o) : Issues (.tlbinv o) := by
  rintro _ _ s ⟨⟩ -; rw [exec_tlbinv]; unfold execTlbinv sysOp issueWith; exact ⟨_, _, rfl, fun h => by first | rfl | omega⟩
theorem issues_gsave (o) : Issues (.gsave o) := by
  rintro _ _ s ⟨⟩ -; rw [exec_gsave]; unfold execGsave sysOp issueWith; exact ⟨_, _, rfl, fun h => by first | rfl | omega⟩
theorem issues_gload (o) : Issues (.gload o) := by
  rintro _ _ s ⟨⟩ -; rw [exec_gload]; unfold execGload sysOp issueWith; exact ⟨_, _, rfl, fun h => by first | rfl | omega⟩
theorem issues_jfrz (o) : Issues (.jfrz o) := by
  rintro _ _ s ⟨⟩ -; rw [exec_jfrz]; unfold execJfrz sysOp issueWith; exact ⟨_, _, rfl, fun h => by first | rfl | omega⟩
theorem issues_halt (o) : Issues (.halt o) := by
  rintro _ _ s ⟨⟩ -; rw [exec_halt]; unfold execHalt sysOp issueWith; exact ⟨_, _, rfl, fun h => by first | rfl | omega⟩
theorem issues_brkpt (o) : Issues (.brkpt o) := by
  rintro _ _ s ⟨⟩ -; rw [exec_brkpt]; unfold execBrkpt sysOp issueWith; exact ⟨_, _, rfl, fun h => by first | rfl | omega⟩

/-- Every instruction is issued in this way. -/
theorem exec_issues (i : Instr) : Issues i := by
  cases i with
  | powerGood _ => rintro _ _ _ ⟨⟩
  | bootTimeExceeded => rintro _ _ _ ⟨⟩
  | restaggerDelayExpiry _ => rintro _ _ _ ⟨⟩
  | holdTimeout _ => rintro _ _ _ ⟨⟩
  | modulePowerLoss => rintro _ _ _ ⟨⟩
  | hostModuleReset _ => rintro _ _ _ ⟨⟩
  | pacingWindow _ _ => rintro _ _ _ ⟨⟩
  | securityAlarmClass1 _ _ => rintro _ _ _ ⟨⟩
  | securityAlarmClass2 _ _ _ => rintro _ _ _ ⟨⟩
  | securityAlarmClass3 _ _ _ => rintro _ _ _ ⟨⟩
  | go => rintro _ _ _ ⟨⟩
  | setlimit => rintro _ _ _ ⟨⟩
  | loadkey => rintro _ _ _ ⟨⟩
  | clearkey => rintro _ _ _ ⟨⟩
  | portkey => rintro _ _ _ ⟨⟩
  | setpos => rintro _ _ _ ⟨⟩
  | release _ => rintro _ _ _ ⟨⟩
  | attest => rintro _ _ _ ⟨⟩
  | handles => rintro _ _ _ ⟨⟩
  | cert => rintro _ _ _ ⟨⟩
  | readCell _ _ => rintro _ _ _ ⟨⟩
  | writeCell _ _ => rintro _ _ _ ⟨⟩
  | remoteAtomicCell _ _ => rintro _ _ _ ⟨⟩
  | copyElementCell _ _ => rintro _ _ _ ⟨⟩
  | migrationPull _ _ => rintro _ _ _ ⟨⟩
  | readData _ _ => rintro _ _ _ ⟨⟩
  | writeCompletion _ _ => rintro _ _ _ ⟨⟩
  | atomicResult _ _ => rintro _ _ _ ⟨⟩
  | faultReply _ _ => rintro _ _ _ ⟨⟩
  | kdPush _ _ => rintro _ _ _ ⟨⟩
  | kdReturn _ _ => rintro _ _ _ ⟨⟩
  | publishCell _ _ => rintro _ _ _ ⟨⟩
  | signalRelease _ _ => rintro _ _ _ ⟨⟩
  | ack _ _ => rintro _ _ _ ⟨⟩
  | nak _ _ => rintro _ _ _ ⟨⟩
  | creditOnly _ _ => rintro _ _ _ ⟨⟩
  | restagger _ _ => rintro _ _ _ ⟨⟩
  | keyControl _ _ => rintro _ _ _ ⟨⟩
  | linkStatus _ _ => rintro _ _ _ ⟨⟩
  | ackDeadline _ => rintro _ _ _ ⟨⟩
  | linkRetrain _ _ => rintro _ _ _ ⟨⟩
  | tagFailureLimit _ => rintro _ _ _ ⟨⟩
  | keyexp _ => rintro _ _ _ ⟨⟩
  | portRetry _ _ => rintro _ _ _ ⟨⟩
  | dieOfflineTransition _ _ _ => rintro _ _ _ ⟨⟩
  | apertureRead _ _ _ => rintro _ _ _ ⟨⟩
  | apertureWrite _ _ _ => rintro _ _ _ ⟨⟩
  | apfClear _ => rintro _ _ _ ⟨⟩
  | resume _ => rintro _ _ _ ⟨⟩
  | queueConfigWrite _ _ _ => rintro _ _ _ ⟨⟩
  | queueDisable _ _ _ => rintro _ _ _ ⟨⟩
  | tail _ _ _ => rintro _ _ _ ⟨⟩
  | resv _ _ => rintro _ _ _ ⟨⟩
  | commit _ _ _ => rintro _ _ _ ⟨⟩
  | commandRecordRead _ _ => rintro _ _ _ ⟨⟩
  | commandStart _ _ => rintro _ _ _ ⟨⟩
  | commandCompletion _ _ => rintro _ _ _ ⟨⟩
  | nopCommand _ _ => rintro _ _ _ ⟨⟩
  | launchCommand _ _ => rintro _ _ _ ⟨⟩
  | copyCommand _ _ => rintro _ _ _ ⟨⟩
  | publishCommand _ _ => rintro _ _ _ ⟨⟩
  | signalCommand _ _ => rintro _ _ _ ⟨⟩
  | waitCommand _ _ => rintro _ _ _ ⟨⟩
  | migrate _ _ => rintro _ _ _ ⟨⟩
  | migrationPageSwitch _ _ => rintro _ _ _ ⟨⟩
  | migrationLinePulled _ _ _ => rintro _ _ _ ⟨⟩
  | quiesce _ _ => rintro _ _ _ ⟨⟩
  | quiesceComplete _ => rintro _ _ _ ⟨⟩
  | tlbctlAll _ => rintro _ _ _ ⟨⟩
  | tlbctlPage _ _ => rintro _ _ _ ⟨⟩
  | invalidationDone _ => rintro _ _ _ ⟨⟩
  | fttail _ _ => rintro _ _ _ ⟨⟩
  | frameZeroed _ => rintro _ _ _ ⟨⟩
  | ftemptyClear _ => rintro _ _ _ ⟨⟩
  | controlRegisterWrite _ _ _ => rintro _ _ _ ⟨⟩
  | nodeOpen _ _ _ => rintro _ _ _ ⟨⟩
  | groupPlacement _ _ _ => rintro _ _ _ ⟨⟩
  | placementStarvation _ => rintro _ _ _ ⟨⟩
  | groupEnd _ _ => rintro _ _ _ ⟨⟩
  | priorityPreemption _ _ _ => rintro _ _ _ ⟨⟩
  | savedGroupPlacement _ _ => rintro _ _ _ ⟨⟩
  | groupSaved _ _ => rintro _ _ _ ⟨⟩
  | faultVector _ _ _ _ => rintro _ _ _ ⟨⟩
  | pageFaultVector _ _ _ _ => rintro _ _ _ ⟨⟩
  | faultBeyondRecovery _ _ => rintro _ _ _ ⟨⟩
  | portDeadlock _ _ => rintro _ _ _ ⟨⟩
  | engineElementPerformed _ _ _ => rintro _ _ _ ⟨⟩
  | engineCommandCompletion _ _ => rintro _ _ _ ⟨⟩
  | sigwaitReread _ _ _ _ => rintro _ _ _ ⟨⟩
  | joinEntryExecute _ _ => rintro _ _ _ ⟨⟩
  | batchComplete _ _ => rintro _ _ _ ⟨⟩
  | joinFreeze _ _ => rintro _ _ _ ⟨⟩
  | macqGrant _ _ => rintro _ _ _ ⟨⟩
  | barRelease _ _ => rintro _ _ _ ⟨⟩
  | gsyncRelease _ _ => rintro _ _ _ ⟨⟩
  | regangJoin _ _ _ => rintro _ _ _ ⟨⟩
  | vadd o => exact issues_vadd o
  | vsub o => exact issues_vsub o
  | vmul o => exact issues_vmul o
  | vmulhi o => exact issues_vmulhi o
  | vmad o => exact issues_vmad o
  | vneg o => exact issues_vneg o
  | vabs o => exact issues_vabs o
  | vmin o => exact issues_vmin o
  | vmax o => exact issues_vmax o
  | vand o => exact issues_vand o
  | vor o => exact issues_vor o
  | vxor o => exact issues_vxor o
  | vnot o => exact issues_vnot o
  | vshl o => exact issues_vshl o
  | vshr o => exact issues_vshr o
  | vrot o => exact issues_vrot o
  | vpopc o => exact issues_vpopc o
  | vclz o => exact issues_vclz o
  | vbrev o => exact issues_vbrev o
  | vbfx o => exact issues_vbfx o
  | vbfi o => exact issues_vbfi o
  | vcmp o => exact issues_vcmp o
  | vsel o => exact issues_vsel o
  | vmov o => exact issues_vmov o
  | vmovi o => exact issues_vmovi o
  | vdot4 o => exact issues_vdot4 o
  | vdot8 o => exact issues_vdot8 o
  | vlea o => exact issues_vlea o
  | vfadd o => exact issues_vfadd o
  | vfsub o => exact issues_vfsub o
  | vfmul o => exact issues_vfmul o
  | vffma o => exact issues_vffma o
  | vfmin o => exact issues_vfmin o
  | vfmax o => exact issues_vfmax o
  | vfcmp o => exact issues_vfcmp o
  | vfrcp o => exact issues_vfrcp o
  | vfrsq o => exact issues_vfrsq o
  | vfsqrt o => exact issues_vfsqrt o
  | vfexp2 o => exact issues_vfexp2 o
  | vflog2 o => exact issues_vflog2 o
  | vfclass o => exact issues_vfclass o
  | vfdiv o => exact issues_vfdiv o
  | sadd o => exact issues_sadd o
  | ssub o => exact issues_ssub o
  | smul o => exact issues_smul o
  | sand o => exact issues_sand o
  | sor o => exact issues_sor o
  | sxor o => exact issues_sxor o
  | sshl o => exact issues_sshl o
  | sshr o => exact issues_sshr o
  | scmp o => exact issues_scmp o
  | smov o => exact issues_smov o
  | smovi o => exact issues_smovi o
  | ssel o => exact issues_ssel o
  | vcvt o => exact issues_vcvt o
  | vfcvti o => exact issues_vfcvti o
  | vicvtf o => exact issues_vicvtf o
  | vpack o => exact issues_vpack o
  | vunpk o => exact issues_vunpk o
  | vplx o => exact issues_vplx o
  | vpli o => exact issues_vpli o
  | vsplit6 o => exact issues_vsplit6 o
  | vjoin6 o => exact issues_vjoin6 o
  | sfmt o => exact issues_sfmt o
  | ifMask o => exact issues_ifMask o
  | elseMask o => exact issues_elseMask o
  | endif o => exact issues_endif o
  | loop o => exact issues_loop o
  | brk o => exact issues_brk o
  | cont o => exact issues_cont o
  | endloop o => exact issues_endloop o
  | regang o => exact issues_regang o
  | jmp o => exact issues_jmp o
  | bra o => exact issues_bra o
  | call o => exact issues_call o
  | ret o => exact issues_ret o
  | rep o => exact issues_rep o
  | exit o => exact issues_exit o
  | yield o => exact issues_yield o
  | nop o => exact issues_nop o
  | bar o => exact issues_bar o
  | gsync o => exact issues_gsync o
  | vshfl o => exact issues_vshfl o
  | vvote o => exact issues_vvote o
  | vred o => exact issues_vred o
  | vscan o => exact issues_vscan o
  | vmatch o => exact issues_vmatch o
  | vconf o => exact issues_vconf o
  | vquad o => exact issues_vquad o
  | vsegred o => exact issues_vsegred o
  | pbind o => exact issues_pbind o
  | pcnt o => exact issues_pcnt o
  | pflush o => exact issues_pflush o
  | xwin o => exact issues_xwin o
  | ld o => exact issues_ld o
  | st o => exact issues_st o
  | atom o => exact issues_atom o
  | wset o => exact issues_wset o
  | copy o => exact issues_copy o
  | gath o => exact issues_gath o
  | scat o => exact issues_scat o
  | ratom o => exact issues_ratom o
  | coll o => exact issues_coll o
  | wait o => exact issues_wait o
  | publish o => exact issues_publish o
  | fence o => exact issues_fence o
  | sigadd o => exact issues_sigadd o
  | sigwait o => exact issues_sigwait o
  | launch o => exact issues_launch o
  | nres o => exact issues_nres o
  | nhand o => exact issues_nhand o
  | macq o => exact issues_macq o
  | mrel o => exact issues_mrel o
  | tfill o => exact issues_tfill o
  | tzero o => exact issues_tzero o
  | tstore o => exact issues_tstore o
  | jmm o => exact issues_jmm o
  | jmms o => exact issues_jmms o
  | jstream o => exact issues_jstream o
  | jbatch o => exact issues_jbatch o
  | jwait o => exact issues_jwait o
  | copen o => exact issues_copen o
  | cacc o => exact issues_cacc o
  | cprobe o => exact issues_cprobe o
  | cdrain o => exact issues_cdrain o
  | cclose o => exact issues_cclose o
  | cstat o => exact issues_cstat o
  | tsave o => exact issues_tsave o
  | tload o => exact issues_tload o
  | csave o => exact issues_csave o
  | cload o => exact issues_cload o
  | trap o => exact issues_trap o
  | rfe o => exact issues_rfe o
  | sysrd o => exact issues_sysrd o
  | syswr o => exact issues_syswr o
  | fltrd o => exact issues_fltrd o
  | unpark o => exact issues_unpark o
  | pmap o => exact issues_pmap o
  | tlbinv o => exact issues_tlbinv o
  | gsave o => exact issues_gsave o
  | gload o => exact issues_gload o
  | jfrz o => exact issues_jfrz o
  | halt o => exact issues_halt o
  | brkpt o => exact issues_brkpt o
  | exportSlotFill _ _ _ _ _ => rintro _ _ _ ⟨⟩
  | exportRevoke _ _ => rintro _ _ _ ⟨⟩

end Sys2Proof.Machine
end

