-- ==== Sys2Proof/Laws/FMap.lean ====
section
/-!
SUPPORT. Laws of the sparse maps: what is read after an insertion, an erasure or a write, and that each of them keeps
the keys strictly rising and the canonical form; and the same of memory.
-/
namespace Sys2Proof.Machine

variable {α : Type}

/-! ### Reading after writing -/

@[simp] theorem FMap.find?_nil (x : Nat) : FMap.find? ([] : FMap α) x = none := rfl

@[simp] theorem FMap.get_nil (d : α) (x : Nat) : FMap.get d ([] : FMap α) x = d := rfl

theorem FMap.find?_insert_self (m : FMap α) (x : Nat) (v : α) : (FMap.insert m x v).find? x = some v := by
  induction m with
  | nil => simp [FMap.insert, FMap.find?]
  | cons e m ih =>
    obtain ⟨k, w⟩ := e
    simp only [FMap.insert]
    split
    · simp [FMap.find?]
    · split
      · simp [FMap.find?]
      · rename_i h1 h2
        simp [FMap.find?, h2, ih]

theorem FMap.find?_insert_ne (m : FMap α) {x y : Nat} (v : α) (h : y ≠ x) :
    (FMap.insert m x v).find? y = m.find? y := by
  induction m with
  | nil => simp [FMap.insert, FMap.find?, h]
  | cons e m ih =>
    obtain ⟨k, w⟩ := e
    simp only [FMap.insert]
    split
    · simp [FMap.find?, h]
    · split
      · rename_i h1 h2
        subst h2
        simp [FMap.find?, h]
      · simp [FMap.find?, ih]

theorem FMap.find?_erase_self (m : FMap α) (x : Nat) : (FMap.erase m x).find? x = none := by
  induction m with
  | nil => rfl
  | cons e m ih =>
    obtain ⟨k, w⟩ := e
    simp only [FMap.erase]
    split
    · exact ih
    · rename_i h
      simp [FMap.find?, h, ih]

theorem FMap.find?_erase_ne (m : FMap α) {x y : Nat} (h : y ≠ x) : (FMap.erase m x).find? y = m.find? y := by
  induction m with
  | nil => rfl
  | cons e m ih =>
    obtain ⟨k, w⟩ := e
    simp only [FMap.erase]
    split
    · rename_i hx
      subst hx
      simp [FMap.find?, h, ih]
    · simp [FMap.find?, ih]

/-- A key just written reads as what was written. -/
@[simp] theorem FMap.get_set_self [DecidableEq α] (d : α) (m : FMap α) (x : Nat) (v : α) :
    FMap.get d (FMap.set d m x v) x = v := by
  unfold FMap.set FMap.get
  split
  · rename_i h
    simp [FMap.find?_erase_self, h]
  · simp [FMap.find?_insert_self]

/-- Another key reads as before. -/
theorem FMap.get_set_ne [DecidableEq α] (d : α) (m : FMap α) {x y : Nat} (v : α) (h : y ≠ x) :
    FMap.get d (FMap.set d m x v) y = FMap.get d m y := by
  unfold FMap.set FMap.get
  split
  · rw [FMap.find?_erase_ne m h]
  · rw [FMap.find?_insert_ne m v h]

/-! ### The canonical form -/

theorem FMap.risingFrom_mono {m : FMap α} {lo lo' : Nat} (h : lo' ≤ lo) (hm : m.risingFrom lo = true) :
    m.risingFrom lo' = true := by
  cases m with
  | nil => rfl
  | cons e m =>
    obtain ⟨k, w⟩ := e
    simp only [FMap.risingFrom, Bool.and_eq_true, decide_eq_true_eq] at hm ⊢
    exact ⟨by omega, hm.2⟩

theorem FMap.risingFrom_insert {m : FMap α} {lo : Nat} (hm : m.risingFrom lo = true) {x : Nat} (hx : lo ≤ x) (v : α) :
    (FMap.insert m x v).risingFrom lo = true := by
  induction m generalizing lo with
  | nil => simp [FMap.insert, FMap.risingFrom, hx]
  | cons e m ih =>
    obtain ⟨k, w⟩ := e
    simp only [FMap.risingFrom, Bool.and_eq_true, decide_eq_true_eq] at hm
    simp only [FMap.insert]
    split
    · rename_i h
      simp [FMap.risingFrom, hx, hm.2, Nat.succ_le_of_lt h]
    · split
      · rename_i h1 h2
        subst h2
        simp [FMap.risingFrom, hx, hm.2]
      · simp only [FMap.risingFrom, Bool.and_eq_true, decide_eq_true_eq]
        exact ⟨hm.1, ih hm.2 (by omega)⟩

theorem FMap.risingFrom_erase {m : FMap α} {lo : Nat} (hm : m.risingFrom lo = true) (x : Nat) :
    (FMap.erase m x).risingFrom lo = true := by
  induction m generalizing lo with
  | nil => rfl
  | cons e m ih =>
    obtain ⟨k, w⟩ := e
    simp only [FMap.risingFrom, Bool.and_eq_true, decide_eq_true_eq] at hm
    simp only [FMap.erase]
    split
    · exact FMap.risingFrom_mono (by omega) (ih hm.2)
    · simp only [FMap.risingFrom, Bool.and_eq_true, decide_eq_true_eq]
      exact ⟨hm.1, ih hm.2⟩

theorem FMap.mem_erase {m : FMap α} {x : Nat} {e : Nat × α} (h : e ∈ FMap.erase m x) : e ∈ m := by
  induction m with
  | nil => simp [FMap.erase] at h
  | cons f m ih =>
    obtain ⟨k, w⟩ := f
    simp only [FMap.erase] at h
    split at h
    · exact List.mem_cons_of_mem _ (ih h)
    · rcases List.mem_cons.mp h with h | h
      · simp [h]
      · exact List.mem_cons_of_mem _ (ih h)

theorem FMap.mem_insert {m : FMap α} {x : Nat} {v : α} {e : Nat × α} (h : e ∈ FMap.insert m x v) :
    e = (x, v) ∨ e ∈ m := by
  induction m with
  | nil => simpa [FMap.insert] using h
  | cons f m ih =>
    obtain ⟨k, w⟩ := f
    simp only [FMap.insert] at h
    split at h
    · simpa using h
    · split at h
      · rcases List.mem_cons.mp h with h | h
        · exact .inl h
        · exact .inr (List.mem_cons_of_mem _ h)
      · rcases List.mem_cons.mp h with h | h
        · simp [h]
        · rcases ih h with h | h
          · exact .inl h
          · exact .inr (List.mem_cons_of_mem _ h)

/-- The canonical form, opened up. -/
theorem FMap.wf_iff [DecidableEq α] (d : α) (m : FMap α) :
    m.wf d = true ↔ m.risingFrom 0 = true ∧ ∀ e ∈ m, e.2 ≠ d := by
  simp [FMap.wf]

/-- A write keeps the canonical form. -/
theorem FMap.wf_set [DecidableEq α] {d : α} {m : FMap α} (hm : m.wf d = true) (x : Nat) (v : α) :
    (FMap.set d m x v).wf d = true := by
  rw [FMap.wf_iff] at hm ⊢
  unfold FMap.set
  split
  · exact ⟨FMap.risingFrom_erase hm.1 x, fun e he => hm.2 e (FMap.mem_erase he)⟩
  · rename_i hv
    refine ⟨FMap.risingFrom_insert hm.1 (Nat.zero_le x) v, fun e he => ?_⟩
    rcases FMap.mem_insert he with h | h
    · simp [h, hv]
    · exact hm.2 e h

/-! ### Memory -/

@[simp] theorem Memory.wf_nil : Memory.wf [] = true := rfl

@[simp] theorem Memory.read_nil (a : Nat) : Memory.read [] a = Memory.unlisted := rfl

/-- A byte just written reads as what was written. -/
@[simp] theorem Memory.read_write_self (m : Memory) (a : Nat) (b : BitVec 8) : (m.write a b).read a = b :=
  FMap.get_set_self _ m a b

/-- A write leaves every other byte alone. -/
theorem Memory.read_write_ne (m : Memory) {a x : Nat} (b : BitVec 8) (h : x ≠ a) : (m.write a b).read x = m.read x :=
  FMap.get_set_ne _ m b h

/-- A write of one byte keeps the canonical form. -/
theorem Memory.wf_write {m : Memory} (hm : m.wf = true) (a : Nat) (b : BitVec 8) : (m.write a b).wf = true :=
  FMap.wf_set hm a b

/-- Writes of several bytes keep the canonical form. -/
theorem Memory.wf_writeAll {m : Memory} (hm : m.wf = true) (l : List (Nat × BitVec 8)) : (m.writeAll l).wf = true := by
  induction l generalizing m with
  | nil => exact hm
  | cons e l ih =>
    obtain ⟨a, b⟩ := e
    exact ih (Memory.wf_write hm a b)

/-- Writes leave every byte alone that none of them names. -/
theorem Memory.read_writeAll_ne (m : Memory) (l : List (Nat × BitVec 8)) {x : Nat} (h : ∀ e ∈ l, e.1 ≠ x) :
    (m.writeAll l).read x = m.read x := by
  induction l generalizing m with
  | nil => rfl
  | cons e l ih =>
    obtain ⟨a, b⟩ := e
    have ha : x ≠ a := fun hx => h (a, b) (List.mem_cons_self ..) hx.symm
    rw [Memory.writeAll, ih _ fun e he => h e (List.mem_cons_of_mem _ he), Memory.read_write_ne m b ha]

end Sys2Proof.Machine
end

