-- ==== Sys2Proof/Laws/State.lean ====
section
/-!
SUPPORT. One lemma for each field under each named update of the state, of a die, a group, a gang, a quad and a
context: no later proof opens a record update.
-/
namespace Sys2Proof.Machine

/-! ### A die replaced or changed -/

@[simp] theorem State.setDie_hub (x : State) (n : Nat) (d : Die) : (x.setDie n d).hub = x.hub := rfl
@[simp] theorem State.setDie_links (x : State) (n : Nat) (d : Die) : (x.setDie n d).links = x.links := rfl
@[simp] theorem State.setDie_msix (x : State) (n : Nat) (d : Die) : (x.setDie n d).msix = x.msix := rfl
@[simp] theorem State.setDie_resetReports (x : State) (n : Nat) (d : Die) : (x.setDie n d).resetReports = x.resetReports := rfl
@[simp] theorem State.setDie_apertureRead (x : State) (n : Nat) (d : Die) : (x.setDie n d).apertureRead = x.apertureRead := rfl
@[simp] theorem State.setDie_resvRead (x : State) (n : Nat) (d : Die) : (x.setDie n d).resvRead = x.resvRead := rfl
@[simp] theorem State.setDie_windowRead (x : State) (n : Nat) (d : Die) : (x.setDie n d).windowRead = x.windowRead := rfl
@[simp] theorem State.setDie_agenda (x : State) (n : Nat) (d : Die) : (x.setDie n d).agenda = x.agenda := rfl
@[simp] theorem State.setDie_cur (x : State) (n : Nat) (d : Die) : (x.setDie n d).cur = x.cur := rfl
@[simp] theorem State.setDie_crossed (x : State) (n : Nat) (d : Die) : (x.setDie n d).crossed = x.crossed := rfl
@[simp] theorem State.setDie_free (x : State) (n : Nat) (d : Die) : (x.setDie n d).free = x.free := rfl
@[simp] theorem State.setDie_writes (x : State) (n : Nat) (d : Die) : (x.setDie n d).writes = x.writes := rfl
@[simp] theorem State.setDie_notes (x : State) (n : Nat) (d : Die) : (x.setDie n d).notes = x.notes := rfl
@[simp] theorem State.setDie_hostKnown (x : State) (n : Nat) (d : Die) : (x.setDie n d).hostKnown = x.hostKnown := rfl
@[simp] theorem State.setDie_peerKnown (x : State) (n : Nat) (d : Die) : (x.setDie n d).peerKnown = x.peerKnown := rfl
@[simp] theorem State.setDie_interruptKnown (x : State) (n : Nat) (d : Die) : (x.setDie n d).interruptKnown = x.interruptKnown := rfl
@[simp] theorem State.setDie_trace (x : State) (n : Nat) (d : Die) : (x.setDie n d).trace = x.trace := rfl

/-! ### A die changed -/

@[simp] theorem State.onDie_hub (x : State) (n : Nat) (f : Die → Die) : (x.onDie n f).hub = x.hub := rfl
@[simp] theorem State.onDie_links (x : State) (n : Nat) (f : Die → Die) : (x.onDie n f).links = x.links := rfl
@[simp] theorem State.onDie_msix (x : State) (n : Nat) (f : Die → Die) : (x.onDie n f).msix = x.msix := rfl
@[simp] theorem State.onDie_resetReports (x : State) (n : Nat) (f : Die → Die) : (x.onDie n f).resetReports = x.resetReports := rfl
@[simp] theorem State.onDie_apertureRead (x : State) (n : Nat) (f : Die → Die) : (x.onDie n f).apertureRead = x.apertureRead := rfl
@[simp] theorem State.onDie_resvRead (x : State) (n : Nat) (f : Die → Die) : (x.onDie n f).resvRead = x.resvRead := rfl
@[simp] theorem State.onDie_windowRead (x : State) (n : Nat) (f : Die → Die) : (x.onDie n f).windowRead = x.windowRead := rfl
@[simp] theorem State.onDie_agenda (x : State) (n : Nat) (f : Die → Die) : (x.onDie n f).agenda = x.agenda := rfl
@[simp] theorem State.onDie_cur (x : State) (n : Nat) (f : Die → Die) : (x.onDie n f).cur = x.cur := rfl
@[simp] theorem State.onDie_crossed (x : State) (n : Nat) (f : Die → Die) : (x.onDie n f).crossed = x.crossed := rfl
@[simp] theorem State.onDie_free (x : State) (n : Nat) (f : Die → Die) : (x.onDie n f).free = x.free := rfl
@[simp] theorem State.onDie_writes (x : State) (n : Nat) (f : Die → Die) : (x.onDie n f).writes = x.writes := rfl
@[simp] theorem State.onDie_notes (x : State) (n : Nat) (f : Die → Die) : (x.onDie n f).notes = x.notes := rfl
@[simp] theorem State.onDie_hostKnown (x : State) (n : Nat) (f : Die → Die) : (x.onDie n f).hostKnown = x.hostKnown := rfl
@[simp] theorem State.onDie_peerKnown (x : State) (n : Nat) (f : Die → Die) : (x.onDie n f).peerKnown = x.peerKnown := rfl
@[simp] theorem State.onDie_interruptKnown (x : State) (n : Nat) (f : Die → Die) : (x.onDie n f).interruptKnown = x.interruptKnown := rfl
@[simp] theorem State.onDie_trace (x : State) (n : Nat) (f : Die → Die) : (x.onDie n f).trace = x.trace := rfl

/-! ### A group put back -/

@[simp] theorem State.putGroup_hub (x : State) (n g : Nat) (v : Group) : (x.putGroup n g v).hub = x.hub := rfl
@[simp] theorem State.putGroup_links (x : State) (n g : Nat) (v : Group) : (x.putGroup n g v).links = x.links := rfl
@[simp] theorem State.putGroup_msix (x : State) (n g : Nat) (v : Group) : (x.putGroup n g v).msix = x.msix := rfl
@[simp] theorem State.putGroup_resetReports (x : State) (n g : Nat) (v : Group) : (x.putGroup n g v).resetReports = x.resetReports := rfl
@[simp] theorem State.putGroup_apertureRead (x : State) (n g : Nat) (v : Group) : (x.putGroup n g v).apertureRead = x.apertureRead := rfl
@[simp] theorem State.putGroup_resvRead (x : State) (n g : Nat) (v : Group) : (x.putGroup n g v).resvRead = x.resvRead := rfl
@[simp] theorem State.putGroup_windowRead (x : State) (n g : Nat) (v : Group) : (x.putGroup n g v).windowRead = x.windowRead := rfl
@[simp] theorem State.putGroup_agenda (x : State) (n g : Nat) (v : Group) : (x.putGroup n g v).agenda = x.agenda := rfl
@[simp] theorem State.putGroup_cur (x : State) (n g : Nat) (v : Group) : (x.putGroup n g v).cur = x.cur := rfl
@[simp] theorem State.putGroup_crossed (x : State) (n g : Nat) (v : Group) : (x.putGroup n g v).crossed = x.crossed := rfl
@[simp] theorem State.putGroup_free (x : State) (n g : Nat) (v : Group) : (x.putGroup n g v).free = x.free := rfl
@[simp] theorem State.putGroup_writes (x : State) (n g : Nat) (v : Group) : (x.putGroup n g v).writes = x.writes := rfl
@[simp] theorem State.putGroup_notes (x : State) (n g : Nat) (v : Group) : (x.putGroup n g v).notes = x.notes := rfl
@[simp] theorem State.putGroup_hostKnown (x : State) (n g : Nat) (v : Group) : (x.putGroup n g v).hostKnown = x.hostKnown := rfl
@[simp] theorem State.putGroup_peerKnown (x : State) (n g : Nat) (v : Group) : (x.putGroup n g v).peerKnown = x.peerKnown := rfl
@[simp] theorem State.putGroup_interruptKnown (x : State) (n g : Nat) (v : Group) : (x.putGroup n g v).interruptKnown = x.interruptKnown := rfl
@[simp] theorem State.putGroup_trace (x : State) (n g : Nat) (v : Group) : (x.putGroup n g v).trace = x.trace := rfl

/-! ### A group changed -/

@[simp] theorem State.onGroup_hub (x : State) (n g : Nat) (f : Group → Group) : (x.onGroup n g f).hub = x.hub := rfl
@[simp] theorem State.onGroup_links (x : State) (n g : Nat) (f : Group → Group) : (x.onGroup n g f).links = x.links := rfl
@[simp] theorem State.onGroup_msix (x : State) (n g : Nat) (f : Group → Group) : (x.onGroup n g f).msix = x.msix := rfl
@[simp] theorem State.onGroup_resetReports (x : State) (n g : Nat) (f : Group → Group) : (x.onGroup n g f).resetReports = x.resetReports := rfl
@[simp] theorem State.onGroup_apertureRead (x : State) (n g : Nat) (f : Group → Group) : (x.onGroup n g f).apertureRead = x.apertureRead := rfl
@[simp] theorem State.onGroup_resvRead (x : State) (n g : Nat) (f : Group → Group) : (x.onGroup n g f).resvRead = x.resvRead := rfl
@[simp] theorem State.onGroup_windowRead (x : State) (n g : Nat) (f : Group → Group) : (x.onGroup n g f).windowRead = x.windowRead := rfl
@[simp] theorem State.onGroup_agenda (x : State) (n g : Nat) (f : Group → Group) : (x.onGroup n g f).agenda = x.agenda := rfl
@[simp] theorem State.onGroup_cur (x : State) (n g : Nat) (f : Group → Group) : (x.onGroup n g f).cur = x.cur := rfl
@[simp] theorem State.onGroup_crossed (x : State) (n g : Nat) (f : Group → Group) : (x.onGroup n g f).crossed = x.crossed := rfl
@[simp] theorem State.onGroup_free (x : State) (n g : Nat) (f : Group → Group) : (x.onGroup n g f).free = x.free := rfl
@[simp] theorem State.onGroup_writes (x : State) (n g : Nat) (f : Group → Group) : (x.onGroup n g f).writes = x.writes := rfl
@[simp] theorem State.onGroup_notes (x : State) (n g : Nat) (f : Group → Group) : (x.onGroup n g f).notes = x.notes := rfl
@[simp] theorem State.onGroup_hostKnown (x : State) (n g : Nat) (f : Group → Group) : (x.onGroup n g f).hostKnown = x.hostKnown := rfl
@[simp] theorem State.onGroup_peerKnown (x : State) (n g : Nat) (f : Group → Group) : (x.onGroup n g f).peerKnown = x.peerKnown := rfl
@[simp] theorem State.onGroup_interruptKnown (x : State) (n g : Nat) (f : Group → Group) : (x.onGroup n g f).interruptKnown = x.interruptKnown := rfl
@[simp] theorem State.onGroup_trace (x : State) (n g : Nat) (f : Group → Group) : (x.onGroup n g f).trace = x.trace := rfl

/-! ### A gang changed -/

@[simp] theorem State.onGang_hub (x : State) (n g i : Nat) (f : Gang → Gang) : (x.onGang n g i f).hub = x.hub := rfl
@[simp] theorem State.onGang_links (x : State) (n g i : Nat) (f : Gang → Gang) : (x.onGang n g i f).links = x.links := rfl
@[simp] theorem State.onGang_msix (x : State) (n g i : Nat) (f : Gang → Gang) : (x.onGang n g i f).msix = x.msix := rfl
@[simp] theorem State.onGang_resetReports (x : State) (n g i : Nat) (f : Gang → Gang) : (x.onGang n g i f).resetReports = x.resetReports := rfl
@[simp] theorem State.onGang_apertureRead (x : State) (n g i : Nat) (f : Gang → Gang) : (x.onGang n g i f).apertureRead = x.apertureRead := rfl
@[simp] theorem State.onGang_resvRead (x : State) (n g i : Nat) (f : Gang → Gang) : (x.onGang n g i f).resvRead = x.resvRead := rfl
@[simp] theorem State.onGang_windowRead (x : State) (n g i : Nat) (f : Gang → Gang) : (x.onGang n g i f).windowRead = x.windowRead := rfl
@[simp] theorem State.onGang_agenda (x : State) (n g i : Nat) (f : Gang → Gang) : (x.onGang n g i f).agenda = x.agenda := rfl
@[simp] theorem State.onGang_cur (x : State) (n g i : Nat) (f : Gang → Gang) : (x.onGang n g i f).cur = x.cur := rfl
@[simp] theorem State.onGang_crossed (x : State) (n g i : Nat) (f : Gang → Gang) : (x.onGang n g i f).crossed = x.crossed := rfl
@[simp] theorem State.onGang_free (x : State) (n g i : Nat) (f : Gang → Gang) : (x.onGang n g i f).free = x.free := rfl
@[simp] theorem State.onGang_writes (x : State) (n g i : Nat) (f : Gang → Gang) : (x.onGang n g i f).writes = x.writes := rfl
@[simp] theorem State.onGang_notes (x : State) (n g i : Nat) (f : Gang → Gang) : (x.onGang n g i f).notes = x.notes := rfl
@[simp] theorem State.onGang_hostKnown (x : State) (n g i : Nat) (f : Gang → Gang) : (x.onGang n g i f).hostKnown = x.hostKnown := rfl
@[simp] theorem State.onGang_peerKnown (x : State) (n g i : Nat) (f : Gang → Gang) : (x.onGang n g i f).peerKnown = x.peerKnown := rfl
@[simp] theorem State.onGang_interruptKnown (x : State) (n g i : Nat) (f : Gang → Gang) : (x.onGang n g i f).interruptKnown = x.interruptKnown := rfl
@[simp] theorem State.onGang_trace (x : State) (n g i : Nat) (f : Gang → Gang) : (x.onGang n g i f).trace = x.trace := rfl

/-! ### A link direction changed -/

@[simp] theorem State.onLink_hub (x : State) (a b : Nat) (f : LinkDir → LinkDir) : (x.onLink a b f).hub = x.hub := rfl
@[simp] theorem State.onLink_dies (x : State) (a b : Nat) (f : LinkDir → LinkDir) : (x.onLink a b f).dies = x.dies := rfl
@[simp] theorem State.onLink_msix (x : State) (a b : Nat) (f : LinkDir → LinkDir) : (x.onLink a b f).msix = x.msix := rfl
@[simp] theorem State.onLink_resetReports (x : State) (a b : Nat) (f : LinkDir → LinkDir) : (x.onLink a b f).resetReports = x.resetReports := rfl
@[simp] theorem State.onLink_apertureRead (x : State) (a b : Nat) (f : LinkDir → LinkDir) : (x.onLink a b f).apertureRead = x.apertureRead := rfl
@[simp] theorem State.onLink_resvRead (x : State) (a b : Nat) (f : LinkDir → LinkDir) : (x.onLink a b f).resvRead = x.resvRead := rfl
@[simp] theorem State.onLink_windowRead (x : State) (a b : Nat) (f : LinkDir → LinkDir) : (x.onLink a b f).windowRead = x.windowRead := rfl
@[simp] theorem State.onLink_agenda (x : State) (a b : Nat) (f : LinkDir → LinkDir) : (x.onLink a b f).agenda = x.agenda := rfl
@[simp] theorem State.onLink_cur (x : State) (a b : Nat) (f : LinkDir → LinkDir) : (x.onLink a b f).cur = x.cur := rfl
@[simp] theorem State.onLink_crossed (x : State) (a b : Nat) (f : LinkDir → LinkDir) : (x.onLink a b f).crossed = x.crossed := rfl
@[simp] theorem State.onLink_free (x : State) (a b : Nat) (f : LinkDir → LinkDir) : (x.onLink a b f).free = x.free := rfl
@[simp] theorem State.onLink_writes (x : State) (a b : Nat) (f : LinkDir → LinkDir) : (x.onLink a b f).writes = x.writes := rfl
@[simp] theorem State.onLink_notes (x : State) (a b : Nat) (f : LinkDir → LinkDir) : (x.onLink a b f).notes = x.notes := rfl
@[simp] theorem State.onLink_hostKnown (x : State) (a b : Nat) (f : LinkDir → LinkDir) : (x.onLink a b f).hostKnown = x.hostKnown := rfl
@[simp] theorem State.onLink_peerKnown (x : State) (a b : Nat) (f : LinkDir → LinkDir) : (x.onLink a b f).peerKnown = x.peerKnown := rfl
@[simp] theorem State.onLink_interruptKnown (x : State) (a b : Nat) (f : LinkDir → LinkDir) : (x.onLink a b f).interruptKnown = x.interruptKnown := rfl
@[simp] theorem State.onLink_trace (x : State) (a b : Nat) (f : LinkDir → LinkDir) : (x.onLink a b f).trace = x.trace := rfl

/-! ### A port replaced -/

@[simp] theorem State.setPort_dies (x : State) (p : Nat) (v : ExtPort) : (x.setPort p v).dies = x.dies := rfl
@[simp] theorem State.setPort_links (x : State) (p : Nat) (v : ExtPort) : (x.setPort p v).links = x.links := rfl
@[simp] theorem State.setPort_msix (x : State) (p : Nat) (v : ExtPort) : (x.setPort p v).msix = x.msix := rfl
@[simp] theorem State.setPort_resetReports (x : State) (p : Nat) (v : ExtPort) : (x.setPort p v).resetReports = x.resetReports := rfl
@[simp] theorem State.setPort_apertureRead (x : State) (p : Nat) (v : ExtPort) : (x.setPort p v).apertureRead = x.apertureRead := rfl
@[simp] theorem State.setPort_resvRead (x : State) (p : Nat) (v : ExtPort) : (x.setPort p v).resvRead = x.resvRead := rfl
@[simp] theorem State.setPort_windowRead (x : State) (p : Nat) (v : ExtPort) : (x.setPort p v).windowRead = x.windowRead := rfl
@[simp] theorem State.setPort_agenda (x : State) (p : Nat) (v : ExtPort) : (x.setPort p v).agenda = x.agenda := rfl
@[simp] theorem State.setPort_cur (x : State) (p : Nat) (v : ExtPort) : (x.setPort p v).cur = x.cur := rfl
@[simp] theorem State.setPort_crossed (x : State) (p : Nat) (v : ExtPort) : (x.setPort p v).crossed = x.crossed := rfl
@[simp] theorem State.setPort_free (x : State) (p : Nat) (v : ExtPort) : (x.setPort p v).free = x.free := rfl
@[simp] theorem State.setPort_writes (x : State) (p : Nat) (v : ExtPort) : (x.setPort p v).writes = x.writes := rfl
@[simp] theorem State.setPort_notes (x : State) (p : Nat) (v : ExtPort) : (x.setPort p v).notes = x.notes := rfl
@[simp] theorem State.setPort_hostKnown (x : State) (p : Nat) (v : ExtPort) : (x.setPort p v).hostKnown = x.hostKnown := rfl
@[simp] theorem State.setPort_peerKnown (x : State) (p : Nat) (v : ExtPort) : (x.setPort p v).peerKnown = x.peerKnown := rfl
@[simp] theorem State.setPort_interruptKnown (x : State) (p : Nat) (v : ExtPort) : (x.setPort p v).interruptKnown = x.interruptKnown := rfl
@[simp] theorem State.setPort_trace (x : State) (p : Nat) (v : ExtPort) : (x.setPort p v).trace = x.trace := rfl

/-! ### A queue changed -/

@[simp] theorem State.onQueue_hub (x : State) (n q : Nat) (f : Queue → Queue) : (x.onQueue n q f).hub = x.hub := rfl
@[simp] theorem State.onQueue_links (x : State) (n q : Nat) (f : Queue → Queue) : (x.onQueue n q f).links = x.links := rfl
@[simp] theorem State.onQueue_msix (x : State) (n q : Nat) (f : Queue → Queue) : (x.onQueue n q f).msix = x.msix := rfl
@[simp] theorem State.onQueue_resetReports (x : State) (n q : Nat) (f : Queue → Queue) : (x.onQueue n q f).resetReports = x.resetReports := rfl
@[simp] theorem State.onQueue_apertureRead (x : State) (n q : Nat) (f : Queue → Queue) : (x.onQueue n q f).apertureRead = x.apertureRead := rfl
@[simp] theorem State.onQueue_resvRead (x : State) (n q : Nat) (f : Queue → Queue) : (x.onQueue n q f).resvRead = x.resvRead := rfl
@[simp] theorem State.onQueue_windowRead (x : State) (n q : Nat) (f : Queue → Queue) : (x.onQueue n q f).windowRead = x.windowRead := rfl
@[simp] theorem State.onQueue_agenda (x : State) (n q : Nat) (f : Queue → Queue) : (x.onQueue n q f).agenda = x.agenda := rfl
@[simp] theorem State.onQueue_cur (x : State) (n q : Nat) (f : Queue → Queue) : (x.onQueue n q f).cur = x.cur := rfl
@[simp] theorem State.onQueue_crossed (x : State) (n q : Nat) (f : Queue → Queue) : (x.onQueue n q f).crossed = x.crossed := rfl
@[simp] theorem State.onQueue_free (x : State) (n q : Nat) (f : Queue → Queue) : (x.onQueue n q f).free = x.free := rfl
@[simp] theorem State.onQueue_writes (x : State) (n q : Nat) (f : Queue → Queue) : (x.onQueue n q f).writes = x.writes := rfl
@[simp] theorem State.onQueue_notes (x : State) (n q : Nat) (f : Queue → Queue) : (x.onQueue n q f).notes = x.notes := rfl
@[simp] theorem State.onQueue_hostKnown (x : State) (n q : Nat) (f : Queue → Queue) : (x.onQueue n q f).hostKnown = x.hostKnown := rfl
@[simp] theorem State.onQueue_peerKnown (x : State) (n q : Nat) (f : Queue → Queue) : (x.onQueue n q f).peerKnown = x.peerKnown := rfl
@[simp] theorem State.onQueue_interruptKnown (x : State) (n q : Nat) (f : Queue → Queue) : (x.onQueue n q f).interruptKnown = x.interruptKnown := rfl
@[simp] theorem State.onQueue_trace (x : State) (n q : Nat) (f : Queue → Queue) : (x.onQueue n q f).trace = x.trace := rfl

/-! ### A join engine changed -/

@[simp] theorem State.onCore_hub (x : State) (n q : Nat) (f : Core → Core) : (x.onCore n q f).hub = x.hub := rfl
@[simp] theorem State.onCore_links (x : State) (n q : Nat) (f : Core → Core) : (x.onCore n q f).links = x.links := rfl
@[simp] theorem State.onCore_msix (x : State) (n q : Nat) (f : Core → Core) : (x.onCore n q f).msix = x.msix := rfl
@[simp] theorem State.onCore_resetReports (x : State) (n q : Nat) (f : Core → Core) : (x.onCore n q f).resetReports = x.resetReports := rfl
@[simp] theorem State.onCore_apertureRead (x : State) (n q : Nat) (f : Core → Core) : (x.onCore n q f).apertureRead = x.apertureRead := rfl
@[simp] theorem State.onCore_resvRead (x : State) (n q : Nat) (f : Core → Core) : (x.onCore n q f).resvRead = x.resvRead := rfl
@[simp] theorem State.onCore_windowRead (x : State) (n q : Nat) (f : Core → Core) : (x.onCore n q f).windowRead = x.windowRead := rfl
@[simp] theorem State.onCore_agenda (x : State) (n q : Nat) (f : Core → Core) : (x.onCore n q f).agenda = x.agenda := rfl
@[simp] theorem State.onCore_cur (x : State) (n q : Nat) (f : Core → Core) : (x.onCore n q f).cur = x.cur := rfl
@[simp] theorem State.onCore_crossed (x : State) (n q : Nat) (f : Core → Core) : (x.onCore n q f).crossed = x.crossed := rfl
@[simp] theorem State.onCore_free (x : State) (n q : Nat) (f : Core → Core) : (x.onCore n q f).free = x.free := rfl
@[simp] theorem State.onCore_writes (x : State) (n q : Nat) (f : Core → Core) : (x.onCore n q f).writes = x.writes := rfl
@[simp] theorem State.onCore_notes (x : State) (n q : Nat) (f : Core → Core) : (x.onCore n q f).notes = x.notes := rfl
@[simp] theorem State.onCore_hostKnown (x : State) (n q : Nat) (f : Core → Core) : (x.onCore n q f).hostKnown = x.hostKnown := rfl
@[simp] theorem State.onCore_peerKnown (x : State) (n q : Nat) (f : Core → Core) : (x.onCore n q f).peerKnown = x.peerKnown := rfl
@[simp] theorem State.onCore_interruptKnown (x : State) (n q : Nat) (f : Core → Core) : (x.onCore n q f).interruptKnown = x.interruptKnown := rfl
@[simp] theorem State.onCore_trace (x : State) (n q : Nat) (f : Core → Core) : (x.onCore n q f).trace = x.trace := rfl

/-! ### Parts of a die -/

@[simp] theorem Die.setCore_ready (x : Die) (n : Nat) (c : Core) : (x.setCore n c).ready = x.ready := rfl
@[simp] theorem Die.setCore_offline (x : Die) (n : Nat) (c : Core) : (x.setCore n c).offline = x.offline := rfl
@[simp] theorem Die.setCore_quiesced (x : Die) (n : Nat) (c : Core) : (x.setCore n c).quiesced = x.quiesced := rfl
@[simp] theorem Die.setCore_apf (x : Die) (n : Nat) (c : Core) : (x.setCore n c).apf = x.apf := rfl
@[simp] theorem Die.setCore_apbase (x : Die) (n : Nat) (c : Core) : (x.setCore n c).apbase = x.apbase := rfl
@[simp] theorem Die.setCore_apfc (x : Die) (n : Nat) (c : Core) : (x.setCore n c).apfc = x.apfc := rfl
@[simp] theorem Die.setCore_apfa (x : Die) (n : Nat) (c : Core) : (x.setCore n c).apfa = x.apfa := rfl
@[simp] theorem Die.setCore_queues (x : Die) (n : Nat) (c : Core) : (x.setCore n c).queues = x.queues := rfl
@[simp] theorem Die.setCore_ptroot (x : Die) (n : Nat) (c : Core) : (x.setCore n c).ptroot = x.ptroot := rfl
@[simp] theorem Die.setCore_rtbase (x : Die) (n : Nat) (c : Core) : (x.setCore n c).rtbase = x.rtbase := rfl
@[simp] theorem Die.setCore_impbase (x : Die) (n : Nat) (c : Core) : (x.setCore n c).impbase = x.impbase := rfl
@[simp] theorem Die.setCore_busy (x : Die) (n : Nat) (c : Core) : (x.setCore n c).busy = x.busy := rfl
@[simp] theorem Die.setCore_ftbase (x : Die) (n : Nat) (c : Core) : (x.setCore n c).ftbase = x.ftbase := rfl
@[simp] theorem Die.setCore_fttail (x : Die) (n : Nat) (c : Core) : (x.setCore n c).fttail = x.fttail := rfl
@[simp] theorem Die.setCore_fthead (x : Die) (n : Nat) (c : Core) : (x.setCore n c).fthead = x.fthead := rfl
@[simp] theorem Die.setCore_ftready (x : Die) (n : Nat) (c : Core) : (x.setCore n c).ftready = x.ftready := rfl
@[simp] theorem Die.setCore_ftempty (x : Die) (n : Nat) (c : Core) : (x.setCore n c).ftempty = x.ftempty := rfl
@[simp] theorem Die.setCore_ftzero (x : Die) (n : Nat) (c : Core) : (x.setCore n c).ftzero = x.ftzero := rfl
@[simp] theorem Die.setCore_trapbase (x : Die) (n : Nat) (c : Core) : (x.setCore n c).trapbase = x.trapbase := rfl
@[simp] theorem Die.setCore_cyc (x : Die) (n : Nat) (c : Core) : (x.setCore n c).cyc = x.cyc := rfl
@[simp] theorem Die.setCore_service (x : Die) (n : Nat) (c : Core) : (x.setCore n c).service = x.service := rfl
@[simp] theorem Die.setCore_hostCmds (x : Die) (n : Nat) (c : Core) : (x.setCore n c).hostCmds = x.hostCmds := rfl
@[simp] theorem Die.setCore_lastQueue (x : Die) (n : Nat) (c : Core) : (x.setCore n c).lastQueue = x.lastQueue := rfl
@[simp] theorem Die.setCore_quiesce (x : Die) (n : Nat) (c : Core) : (x.setCore n c).quiesce = x.quiesce := rfl
@[simp] theorem Die.setCore_keys (x : Die) (n : Nat) (c : Core) : (x.setCore n c).keys = x.keys := rfl
@[simp] theorem Die.setCore_mem (x : Die) (n : Nat) (c : Core) : (x.setCore n c).mem = x.mem := rfl
@[simp] theorem Die.setCore_lineKeys (x : Die) (n : Nat) (c : Core) : (x.setCore n c).lineKeys = x.lineKeys := rfl
@[simp] theorem Die.setCore_tlb (x : Die) (n : Nat) (c : Core) : (x.setCore n c).tlb = x.tlb := rfl
@[simp] theorem Die.setCore_imports (x : Die) (n : Nat) (c : Core) : (x.setCore n c).imports = x.imports := rfl
@[simp] theorem Die.setCore_invalidating (x : Die) (n : Nat) (c : Core) : (x.setCore n c).invalidating = x.invalidating := rfl
@[simp] theorem Die.setCore_exports_ (x : Die) (n : Nat) (c : Core) : (x.setCore n c).exports_ = x.exports_ := rfl
@[simp] theorem Die.setCore_migrations (x : Die) (n : Nat) (c : Core) : (x.setCore n c).migrations = x.migrations := rfl
@[simp] theorem Die.setCore_gone (x : Die) (n : Nat) (c : Core) : (x.setCore n c).gone = x.gone := rfl
@[simp] theorem Die.setCore_pulls (x : Die) (n : Nat) (c : Core) : (x.setCore n c).pulls = x.pulls := rfl
@[simp] theorem Die.setCore_handles (x : Die) (n : Nat) (c : Core) : (x.setCore n c).handles = x.handles := rfl
@[simp] theorem Die.setCore_launches (x : Die) (n : Nat) (c : Core) : (x.setCore n c).launches = x.launches := rfl
@[simp] theorem Die.setCore_groups (x : Die) (n : Nat) (c : Core) : (x.setCore n c).groups = x.groups := rfl
@[simp] theorem Die.setCore_cmds (x : Die) (n : Nat) (c : Core) : (x.setCore n c).cmds = x.cmds := rfl
@[simp] theorem Die.setCore_placeOnly (x : Die) (n : Nat) (c : Core) : (x.setCore n c).placeOnly = x.placeOnly := rfl
@[simp] theorem Die.setCore_pendings (x : Die) (n : Nat) (c : Core) : (x.setCore n c).pendings = x.pendings := rfl
@[simp] theorem Die.setCore_kdWaiting (x : Die) (n : Nat) (c : Core) : (x.setCore n c).kdWaiting = x.kdWaiting := rfl
@[simp] theorem Die.setCore_remote (x : Die) (n : Nat) (c : Core) : (x.setCore n c).remote = x.remote := rfl
@[simp] theorem Die.setCore_nextId (x : Die) (n : Nat) (c : Core) : (x.setCore n c).nextId = x.nextId := rfl
@[simp] theorem Die.setCore_ceiling (x : Die) (n : Nat) (c : Core) : (x.setCore n c).ceiling = x.ceiling := rfl
@[simp] theorem Die.setCore_power (x : Die) (n : Nat) (c : Core) : (x.setCore n c).power = x.power := rfl
@[simp] theorem Die.setCore_filler (x : Die) (n : Nat) (c : Core) : (x.setCore n c).filler = x.filler := rfl
@[simp] theorem Die.setCore_withheld (x : Die) (n : Nat) (c : Core) : (x.setCore n c).withheld = x.withheld := rfl
@[simp] theorem Die.setCore_accesses (x : Die) (n : Nat) (c : Core) : (x.setCore n c).accesses = x.accesses := rfl
@[simp] theorem Die.setCore_commandKnown (x : Die) (n : Nat) (c : Core) : (x.setCore n c).commandKnown = x.commandKnown := rfl
@[simp] theorem Die.setCore_sweepKnown (x : Die) (n : Nat) (c : Core) : (x.setCore n c).sweepKnown = x.sweepKnown := rfl

/-! ### A queue of a die replaced -/

@[simp] theorem Die.setQueue_ready (x : Die) (n : Nat) (q : Queue) : (x.setQueue n q).ready = x.ready := rfl
@[simp] theorem Die.setQueue_offline (x : Die) (n : Nat) (q : Queue) : (x.setQueue n q).offline = x.offline := rfl
@[simp] theorem Die.setQueue_quiesced (x : Die) (n : Nat) (q : Queue) : (x.setQueue n q).quiesced = x.quiesced := rfl
@[simp] theorem Die.setQueue_apf (x : Die) (n : Nat) (q : Queue) : (x.setQueue n q).apf = x.apf := rfl
@[simp] theorem Die.setQueue_apbase (x : Die) (n : Nat) (q : Queue) : (x.setQueue n q).apbase = x.apbase := rfl
@[simp] theorem Die.setQueue_apfc (x : Die) (n : Nat) (q : Queue) : (x.setQueue n q).apfc = x.apfc := rfl
@[simp] theorem Die.setQueue_apfa (x : Die) (n : Nat) (q : Queue) : (x.setQueue n q).apfa = x.apfa := rfl
@[simp] theorem Die.setQueue_ptroot (x : Die) (n : Nat) (q : Queue) : (x.setQueue n q).ptroot = x.ptroot := rfl
@[simp] theorem Die.setQueue_rtbase (x : Die) (n : Nat) (q : Queue) : (x.setQueue n q).rtbase = x.rtbase := rfl
@[simp] theorem Die.setQueue_impbase (x : Die) (n : Nat) (q : Queue) : (x.setQueue n q).impbase = x.impbase := rfl
@[simp] theorem Die.setQueue_busy (x : Die) (n : Nat) (q : Queue) : (x.setQueue n q).busy = x.busy := rfl
@[simp] theorem Die.setQueue_ftbase (x : Die) (n : Nat) (q : Queue) : (x.setQueue n q).ftbase = x.ftbase := rfl
@[simp] theorem Die.setQueue_fttail (x : Die) (n : Nat) (q : Queue) : (x.setQueue n q).fttail = x.fttail := rfl
@[simp] theorem Die.setQueue_fthead (x : Die) (n : Nat) (q : Queue) : (x.setQueue n q).fthead = x.fthead := rfl
@[simp] theorem Die.setQueue_ftready (x : Die) (n : Nat) (q : Queue) : (x.setQueue n q).ftready = x.ftready := rfl
@[simp] theorem Die.setQueue_ftempty (x : Die) (n : Nat) (q : Queue) : (x.setQueue n q).ftempty = x.ftempty := rfl
@[simp] theorem Die.setQueue_ftzero (x : Die) (n : Nat) (q : Queue) : (x.setQueue n q).ftzero = x.ftzero := rfl
@[simp] theorem Die.setQueue_trapbase (x : Die) (n : Nat) (q : Queue) : (x.setQueue n q).trapbase = x.trapbase := rfl
@[simp] theorem Die.setQueue_cyc (x : Die) (n : Nat) (q : Queue) : (x.setQueue n q).cyc = x.cyc := rfl
@[simp] theorem Die.setQueue_service (x : Die) (n : Nat) (q : Queue) : (x.setQueue n q).service = x.service := rfl
@[simp] theorem Die.setQueue_hostCmds (x : Die) (n : Nat) (q : Queue) : (x.setQueue n q).hostCmds = x.hostCmds := rfl
@[simp] theorem Die.setQueue_lastQueue (x : Die) (n : Nat) (q : Queue) : (x.setQueue n q).lastQueue = x.lastQueue := rfl
@[simp] theorem Die.setQueue_quiesce (x : Die) (n : Nat) (q : Queue) : (x.setQueue n q).quiesce = x.quiesce := rfl
@[simp] theorem Die.setQueue_keys (x : Die) (n : Nat) (q : Queue) : (x.setQueue n q).keys = x.keys := rfl
@[simp] theorem Die.setQueue_mem (x : Die) (n : Nat) (q : Queue) : (x.setQueue n q).mem = x.mem := rfl
@[simp] theorem Die.setQueue_lineKeys (x : Die) (n : Nat) (q : Queue) : (x.setQueue n q).lineKeys = x.lineKeys := rfl
@[simp] theorem Die.setQueue_tlb (x : Die) (n : Nat) (q : Queue) : (x.setQueue n q).tlb = x.tlb := rfl
@[simp] theorem Die.setQueue_imports (x : Die) (n : Nat) (q : Queue) : (x.setQueue n q).imports = x.imports := rfl
@[simp] theorem Die.setQueue_invalidating (x : Die) (n : Nat) (q : Queue) : (x.setQueue n q).invalidating = x.invalidating := rfl
@[simp] theorem Die.setQueue_exports_ (x : Die) (n : Nat) (q : Queue) : (x.setQueue n q).exports_ = x.exports_ := rfl
@[simp] theorem Die.setQueue_migrations (x : Die) (n : Nat) (q : Queue) : (x.setQueue n q).migrations = x.migrations := rfl
@[simp] theorem Die.setQueue_gone (x : Die) (n : Nat) (q : Queue) : (x.setQueue n q).gone = x.gone := rfl
@[simp] theorem Die.setQueue_pulls (x : Die) (n : Nat) (q : Queue) : (x.setQueue n q).pulls = x.pulls := rfl
@[simp] theorem Die.setQueue_handles (x : Die) (n : Nat) (q : Queue) : (x.setQueue n q).handles = x.handles := rfl
@[simp] theorem Die.setQueue_launches (x : Die) (n : Nat) (q : Queue) : (x.setQueue n q).launches = x.launches := rfl
@[simp] theorem Die.setQueue_groups (x : Die) (n : Nat) (q : Queue) : (x.setQueue n q).groups = x.groups := rfl
@[simp] theorem Die.setQueue_cores (x : Die) (n : Nat) (q : Queue) : (x.setQueue n q).cores = x.cores := rfl
@[simp] theorem Die.setQueue_cmds (x : Die) (n : Nat) (q : Queue) : (x.setQueue n q).cmds = x.cmds := rfl
@[simp] theorem Die.setQueue_placeOnly (x : Die) (n : Nat) (q : Queue) : (x.setQueue n q).placeOnly = x.placeOnly := rfl
@[simp] theorem Die.setQueue_pendings (x : Die) (n : Nat) (q : Queue) : (x.setQueue n q).pendings = x.pendings := rfl
@[simp] theorem Die.setQueue_kdWaiting (x : Die) (n : Nat) (q : Queue) : (x.setQueue n q).kdWaiting = x.kdWaiting := rfl
@[simp] theorem Die.setQueue_remote (x : Die) (n : Nat) (q : Queue) : (x.setQueue n q).remote = x.remote := rfl
@[simp] theorem Die.setQueue_nextId (x : Die) (n : Nat) (q : Queue) : (x.setQueue n q).nextId = x.nextId := rfl
@[simp] theorem Die.setQueue_ceiling (x : Die) (n : Nat) (q : Queue) : (x.setQueue n q).ceiling = x.ceiling := rfl
@[simp] theorem Die.setQueue_power (x : Die) (n : Nat) (q : Queue) : (x.setQueue n q).power = x.power := rfl
@[simp] theorem Die.setQueue_filler (x : Die) (n : Nat) (q : Queue) : (x.setQueue n q).filler = x.filler := rfl
@[simp] theorem Die.setQueue_withheld (x : Die) (n : Nat) (q : Queue) : (x.setQueue n q).withheld = x.withheld := rfl
@[simp] theorem Die.setQueue_accesses (x : Die) (n : Nat) (q : Queue) : (x.setQueue n q).accesses = x.accesses := rfl
@[simp] theorem Die.setQueue_commandKnown (x : Die) (n : Nat) (q : Queue) : (x.setQueue n q).commandKnown = x.commandKnown := rfl
@[simp] theorem Die.setQueue_sweepKnown (x : Die) (n : Nat) (q : Queue) : (x.setQueue n q).sweepKnown = x.sweepKnown := rfl

/-! ### A physical write -/

@[simp] theorem physWrite_ready (x : Die) (a : Nat) (b : List Byte) : (physWrite x a b).ready = x.ready := rfl
@[simp] theorem physWrite_offline (x : Die) (a : Nat) (b : List Byte) : (physWrite x a b).offline = x.offline := rfl
@[simp] theorem physWrite_quiesced (x : Die) (a : Nat) (b : List Byte) : (physWrite x a b).quiesced = x.quiesced := rfl
@[simp] theorem physWrite_apf (x : Die) (a : Nat) (b : List Byte) : (physWrite x a b).apf = x.apf := rfl
@[simp] theorem physWrite_apbase (x : Die) (a : Nat) (b : List Byte) : (physWrite x a b).apbase = x.apbase := rfl
@[simp] theorem physWrite_apfc (x : Die) (a : Nat) (b : List Byte) : (physWrite x a b).apfc = x.apfc := rfl
@[simp] theorem physWrite_apfa (x : Die) (a : Nat) (b : List Byte) : (physWrite x a b).apfa = x.apfa := rfl
@[simp] theorem physWrite_queues (x : Die) (a : Nat) (b : List Byte) : (physWrite x a b).queues = x.queues := rfl
@[simp] theorem physWrite_ptroot (x : Die) (a : Nat) (b : List Byte) : (physWrite x a b).ptroot = x.ptroot := rfl
@[simp] theorem physWrite_rtbase (x : Die) (a : Nat) (b : List Byte) : (physWrite x a b).rtbase = x.rtbase := rfl
@[simp] theorem physWrite_impbase (x : Die) (a : Nat) (b : List Byte) : (physWrite x a b).impbase = x.impbase := rfl
@[simp] theorem physWrite_busy (x : Die) (a : Nat) (b : List Byte) : (physWrite x a b).busy = x.busy := rfl
@[simp] theorem physWrite_ftbase (x : Die) (a : Nat) (b : List Byte) : (physWrite x a b).ftbase = x.ftbase := rfl
@[simp] theorem physWrite_fttail (x : Die) (a : Nat) (b : List Byte) : (physWrite x a b).fttail = x.fttail := rfl
@[simp] theorem physWrite_fthead (x : Die) (a : Nat) (b : List Byte) : (physWrite x a b).fthead = x.fthead := rfl
@[simp] theorem physWrite_ftready (x : Die) (a : Nat) (b : List Byte) : (physWrite x a b).ftready = x.ftready := rfl
@[simp] theorem physWrite_ftempty (x : Die) (a : Nat) (b : List Byte) : (physWrite x a b).ftempty = x.ftempty := rfl
@[simp] theorem physWrite_ftzero (x : Die) (a : Nat) (b : List Byte) : (physWrite x a b).ftzero = x.ftzero := rfl
@[simp] theorem physWrite_trapbase (x : Die) (a : Nat) (b : List Byte) : (physWrite x a b).trapbase = x.trapbase := rfl
@[simp] theorem physWrite_cyc (x : Die) (a : Nat) (b : List Byte) : (physWrite x a b).cyc = x.cyc := rfl
@[simp] theorem physWrite_service (x : Die) (a : Nat) (b : List Byte) : (physWrite x a b).service = x.service := rfl
@[simp] theorem physWrite_hostCmds (x : Die) (a : Nat) (b : List Byte) : (physWrite x a b).hostCmds = x.hostCmds := rfl
@[simp] theorem physWrite_lastQueue (x : Die) (a : Nat) (b : List Byte) : (physWrite x a b).lastQueue = x.lastQueue := rfl
@[simp] theorem physWrite_quiesce (x : Die) (a : Nat) (b : List Byte) : (physWrite x a b).quiesce = x.quiesce := rfl
@[simp] theorem physWrite_keys (x : Die) (a : Nat) (b : List Byte) : (physWrite x a b).keys = x.keys := rfl
@[simp] theorem physWrite_lineKeys (x : Die) (a : Nat) (b : List Byte) : (physWrite x a b).lineKeys = x.lineKeys := rfl
@[simp] theorem physWrite_tlb (x : Die) (a : Nat) (b : List Byte) : (physWrite x a b).tlb = x.tlb := rfl
@[simp] theorem physWrite_imports (x : Die) (a : Nat) (b : List Byte) : (physWrite x a b).imports = x.imports := rfl
@[simp] theorem physWrite_invalidating (x : Die) (a : Nat) (b : List Byte) : (physWrite x a b).invalidating = x.invalidating := rfl
@[simp] theorem physWrite_exports_ (x : Die) (a : Nat) (b : List Byte) : (physWrite x a b).exports_ = x.exports_ := rfl
@[simp] theorem physWrite_migrations (x : Die) (a : Nat) (b : List Byte) : (physWrite x a b).migrations = x.migrations := rfl
@[simp] theorem physWrite_gone (x : Die) (a : Nat) (b : List Byte) : (physWrite x a b).gone = x.gone := rfl
@[simp] theorem physWrite_pulls (x : Die) (a : Nat) (b : List Byte) : (physWrite x a b).pulls = x.pulls := rfl
@[simp] theorem physWrite_handles (x : Die) (a : Nat) (b : List Byte) : (physWrite x a b).handles = x.handles := rfl
@[simp] theorem physWrite_launches (x : Die) (a : Nat) (b : List Byte) : (physWrite x a b).launches = x.launches := rfl
@[simp] theorem physWrite_groups (x : Die) (a : Nat) (b : List Byte) : (physWrite x a b).groups = x.groups := rfl
@[simp] theorem physWrite_cores (x : Die) (a : Nat) (b : List Byte) : (physWrite x a b).cores = x.cores := rfl
@[simp] theorem physWrite_cmds (x : Die) (a : Nat) (b : List Byte) : (physWrite x a b).cmds = x.cmds := rfl
@[simp] theorem physWrite_placeOnly (x : Die) (a : Nat) (b : List Byte) : (physWrite x a b).placeOnly = x.placeOnly := rfl
@[simp] theorem physWrite_pendings (x : Die) (a : Nat) (b : List Byte) : (physWrite x a b).pendings = x.pendings := rfl
@[simp] theorem physWrite_kdWaiting (x : Die) (a : Nat) (b : List Byte) : (physWrite x a b).kdWaiting = x.kdWaiting := rfl
@[simp] theorem physWrite_remote (x : Die) (a : Nat) (b : List Byte) : (physWrite x a b).remote = x.remote := rfl
@[simp] theorem physWrite_nextId (x : Die) (a : Nat) (b : List Byte) : (physWrite x a b).nextId = x.nextId := rfl
@[simp] theorem physWrite_ceiling (x : Die) (a : Nat) (b : List Byte) : (physWrite x a b).ceiling = x.ceiling := rfl
@[simp] theorem physWrite_power (x : Die) (a : Nat) (b : List Byte) : (physWrite x a b).power = x.power := rfl
@[simp] theorem physWrite_filler (x : Die) (a : Nat) (b : List Byte) : (physWrite x a b).filler = x.filler := rfl
@[simp] theorem physWrite_withheld (x : Die) (a : Nat) (b : List Byte) : (physWrite x a b).withheld = x.withheld := rfl
@[simp] theorem physWrite_accesses (x : Die) (a : Nat) (b : List Byte) : (physWrite x a b).accesses = x.accesses := rfl
@[simp] theorem physWrite_commandKnown (x : Die) (a : Nat) (b : List Byte) : (physWrite x a b).commandKnown = x.commandKnown := rfl
@[simp] theorem physWrite_sweepKnown (x : Die) (a : Nat) (b : List Byte) : (physWrite x a b).sweepKnown = x.sweepKnown := rfl

/-! ### A gang of a group changed -/

@[simp] theorem Group.onGang_launch (x : Group) (i : Nat) (f : Gang → Gang) : (x.onGang i f).launch = x.launch := rfl
@[simp] theorem Group.onGang_node (x : Group) (i : Nat) (f : Gang → Gang) : (x.onGang i f).node = x.node := rfl
@[simp] theorem Group.onGang_block (x : Group) (i : Nat) (f : Gang → Gang) : (x.onGang i f).block = x.block := rfl
@[simp] theorem Group.onGang_regs (x : Group) (i : Nat) (f : Gang → Gang) : (x.onGang i f).regs = x.regs := rfl
@[simp] theorem Group.onGang_spad (x : Group) (i : Nat) (f : Gang → Gang) : (x.onGang i f).spad = x.spad := rfl
@[simp] theorem Group.onGang_rsize (x : Group) (i : Nat) (f : Gang → Gang) : (x.onGang i f).rsize = x.rsize := rfl
@[simp] theorem Group.onGang_kids (x : Group) (i : Nat) (f : Gang → Gang) : (x.onGang i f).kids = x.kids := rfl
@[simp] theorem Group.onGang_inbox (x : Group) (i : Nat) (f : Gang → Gang) : (x.onGang i f).inbox = x.inbox := rfl
@[simp] theorem Group.onGang_down (x : Group) (i : Nat) (f : Gang → Gang) : (x.onGang i f).down = x.down := rfl
@[simp] theorem Group.onGang_fpw (x : Group) (i : Nat) (f : Gang → Gang) : (x.onGang i f).fpw = x.fpw := rfl
@[simp] theorem Group.onGang_fph (x : Group) (i : Nat) (f : Gang → Gang) : (x.onGang i f).fph = x.fph := rfl
@[simp] theorem Group.onGang_prio (x : Group) (i : Nat) (f : Gang → Gang) : (x.onGang i f).prio = x.prio := rfl
@[simp] theorem Group.onGang_placedAt (x : Group) (i : Nat) (f : Gang → Gang) : (x.onGang i f).placedAt = x.placedAt := rfl
@[simp] theorem Group.onGang_cores (x : Group) (i : Nat) (f : Gang → Gang) : (x.onGang i f).cores = x.cores := rfl
@[simp] theorem Group.onGang_homes (x : Group) (i : Nat) (f : Gang → Gang) : (x.onGang i f).homes = x.homes := rfl
@[simp] theorem Group.onGang_result (x : Group) (i : Nat) (f : Gang → Gang) : (x.onGang i f).result = x.result := rfl
@[simp] theorem Group.onGang_values (x : Group) (i : Nat) (f : Gang → Gang) : (x.onGang i f).values = x.values := rfl
@[simp] theorem Group.onGang_state (x : Group) (i : Nat) (f : Gang → Gang) : (x.onGang i f).state = x.state := rfl
@[simp] theorem Group.onGang_pre (x : Group) (i : Nat) (f : Gang → Gang) : (x.onGang i f).pre = x.pre := rfl
@[simp] theorem Group.onGang_restore (x : Group) (i : Nat) (f : Gang → Gang) : (x.onGang i f).restore = x.restore := rfl
@[simp] theorem Group.onGang_pslot (x : Group) (i : Nat) (f : Gang → Gang) : (x.onGang i f).pslot = x.pslot := rfl
@[simp] theorem Group.onGang_stalled (x : Group) (i : Nat) (f : Gang → Gang) : (x.onGang i f).stalled = x.stalled := rfl
@[simp] theorem Group.onGang_code (x : Group) (i : Nat) (f : Gang → Gang) : (x.onGang i f).code = x.code := rfl

/-! ### A home of a group changed -/

@[simp] theorem Group.onHome_launch (x : Group) (i : Nat) (f : GroupCore → GroupCore) : (x.onHome i f).launch = x.launch := rfl
@[simp] theorem Group.onHome_node (x : Group) (i : Nat) (f : GroupCore → GroupCore) : (x.onHome i f).node = x.node := rfl
@[simp] theorem Group.onHome_block (x : Group) (i : Nat) (f : GroupCore → GroupCore) : (x.onHome i f).block = x.block := rfl
@[simp] theorem Group.onHome_regs (x : Group) (i : Nat) (f : GroupCore → GroupCore) : (x.onHome i f).regs = x.regs := rfl
@[simp] theorem Group.onHome_spad (x : Group) (i : Nat) (f : GroupCore → GroupCore) : (x.onHome i f).spad = x.spad := rfl
@[simp] theorem Group.onHome_rsize (x : Group) (i : Nat) (f : GroupCore → GroupCore) : (x.onHome i f).rsize = x.rsize := rfl
@[simp] theorem Group.onHome_kids (x : Group) (i : Nat) (f : GroupCore → GroupCore) : (x.onHome i f).kids = x.kids := rfl
@[simp] theorem Group.onHome_inbox (x : Group) (i : Nat) (f : GroupCore → GroupCore) : (x.onHome i f).inbox = x.inbox := rfl
@[simp] theorem Group.onHome_down (x : Group) (i : Nat) (f : GroupCore → GroupCore) : (x.onHome i f).down = x.down := rfl
@[simp] theorem Group.onHome_fpw (x : Group) (i : Nat) (f : GroupCore → GroupCore) : (x.onHome i f).fpw = x.fpw := rfl
@[simp] theorem Group.onHome_fph (x : Group) (i : Nat) (f : GroupCore → GroupCore) : (x.onHome i f).fph = x.fph := rfl
@[simp] theorem Group.onHome_prio (x : Group) (i : Nat) (f : GroupCore → GroupCore) : (x.onHome i f).prio = x.prio := rfl
@[simp] theorem Group.onHome_placedAt (x : Group) (i : Nat) (f : GroupCore → GroupCore) : (x.onHome i f).placedAt = x.placedAt := rfl
@[simp] theorem Group.onHome_cores (x : Group) (i : Nat) (f : GroupCore → GroupCore) : (x.onHome i f).cores = x.cores := rfl
@[simp] theorem Group.onHome_gangs (x : Group) (i : Nat) (f : GroupCore → GroupCore) : (x.onHome i f).gangs = x.gangs := rfl
@[simp] theorem Group.onHome_result (x : Group) (i : Nat) (f : GroupCore → GroupCore) : (x.onHome i f).result = x.result := rfl
@[simp] theorem Group.onHome_values (x : Group) (i : Nat) (f : GroupCore → GroupCore) : (x.onHome i f).values = x.values := rfl
@[simp] theorem Group.onHome_state (x : Group) (i : Nat) (f : GroupCore → GroupCore) : (x.onHome i f).state = x.state := rfl
@[simp] theorem Group.onHome_pre (x : Group) (i : Nat) (f : GroupCore → GroupCore) : (x.onHome i f).pre = x.pre := rfl
@[simp] theorem Group.onHome_restore (x : Group) (i : Nat) (f : GroupCore → GroupCore) : (x.onHome i f).restore = x.restore := rfl
@[simp] theorem Group.onHome_pslot (x : Group) (i : Nat) (f : GroupCore → GroupCore) : (x.onHome i f).pslot = x.pslot := rfl
@[simp] theorem Group.onHome_stalled (x : Group) (i : Nat) (f : GroupCore → GroupCore) : (x.onHome i f).stalled = x.stalled := rfl
@[simp] theorem Group.onHome_code (x : Group) (i : Nat) (f : GroupCore → GroupCore) : (x.onHome i f).code = x.code := rfl

/-! ### A quad of a gang changed -/

@[simp] theorem Gang.onQuad_core (x : Gang) (q : Nat) (f : Quad → Quad) : (x.onQuad q f).core = x.core := rfl
@[simp] theorem Gang.onQuad_part (x : Gang) (q : Nat) (f : Quad → Quad) : (x.onQuad q f).part = x.part := rfl
@[simp] theorem Gang.onQuad_lanes (x : Gang) (q : Nat) (f : Quad → Quad) : (x.onQuad q f).lanes = x.lanes := rfl
@[simp] theorem Gang.onQuad_scal (x : Gang) (q : Nat) (f : Quad → Quad) : (x.onQuad q f).scal = x.scal := rfl
@[simp] theorem Gang.onQuad_preds (x : Gang) (q : Nat) (f : Quad → Quad) : (x.onQuad q f).preds = x.preds := rfl
@[simp] theorem Gang.onQuad_preScal (x : Gang) (q : Nat) (f : Quad → Quad) : (x.onQuad q f).preScal = x.preScal := rfl
@[simp] theorem Gang.onQuad_preLanes (x : Gang) (q : Nat) (f : Quad → Quad) : (x.onQuad q f).preLanes = x.preLanes := rfl
@[simp] theorem Gang.onQuad_xwin (x : Gang) (q : Nat) (f : Quad → Quad) : (x.onQuad q f).xwin = x.xwin := rfl
@[simp] theorem Gang.onQuad_queues (x : Gang) (q : Nat) (f : Quad → Quad) : (x.onQuad q f).queues = x.queues := rfl
@[simp] theorem Gang.onQuad_binds (x : Gang) (q : Nat) (f : Quad → Quad) : (x.onQuad q f).binds = x.binds := rfl
@[simp] theorem Gang.onQuad_kdImport (x : Gang) (q : Nat) (f : Quad → Quad) : (x.onQuad q f).kdImport = x.kdImport := rfl
@[simp] theorem Gang.onQuad_kdDesc (x : Gang) (q : Nat) (f : Quad → Quad) : (x.onQuad q f).kdDesc = x.kdDesc := rfl
@[simp] theorem Gang.onQuad_kdFree (x : Gang) (q : Nat) (f : Quad → Quad) : (x.onQuad q f).kdFree = x.kdFree := rfl
@[simp] theorem Gang.onQuad_kdFrom (x : Gang) (q : Nat) (f : Quad → Quad) : (x.onQuad q f).kdFrom = x.kdFrom := rfl
@[simp] theorem Gang.onQuad_c (x : Gang) (q : Nat) (f : Quad → Quad) : (x.onQuad q f).c = x.c := rfl
@[simp] theorem Gang.onQuad_a (x : Gang) (q : Nat) (f : Quad → Quad) : (x.onQuad q f).a = x.a := rfl
@[simp] theorem Gang.onQuad_issuedC (x : Gang) (q : Nat) (f : Quad → Quad) : (x.onQuad q f).issuedC = x.issuedC := rfl
@[simp] theorem Gang.onQuad_issuedA (x : Gang) (q : Nat) (f : Quad → Quad) : (x.onQuad q f).issuedA = x.issuedA := rfl
@[simp] theorem Gang.onQuad_records (x : Gang) (q : Nat) (f : Quad → Quad) : (x.onQuad q f).records = x.records := rfl
@[simp] theorem Gang.onQuad_parkedAt (x : Gang) (q : Nat) (f : Quad → Quad) : (x.onQuad q f).parkedAt = x.parkedAt := rfl
@[simp] theorem Gang.onQuad_issued (x : Gang) (q : Nat) (f : Quad → Quad) : (x.onQuad q f).issued = x.issued := rfl
@[simp] theorem Gang.onQuad_lateC (x : Gang) (q : Nat) (f : Quad → Quad) : (x.onQuad q f).lateC = x.lateC := rfl
@[simp] theorem Gang.onQuad_lateA (x : Gang) (q : Nat) (f : Quad → Quad) : (x.onQuad q f).lateA = x.lateA := rfl
@[simp] theorem Gang.onQuad_lateJ (x : Gang) (q : Nat) (f : Quad → Quad) : (x.onQuad q f).lateJ = x.lateJ := rfl
@[simp] theorem Gang.onQuad_lost (x : Gang) (q : Nat) (f : Quad → Quad) : (x.onQuad q f).lost = x.lost := rfl
@[simp] theorem Gang.onQuad_loaded (x : Gang) (q : Nat) (f : Quad → Quad) : (x.onQuad q f).loaded = x.loaded := rfl
@[simp] theorem Gang.onQuad_waited (x : Gang) (q : Nat) (f : Quad → Quad) : (x.onQuad q f).waited = x.waited := rfl
@[simp] theorem Gang.onQuad_shifts (x : Gang) (q : Nat) (f : Quad → Quad) : (x.onQuad q f).shifts = x.shifts := rfl
@[simp] theorem Gang.onQuad_know (x : Gang) (q : Nat) (f : Quad → Quad) : (x.onQuad q f).know = x.know := rfl

/-! ### A receive queue replaced -/

@[simp] theorem Gang.setPort_core (x : Gang) (j l : Nat) (v : List Word) : (x.setPort j l v).core = x.core := rfl
@[simp] theorem Gang.setPort_part (x : Gang) (j l : Nat) (v : List Word) : (x.setPort j l v).part = x.part := rfl
@[simp] theorem Gang.setPort_lanes (x : Gang) (j l : Nat) (v : List Word) : (x.setPort j l v).lanes = x.lanes := rfl
@[simp] theorem Gang.setPort_scal (x : Gang) (j l : Nat) (v : List Word) : (x.setPort j l v).scal = x.scal := rfl
@[simp] theorem Gang.setPort_preds (x : Gang) (j l : Nat) (v : List Word) : (x.setPort j l v).preds = x.preds := rfl
@[simp] theorem Gang.setPort_preScal (x : Gang) (j l : Nat) (v : List Word) : (x.setPort j l v).preScal = x.preScal := rfl
@[simp] theorem Gang.setPort_preLanes (x : Gang) (j l : Nat) (v : List Word) : (x.setPort j l v).preLanes = x.preLanes := rfl
@[simp] theorem Gang.setPort_xwin (x : Gang) (j l : Nat) (v : List Word) : (x.setPort j l v).xwin = x.xwin := rfl
@[simp] theorem Gang.setPort_quads (x : Gang) (j l : Nat) (v : List Word) : (x.setPort j l v).quads = x.quads := rfl
@[simp] theorem Gang.setPort_binds (x : Gang) (j l : Nat) (v : List Word) : (x.setPort j l v).binds = x.binds := rfl
@[simp] theorem Gang.setPort_kdImport (x : Gang) (j l : Nat) (v : List Word) : (x.setPort j l v).kdImport = x.kdImport := rfl
@[simp] theorem Gang.setPort_kdDesc (x : Gang) (j l : Nat) (v : List Word) : (x.setPort j l v).kdDesc = x.kdDesc := rfl
@[simp] theorem Gang.setPort_kdFree (x : Gang) (j l : Nat) (v : List Word) : (x.setPort j l v).kdFree = x.kdFree := rfl
@[simp] theorem Gang.setPort_kdFrom (x : Gang) (j l : Nat) (v : List Word) : (x.setPort j l v).kdFrom = x.kdFrom := rfl
@[simp] theorem Gang.setPort_c (x : Gang) (j l : Nat) (v : List Word) : (x.setPort j l v).c = x.c := rfl
@[simp] theorem Gang.setPort_a (x : Gang) (j l : Nat) (v : List Word) : (x.setPort j l v).a = x.a := rfl
@[simp] theorem Gang.setPort_issuedC (x : Gang) (j l : Nat) (v : List Word) : (x.setPort j l v).issuedC = x.issuedC := rfl
@[simp] theorem Gang.setPort_issuedA (x : Gang) (j l : Nat) (v : List Word) : (x.setPort j l v).issuedA = x.issuedA := rfl
@[simp] theorem Gang.setPort_records (x : Gang) (j l : Nat) (v : List Word) : (x.setPort j l v).records = x.records := rfl
@[simp] theorem Gang.setPort_parkedAt (x : Gang) (j l : Nat) (v : List Word) : (x.setPort j l v).parkedAt = x.parkedAt := rfl
@[simp] theorem Gang.setPort_issued (x : Gang) (j l : Nat) (v : List Word) : (x.setPort j l v).issued = x.issued := rfl
@[simp] theorem Gang.setPort_lateC (x : Gang) (j l : Nat) (v : List Word) : (x.setPort j l v).lateC = x.lateC := rfl
@[simp] theorem Gang.setPort_lateA (x : Gang) (j l : Nat) (v : List Word) : (x.setPort j l v).lateA = x.lateA := rfl
@[simp] theorem Gang.setPort_lateJ (x : Gang) (j l : Nat) (v : List Word) : (x.setPort j l v).lateJ = x.lateJ := rfl
@[simp] theorem Gang.setPort_lost (x : Gang) (j l : Nat) (v : List Word) : (x.setPort j l v).lost = x.lost := rfl
@[simp] theorem Gang.setPort_loaded (x : Gang) (j l : Nat) (v : List Word) : (x.setPort j l v).loaded = x.loaded := rfl
@[simp] theorem Gang.setPort_waited (x : Gang) (j l : Nat) (v : List Word) : (x.setPort j l v).waited = x.waited := rfl
@[simp] theorem Gang.setPort_shifts (x : Gang) (j l : Nat) (v : List Word) : (x.setPort j l v).shifts = x.shifts := rfl
@[simp] theorem Gang.setPort_know (x : Gang) (j l : Nat) (v : List Word) : (x.setPort j l v).know = x.know := rfl

/-! ### A record written -/

@[simp] theorem Gang.putRecord_core (x : Gang) (l : Nat) (r : FaultRec) : (x.putRecord l r).core = x.core := by unfold Gang.putRecord; split <;> rfl
@[simp] theorem Gang.putRecord_part (x : Gang) (l : Nat) (r : FaultRec) : (x.putRecord l r).part = x.part := by unfold Gang.putRecord; split <;> rfl
@[simp] theorem Gang.putRecord_lanes (x : Gang) (l : Nat) (r : FaultRec) : (x.putRecord l r).lanes = x.lanes := by unfold Gang.putRecord; split <;> rfl
@[simp] theorem Gang.putRecord_scal (x : Gang) (l : Nat) (r : FaultRec) : (x.putRecord l r).scal = x.scal := by unfold Gang.putRecord; split <;> rfl
@[simp] theorem Gang.putRecord_preds (x : Gang) (l : Nat) (r : FaultRec) : (x.putRecord l r).preds = x.preds := by unfold Gang.putRecord; split <;> rfl
@[simp] theorem Gang.putRecord_preScal (x : Gang) (l : Nat) (r : FaultRec) : (x.putRecord l r).preScal = x.preScal := by unfold Gang.putRecord; split <;> rfl
@[simp] theorem Gang.putRecord_preLanes (x : Gang) (l : Nat) (r : FaultRec) : (x.putRecord l r).preLanes = x.preLanes := by unfold Gang.putRecord; split <;> rfl
@[simp] theorem Gang.putRecord_xwin (x : Gang) (l : Nat) (r : FaultRec) : (x.putRecord l r).xwin = x.xwin := by unfold Gang.putRecord; split <;> rfl
@[simp] theorem Gang.putRecord_quads (x : Gang) (l : Nat) (r : FaultRec) : (x.putRecord l r).quads = x.quads := by unfold Gang.putRecord; split <;> rfl
@[simp] theorem Gang.putRecord_queues (x : Gang) (l : Nat) (r : FaultRec) : (x.putRecord l r).queues = x.queues := by unfold Gang.putRecord; split <;> rfl
@[simp] theorem Gang.putRecord_binds (x : Gang) (l : Nat) (r : FaultRec) : (x.putRecord l r).binds = x.binds := by unfold Gang.putRecord; split <;> rfl
@[simp] theorem Gang.putRecord_kdImport (x : Gang) (l : Nat) (r : FaultRec) : (x.putRecord l r).kdImport = x.kdImport := by unfold Gang.putRecord; split <;> rfl
@[simp] theorem Gang.putRecord_kdDesc (x : Gang) (l : Nat) (r : FaultRec) : (x.putRecord l r).kdDesc = x.kdDesc := by unfold Gang.putRecord; split <;> rfl
@[simp] theorem Gang.putRecord_kdFree (x : Gang) (l : Nat) (r : FaultRec) : (x.putRecord l r).kdFree = x.kdFree := by unfold Gang.putRecord; split <;> rfl
@[simp] theorem Gang.putRecord_kdFrom (x : Gang) (l : Nat) (r : FaultRec) : (x.putRecord l r).kdFrom = x.kdFrom := by unfold Gang.putRecord; split <;> rfl
@[simp] theorem Gang.putRecord_c (x : Gang) (l : Nat) (r : FaultRec) : (x.putRecord l r).c = x.c := by unfold Gang.putRecord; split <;> rfl
@[simp] theorem Gang.putRecord_a (x : Gang) (l : Nat) (r : FaultRec) : (x.putRecord l r).a = x.a := by unfold Gang.putRecord; split <;> rfl
@[simp] theorem Gang.putRecord_issuedC (x : Gang) (l : Nat) (r : FaultRec) : (x.putRecord l r).issuedC = x.issuedC := by unfold Gang.putRecord; split <;> rfl
@[simp] theorem Gang.putRecord_issuedA (x : Gang) (l : Nat) (r : FaultRec) : (x.putRecord l r).issuedA = x.issuedA := by unfold Gang.putRecord; split <;> rfl
@[simp] theorem Gang.putRecord_parkedAt (x : Gang) (l : Nat) (r : FaultRec) : (x.putRecord l r).parkedAt = x.parkedAt := by unfold Gang.putRecord; split <;> rfl
@[simp] theorem Gang.putRecord_issued (x : Gang) (l : Nat) (r : FaultRec) : (x.putRecord l r).issued = x.issued := by unfold Gang.putRecord; split <;> rfl
@[simp] theorem Gang.putRecord_lateC (x : Gang) (l : Nat) (r : FaultRec) : (x.putRecord l r).lateC = x.lateC := by unfold Gang.putRecord; split <;> rfl
@[simp] theorem Gang.putRecord_lateA (x : Gang) (l : Nat) (r : FaultRec) : (x.putRecord l r).lateA = x.lateA := by unfold Gang.putRecord; split <;> rfl
@[simp] theorem Gang.putRecord_lateJ (x : Gang) (l : Nat) (r : FaultRec) : (x.putRecord l r).lateJ = x.lateJ := by unfold Gang.putRecord; split <;> rfl
@[simp] theorem Gang.putRecord_lost (x : Gang) (l : Nat) (r : FaultRec) : (x.putRecord l r).lost = x.lost := by unfold Gang.putRecord; split <;> rfl
@[simp] theorem Gang.putRecord_loaded (x : Gang) (l : Nat) (r : FaultRec) : (x.putRecord l r).loaded = x.loaded := by unfold Gang.putRecord; split <;> rfl
@[simp] theorem Gang.putRecord_waited (x : Gang) (l : Nat) (r : FaultRec) : (x.putRecord l r).waited = x.waited := by unfold Gang.putRecord; split <;> rfl
@[simp] theorem Gang.putRecord_shifts (x : Gang) (l : Nat) (r : FaultRec) : (x.putRecord l r).shifts = x.shifts := by unfold Gang.putRecord; split <;> rfl
@[simp] theorem Gang.putRecord_know (x : Gang) (l : Nat) (r : FaultRec) : (x.putRecord l r).know = x.know := by unfold Gang.putRecord; split <;> rfl

/-! ### A gang beyond recovery -/

@[simp] theorem Gang.loseTo_core (x : Gang) (c : Nat) : (x.loseTo c).core = x.core := by unfold Gang.loseTo; split <;> rfl
@[simp] theorem Gang.loseTo_part (x : Gang) (c : Nat) : (x.loseTo c).part = x.part := by unfold Gang.loseTo; split <;> rfl
@[simp] theorem Gang.loseTo_lanes (x : Gang) (c : Nat) : (x.loseTo c).lanes = x.lanes := by unfold Gang.loseTo; split <;> rfl
@[simp] theorem Gang.loseTo_scal (x : Gang) (c : Nat) : (x.loseTo c).scal = x.scal := by unfold Gang.loseTo; split <;> rfl
@[simp] theorem Gang.loseTo_preds (x : Gang) (c : Nat) : (x.loseTo c).preds = x.preds := by unfold Gang.loseTo; split <;> rfl
@[simp] theorem Gang.loseTo_preScal (x : Gang) (c : Nat) : (x.loseTo c).preScal = x.preScal := by unfold Gang.loseTo; split <;> rfl
@[simp] theorem Gang.loseTo_preLanes (x : Gang) (c : Nat) : (x.loseTo c).preLanes = x.preLanes := by unfold Gang.loseTo; split <;> rfl
@[simp] theorem Gang.loseTo_xwin (x : Gang) (c : Nat) : (x.loseTo c).xwin = x.xwin := by unfold Gang.loseTo; split <;> rfl
@[simp] theorem Gang.loseTo_quads (x : Gang) (c : Nat) : (x.loseTo c).quads = x.quads := by unfold Gang.loseTo; split <;> rfl
@[simp] theorem Gang.loseTo_queues (x : Gang) (c : Nat) : (x.loseTo c).queues = x.queues := by unfold Gang.loseTo; split <;> rfl
@[simp] theorem Gang.loseTo_binds (x : Gang) (c : Nat) : (x.loseTo c).binds = x.binds := by unfold Gang.loseTo; split <;> rfl
@[simp] theorem Gang.loseTo_kdImport (x : Gang) (c : Nat) : (x.loseTo c).kdImport = x.kdImport := by unfold Gang.loseTo; split <;> rfl
@[simp] theorem Gang.loseTo_kdDesc (x : Gang) (c : Nat) : (x.loseTo c).kdDesc = x.kdDesc := by unfold Gang.loseTo; split <;> rfl
@[simp] theorem Gang.loseTo_kdFree (x : Gang) (c : Nat) : (x.loseTo c).kdFree = x.kdFree := by unfold Gang.loseTo; split <;> rfl
@[simp] theorem Gang.loseTo_kdFrom (x : Gang) (c : Nat) : (x.loseTo c).kdFrom = x.kdFrom := by unfold Gang.loseTo; split <;> rfl
@[simp] theorem Gang.loseTo_c (x : Gang) (c : Nat) : (x.loseTo c).c = x.c := by unfold Gang.loseTo; split <;> rfl
@[simp] theorem Gang.loseTo_a (x : Gang) (c : Nat) : (x.loseTo c).a = x.a := by unfold Gang.loseTo; split <;> rfl
@[simp] theorem Gang.loseTo_issuedC (x : Gang) (c : Nat) : (x.loseTo c).issuedC = x.issuedC := by unfold Gang.loseTo; split <;> rfl
@[simp] theorem Gang.loseTo_issuedA (x : Gang) (c : Nat) : (x.loseTo c).issuedA = x.issuedA := by unfold Gang.loseTo; split <;> rfl
@[simp] theorem Gang.loseTo_records (x : Gang) (c : Nat) : (x.loseTo c).records = x.records := by unfold Gang.loseTo; split <;> rfl
@[simp] theorem Gang.loseTo_parkedAt (x : Gang) (c : Nat) : (x.loseTo c).parkedAt = x.parkedAt := by unfold Gang.loseTo; split <;> rfl
@[simp] theorem Gang.loseTo_issued (x : Gang) (c : Nat) : (x.loseTo c).issued = x.issued := by unfold Gang.loseTo; split <;> rfl
@[simp] theorem Gang.loseTo_lateC (x : Gang) (c : Nat) : (x.loseTo c).lateC = x.lateC := by unfold Gang.loseTo; split <;> rfl
@[simp] theorem Gang.loseTo_lateA (x : Gang) (c : Nat) : (x.loseTo c).lateA = x.lateA := by unfold Gang.loseTo; split <;> rfl
@[simp] theorem Gang.loseTo_lateJ (x : Gang) (c : Nat) : (x.loseTo c).lateJ = x.lateJ := by unfold Gang.loseTo; split <;> rfl
@[simp] theorem Gang.loseTo_loaded (x : Gang) (c : Nat) : (x.loseTo c).loaded = x.loaded := by unfold Gang.loseTo; split <;> rfl
@[simp] theorem Gang.loseTo_waited (x : Gang) (c : Nat) : (x.loseTo c).waited = x.waited := by unfold Gang.loseTo; split <;> rfl
@[simp] theorem Gang.loseTo_shifts (x : Gang) (c : Nat) : (x.loseTo c).shifts = x.shifts := by unfold Gang.loseTo; split <;> rfl
@[simp] theorem Gang.loseTo_know (x : Gang) (c : Nat) : (x.loseTo c).know = x.know := by unfold Gang.loseTo; split <;> rfl

/-! ### A lane parked -/

@[simp] theorem Gang.parkLane_core (x : Gang) (l n : Nat) (r : FaultRec) : (x.parkLane l n r).core = x.core := by unfold Gang.parkLane; dsimp only; split <;> simp
@[simp] theorem Gang.parkLane_part (x : Gang) (l n : Nat) (r : FaultRec) : (x.parkLane l n r).part = x.part := by unfold Gang.parkLane; dsimp only; split <;> simp
@[simp] theorem Gang.parkLane_lanes (x : Gang) (l n : Nat) (r : FaultRec) : (x.parkLane l n r).lanes = x.lanes := by unfold Gang.parkLane; dsimp only; split <;> simp
@[simp] theorem Gang.parkLane_scal (x : Gang) (l n : Nat) (r : FaultRec) : (x.parkLane l n r).scal = x.scal := by unfold Gang.parkLane; dsimp only; split <;> simp
@[simp] theorem Gang.parkLane_preds (x : Gang) (l n : Nat) (r : FaultRec) : (x.parkLane l n r).preds = x.preds := by unfold Gang.parkLane; dsimp only; split <;> simp
@[simp] theorem Gang.parkLane_preScal (x : Gang) (l n : Nat) (r : FaultRec) : (x.parkLane l n r).preScal = x.preScal := by unfold Gang.parkLane; dsimp only; split <;> simp
@[simp] theorem Gang.parkLane_preLanes (x : Gang) (l n : Nat) (r : FaultRec) : (x.parkLane l n r).preLanes = x.preLanes := by unfold Gang.parkLane; dsimp only; split <;> simp
@[simp] theorem Gang.parkLane_xwin (x : Gang) (l n : Nat) (r : FaultRec) : (x.parkLane l n r).xwin = x.xwin := by unfold Gang.parkLane; dsimp only; split <;> simp
@[simp] theorem Gang.parkLane_queues (x : Gang) (l n : Nat) (r : FaultRec) : (x.parkLane l n r).queues = x.queues := by unfold Gang.parkLane; dsimp only; split <;> simp
@[simp] theorem Gang.parkLane_binds (x : Gang) (l n : Nat) (r : FaultRec) : (x.parkLane l n r).binds = x.binds := by unfold Gang.parkLane; dsimp only; split <;> simp
@[simp] theorem Gang.parkLane_kdImport (x : Gang) (l n : Nat) (r : FaultRec) : (x.parkLane l n r).kdImport = x.kdImport := by unfold Gang.parkLane; dsimp only; split <;> simp
@[simp] theorem Gang.parkLane_kdDesc (x : Gang) (l n : Nat) (r : FaultRec) : (x.parkLane l n r).kdDesc = x.kdDesc := by unfold Gang.parkLane; dsimp only; split <;> simp
@[simp] theorem Gang.parkLane_kdFree (x : Gang) (l n : Nat) (r : FaultRec) : (x.parkLane l n r).kdFree = x.kdFree := by unfold Gang.parkLane; dsimp only; split <;> simp
@[simp] theorem Gang.parkLane_kdFrom (x : Gang) (l n : Nat) (r : FaultRec) : (x.parkLane l n r).kdFrom = x.kdFrom := by unfold Gang.parkLane; dsimp only; split <;> simp
@[simp] theorem Gang.parkLane_c (x : Gang) (l n : Nat) (r : FaultRec) : (x.parkLane l n r).c = x.c := by unfold Gang.parkLane; dsimp only; split <;> simp
@[simp] theorem Gang.parkLane_a (x : Gang) (l n : Nat) (r : FaultRec) : (x.parkLane l n r).a = x.a := by unfold Gang.parkLane; dsimp only; split <;> simp
@[simp] theorem Gang.parkLane_issuedC (x : Gang) (l n : Nat) (r : FaultRec) : (x.parkLane l n r).issuedC = x.issuedC := by unfold Gang.parkLane; dsimp only; split <;> simp
@[simp] theorem Gang.parkLane_issuedA (x : Gang) (l n : Nat) (r : FaultRec) : (x.parkLane l n r).issuedA = x.issuedA := by unfold Gang.parkLane; dsimp only; split <;> simp
@[simp] theorem Gang.parkLane_issued (x : Gang) (l n : Nat) (r : FaultRec) : (x.parkLane l n r).issued = x.issued := by unfold Gang.parkLane; dsimp only; split <;> simp
@[simp] theorem Gang.parkLane_lateC (x : Gang) (l n : Nat) (r : FaultRec) : (x.parkLane l n r).lateC = x.lateC := by unfold Gang.parkLane; dsimp only; split <;> simp
@[simp] theorem Gang.parkLane_lateA (x : Gang) (l n : Nat) (r : FaultRec) : (x.parkLane l n r).lateA = x.lateA := by unfold Gang.parkLane; dsimp only; split <;> simp
@[simp] theorem Gang.parkLane_lateJ (x : Gang) (l n : Nat) (r : FaultRec) : (x.parkLane l n r).lateJ = x.lateJ := by unfold Gang.parkLane; dsimp only; split <;> simp
@[simp] theorem Gang.parkLane_lost (x : Gang) (l n : Nat) (r : FaultRec) : (x.parkLane l n r).lost = x.lost := by unfold Gang.parkLane; dsimp only; split <;> simp
@[simp] theorem Gang.parkLane_loaded (x : Gang) (l n : Nat) (r : FaultRec) : (x.parkLane l n r).loaded = x.loaded := by unfold Gang.parkLane; dsimp only; split <;> simp
@[simp] theorem Gang.parkLane_waited (x : Gang) (l n : Nat) (r : FaultRec) : (x.parkLane l n r).waited = x.waited := by unfold Gang.parkLane; dsimp only; split <;> simp
@[simp] theorem Gang.parkLane_shifts (x : Gang) (l n : Nat) (r : FaultRec) : (x.parkLane l n r).shifts = x.shifts := by unfold Gang.parkLane; dsimp only; split <;> simp
@[simp] theorem Gang.parkLane_know (x : Gang) (l n : Nat) (r : FaultRec) : (x.parkLane l n r).know = x.know := by unfold Gang.parkLane; dsimp only; split <;> simp

/-! ### Lanes ended -/

@[simp] theorem Quad.endLanes_pc (x : Quad) (m : BitVec 4) : (x.endLanes m).pc = x.pc := rfl
@[simp] theorem Quad.endLanes_fmt (x : Quad) (m : BitVec 4) : (x.endLanes m).fmt = x.fmt := rfl
@[simp] theorem Quad.endLanes_lc (x : Quad) (m : BitVec 4) : (x.endLanes m).lc = x.lc := rfl
@[simp] theorem Quad.endLanes_reps (x : Quad) (m : BitVec 4) : (x.endLanes m).reps = x.reps := rfl
@[simp] theorem Quad.endLanes_calls (x : Quad) (m : BitVec 4) : (x.endLanes m).calls = x.calls := rfl
@[simp] theorem Quad.endLanes_sgt (x : Quad) (m : BitVec 4) : (x.endLanes m).sgt = x.sgt := rfl
@[simp] theorem Quad.endLanes_sup (x : Quad) (m : BitVec 4) : (x.endLanes m).sup = x.sup := rfl
@[simp] theorem Quad.endLanes_epc (x : Quad) (m : BitVec 4) : (x.endLanes m).epc = x.epc := rfl
@[simp] theorem Quad.endLanes_emask (x : Quad) (m : BitVec 4) : (x.endLanes m).emask = x.emask := rfl
@[simp] theorem Quad.endLanes_eflt (x : Quad) (m : BitVec 4) : (x.endLanes m).eflt = x.eflt := rfl
@[simp] theorem Quad.endLanes_edepth (x : Quad) (m : BitVec 4) : (x.endLanes m).edepth = x.edepth := rfl
@[simp] theorem Quad.endLanes_eclass (x : Quad) (m : BitVec 4) : (x.endLanes m).eclass = x.eclass := rfl
@[simp] theorem Quad.endLanes_park (x : Quad) (m : BitVec 4) : (x.endLanes m).park = x.park := rfl
@[simp] theorem Quad.endLanes_released (x : Quad) (m : BitVec 4) : (x.endLanes m).released = x.released := rfl
@[simp] theorem Quad.endLanes_held (x : Quad) (m : BitVec 4) : (x.endLanes m).held = x.held := rfl
@[simp] theorem Quad.endLanes_vflags (x : Quad) (m : BitVec 4) : (x.endLanes m).vflags = x.vflags := rfl
@[simp] theorem Quad.endLanes_ppc (x : Quad) (m : BitVec 4) : (x.endLanes m).ppc = x.ppc := rfl
@[simp] theorem Quad.endLanes_pLmask (x : Quad) (m : BitVec 4) : (x.endLanes m).pLmask = x.pLmask := rfl
@[simp] theorem Quad.endLanes_pPark (x : Quad) (m : BitVec 4) : (x.endLanes m).pPark = x.pPark := rfl
@[simp] theorem Quad.endLanes_pSup (x : Quad) (m : BitVec 4) : (x.endLanes m).pSup = x.pSup := rfl
@[simp] theorem Quad.endLanes_pSgt (x : Quad) (m : BitVec 4) : (x.endLanes m).pSgt = x.pSgt := rfl
@[simp] theorem Quad.endLanes_exited (x : Quad) (m : BitVec 4) : (x.endLanes m).exited = x.exited := rfl
@[simp] theorem Quad.endLanes_barArrived (x : Quad) (m : BitVec 4) : (x.endLanes m).barArrived = x.barArrived := rfl
@[simp] theorem Quad.endLanes_gsyncArrived (x : Quad) (m : BitVec 4) : (x.endLanes m).gsyncArrived = x.gsyncArrived := rfl
@[simp] theorem Quad.endLanes_atRegang (x : Quad) (m : BitVec 4) : (x.endLanes m).atRegang = x.atRegang := rfl
@[simp] theorem Quad.endLanes_atGsave (x : Quad) (m : BitVec 4) : (x.endLanes m).atGsave = x.atGsave := rfl
@[simp] theorem Quad.endLanes_ywait (x : Quad) (m : BitVec 4) : (x.endLanes m).ywait = x.ywait := rfl
@[simp] theorem Quad.endLanes_stopped (x : Quad) (m : BitVec 4) : (x.endLanes m).stopped = x.stopped := rfl
@[simp] theorem Quad.endLanes_poolWait (x : Quad) (m : BitVec 4) : (x.endLanes m).poolWait = x.poolWait := rfl
@[simp] theorem Quad.endLanes_sigw (x : Quad) (m : BitVec 4) : (x.endLanes m).sigw = x.sigw := rfl
@[simp] theorem Quad.endLanes_atMacq (x : Quad) (m : BitVec 4) : (x.endLanes m).atMacq = x.atMacq := rfl

/-! ### A PC advanced -/

@[simp] theorem Quad.advance_lmask (x : Quad)  : (x.advance).lmask = x.lmask := rfl
@[simp] theorem Quad.advance_stack (x : Quad)  : (x.advance).stack = x.stack := rfl
@[simp] theorem Quad.advance_fmt (x : Quad)  : (x.advance).fmt = x.fmt := rfl
@[simp] theorem Quad.advance_calls (x : Quad)  : (x.advance).calls = x.calls := rfl
@[simp] theorem Quad.advance_sgt (x : Quad)  : (x.advance).sgt = x.sgt := rfl
@[simp] theorem Quad.advance_sup (x : Quad)  : (x.advance).sup = x.sup := rfl
@[simp] theorem Quad.advance_epc (x : Quad)  : (x.advance).epc = x.epc := rfl
@[simp] theorem Quad.advance_emask (x : Quad)  : (x.advance).emask = x.emask := rfl
@[simp] theorem Quad.advance_eflt (x : Quad)  : (x.advance).eflt = x.eflt := rfl
@[simp] theorem Quad.advance_edepth (x : Quad)  : (x.advance).edepth = x.edepth := rfl
@[simp] theorem Quad.advance_eclass (x : Quad)  : (x.advance).eclass = x.eclass := rfl
@[simp] theorem Quad.advance_park (x : Quad)  : (x.advance).park = x.park := rfl
@[simp] theorem Quad.advance_released (x : Quad)  : (x.advance).released = x.released := rfl
@[simp] theorem Quad.advance_ended (x : Quad)  : (x.advance).ended = x.ended := rfl
@[simp] theorem Quad.advance_held (x : Quad)  : (x.advance).held = x.held := rfl
@[simp] theorem Quad.advance_vflags (x : Quad)  : (x.advance).vflags = x.vflags := rfl
@[simp] theorem Quad.advance_ppc (x : Quad)  : (x.advance).ppc = x.ppc := rfl
@[simp] theorem Quad.advance_pLmask (x : Quad)  : (x.advance).pLmask = x.pLmask := rfl
@[simp] theorem Quad.advance_pPark (x : Quad)  : (x.advance).pPark = x.pPark := rfl
@[simp] theorem Quad.advance_pSup (x : Quad)  : (x.advance).pSup = x.pSup := rfl
@[simp] theorem Quad.advance_pSgt (x : Quad)  : (x.advance).pSgt = x.pSgt := rfl
@[simp] theorem Quad.advance_exited (x : Quad)  : (x.advance).exited = x.exited := rfl
@[simp] theorem Quad.advance_barArrived (x : Quad)  : (x.advance).barArrived = x.barArrived := rfl
@[simp] theorem Quad.advance_gsyncArrived (x : Quad)  : (x.advance).gsyncArrived = x.gsyncArrived := rfl
@[simp] theorem Quad.advance_atRegang (x : Quad)  : (x.advance).atRegang = x.atRegang := rfl
@[simp] theorem Quad.advance_atGsave (x : Quad)  : (x.advance).atGsave = x.atGsave := rfl
@[simp] theorem Quad.advance_ywait (x : Quad)  : (x.advance).ywait = x.ywait := rfl
@[simp] theorem Quad.advance_stopped (x : Quad)  : (x.advance).stopped = x.stopped := rfl
@[simp] theorem Quad.advance_poolWait (x : Quad)  : (x.advance).poolWait = x.poolWait := rfl
@[simp] theorem Quad.advance_sigw (x : Quad)  : (x.advance).sigw = x.sigw := rfl
@[simp] theorem Quad.advance_atMacq (x : Quad)  : (x.advance).atMacq = x.atMacq := rfl

/-! ### A transfer of control -/

@[simp] theorem Quad.jumpTo_lmask (x : Quad) (p : Nat) : (x.jumpTo p).lmask = x.lmask := rfl
@[simp] theorem Quad.jumpTo_stack (x : Quad) (p : Nat) : (x.jumpTo p).stack = x.stack := rfl
@[simp] theorem Quad.jumpTo_fmt (x : Quad) (p : Nat) : (x.jumpTo p).fmt = x.fmt := rfl
@[simp] theorem Quad.jumpTo_lc (x : Quad) (p : Nat) : (x.jumpTo p).lc = x.lc := rfl
@[simp] theorem Quad.jumpTo_calls (x : Quad) (p : Nat) : (x.jumpTo p).calls = x.calls := rfl
@[simp] theorem Quad.jumpTo_sgt (x : Quad) (p : Nat) : (x.jumpTo p).sgt = x.sgt := rfl
@[simp] theorem Quad.jumpTo_sup (x : Quad) (p : Nat) : (x.jumpTo p).sup = x.sup := rfl
@[simp] theorem Quad.jumpTo_epc (x : Quad) (p : Nat) : (x.jumpTo p).epc = x.epc := rfl
@[simp] theorem Quad.jumpTo_emask (x : Quad) (p : Nat) : (x.jumpTo p).emask = x.emask := rfl
@[simp] theorem Quad.jumpTo_eflt (x : Quad) (p : Nat) : (x.jumpTo p).eflt = x.eflt := rfl
@[simp] theorem Quad.jumpTo_edepth (x : Quad) (p : Nat) : (x.jumpTo p).edepth = x.edepth := rfl
@[simp] theorem Quad.jumpTo_eclass (x : Quad) (p : Nat) : (x.jumpTo p).eclass = x.eclass := rfl
@[simp] theorem Quad.jumpTo_park (x : Quad) (p : Nat) : (x.jumpTo p).park = x.park := rfl
@[simp] theorem Quad.jumpTo_released (x : Quad) (p : Nat) : (x.jumpTo p).released = x.released := rfl
@[simp] theorem Quad.jumpTo_ended (x : Quad) (p : Nat) : (x.jumpTo p).ended = x.ended := rfl
@[simp] theorem Quad.jumpTo_held (x : Quad) (p : Nat) : (x.jumpTo p).held = x.held := rfl
@[simp] theorem Quad.jumpTo_vflags (x : Quad) (p : Nat) : (x.jumpTo p).vflags = x.vflags := rfl
@[simp] theorem Quad.jumpTo_ppc (x : Quad) (p : Nat) : (x.jumpTo p).ppc = x.ppc := rfl
@[simp] theorem Quad.jumpTo_pLmask (x : Quad) (p : Nat) : (x.jumpTo p).pLmask = x.pLmask := rfl
@[simp] theorem Quad.jumpTo_pPark (x : Quad) (p : Nat) : (x.jumpTo p).pPark = x.pPark := rfl
@[simp] theorem Quad.jumpTo_pSup (x : Quad) (p : Nat) : (x.jumpTo p).pSup = x.pSup := rfl
@[simp] theorem Quad.jumpTo_pSgt (x : Quad) (p : Nat) : (x.jumpTo p).pSgt = x.pSgt := rfl
@[simp] theorem Quad.jumpTo_exited (x : Quad) (p : Nat) : (x.jumpTo p).exited = x.exited := rfl
@[simp] theorem Quad.jumpTo_barArrived (x : Quad) (p : Nat) : (x.jumpTo p).barArrived = x.barArrived := rfl
@[simp] theorem Quad.jumpTo_gsyncArrived (x : Quad) (p : Nat) : (x.jumpTo p).gsyncArrived = x.gsyncArrived := rfl
@[simp] theorem Quad.jumpTo_atRegang (x : Quad) (p : Nat) : (x.jumpTo p).atRegang = x.atRegang := rfl
@[simp] theorem Quad.jumpTo_atGsave (x : Quad) (p : Nat) : (x.jumpTo p).atGsave = x.atGsave := rfl
@[simp] theorem Quad.jumpTo_ywait (x : Quad) (p : Nat) : (x.jumpTo p).ywait = x.ywait := rfl
@[simp] theorem Quad.jumpTo_stopped (x : Quad) (p : Nat) : (x.jumpTo p).stopped = x.stopped := rfl
@[simp] theorem Quad.jumpTo_poolWait (x : Quad) (p : Nat) : (x.jumpTo p).poolWait = x.poolWait := rfl
@[simp] theorem Quad.jumpTo_sigw (x : Quad) (p : Nat) : (x.jumpTo p).sigw = x.sigw := rfl
@[simp] theorem Quad.jumpTo_atMacq (x : Quad) (p : Nat) : (x.jumpTo p).atMacq = x.atMacq := rfl

/-! ### A register of a context written -/

@[simp] theorem Cx.setRow_s (x : Cx) (n : Nat) (m : Word) (f : Nat → Word) : (x.setRow n m f).s = x.s := by unfold Cx.setRow; split <;> rfl
@[simp] theorem Cx.setRow_dn (x : Cx) (n : Nat) (m : Word) (f : Nat → Word) : (x.setRow n m f).dn = x.dn := by unfold Cx.setRow; split <;> rfl
@[simp] theorem Cx.setRow_gid (x : Cx) (n : Nat) (m : Word) (f : Nat → Word) : (x.setRow n m f).gid = x.gid := by unfold Cx.setRow; split <;> rfl
@[simp] theorem Cx.setRow_gi (x : Cx) (n : Nat) (m : Word) (f : Nat → Word) : (x.setRow n m f).gi = x.gi := by unfold Cx.setRow; split <;> rfl
@[simp] theorem Cx.setRow_sgt (x : Cx) (n : Nat) (m : Word) (f : Nat → Word) : (x.setRow n m f).sgt = x.sgt := by unfold Cx.setRow; split <;> rfl
@[simp] theorem Cx.setRow_grp (x : Cx) (n : Nat) (m : Word) (f : Nat → Word) : (x.setRow n m f).grp = x.grp := by unfold Cx.setRow; split <;> rfl
@[simp] theorem Cx.setRow_qs (x : Cx) (n : Nat) (m : Word) (f : Nat → Word) : (x.setRow n m f).qs = x.qs := by unfold Cx.setRow; split <;> rfl
@[simp] theorem Cx.setRow_sup (x : Cx) (n : Nat) (m : Word) (f : Nat → Word) : (x.setRow n m f).sup = x.sup := by unfold Cx.setRow; split <;> rfl
@[simp] theorem Cx.setRow_pc (x : Cx) (n : Nat) (m : Word) (f : Nat → Word) : (x.setRow n m f).pc = x.pc := by unfold Cx.setRow; split <;> rfl
@[simp] theorem Cx.setRow_op (x : Cx) (n : Nat) (m : Word) (f : Nat → Word) : (x.setRow n m f).op = x.op := by unfold Cx.setRow; split <;> rfl
@[simp] theorem Cx.setRow_nh (x : Cx) (n : Nat) (m : Word) (f : Nat → Word) : (x.setRow n m f).nh = x.nh := by unfold Cx.setRow; split <;> rfl
@[simp] theorem Cx.setRow_act (x : Cx) (n : Nat) (m : Word) (f : Nat → Word) : (x.setRow n m f).act = x.act := by unfold Cx.setRow; split <;> rfl
@[simp] theorem Cx.setRow_em (x : Cx) (n : Nat) (m : Word) (f : Nat → Word) : (x.setRow n m f).em = x.em := by unfold Cx.setRow; split <;> rfl
@[simp] theorem Cx.setRow_helpers (x : Cx) (n : Nat) (m : Word) (f : Nat → Word) : (x.setRow n m f).helpers = x.helpers := by unfold Cx.setRow; split <;> rfl
@[simp] theorem Cx.setRow_pops (x : Cx) (n : Nat) (m : Word) (f : Nat → Word) : (x.setRow n m f).pops = x.pops := by unfold Cx.setRow; split <;> rfl
@[simp] theorem Cx.setRow_out (x : Cx) (n : Nat) (m : Word) (f : Nat → Word) : (x.setRow n m f).out = x.out := by unfold Cx.setRow; split <;> rfl
@[simp] theorem Cx.setRow_parks (x : Cx) (n : Nat) (m : Word) (f : Nat → Word) : (x.setRow n m f).parks = x.parks := by unfold Cx.setRow; split <;> rfl

/-! ### A register of a context written -/

@[simp] theorem Cx.setScalar_s (x : Cx) (n : Nat) (v : Word) : (x.setScalar n v).s = x.s := by unfold Cx.setScalar; split <;> rfl
@[simp] theorem Cx.setScalar_dn (x : Cx) (n : Nat) (v : Word) : (x.setScalar n v).dn = x.dn := by unfold Cx.setScalar; split <;> rfl
@[simp] theorem Cx.setScalar_gid (x : Cx) (n : Nat) (v : Word) : (x.setScalar n v).gid = x.gid := by unfold Cx.setScalar; split <;> rfl
@[simp] theorem Cx.setScalar_gi (x : Cx) (n : Nat) (v : Word) : (x.setScalar n v).gi = x.gi := by unfold Cx.setScalar; split <;> rfl
@[simp] theorem Cx.setScalar_sgt (x : Cx) (n : Nat) (v : Word) : (x.setScalar n v).sgt = x.sgt := by unfold Cx.setScalar; split <;> rfl
@[simp] theorem Cx.setScalar_grp (x : Cx) (n : Nat) (v : Word) : (x.setScalar n v).grp = x.grp := by unfold Cx.setScalar; split <;> rfl
@[simp] theorem Cx.setScalar_qs (x : Cx) (n : Nat) (v : Word) : (x.setScalar n v).qs = x.qs := by unfold Cx.setScalar; split <;> rfl
@[simp] theorem Cx.setScalar_sup (x : Cx) (n : Nat) (v : Word) : (x.setScalar n v).sup = x.sup := by unfold Cx.setScalar; split <;> rfl
@[simp] theorem Cx.setScalar_pc (x : Cx) (n : Nat) (v : Word) : (x.setScalar n v).pc = x.pc := by unfold Cx.setScalar; split <;> rfl
@[simp] theorem Cx.setScalar_op (x : Cx) (n : Nat) (v : Word) : (x.setScalar n v).op = x.op := by unfold Cx.setScalar; split <;> rfl
@[simp] theorem Cx.setScalar_nh (x : Cx) (n : Nat) (v : Word) : (x.setScalar n v).nh = x.nh := by unfold Cx.setScalar; split <;> rfl
@[simp] theorem Cx.setScalar_act (x : Cx) (n : Nat) (v : Word) : (x.setScalar n v).act = x.act := by unfold Cx.setScalar; split <;> rfl
@[simp] theorem Cx.setScalar_em (x : Cx) (n : Nat) (v : Word) : (x.setScalar n v).em = x.em := by unfold Cx.setScalar; split <;> rfl
@[simp] theorem Cx.setScalar_helpers (x : Cx) (n : Nat) (v : Word) : (x.setScalar n v).helpers = x.helpers := by unfold Cx.setScalar; split <;> rfl
@[simp] theorem Cx.setScalar_pops (x : Cx) (n : Nat) (v : Word) : (x.setScalar n v).pops = x.pops := by unfold Cx.setScalar; split <;> rfl
@[simp] theorem Cx.setScalar_out (x : Cx) (n : Nat) (v : Word) : (x.setScalar n v).out = x.out := by unfold Cx.setScalar; split <;> rfl
@[simp] theorem Cx.setScalar_parks (x : Cx) (n : Nat) (v : Word) : (x.setScalar n v).parks = x.parks := by unfold Cx.setScalar; split <;> rfl

/-! ### A g register written -/

@[simp] theorem Cx.setG_s (x : Cx) (n : Nat) (v : Word) : (x.setG n v).s = x.s := rfl
@[simp] theorem Cx.setG_dn (x : Cx) (n : Nat) (v : Word) : (x.setG n v).dn = x.dn := rfl
@[simp] theorem Cx.setG_gid (x : Cx) (n : Nat) (v : Word) : (x.setG n v).gid = x.gid := rfl
@[simp] theorem Cx.setG_gi (x : Cx) (n : Nat) (v : Word) : (x.setG n v).gi = x.gi := rfl
@[simp] theorem Cx.setG_sgt (x : Cx) (n : Nat) (v : Word) : (x.setG n v).sgt = x.sgt := rfl
@[simp] theorem Cx.setG_k (x : Cx) (n : Nat) (v : Word) : (x.setG n v).k = x.k := rfl
@[simp] theorem Cx.setG_qs (x : Cx) (n : Nat) (v : Word) : (x.setG n v).qs = x.qs := rfl
@[simp] theorem Cx.setG_sup (x : Cx) (n : Nat) (v : Word) : (x.setG n v).sup = x.sup := rfl
@[simp] theorem Cx.setG_pc (x : Cx) (n : Nat) (v : Word) : (x.setG n v).pc = x.pc := rfl
@[simp] theorem Cx.setG_op (x : Cx) (n : Nat) (v : Word) : (x.setG n v).op = x.op := rfl
@[simp] theorem Cx.setG_nh (x : Cx) (n : Nat) (v : Word) : (x.setG n v).nh = x.nh := rfl
@[simp] theorem Cx.setG_act (x : Cx) (n : Nat) (v : Word) : (x.setG n v).act = x.act := rfl
@[simp] theorem Cx.setG_em (x : Cx) (n : Nat) (v : Word) : (x.setG n v).em = x.em := rfl
@[simp] theorem Cx.setG_helpers (x : Cx) (n : Nat) (v : Word) : (x.setG n v).helpers = x.helpers := rfl
@[simp] theorem Cx.setG_pops (x : Cx) (n : Nat) (v : Word) : (x.setG n v).pops = x.pops := rfl
@[simp] theorem Cx.setG_out (x : Cx) (n : Nat) (v : Word) : (x.setG n v).out = x.out := rfl
@[simp] theorem Cx.setG_parks (x : Cx) (n : Nat) (v : Word) : (x.setG n v).parks = x.parks := rfl

/-! ### A predicate written -/

@[simp] theorem Cx.setPred_s (x : Cx) (n : Nat) (m : Word) (f : Nat → Bool) : (x.setPred n m f).s = x.s := rfl
@[simp] theorem Cx.setPred_dn (x : Cx) (n : Nat) (m : Word) (f : Nat → Bool) : (x.setPred n m f).dn = x.dn := rfl
@[simp] theorem Cx.setPred_gid (x : Cx) (n : Nat) (m : Word) (f : Nat → Bool) : (x.setPred n m f).gid = x.gid := rfl
@[simp] theorem Cx.setPred_gi (x : Cx) (n : Nat) (m : Word) (f : Nat → Bool) : (x.setPred n m f).gi = x.gi := rfl
@[simp] theorem Cx.setPred_sgt (x : Cx) (n : Nat) (m : Word) (f : Nat → Bool) : (x.setPred n m f).sgt = x.sgt := rfl
@[simp] theorem Cx.setPred_grp (x : Cx) (n : Nat) (m : Word) (f : Nat → Bool) : (x.setPred n m f).grp = x.grp := rfl
@[simp] theorem Cx.setPred_qs (x : Cx) (n : Nat) (m : Word) (f : Nat → Bool) : (x.setPred n m f).qs = x.qs := rfl
@[simp] theorem Cx.setPred_sup (x : Cx) (n : Nat) (m : Word) (f : Nat → Bool) : (x.setPred n m f).sup = x.sup := rfl
@[simp] theorem Cx.setPred_pc (x : Cx) (n : Nat) (m : Word) (f : Nat → Bool) : (x.setPred n m f).pc = x.pc := rfl
@[simp] theorem Cx.setPred_op (x : Cx) (n : Nat) (m : Word) (f : Nat → Bool) : (x.setPred n m f).op = x.op := rfl
@[simp] theorem Cx.setPred_nh (x : Cx) (n : Nat) (m : Word) (f : Nat → Bool) : (x.setPred n m f).nh = x.nh := rfl
@[simp] theorem Cx.setPred_act (x : Cx) (n : Nat) (m : Word) (f : Nat → Bool) : (x.setPred n m f).act = x.act := rfl
@[simp] theorem Cx.setPred_em (x : Cx) (n : Nat) (m : Word) (f : Nat → Bool) : (x.setPred n m f).em = x.em := rfl
@[simp] theorem Cx.setPred_helpers (x : Cx) (n : Nat) (m : Word) (f : Nat → Bool) : (x.setPred n m f).helpers = x.helpers := rfl
@[simp] theorem Cx.setPred_pops (x : Cx) (n : Nat) (m : Word) (f : Nat → Bool) : (x.setPred n m f).pops = x.pops := rfl
@[simp] theorem Cx.setPred_out (x : Cx) (n : Nat) (m : Word) (f : Nat → Bool) : (x.setPred n m f).out = x.out := rfl
@[simp] theorem Cx.setPred_parks (x : Cx) (n : Nat) (m : Word) (f : Nat → Bool) : (x.setPred n m f).parks = x.parks := rfl

/-! ### Bytes of the area written -/

@[simp] theorem Cx.storeArea_dn (x : Cx) (w : List (Nat × Byte)) (o : Option Nat) (a : Bool) : (x.storeArea w o a).dn = x.dn := by unfold Cx.storeArea Cx.stores; dsimp only; split <;> rfl
@[simp] theorem Cx.storeArea_gid (x : Cx) (w : List (Nat × Byte)) (o : Option Nat) (a : Bool) : (x.storeArea w o a).gid = x.gid := by unfold Cx.storeArea Cx.stores; dsimp only; split <;> rfl
@[simp] theorem Cx.storeArea_gi (x : Cx) (w : List (Nat × Byte)) (o : Option Nat) (a : Bool) : (x.storeArea w o a).gi = x.gi := by unfold Cx.storeArea Cx.stores; dsimp only; split <;> rfl
@[simp] theorem Cx.storeArea_sgt (x : Cx) (w : List (Nat × Byte)) (o : Option Nat) (a : Bool) : (x.storeArea w o a).sgt = x.sgt := by unfold Cx.storeArea Cx.stores; dsimp only; split <;> rfl
@[simp] theorem Cx.storeArea_k (x : Cx) (w : List (Nat × Byte)) (o : Option Nat) (a : Bool) : (x.storeArea w o a).k = x.k := by unfold Cx.storeArea Cx.stores; dsimp only; split <;> rfl
@[simp] theorem Cx.storeArea_qs (x : Cx) (w : List (Nat × Byte)) (o : Option Nat) (a : Bool) : (x.storeArea w o a).qs = x.qs := by unfold Cx.storeArea Cx.stores; dsimp only; split <;> rfl
@[simp] theorem Cx.storeArea_sup (x : Cx) (w : List (Nat × Byte)) (o : Option Nat) (a : Bool) : (x.storeArea w o a).sup = x.sup := by unfold Cx.storeArea Cx.stores; dsimp only; split <;> rfl
@[simp] theorem Cx.storeArea_pc (x : Cx) (w : List (Nat × Byte)) (o : Option Nat) (a : Bool) : (x.storeArea w o a).pc = x.pc := by unfold Cx.storeArea Cx.stores; dsimp only; split <;> rfl
@[simp] theorem Cx.storeArea_op (x : Cx) (w : List (Nat × Byte)) (o : Option Nat) (a : Bool) : (x.storeArea w o a).op = x.op := by unfold Cx.storeArea Cx.stores; dsimp only; split <;> rfl
@[simp] theorem Cx.storeArea_nh (x : Cx) (w : List (Nat × Byte)) (o : Option Nat) (a : Bool) : (x.storeArea w o a).nh = x.nh := by unfold Cx.storeArea Cx.stores; dsimp only; split <;> rfl
@[simp] theorem Cx.storeArea_act (x : Cx) (w : List (Nat × Byte)) (o : Option Nat) (a : Bool) : (x.storeArea w o a).act = x.act := by unfold Cx.storeArea Cx.stores; dsimp only; split <;> rfl
@[simp] theorem Cx.storeArea_em (x : Cx) (w : List (Nat × Byte)) (o : Option Nat) (a : Bool) : (x.storeArea w o a).em = x.em := by unfold Cx.storeArea Cx.stores; dsimp only; split <;> rfl
@[simp] theorem Cx.storeArea_helpers (x : Cx) (w : List (Nat × Byte)) (o : Option Nat) (a : Bool) : (x.storeArea w o a).helpers = x.helpers := by unfold Cx.storeArea Cx.stores; dsimp only; split <;> rfl
@[simp] theorem Cx.storeArea_pops (x : Cx) (w : List (Nat × Byte)) (o : Option Nat) (a : Bool) : (x.storeArea w o a).pops = x.pops := by unfold Cx.storeArea Cx.stores; dsimp only; split <;> rfl
@[simp] theorem Cx.storeArea_out (x : Cx) (w : List (Nat × Byte)) (o : Option Nat) (a : Bool) : (x.storeArea w o a).out = x.out := by unfold Cx.storeArea Cx.stores; dsimp only; split <;> rfl
@[simp] theorem Cx.storeArea_parks (x : Cx) (w : List (Nat × Byte)) (o : Option Nat) (a : Bool) : (x.storeArea w o a).parks = x.parks := by unfold Cx.storeArea Cx.stores; dsimp only; split <;> rfl

/-! ### A lane to park -/

@[simp] theorem Cx.park_s (x : Cx) (l : Nat) (r : FaultRec) : (x.park l r).s = x.s := by unfold Cx.park; split <;> rfl
@[simp] theorem Cx.park_dn (x : Cx) (l : Nat) (r : FaultRec) : (x.park l r).dn = x.dn := by unfold Cx.park; split <;> rfl
@[simp] theorem Cx.park_gid (x : Cx) (l : Nat) (r : FaultRec) : (x.park l r).gid = x.gid := by unfold Cx.park; split <;> rfl
@[simp] theorem Cx.park_gi (x : Cx) (l : Nat) (r : FaultRec) : (x.park l r).gi = x.gi := by unfold Cx.park; split <;> rfl
@[simp] theorem Cx.park_sgt (x : Cx) (l : Nat) (r : FaultRec) : (x.park l r).sgt = x.sgt := by unfold Cx.park; split <;> rfl
@[simp] theorem Cx.park_grp (x : Cx) (l : Nat) (r : FaultRec) : (x.park l r).grp = x.grp := by unfold Cx.park; split <;> rfl
@[simp] theorem Cx.park_k (x : Cx) (l : Nat) (r : FaultRec) : (x.park l r).k = x.k := by unfold Cx.park; split <;> rfl
@[simp] theorem Cx.park_qs (x : Cx) (l : Nat) (r : FaultRec) : (x.park l r).qs = x.qs := by unfold Cx.park; split <;> rfl
@[simp] theorem Cx.park_sup (x : Cx) (l : Nat) (r : FaultRec) : (x.park l r).sup = x.sup := by unfold Cx.park; split <;> rfl
@[simp] theorem Cx.park_pc (x : Cx) (l : Nat) (r : FaultRec) : (x.park l r).pc = x.pc := by unfold Cx.park; split <;> rfl
@[simp] theorem Cx.park_op (x : Cx) (l : Nat) (r : FaultRec) : (x.park l r).op = x.op := by unfold Cx.park; split <;> rfl
@[simp] theorem Cx.park_nh (x : Cx) (l : Nat) (r : FaultRec) : (x.park l r).nh = x.nh := by unfold Cx.park; split <;> rfl
@[simp] theorem Cx.park_act (x : Cx) (l : Nat) (r : FaultRec) : (x.park l r).act = x.act := by unfold Cx.park; split <;> rfl
@[simp] theorem Cx.park_em (x : Cx) (l : Nat) (r : FaultRec) : (x.park l r).em = x.em := by unfold Cx.park; split <;> rfl
@[simp] theorem Cx.park_helpers (x : Cx) (l : Nat) (r : FaultRec) : (x.park l r).helpers = x.helpers := by unfold Cx.park; split <;> rfl
@[simp] theorem Cx.park_pops (x : Cx) (l : Nat) (r : FaultRec) : (x.park l r).pops = x.pops := by unfold Cx.park; split <;> rfl
@[simp] theorem Cx.park_out (x : Cx) (l : Nat) (r : FaultRec) : (x.park l r).out = x.out := by unfold Cx.park; split <;> rfl

/-! ### A link that retrains met -/

@[simp] theorem State.meet_hub (x : State) (b : Bool) : (x.meet b).hub = x.hub := by unfold State.meet; split <;> rfl
@[simp] theorem State.meet_dies (x : State) (b : Bool) : (x.meet b).dies = x.dies := by unfold State.meet; split <;> rfl
@[simp] theorem State.meet_links (x : State) (b : Bool) : (x.meet b).links = x.links := by unfold State.meet; split <;> rfl
@[simp] theorem State.meet_msix (x : State) (b : Bool) : (x.meet b).msix = x.msix := by unfold State.meet; split <;> rfl
@[simp] theorem State.meet_resetReports (x : State) (b : Bool) : (x.meet b).resetReports = x.resetReports := by unfold State.meet; split <;> rfl
@[simp] theorem State.meet_apertureRead (x : State) (b : Bool) : (x.meet b).apertureRead = x.apertureRead := by unfold State.meet; split <;> rfl
@[simp] theorem State.meet_resvRead (x : State) (b : Bool) : (x.meet b).resvRead = x.resvRead := by unfold State.meet; split <;> rfl
@[simp] theorem State.meet_windowRead (x : State) (b : Bool) : (x.meet b).windowRead = x.windowRead := by unfold State.meet; split <;> rfl
@[simp] theorem State.meet_agenda (x : State) (b : Bool) : (x.meet b).agenda = x.agenda := by unfold State.meet; split <;> rfl
@[simp] theorem State.meet_cur (x : State) (b : Bool) : (x.meet b).cur = x.cur := by unfold State.meet; split <;> rfl
@[simp] theorem State.meet_free (x : State) (b : Bool) : (x.meet b).free = x.free := by unfold State.meet; split <;> rfl
@[simp] theorem State.meet_writes (x : State) (b : Bool) : (x.meet b).writes = x.writes := by unfold State.meet; split <;> rfl
@[simp] theorem State.meet_notes (x : State) (b : Bool) : (x.meet b).notes = x.notes := by unfold State.meet; split <;> rfl
@[simp] theorem State.meet_hostKnown (x : State) (b : Bool) : (x.meet b).hostKnown = x.hostKnown := by unfold State.meet; split <;> rfl
@[simp] theorem State.meet_peerKnown (x : State) (b : Bool) : (x.meet b).peerKnown = x.peerKnown := by unfold State.meet; split <;> rfl
@[simp] theorem State.meet_interruptKnown (x : State) (b : Bool) : (x.meet b).interruptKnown = x.interruptKnown := by unfold State.meet; split <;> rfl
@[simp] theorem State.meet_trace (x : State) (b : Bool) : (x.meet b).trace = x.trace := by unfold State.meet; split <;> rfl

/-! ### A step that acts for an agent -/

@[simp] theorem State.acting_hub (x : State) (r : List Release) : (x.acting r).hub = x.hub := rfl
@[simp] theorem State.acting_dies (x : State) (r : List Release) : (x.acting r).dies = x.dies := rfl
@[simp] theorem State.acting_links (x : State) (r : List Release) : (x.acting r).links = x.links := rfl
@[simp] theorem State.acting_msix (x : State) (r : List Release) : (x.acting r).msix = x.msix := rfl
@[simp] theorem State.acting_resetReports (x : State) (r : List Release) : (x.acting r).resetReports = x.resetReports := rfl
@[simp] theorem State.acting_apertureRead (x : State) (r : List Release) : (x.acting r).apertureRead = x.apertureRead := rfl
@[simp] theorem State.acting_resvRead (x : State) (r : List Release) : (x.acting r).resvRead = x.resvRead := rfl
@[simp] theorem State.acting_windowRead (x : State) (r : List Release) : (x.acting r).windowRead = x.windowRead := rfl
@[simp] theorem State.acting_agenda (x : State) (r : List Release) : (x.acting r).agenda = x.agenda := rfl
@[simp] theorem State.acting_cur (x : State) (r : List Release) : (x.acting r).cur = x.cur := rfl
@[simp] theorem State.acting_crossed (x : State) (r : List Release) : (x.acting r).crossed = x.crossed := rfl
@[simp] theorem State.acting_free (x : State) (r : List Release) : (x.acting r).free = x.free := rfl
@[simp] theorem State.acting_writes (x : State) (r : List Release) : (x.acting r).writes = x.writes := rfl
@[simp] theorem State.acting_notes (x : State) (r : List Release) : (x.acting r).notes = x.notes := rfl
@[simp] theorem State.acting_hostKnown (x : State) (r : List Release) : (x.acting r).hostKnown = x.hostKnown := rfl
@[simp] theorem State.acting_peerKnown (x : State) (r : List Release) : (x.acting r).peerKnown = x.peerKnown := rfl
@[simp] theorem State.acting_interruptKnown (x : State) (r : List Release) : (x.acting r).interruptKnown = x.interruptKnown := rfl

/-! ### A step ended -/

@[simp] theorem State.rested_hub (x : State)  : (x.rested).hub = x.hub := rfl
@[simp] theorem State.rested_dies (x : State)  : (x.rested).dies = x.dies := rfl
@[simp] theorem State.rested_links (x : State)  : (x.rested).links = x.links := rfl
@[simp] theorem State.rested_msix (x : State)  : (x.rested).msix = x.msix := rfl
@[simp] theorem State.rested_resetReports (x : State)  : (x.rested).resetReports = x.resetReports := rfl
@[simp] theorem State.rested_apertureRead (x : State)  : (x.rested).apertureRead = x.apertureRead := rfl
@[simp] theorem State.rested_resvRead (x : State)  : (x.rested).resvRead = x.resvRead := rfl
@[simp] theorem State.rested_windowRead (x : State)  : (x.rested).windowRead = x.windowRead := rfl
@[simp] theorem State.rested_agenda (x : State)  : (x.rested).agenda = x.agenda := rfl
@[simp] theorem State.rested_cur (x : State)  : (x.rested).cur = x.cur := rfl
@[simp] theorem State.rested_crossed (x : State)  : (x.rested).crossed = x.crossed := rfl
@[simp] theorem State.rested_free (x : State)  : (x.rested).free = x.free := rfl
@[simp] theorem State.rested_writes (x : State)  : (x.rested).writes = x.writes := rfl
@[simp] theorem State.rested_notes (x : State)  : (x.rested).notes = x.notes := rfl
@[simp] theorem State.rested_hostKnown (x : State)  : (x.rested).hostKnown = x.hostKnown := rfl
@[simp] theorem State.rested_peerKnown (x : State)  : (x.rested).peerKnown = x.peerKnown := rfl
@[simp] theorem State.rested_interruptKnown (x : State)  : (x.rested).interruptKnown = x.interruptKnown := rfl

/-! ### Bytes written -/

@[simp] theorem State.noteWritten_hub (x : State) (mk : Nat → Spot) (as : List Nat) : (x.noteWritten mk as).hub = x.hub := by unfold State.noteWritten; split <;> rfl
@[simp] theorem State.noteWritten_dies (x : State) (mk : Nat → Spot) (as : List Nat) : (x.noteWritten mk as).dies = x.dies := by unfold State.noteWritten; split <;> rfl
@[simp] theorem State.noteWritten_links (x : State) (mk : Nat → Spot) (as : List Nat) : (x.noteWritten mk as).links = x.links := by unfold State.noteWritten; split <;> rfl
@[simp] theorem State.noteWritten_msix (x : State) (mk : Nat → Spot) (as : List Nat) : (x.noteWritten mk as).msix = x.msix := by unfold State.noteWritten; split <;> rfl
@[simp] theorem State.noteWritten_resetReports (x : State) (mk : Nat → Spot) (as : List Nat) : (x.noteWritten mk as).resetReports = x.resetReports := by unfold State.noteWritten; split <;> rfl
@[simp] theorem State.noteWritten_apertureRead (x : State) (mk : Nat → Spot) (as : List Nat) : (x.noteWritten mk as).apertureRead = x.apertureRead := by unfold State.noteWritten; split <;> rfl
@[simp] theorem State.noteWritten_resvRead (x : State) (mk : Nat → Spot) (as : List Nat) : (x.noteWritten mk as).resvRead = x.resvRead := by unfold State.noteWritten; split <;> rfl
@[simp] theorem State.noteWritten_windowRead (x : State) (mk : Nat → Spot) (as : List Nat) : (x.noteWritten mk as).windowRead = x.windowRead := by unfold State.noteWritten; split <;> rfl
@[simp] theorem State.noteWritten_agenda (x : State) (mk : Nat → Spot) (as : List Nat) : (x.noteWritten mk as).agenda = x.agenda := by unfold State.noteWritten; split <;> rfl
@[simp] theorem State.noteWritten_cur (x : State) (mk : Nat → Spot) (as : List Nat) : (x.noteWritten mk as).cur = x.cur := by unfold State.noteWritten; split <;> rfl
@[simp] theorem State.noteWritten_crossed (x : State) (mk : Nat → Spot) (as : List Nat) : (x.noteWritten mk as).crossed = x.crossed := by unfold State.noteWritten; split <;> rfl
@[simp] theorem State.noteWritten_free (x : State) (mk : Nat → Spot) (as : List Nat) : (x.noteWritten mk as).free = x.free := by unfold State.noteWritten; split <;> rfl
@[simp] theorem State.noteWritten_writes (x : State) (mk : Nat → Spot) (as : List Nat) : (x.noteWritten mk as).writes = x.writes := by unfold State.noteWritten; split <;> rfl
@[simp] theorem State.noteWritten_hostKnown (x : State) (mk : Nat → Spot) (as : List Nat) : (x.noteWritten mk as).hostKnown = x.hostKnown := by unfold State.noteWritten; split <;> rfl
@[simp] theorem State.noteWritten_peerKnown (x : State) (mk : Nat → Spot) (as : List Nat) : (x.noteWritten mk as).peerKnown = x.peerKnown := by unfold State.noteWritten; split <;> rfl
@[simp] theorem State.noteWritten_interruptKnown (x : State) (mk : Nat → Spot) (as : List Nat) : (x.noteWritten mk as).interruptKnown = x.interruptKnown := by unfold State.noteWritten; split <;> rfl
@[simp] theorem State.noteWritten_trace (x : State) (mk : Nat → Spot) (as : List Nat) : (x.noteWritten mk as).trace = x.trace := by unfold State.noteWritten; split <;> rfl

/-! ### Bytes read -/

@[simp] theorem State.noteRead_hub (x : State) (mk : Nat → Spot) (as : List Nat) : (x.noteRead mk as).hub = x.hub := by unfold State.noteRead; split <;> rfl
@[simp] theorem State.noteRead_dies (x : State) (mk : Nat → Spot) (as : List Nat) : (x.noteRead mk as).dies = x.dies := by unfold State.noteRead; split <;> rfl
@[simp] theorem State.noteRead_links (x : State) (mk : Nat → Spot) (as : List Nat) : (x.noteRead mk as).links = x.links := by unfold State.noteRead; split <;> rfl
@[simp] theorem State.noteRead_msix (x : State) (mk : Nat → Spot) (as : List Nat) : (x.noteRead mk as).msix = x.msix := by unfold State.noteRead; split <;> rfl
@[simp] theorem State.noteRead_resetReports (x : State) (mk : Nat → Spot) (as : List Nat) : (x.noteRead mk as).resetReports = x.resetReports := by unfold State.noteRead; split <;> rfl
@[simp] theorem State.noteRead_apertureRead (x : State) (mk : Nat → Spot) (as : List Nat) : (x.noteRead mk as).apertureRead = x.apertureRead := by unfold State.noteRead; split <;> rfl
@[simp] theorem State.noteRead_resvRead (x : State) (mk : Nat → Spot) (as : List Nat) : (x.noteRead mk as).resvRead = x.resvRead := by unfold State.noteRead; split <;> rfl
@[simp] theorem State.noteRead_windowRead (x : State) (mk : Nat → Spot) (as : List Nat) : (x.noteRead mk as).windowRead = x.windowRead := by unfold State.noteRead; split <;> rfl
@[simp] theorem State.noteRead_agenda (x : State) (mk : Nat → Spot) (as : List Nat) : (x.noteRead mk as).agenda = x.agenda := by unfold State.noteRead; split <;> rfl
@[simp] theorem State.noteRead_cur (x : State) (mk : Nat → Spot) (as : List Nat) : (x.noteRead mk as).cur = x.cur := by unfold State.noteRead; split <;> rfl
@[simp] theorem State.noteRead_crossed (x : State) (mk : Nat → Spot) (as : List Nat) : (x.noteRead mk as).crossed = x.crossed := by unfold State.noteRead; split <;> rfl
@[simp] theorem State.noteRead_free (x : State) (mk : Nat → Spot) (as : List Nat) : (x.noteRead mk as).free = x.free := by unfold State.noteRead; split <;> rfl
@[simp] theorem State.noteRead_writes (x : State) (mk : Nat → Spot) (as : List Nat) : (x.noteRead mk as).writes = x.writes := by unfold State.noteRead; split <;> rfl
@[simp] theorem State.noteRead_notes (x : State) (mk : Nat → Spot) (as : List Nat) : (x.noteRead mk as).notes = x.notes := by unfold State.noteRead; split <;> rfl
@[simp] theorem State.noteRead_hostKnown (x : State) (mk : Nat → Spot) (as : List Nat) : (x.noteRead mk as).hostKnown = x.hostKnown := by unfold State.noteRead; split <;> rfl
@[simp] theorem State.noteRead_peerKnown (x : State) (mk : Nat → Spot) (as : List Nat) : (x.noteRead mk as).peerKnown = x.peerKnown := by unfold State.noteRead; split <;> rfl
@[simp] theorem State.noteRead_interruptKnown (x : State) (mk : Nat → Spot) (as : List Nat) : (x.noteRead mk as).interruptKnown = x.interruptKnown := by unfold State.noteRead; split <;> rfl

/-! ### The peers told -/

@[simp] theorem State.tellPeers_hub (x : State)  : (x.tellPeers).hub = x.hub := rfl
@[simp] theorem State.tellPeers_dies (x : State)  : (x.tellPeers).dies = x.dies := rfl
@[simp] theorem State.tellPeers_links (x : State)  : (x.tellPeers).links = x.links := rfl
@[simp] theorem State.tellPeers_msix (x : State)  : (x.tellPeers).msix = x.msix := rfl
@[simp] theorem State.tellPeers_resetReports (x : State)  : (x.tellPeers).resetReports = x.resetReports := rfl
@[simp] theorem State.tellPeers_apertureRead (x : State)  : (x.tellPeers).apertureRead = x.apertureRead := rfl
@[simp] theorem State.tellPeers_resvRead (x : State)  : (x.tellPeers).resvRead = x.resvRead := rfl
@[simp] theorem State.tellPeers_windowRead (x : State)  : (x.tellPeers).windowRead = x.windowRead := rfl
@[simp] theorem State.tellPeers_agenda (x : State)  : (x.tellPeers).agenda = x.agenda := rfl
@[simp] theorem State.tellPeers_cur (x : State)  : (x.tellPeers).cur = x.cur := rfl
@[simp] theorem State.tellPeers_crossed (x : State)  : (x.tellPeers).crossed = x.crossed := rfl
@[simp] theorem State.tellPeers_free (x : State)  : (x.tellPeers).free = x.free := rfl
@[simp] theorem State.tellPeers_writes (x : State)  : (x.tellPeers).writes = x.writes := rfl
@[simp] theorem State.tellPeers_notes (x : State)  : (x.tellPeers).notes = x.notes := rfl
@[simp] theorem State.tellPeers_hostKnown (x : State)  : (x.tellPeers).hostKnown = x.hostKnown := rfl
@[simp] theorem State.tellPeers_interruptKnown (x : State)  : (x.tellPeers).interruptKnown = x.interruptKnown := rfl
@[simp] theorem State.tellPeers_trace (x : State)  : (x.tellPeers).trace = x.trace := rfl

/-! ### The peers heard -/

@[simp] theorem State.hearPeers_hub (x : State)  : (x.hearPeers).hub = x.hub := by unfold State.hearPeers; split <;> rfl
@[simp] theorem State.hearPeers_dies (x : State)  : (x.hearPeers).dies = x.dies := by unfold State.hearPeers; split <;> rfl
@[simp] theorem State.hearPeers_links (x : State)  : (x.hearPeers).links = x.links := by unfold State.hearPeers; split <;> rfl
@[simp] theorem State.hearPeers_msix (x : State)  : (x.hearPeers).msix = x.msix := by unfold State.hearPeers; split <;> rfl
@[simp] theorem State.hearPeers_resetReports (x : State)  : (x.hearPeers).resetReports = x.resetReports := by unfold State.hearPeers; split <;> rfl
@[simp] theorem State.hearPeers_apertureRead (x : State)  : (x.hearPeers).apertureRead = x.apertureRead := by unfold State.hearPeers; split <;> rfl
@[simp] theorem State.hearPeers_resvRead (x : State)  : (x.hearPeers).resvRead = x.resvRead := by unfold State.hearPeers; split <;> rfl
@[simp] theorem State.hearPeers_windowRead (x : State)  : (x.hearPeers).windowRead = x.windowRead := by unfold State.hearPeers; split <;> rfl
@[simp] theorem State.hearPeers_agenda (x : State)  : (x.hearPeers).agenda = x.agenda := by unfold State.hearPeers; split <;> rfl
@[simp] theorem State.hearPeers_cur (x : State)  : (x.hearPeers).cur = x.cur := by unfold State.hearPeers; split <;> rfl
@[simp] theorem State.hearPeers_crossed (x : State)  : (x.hearPeers).crossed = x.crossed := by unfold State.hearPeers; split <;> rfl
@[simp] theorem State.hearPeers_free (x : State)  : (x.hearPeers).free = x.free := by unfold State.hearPeers; split <;> rfl
@[simp] theorem State.hearPeers_writes (x : State)  : (x.hearPeers).writes = x.writes := by unfold State.hearPeers; split <;> rfl
@[simp] theorem State.hearPeers_notes (x : State)  : (x.hearPeers).notes = x.notes := by unfold State.hearPeers; split <;> rfl
@[simp] theorem State.hearPeers_hostKnown (x : State)  : (x.hearPeers).hostKnown = x.hostKnown := by unfold State.hearPeers; split <;> rfl
@[simp] theorem State.hearPeers_peerKnown (x : State)  : (x.hearPeers).peerKnown = x.peerKnown := by unfold State.hearPeers; split <;> rfl
@[simp] theorem State.hearPeers_interruptKnown (x : State)  : (x.hearPeers).interruptKnown = x.interruptKnown := by unfold State.hearPeers; split <;> rfl

/-! ### Lines kept -/

@[simp] theorem keepCode_hub (x : State) (l : List (Nat × List Byte × List Byte × Bool)) : (keepCode x l).hub = x.hub := rfl
@[simp] theorem keepCode_links (x : State) (l : List (Nat × List Byte × List Byte × Bool)) : (keepCode x l).links = x.links := rfl
@[simp] theorem keepCode_msix (x : State) (l : List (Nat × List Byte × List Byte × Bool)) : (keepCode x l).msix = x.msix := rfl
@[simp] theorem keepCode_resetReports (x : State) (l : List (Nat × List Byte × List Byte × Bool)) : (keepCode x l).resetReports = x.resetReports := rfl
@[simp] theorem keepCode_apertureRead (x : State) (l : List (Nat × List Byte × List Byte × Bool)) : (keepCode x l).apertureRead = x.apertureRead := rfl
@[simp] theorem keepCode_resvRead (x : State) (l : List (Nat × List Byte × List Byte × Bool)) : (keepCode x l).resvRead = x.resvRead := rfl
@[simp] theorem keepCode_windowRead (x : State) (l : List (Nat × List Byte × List Byte × Bool)) : (keepCode x l).windowRead = x.windowRead := rfl
@[simp] theorem keepCode_agenda (x : State) (l : List (Nat × List Byte × List Byte × Bool)) : (keepCode x l).agenda = x.agenda := rfl
@[simp] theorem keepCode_cur (x : State) (l : List (Nat × List Byte × List Byte × Bool)) : (keepCode x l).cur = x.cur := rfl
@[simp] theorem keepCode_crossed (x : State) (l : List (Nat × List Byte × List Byte × Bool)) : (keepCode x l).crossed = x.crossed := rfl
@[simp] theorem keepCode_free (x : State) (l : List (Nat × List Byte × List Byte × Bool)) : (keepCode x l).free = x.free := rfl
@[simp] theorem keepCode_notes (x : State) (l : List (Nat × List Byte × List Byte × Bool)) : (keepCode x l).notes = x.notes := rfl
@[simp] theorem keepCode_hostKnown (x : State) (l : List (Nat × List Byte × List Byte × Bool)) : (keepCode x l).hostKnown = x.hostKnown := rfl
@[simp] theorem keepCode_peerKnown (x : State) (l : List (Nat × List Byte × List Byte × Bool)) : (keepCode x l).peerKnown = x.peerKnown := rfl
@[simp] theorem keepCode_interruptKnown (x : State) (l : List (Nat × List Byte × List Byte × Bool)) : (keepCode x l).interruptKnown = x.interruptKnown := rfl

/-! ### A frame moved -/

@[simp] theorem State.moveFrame_hub (x : State) (n p : Nat) (t : Option (Nat × Nat)) : (x.moveFrame n p t).hub = x.hub := rfl
@[simp] theorem State.moveFrame_links (x : State) (n p : Nat) (t : Option (Nat × Nat)) : (x.moveFrame n p t).links = x.links := rfl
@[simp] theorem State.moveFrame_msix (x : State) (n p : Nat) (t : Option (Nat × Nat)) : (x.moveFrame n p t).msix = x.msix := rfl
@[simp] theorem State.moveFrame_resetReports (x : State) (n p : Nat) (t : Option (Nat × Nat)) : (x.moveFrame n p t).resetReports = x.resetReports := rfl
@[simp] theorem State.moveFrame_apertureRead (x : State) (n p : Nat) (t : Option (Nat × Nat)) : (x.moveFrame n p t).apertureRead = x.apertureRead := rfl
@[simp] theorem State.moveFrame_resvRead (x : State) (n p : Nat) (t : Option (Nat × Nat)) : (x.moveFrame n p t).resvRead = x.resvRead := rfl
@[simp] theorem State.moveFrame_windowRead (x : State) (n p : Nat) (t : Option (Nat × Nat)) : (x.moveFrame n p t).windowRead = x.windowRead := rfl
@[simp] theorem State.moveFrame_agenda (x : State) (n p : Nat) (t : Option (Nat × Nat)) : (x.moveFrame n p t).agenda = x.agenda := rfl
@[simp] theorem State.moveFrame_cur (x : State) (n p : Nat) (t : Option (Nat × Nat)) : (x.moveFrame n p t).cur = x.cur := rfl
@[simp] theorem State.moveFrame_crossed (x : State) (n p : Nat) (t : Option (Nat × Nat)) : (x.moveFrame n p t).crossed = x.crossed := rfl
@[simp] theorem State.moveFrame_free (x : State) (n p : Nat) (t : Option (Nat × Nat)) : (x.moveFrame n p t).free = x.free := rfl
@[simp] theorem State.moveFrame_writes (x : State) (n p : Nat) (t : Option (Nat × Nat)) : (x.moveFrame n p t).writes = x.writes := rfl
@[simp] theorem State.moveFrame_hostKnown (x : State) (n p : Nat) (t : Option (Nat × Nat)) : (x.moveFrame n p t).hostKnown = x.hostKnown := rfl
@[simp] theorem State.moveFrame_peerKnown (x : State) (n p : Nat) (t : Option (Nat × Nat)) : (x.moveFrame n p t).peerKnown = x.peerKnown := rfl
@[simp] theorem State.moveFrame_interruptKnown (x : State) (n p : Nat) (t : Option (Nat × Nat)) : (x.moveFrame n p t).interruptKnown = x.interruptKnown := rfl
@[simp] theorem State.moveFrame_trace (x : State) (n p : Nat) (t : Option (Nat × Nat)) : (x.moveFrame n p t).trace = x.trace := rfl

/-! ### A line kept by a group -/

@[simp] theorem Group.keepLine_launch (x : Group) (l : Nat) (o v : List Byte) (n : Nat) : (x.keepLine l o v n).launch = x.launch := rfl
@[simp] theorem Group.keepLine_node (x : Group) (l : Nat) (o v : List Byte) (n : Nat) : (x.keepLine l o v n).node = x.node := rfl
@[simp] theorem Group.keepLine_block (x : Group) (l : Nat) (o v : List Byte) (n : Nat) : (x.keepLine l o v n).block = x.block := rfl
@[simp] theorem Group.keepLine_regs (x : Group) (l : Nat) (o v : List Byte) (n : Nat) : (x.keepLine l o v n).regs = x.regs := rfl
@[simp] theorem Group.keepLine_spad (x : Group) (l : Nat) (o v : List Byte) (n : Nat) : (x.keepLine l o v n).spad = x.spad := rfl
@[simp] theorem Group.keepLine_rsize (x : Group) (l : Nat) (o v : List Byte) (n : Nat) : (x.keepLine l o v n).rsize = x.rsize := rfl
@[simp] theorem Group.keepLine_kids (x : Group) (l : Nat) (o v : List Byte) (n : Nat) : (x.keepLine l o v n).kids = x.kids := rfl
@[simp] theorem Group.keepLine_inbox (x : Group) (l : Nat) (o v : List Byte) (n : Nat) : (x.keepLine l o v n).inbox = x.inbox := rfl
@[simp] theorem Group.keepLine_down (x : Group) (l : Nat) (o v : List Byte) (n : Nat) : (x.keepLine l o v n).down = x.down := rfl
@[simp] theorem Group.keepLine_fpw (x : Group) (l : Nat) (o v : List Byte) (n : Nat) : (x.keepLine l o v n).fpw = x.fpw := rfl
@[simp] theorem Group.keepLine_fph (x : Group) (l : Nat) (o v : List Byte) (n : Nat) : (x.keepLine l o v n).fph = x.fph := rfl
@[simp] theorem Group.keepLine_prio (x : Group) (l : Nat) (o v : List Byte) (n : Nat) : (x.keepLine l o v n).prio = x.prio := rfl
@[simp] theorem Group.keepLine_placedAt (x : Group) (l : Nat) (o v : List Byte) (n : Nat) : (x.keepLine l o v n).placedAt = x.placedAt := rfl
@[simp] theorem Group.keepLine_cores (x : Group) (l : Nat) (o v : List Byte) (n : Nat) : (x.keepLine l o v n).cores = x.cores := rfl
@[simp] theorem Group.keepLine_gangs (x : Group) (l : Nat) (o v : List Byte) (n : Nat) : (x.keepLine l o v n).gangs = x.gangs := rfl
@[simp] theorem Group.keepLine_homes (x : Group) (l : Nat) (o v : List Byte) (n : Nat) : (x.keepLine l o v n).homes = x.homes := rfl
@[simp] theorem Group.keepLine_result (x : Group) (l : Nat) (o v : List Byte) (n : Nat) : (x.keepLine l o v n).result = x.result := rfl
@[simp] theorem Group.keepLine_values (x : Group) (l : Nat) (o v : List Byte) (n : Nat) : (x.keepLine l o v n).values = x.values := rfl
@[simp] theorem Group.keepLine_state (x : Group) (l : Nat) (o v : List Byte) (n : Nat) : (x.keepLine l o v n).state = x.state := rfl
@[simp] theorem Group.keepLine_pre (x : Group) (l : Nat) (o v : List Byte) (n : Nat) : (x.keepLine l o v n).pre = x.pre := rfl
@[simp] theorem Group.keepLine_restore (x : Group) (l : Nat) (o v : List Byte) (n : Nat) : (x.keepLine l o v n).restore = x.restore := rfl
@[simp] theorem Group.keepLine_pslot (x : Group) (l : Nat) (o v : List Byte) (n : Nat) : (x.keepLine l o v n).pslot = x.pslot := rfl
@[simp] theorem Group.keepLine_stalled (x : Group) (l : Nat) (o v : List Byte) (n : Nat) : (x.keepLine l o v n).stalled = x.stalled := rfl

/-! ### An acquire of a group -/

@[simp] theorem Group.acquire_launch (x : Group) (w : List Nat) : (x.acquire w).launch = x.launch := rfl
@[simp] theorem Group.acquire_node (x : Group) (w : List Nat) : (x.acquire w).node = x.node := rfl
@[simp] theorem Group.acquire_block (x : Group) (w : List Nat) : (x.acquire w).block = x.block := rfl
@[simp] theorem Group.acquire_regs (x : Group) (w : List Nat) : (x.acquire w).regs = x.regs := rfl
@[simp] theorem Group.acquire_spad (x : Group) (w : List Nat) : (x.acquire w).spad = x.spad := rfl
@[simp] theorem Group.acquire_rsize (x : Group) (w : List Nat) : (x.acquire w).rsize = x.rsize := rfl
@[simp] theorem Group.acquire_kids (x : Group) (w : List Nat) : (x.acquire w).kids = x.kids := rfl
@[simp] theorem Group.acquire_inbox (x : Group) (w : List Nat) : (x.acquire w).inbox = x.inbox := rfl
@[simp] theorem Group.acquire_down (x : Group) (w : List Nat) : (x.acquire w).down = x.down := rfl
@[simp] theorem Group.acquire_fpw (x : Group) (w : List Nat) : (x.acquire w).fpw = x.fpw := rfl
@[simp] theorem Group.acquire_fph (x : Group) (w : List Nat) : (x.acquire w).fph = x.fph := rfl
@[simp] theorem Group.acquire_prio (x : Group) (w : List Nat) : (x.acquire w).prio = x.prio := rfl
@[simp] theorem Group.acquire_placedAt (x : Group) (w : List Nat) : (x.acquire w).placedAt = x.placedAt := rfl
@[simp] theorem Group.acquire_cores (x : Group) (w : List Nat) : (x.acquire w).cores = x.cores := rfl
@[simp] theorem Group.acquire_gangs (x : Group) (w : List Nat) : (x.acquire w).gangs = x.gangs := rfl
@[simp] theorem Group.acquire_homes (x : Group) (w : List Nat) : (x.acquire w).homes = x.homes := rfl
@[simp] theorem Group.acquire_result (x : Group) (w : List Nat) : (x.acquire w).result = x.result := rfl
@[simp] theorem Group.acquire_values (x : Group) (w : List Nat) : (x.acquire w).values = x.values := rfl
@[simp] theorem Group.acquire_state (x : Group) (w : List Nat) : (x.acquire w).state = x.state := rfl
@[simp] theorem Group.acquire_pre (x : Group) (w : List Nat) : (x.acquire w).pre = x.pre := rfl
@[simp] theorem Group.acquire_restore (x : Group) (w : List Nat) : (x.acquire w).restore = x.restore := rfl
@[simp] theorem Group.acquire_pslot (x : Group) (w : List Nat) : (x.acquire w).pslot = x.pslot := rfl
@[simp] theorem Group.acquire_stalled (x : Group) (w : List Nat) : (x.acquire w).stalled = x.stalled := rfl

/-! ### A frame moved in a group -/

@[simp] theorem Group.moveFrame_launch (x : Group) (f : Nat) (t : Option Nat) : (x.moveFrame f t).launch = x.launch := rfl
@[simp] theorem Group.moveFrame_node (x : Group) (f : Nat) (t : Option Nat) : (x.moveFrame f t).node = x.node := rfl
@[simp] theorem Group.moveFrame_block (x : Group) (f : Nat) (t : Option Nat) : (x.moveFrame f t).block = x.block := rfl
@[simp] theorem Group.moveFrame_regs (x : Group) (f : Nat) (t : Option Nat) : (x.moveFrame f t).regs = x.regs := rfl
@[simp] theorem Group.moveFrame_spad (x : Group) (f : Nat) (t : Option Nat) : (x.moveFrame f t).spad = x.spad := rfl
@[simp] theorem Group.moveFrame_rsize (x : Group) (f : Nat) (t : Option Nat) : (x.moveFrame f t).rsize = x.rsize := rfl
@[simp] theorem Group.moveFrame_kids (x : Group) (f : Nat) (t : Option Nat) : (x.moveFrame f t).kids = x.kids := rfl
@[simp] theorem Group.moveFrame_inbox (x : Group) (f : Nat) (t : Option Nat) : (x.moveFrame f t).inbox = x.inbox := rfl
@[simp] theorem Group.moveFrame_down (x : Group) (f : Nat) (t : Option Nat) : (x.moveFrame f t).down = x.down := rfl
@[simp] theorem Group.moveFrame_fpw (x : Group) (f : Nat) (t : Option Nat) : (x.moveFrame f t).fpw = x.fpw := rfl
@[simp] theorem Group.moveFrame_fph (x : Group) (f : Nat) (t : Option Nat) : (x.moveFrame f t).fph = x.fph := rfl
@[simp] theorem Group.moveFrame_prio (x : Group) (f : Nat) (t : Option Nat) : (x.moveFrame f t).prio = x.prio := rfl
@[simp] theorem Group.moveFrame_placedAt (x : Group) (f : Nat) (t : Option Nat) : (x.moveFrame f t).placedAt = x.placedAt := rfl
@[simp] theorem Group.moveFrame_cores (x : Group) (f : Nat) (t : Option Nat) : (x.moveFrame f t).cores = x.cores := rfl
@[simp] theorem Group.moveFrame_gangs (x : Group) (f : Nat) (t : Option Nat) : (x.moveFrame f t).gangs = x.gangs := rfl
@[simp] theorem Group.moveFrame_homes (x : Group) (f : Nat) (t : Option Nat) : (x.moveFrame f t).homes = x.homes := rfl
@[simp] theorem Group.moveFrame_result (x : Group) (f : Nat) (t : Option Nat) : (x.moveFrame f t).result = x.result := rfl
@[simp] theorem Group.moveFrame_values (x : Group) (f : Nat) (t : Option Nat) : (x.moveFrame f t).values = x.values := rfl
@[simp] theorem Group.moveFrame_state (x : Group) (f : Nat) (t : Option Nat) : (x.moveFrame f t).state = x.state := rfl
@[simp] theorem Group.moveFrame_pre (x : Group) (f : Nat) (t : Option Nat) : (x.moveFrame f t).pre = x.pre := rfl
@[simp] theorem Group.moveFrame_restore (x : Group) (f : Nat) (t : Option Nat) : (x.moveFrame f t).restore = x.restore := rfl
@[simp] theorem Group.moveFrame_pslot (x : Group) (f : Nat) (t : Option Nat) : (x.moveFrame f t).pslot = x.pslot := rfl
@[simp] theorem Group.moveFrame_stalled (x : Group) (f : Nat) (t : Option Nat) : (x.moveFrame f t).stalled = x.stalled := rfl

/-! ### Bytes of the area seen -/

@[simp] theorem Cx.sees_s (x : Cx) (as : List Nat) : (x.sees as).s = x.s := by unfold Cx.sees; split <;> rfl
@[simp] theorem Cx.sees_dn (x : Cx) (as : List Nat) : (x.sees as).dn = x.dn := by unfold Cx.sees; split <;> rfl
@[simp] theorem Cx.sees_gid (x : Cx) (as : List Nat) : (x.sees as).gid = x.gid := by unfold Cx.sees; split <;> rfl
@[simp] theorem Cx.sees_gi (x : Cx) (as : List Nat) : (x.sees as).gi = x.gi := by unfold Cx.sees; split <;> rfl
@[simp] theorem Cx.sees_sgt (x : Cx) (as : List Nat) : (x.sees as).sgt = x.sgt := by unfold Cx.sees; split <;> rfl
@[simp] theorem Cx.sees_grp (x : Cx) (as : List Nat) : (x.sees as).grp = x.grp := by unfold Cx.sees; split <;> rfl
@[simp] theorem Cx.sees_qs (x : Cx) (as : List Nat) : (x.sees as).qs = x.qs := by unfold Cx.sees; split <;> rfl
@[simp] theorem Cx.sees_sup (x : Cx) (as : List Nat) : (x.sees as).sup = x.sup := by unfold Cx.sees; split <;> rfl
@[simp] theorem Cx.sees_pc (x : Cx) (as : List Nat) : (x.sees as).pc = x.pc := by unfold Cx.sees; split <;> rfl
@[simp] theorem Cx.sees_op (x : Cx) (as : List Nat) : (x.sees as).op = x.op := by unfold Cx.sees; split <;> rfl
@[simp] theorem Cx.sees_nh (x : Cx) (as : List Nat) : (x.sees as).nh = x.nh := by unfold Cx.sees; split <;> rfl
@[simp] theorem Cx.sees_act (x : Cx) (as : List Nat) : (x.sees as).act = x.act := by unfold Cx.sees; split <;> rfl
@[simp] theorem Cx.sees_em (x : Cx) (as : List Nat) : (x.sees as).em = x.em := by unfold Cx.sees; split <;> rfl
@[simp] theorem Cx.sees_helpers (x : Cx) (as : List Nat) : (x.sees as).helpers = x.helpers := by unfold Cx.sees; split <;> rfl
@[simp] theorem Cx.sees_pops (x : Cx) (as : List Nat) : (x.sees as).pops = x.pops := by unfold Cx.sees; split <;> rfl
@[simp] theorem Cx.sees_out (x : Cx) (as : List Nat) : (x.sees as).out = x.out := by unfold Cx.sees; split <;> rfl
@[simp] theorem Cx.sees_parks (x : Cx) (as : List Nat) : (x.sees as).parks = x.parks := by unfold Cx.sees; split <;> rfl

/-! ### What a context knows -/

@[simp] theorem Cx.onKnow_s (x : Cx) (f : Know → Know) : (x.onKnow f).s = x.s := rfl
@[simp] theorem Cx.onKnow_dn (x : Cx) (f : Know → Know) : (x.onKnow f).dn = x.dn := rfl
@[simp] theorem Cx.onKnow_gid (x : Cx) (f : Know → Know) : (x.onKnow f).gid = x.gid := rfl
@[simp] theorem Cx.onKnow_gi (x : Cx) (f : Know → Know) : (x.onKnow f).gi = x.gi := rfl
@[simp] theorem Cx.onKnow_sgt (x : Cx) (f : Know → Know) : (x.onKnow f).sgt = x.sgt := rfl
@[simp] theorem Cx.onKnow_grp (x : Cx) (f : Know → Know) : (x.onKnow f).grp = x.grp := rfl
@[simp] theorem Cx.onKnow_qs (x : Cx) (f : Know → Know) : (x.onKnow f).qs = x.qs := rfl
@[simp] theorem Cx.onKnow_sup (x : Cx) (f : Know → Know) : (x.onKnow f).sup = x.sup := rfl
@[simp] theorem Cx.onKnow_pc (x : Cx) (f : Know → Know) : (x.onKnow f).pc = x.pc := rfl
@[simp] theorem Cx.onKnow_op (x : Cx) (f : Know → Know) : (x.onKnow f).op = x.op := rfl
@[simp] theorem Cx.onKnow_nh (x : Cx) (f : Know → Know) : (x.onKnow f).nh = x.nh := rfl
@[simp] theorem Cx.onKnow_act (x : Cx) (f : Know → Know) : (x.onKnow f).act = x.act := rfl
@[simp] theorem Cx.onKnow_em (x : Cx) (f : Know → Know) : (x.onKnow f).em = x.em := rfl
@[simp] theorem Cx.onKnow_helpers (x : Cx) (f : Know → Know) : (x.onKnow f).helpers = x.helpers := rfl
@[simp] theorem Cx.onKnow_pops (x : Cx) (f : Know → Know) : (x.onKnow f).pops = x.pops := rfl
@[simp] theorem Cx.onKnow_out (x : Cx) (f : Know → Know) : (x.onKnow f).out = x.out := rfl
@[simp] theorem Cx.onKnow_parks (x : Cx) (f : Know → Know) : (x.onKnow f).parks = x.parks := rfl

/-! ### A fence of a context -/

@[simp] theorem Cx.fenceAt_s (x : Cx) (n : Nat) : (x.fenceAt n).s = x.s := rfl
@[simp] theorem Cx.fenceAt_dn (x : Cx) (n : Nat) : (x.fenceAt n).dn = x.dn := rfl
@[simp] theorem Cx.fenceAt_gid (x : Cx) (n : Nat) : (x.fenceAt n).gid = x.gid := rfl
@[simp] theorem Cx.fenceAt_gi (x : Cx) (n : Nat) : (x.fenceAt n).gi = x.gi := rfl
@[simp] theorem Cx.fenceAt_sgt (x : Cx) (n : Nat) : (x.fenceAt n).sgt = x.sgt := rfl
@[simp] theorem Cx.fenceAt_grp (x : Cx) (n : Nat) : (x.fenceAt n).grp = x.grp := rfl
@[simp] theorem Cx.fenceAt_qs (x : Cx) (n : Nat) : (x.fenceAt n).qs = x.qs := rfl
@[simp] theorem Cx.fenceAt_sup (x : Cx) (n : Nat) : (x.fenceAt n).sup = x.sup := rfl
@[simp] theorem Cx.fenceAt_pc (x : Cx) (n : Nat) : (x.fenceAt n).pc = x.pc := rfl
@[simp] theorem Cx.fenceAt_op (x : Cx) (n : Nat) : (x.fenceAt n).op = x.op := rfl
@[simp] theorem Cx.fenceAt_nh (x : Cx) (n : Nat) : (x.fenceAt n).nh = x.nh := rfl
@[simp] theorem Cx.fenceAt_act (x : Cx) (n : Nat) : (x.fenceAt n).act = x.act := rfl
@[simp] theorem Cx.fenceAt_em (x : Cx) (n : Nat) : (x.fenceAt n).em = x.em := rfl
@[simp] theorem Cx.fenceAt_helpers (x : Cx) (n : Nat) : (x.fenceAt n).helpers = x.helpers := rfl
@[simp] theorem Cx.fenceAt_pops (x : Cx) (n : Nat) : (x.fenceAt n).pops = x.pops := rfl
@[simp] theorem Cx.fenceAt_out (x : Cx) (n : Nat) : (x.fenceAt n).out = x.out := rfl
@[simp] theorem Cx.fenceAt_parks (x : Cx) (n : Nat) : (x.fenceAt n).parks = x.parks := rfl

/-! ### An acquire of a context -/

@[simp] theorem Cx.acquire_s (x : Cx) (w : List Nat) : (x.acquire w).s = x.s := rfl
@[simp] theorem Cx.acquire_dn (x : Cx) (w : List Nat) : (x.acquire w).dn = x.dn := rfl
@[simp] theorem Cx.acquire_gid (x : Cx) (w : List Nat) : (x.acquire w).gid = x.gid := rfl
@[simp] theorem Cx.acquire_gi (x : Cx) (w : List Nat) : (x.acquire w).gi = x.gi := rfl
@[simp] theorem Cx.acquire_sgt (x : Cx) (w : List Nat) : (x.acquire w).sgt = x.sgt := rfl
@[simp] theorem Cx.acquire_qs (x : Cx) (w : List Nat) : (x.acquire w).qs = x.qs := rfl
@[simp] theorem Cx.acquire_sup (x : Cx) (w : List Nat) : (x.acquire w).sup = x.sup := rfl
@[simp] theorem Cx.acquire_pc (x : Cx) (w : List Nat) : (x.acquire w).pc = x.pc := rfl
@[simp] theorem Cx.acquire_op (x : Cx) (w : List Nat) : (x.acquire w).op = x.op := rfl
@[simp] theorem Cx.acquire_nh (x : Cx) (w : List Nat) : (x.acquire w).nh = x.nh := rfl
@[simp] theorem Cx.acquire_act (x : Cx) (w : List Nat) : (x.acquire w).act = x.act := rfl
@[simp] theorem Cx.acquire_em (x : Cx) (w : List Nat) : (x.acquire w).em = x.em := rfl
@[simp] theorem Cx.acquire_helpers (x : Cx) (w : List Nat) : (x.acquire w).helpers = x.helpers := rfl
@[simp] theorem Cx.acquire_pops (x : Cx) (w : List Nat) : (x.acquire w).pops = x.pops := rfl
@[simp] theorem Cx.acquire_out (x : Cx) (w : List Nat) : (x.acquire w).out = x.out := rfl
@[simp] theorem Cx.acquire_parks (x : Cx) (w : List Nat) : (x.acquire w).parks = x.parks := rfl

end Sys2Proof.Machine
end

