-- ==== Sys2Proof/Laws/Finish.lean ====
section
/-!
SUPPORT. Laws of dies, groups, gangs and quads put back, and of the end of an instruction: what `settle` and
`finished` leave where no quad traps and no lane parks.
-/
namespace Sys2Proof.Machine

/-! ### Dies, groups, gangs and quads put back -/

theorem State.die_setDie_self {s : State} {n : Nat} (h : n < s.dies.length) (d : Die) : (s.setDie n d).die n = d := by
  simp [State.setDie, State.die, List.getD, h]

theorem State.die_setDie_ne (s : State) {n m : Nat} (d : Die) (h : m ≠ n) : (s.setDie n d).die m = s.die m := by
  simp [State.setDie, State.die, List.getD, List.getElem?_set_ne (Ne.symm h)]

theorem State.die_onDie_self {s : State} {n : Nat} (h : n < s.dies.length) (f : Die → Die) :
    (s.onDie n f).die n = f (s.die n) := State.die_setDie_self h _

theorem State.die_onDie_ne (s : State) {n m : Nat} (f : Die → Die) (h : m ≠ n) : (s.onDie n f).die m = s.die m :=
  State.die_setDie_ne s _ h

@[simp] theorem State.setDie_length (s : State) (n : Nat) (d : Die) : (s.setDie n d).dies.length = s.dies.length := by
  simp [State.setDie]

@[simp] theorem State.onDie_length (s : State) (n : Nat) (f : Die → Die) : (s.onDie n f).dies.length = s.dies.length :=
  State.setDie_length ..

/-- A die that holds a group is one of the dies. -/
theorem State.lt_of_group {s : State} {n g : Nat} {v : Group} (h : (s.die n).group g = some v) : n < s.dies.length := by
  by_cases hn : n < s.dies.length
  · exact hn
  · have : s.die n = Die.reset n := by simp [State.die, List.getD, List.getElem?_eq_none (Nat.le_of_not_lt hn)]
    rw [this] at h
    cases h

theorem State.group_putGroup_self {s : State} {n : Nat} (h : n < s.dies.length) (g : Nat) (v : Group) :
    ((s.putGroup n g v).die n).group g = some v := by
  rw [State.putGroup, State.die_onDie_self h]
  exact FMap.find?_insert_self _ _ _

theorem Gang.quad_onQuad_self {k : Gang} {q : Nat} (h : q < k.quads.length) (f : Quad → Quad) :
    (k.onQuad q f).quad q = f (k.quad q) := by
  simp [Gang.onQuad, Gang.quad, List.getD, h]

theorem Gang.quad_onQuad_ne (k : Gang) {q p : Nat} (f : Quad → Quad) (h : p ≠ q) :
    (k.onQuad q f).quad p = k.quad p := by
  simp [Gang.onQuad, Gang.quad, List.getD, Ne.symm h]

@[simp] theorem Gang.onQuad_length (k : Gang) (q : Nat) (f : Quad → Quad) :
    (k.onQuad q f).quads.length = k.quads.length := by simp [Gang.onQuad]

/-- The gang put back is the gang read. -/
theorem gangIn_put {c : Cx} (hd : c.dn < c.s.dies.length) (hg : c.gi < c.grp.gangs.length) (k : Gang) :
    gangIn (c.put k) c.where_ = k := by
  simp only [gangIn, Cx.where_, Cx.put, State.group_putGroup_self hd]
  simp [Group.gang, List.getD, List.getElem?_set_self hg]

/-! ### A context just opened -/

/-- What holds of the context of an instruction that may execute. -/
structure Opened (s : State) (c : Cx) : Prop where
  cur : s.cur = some c.where_
  s_eq : c.s = s
  group : (s.die c.dn).group c.gid = some c.grp
  die_lt : c.dn < s.dies.length
  gang_lt : c.gi < c.grp.gangs.length
  qs_ne : c.qs ≠ []
  qs_lt : ∀ q ∈ c.qs, q < c.k.quads.length
  qs_live : ∀ q ∈ c.qs, (c.k.quad q).exited = false
  qs_tag : ∀ q ∈ c.qs, (c.k.quad q).sgt = c.sgt
  nodup : c.qs.Nodup
  out_nil : c.out = []
  parks_nil : c.parks = []
  pops_nil : c.pops = []

/-- What a fold that changes quads leaves of a quad. -/
theorem Gang.quad_foldl_onQuad (f : Quad → Quad) (l : List Nat) (k : Gang) (hn : l.Nodup) (hl : ∀ q ∈ l, q < k.quads.length)
    (p : Nat) : (l.foldl (fun k q => k.onQuad q f) k).quad p = if p ∈ l then f (k.quad p) else k.quad p := by
  induction l generalizing k with
  | nil => simp
  | cons q l ih =>
    have hn' := List.nodup_cons.mp hn
    rw [List.foldl_cons, ih _ hn'.2 (by simpa using fun r hr => hl r (List.mem_cons_of_mem _ hr))]
    have hq := hl q (List.mem_cons_self ..)
    by_cases hp : p = q
    · subst hp
      simp [hn'.1, Gang.quad_onQuad_self hq]
    · simp [hp, Gang.quad_onQuad_ne k f hp]

theorem Gang.foldl_onQuad_eq (g : Nat → Quad → Quad) (l : List Nat) (k : Gang) :
    l.foldl (fun k q => k.onQuad q (g q)) k =
      { k with quads := (l.foldl (fun k q => k.onQuad q (g q)) k).quads } := by
  induction l generalizing k with
  | nil => rfl
  | cons q l ih =>
    rw [List.foldl_cons, ih]
    rfl

theorem Gang.foldl_onQuad_length (g : Nat → Quad → Quad) (l : List Nat) (k : Gang) :
    (l.foldl (fun k q => k.onQuad q (g q)) k).quads.length = k.quads.length := by
  induction l generalizing k with
  | nil => rfl
  | cons q l ih => rw [List.foldl_cons, ih, Gang.onQuad_length]

/-- As `quad_foldl_onQuad`, each quad changed in its own way. -/
theorem Gang.quad_foldl_onQuad' (g : Nat → Quad → Quad) (l : List Nat) (k : Gang) (hn : l.Nodup)
    (hl : ∀ q ∈ l, q < k.quads.length) (p : Nat) :
    (l.foldl (fun k q => k.onQuad q (g q)) k).quad p = if p ∈ l then g p (k.quad p) else k.quad p := by
  induction l generalizing k with
  | nil => simp
  | cons q l ih =>
    have hn' := List.nodup_cons.mp hn
    rw [List.foldl_cons, ih _ hn'.2 (by simpa using fun r hr => hl r (List.mem_cons_of_mem _ hr))]
    have hq := hl q (List.mem_cons_self ..)
    by_cases hp : p = q
    · subst hp
      simp [hn'.1, Gang.quad_onQuad_self hq]
    · simp [hp, Gang.quad_onQuad_ne k (g q) hp]

theorem Gang.members_nodup (k : Gang) (t : Nat) : (k.members t).Nodup :=
  List.Pairwise.filter _ (List.Pairwise.filter _ List.nodup_range)

theorem Gang.mem_members {k : Gang} {t q : Nat} (h : q ∈ k.members t) :
    q < k.quads.length ∧ (k.quad q).exited = false ∧ (k.quad q).sgt = t := by
  simp only [Gang.members, Gang.liveQuads, List.mem_filter, List.mem_range, Bool.not_eq_true', decide_eq_true_eq] at h
  exact ⟨h.1.1, h.1.2, h.2⟩

/-- What `openCx` gives, taken apart. -/
theorem openCx_fields {s : State} {sg : SubGang} {op : Nat} {h : Head} {c : Cx} (ho : openCx s sg op h = some c) :
    c.s = s ∧ c.where_ = sg ∧ (s.die c.dn).group c.gid = some c.grp ∧ c.k = c.grp.gang c.gi ∧
      c.qs = c.k.members c.sgt ∧ c.out = [] ∧ c.parks = [] ∧ c.pops = [] ∧ c.op = op := by
  unfold openCx at ho
  split at ho
  · cases ho
  · rename_i grp hg
    dsimp only at ho
    split at ho
    · cases ho
    · rename_i hm
      cases ho
      exact ⟨rfl, rfl, hg, rfl, rfl, rfl, rfl, rfl, rfl⟩

/-- The context of an instruction that may execute is open on the state. -/
theorem readyCx_opened {s : State} {op : Nat} {ops : Ops} {h : Head} {c : Cx} (hr : readyCx s op ops h = some c) :
    Opened s c := by
  obtain ⟨sg, c0, hcur, hopen, -, rfl, -⟩ := readyCx_iff hr
  obtain ⟨hs, hw, hg, hk, hqs, hout, hpark, hpop, -⟩ := openCx_fields hopen
  have hne := openCx_qs hopen
  have hgi : c0.gi < c0.grp.gangs.length := by
    apply Nat.lt_of_not_le
    intro hle
    apply hne
    rw [hqs, hk]
    have : c0.grp.gang c0.gi = Gang.empty := by
      simp [Group.gang, List.getD, List.getElem?_eq_none hle]
    rw [this]
    rfl
  have key : ∀ q, c0.enter.k.quad q =
      if q ∈ c0.qs ∧ c0.sup = false then { c0.k.quad q with poolWait := false } else c0.k.quad q := by
    intro q
    unfold Cx.enter
    by_cases hsup : c0.sup
    · simp [hsup]
    · simp only [hsup, Bool.false_eq_true, if_false]
      rw [Gang.quad_foldl_onQuad _ _ _ (hqs ▸ Gang.members_nodup _ _)
        (fun q hq => (Gang.mem_members (hqs ▸ hq)).1)]
      simp
  have hlen : c0.enter.k.quads.length = c0.k.quads.length := by
    unfold Cx.enter
    split
    · rfl
    · exact Gang.foldl_onQuad_length (fun _ u => { u with poolWait := false }) _ _
  have hsg : c0.enter.sgt = c0.sgt := by unfold Cx.enter; split <;> rfl
  have hpp : c0.enter.pops = c0.pops := by unfold Cx.enter; split <;> rfl
  constructor
  · rw [hcur]
    simp only [Cx.where_, Cx.enter_dn, Cx.enter_gid, Cx.enter_gi, hsg]
    rw [← hw]
    rfl
  · simpa using hs
  · simpa using hg
  · simpa using State.lt_of_group hg
  · simpa using hgi
  · simpa using hne
  · intro q hq
    rw [hlen]
    exact (Gang.mem_members (hqs ▸ (show q ∈ c0.qs by simpa using hq))).1
  · intro q hq
    have := (Gang.mem_members (hqs ▸ (show q ∈ c0.qs by simpa using hq))).2.1
    rw [key]
    split <;> simpa using this
  · intro q hq
    have := (Gang.mem_members (hqs ▸ (show q ∈ c0.qs by simpa using hq))).2.2
    rw [key, hsg]
    split <;> simpa using this
  · simpa [hqs] using Gang.members_nodup _ _
  · simpa using hout
  · simpa using hpark
  · rw [hpp]
    exact hpop

/-! ### Parting -/

/-- Parting changes tags alone. -/
theorem quad_part (k : Gang) (qs : List Nat) (hn : qs.Nodup) (hl : ∀ q ∈ qs, q < k.quads.length) :
    part k qs = { k with quads := (part k qs).quads } ∧ (part k qs).quads.length = k.quads.length ∧
    ∀ p, (part k qs).quad p = if p ∈ qs then { k.quad p with sgt := ((part k qs).quad p).sgt } else k.quad p := by
  have gen : ∀ (l : List Nat) (k' : Gang), l.Nodup → (∀ q ∈ l, q < k'.quads.length) →
      let r := l.foldl (fun (k : Gang) q =>
        let tag := (qs.filter fun p => (k.quad p).pc = (k.quad q).pc).foldl min q
        k.onQuad q fun u => { u with sgt := tag }) k'
      r = { k' with quads := r.quads } ∧ r.quads.length = k'.quads.length ∧
        ∀ p, r.quad p = if p ∈ l then { k'.quad p with sgt := (r.quad p).sgt } else k'.quad p := by
    intro l
    induction l with
    | nil => intro k' _ _; exact ⟨rfl, rfl, fun p => by simp⟩
    | cons q l ih =>
      intro k' hn' hl'
      have hc := List.nodup_cons.mp hn'
      have hq := hl' q (List.mem_cons_self ..)
      let tag := (qs.filter fun p => (k'.quad p).pc = (k'.quad q).pc).foldl min q
      obtain ⟨h1, h2, h3⟩ := ih (k'.onQuad q fun u => { u with sgt := tag }) hc.2
        (by simpa using fun r hr => hl' r (List.mem_cons_of_mem _ hr))
      refine ⟨?_, ?_, fun p => ?_⟩
      · simp only [List.foldl_cons]
        rw [h1]
        rfl
      · simp only [List.foldl_cons]
        rw [h2]
        simp
      · simp only [List.foldl_cons]
        have h3 := h3 p
        by_cases hp : p = q
        · subst hp
          rw [if_neg hc.1, Gang.quad_onQuad_self hq] at h3
          rw [if_pos (List.mem_cons_self ..), h3]
        · rw [Gang.quad_onQuad_ne _ _ hp] at h3
          simpa [hp] using h3
  exact gen qs k hn hl

/-! ### The end of an instruction -/

/-- Nothing parks where no lane is to park. -/
theorem parkAll_nil {c : Cx} (h : c.parks = []) : parkAll c = c := by
  unfold parkAll
  cases c
  subst h
  rfl

/-- Where no quad takes a trap, settling moves each quad as it says, and parts the sub-gang by PC. -/
theorem settle_apply {c : Cx} (hn : c.qs.Nodup) (hl : ∀ q ∈ c.qs, q < c.k.quads.length)
    (ht : ∀ q ∈ c.qs, ∀ a b v, FMap.get QOut.adv c.out q ≠ .trap a b v) :
    ∃ k : Gang, settle c = { c with k := k } ∧ k = { c.k with quads := k.quads } ∧ k.quads.length = c.k.quads.length ∧
      ∀ q, k.quad q = if q ∈ c.qs then { (FMap.get QOut.adv c.out q).apply (c.k.quad q) with sgt := (k.quad q).sgt }
        else c.k.quad q := by
  have fold : ∀ (l : List Nat) (k : Gang), (∀ q ∈ l, ∀ a b v, FMap.get QOut.adv c.out q ≠ .trap a b v) →
      l.foldl settleQuad { c with k := k } =
      { c with k := l.foldl (fun k q => k.onQuad q (FMap.get QOut.adv c.out q).apply) k } := by
    intro l
    induction l with
    | nil => intro k _; rfl
    | cons q l ih =>
      intro k h
      have hid : ∀ k : Gang, k.onQuad q (fun u => u) = k := by
        intro k
        simp only [Gang.onQuad]
        congr 1
        exact List.modify_id q k.quads
      simp only [List.foldl_cons]
      have hq := h q (List.mem_cons_self ..)
      have ih := fun k => ih k fun p hp => h p (List.mem_cons_of_mem _ hp)
      unfold settleQuad
      dsimp only
      cases ho : FMap.get QOut.adv c.out q with
      | trap a b v => exact absurd ho (hq a b v)
      | adv => exact ih _
      | jump pc => exact ih _
      | hold =>
        have : k.onQuad q (QOut.hold).apply = k := hid k
        rw [this]
        exact ih _
  have hfold := fold c.qs c.k ht
  let k1 := c.qs.foldl (fun k q => k.onQuad q (FMap.get QOut.adv c.out q).apply) c.k
  have hk1 : k1 = { c.k with quads := k1.quads } :=
    Gang.foldl_onQuad_eq (fun q => (FMap.get QOut.adv c.out q).apply) c.qs c.k
  have hlen : k1.quads.length = c.k.quads.length :=
    Gang.foldl_onQuad_length (fun q => (FMap.get QOut.adv c.out q).apply) c.qs c.k
  have hquad : ∀ p, k1.quad p = if p ∈ c.qs then (FMap.get QOut.adv c.out p).apply (c.k.quad p) else c.k.quad p :=
    Gang.quad_foldl_onQuad' (fun q => (FMap.get QOut.adv c.out q).apply) c.qs c.k hn hl
  unfold settle
  dsimp only
  rw [show ({ c with k := c.k } : Cx) = c from rfl] at hfold
  rw [hfold]
  generalize hstay : c.qs.filter _ = stay
  have hsub : ∀ q ∈ stay, q ∈ c.qs := fun q hq => (List.mem_filter.mp (hstay ▸ hq)).1
  have hnd : stay.Nodup := hstay ▸ List.Pairwise.filter _ hn
  obtain ⟨p1, p2, p3⟩ := quad_part k1 stay hnd (fun q hq => hlen ▸ hl q (hsub q hq))
  refine ⟨part k1 stay, rfl, ?_, p2.trans hlen, fun q => ?_⟩
  · rw [p1, hk1]
  · have h3 := p3 q
    by_cases hs : q ∈ stay
    · rw [if_pos hs, hquad, if_pos (hsub q hs)] at h3
      rw [if_pos (hsub q hs)]
      exact h3
    · rw [if_neg hs] at h3
      rw [h3, hquad]
      split <;> rfl

/-- An instruction in which no lane parks and no quad traps ends as its context says. -/
theorem finished_endsAs {c : Cx} (hn : c.qs.Nodup) (hl : ∀ q ∈ c.qs, q < c.k.quads.length) (hp : c.parks = [])
    (ht : ∀ q ∈ c.qs, ∀ a b v, FMap.get QOut.adv c.out q ≠ .trap a b v) :
    c.endsAs (fun q => (FMap.get QOut.adv c.out q).apply (c.k.quad q)) c.finished := by
  obtain ⟨k, hk, h1, h2, h3⟩ := settle_apply hn hl ht
  refine ⟨{ k with issued := k.issued + 1 }, ?_, ?_, h2, h3⟩
  · simp only [Cx.finished, parkAll_nil hp, hk, Cx.close, Cx.put]
  · rw [h1]

end Sys2Proof.Machine
end

