-- ==== Sys2Proof/Laws/Trap.lean ====
section
/-!
SUPPORT. Laws of records and traps: what writing a record leaves, and that a quad in which no guard is true is no true
quad.
-/
namespace Sys2Proof.Machine

/-- Writing a record changes records alone. -/
theorem Gang.putRecord_eq (k : Gang) (l : Nat) (r : FaultRec) : k.putRecord l r = { k with records := (k.putRecord l r).records } := by
  unfold Gang.putRecord; split <;> rfl

theorem Gang.putRecord_quad (k : Gang) (l : Nat) (r : FaultRec) (p : Nat) : (k.putRecord l r).quad p = k.quad p := by
  unfold Gang.putRecord; split <;> rfl

/-- A record is written only where none is held (R181). -/
theorem Gang.putRecord_get (k : Gang) (l : Nat) (r : FaultRec) (x : Nat) : FMap.get FaultRec.none (k.putRecord l r).records x =
   if x = l ∧ (FMap.get FaultRec.none k.records x).cls = 0 then r else FMap.get FaultRec.none k.records x := by
  unfold Gang.putRecord
  by_cases hx : x = l
  · subst hx
    by_cases h : (FMap.get FaultRec.none k.records x).cls = 0 <;> simp [h, FMap.get_set_self]
  · split <;> simp [hx, FMap.get_set_ne]

/-- With no executing lane there is no quad with one. -/
theorem Cx.trueQuads_none {c : Cx} (h : c.em = 0) : c.trueQuads = [] := by
  simp [Cx.trueQuads, h, quadBits]

/-- A gang beyond recovery stays so with the class of the first fault (R190). -/
theorem Gang.loseTo_lost (k : Gang) (cls : Nat) :
    (k.loseTo cls).lost = if k.lost.isSome then k.lost else some (cls, k.issued) := by
  unfold Gang.loseTo; cases h : k.lost <;> simp [h]

/-- Nothing else of the gang changes. -/
theorem Gang.loseTo_eq (k : Gang) (cls : Nat) : k.loseTo cls = { k with lost := (k.loseTo cls).lost } := by
  unfold Gang.loseTo; cases h : k.lost <;> simp

@[simp] theorem Gang.loseTo_quad (k : Gang) (cls p : Nat) : (k.loseTo cls).quad p = k.quad p := by
  rw [Gang.loseTo_eq]; rfl

/-- Clearing the records of lanes of quad `q`: class 0 in the lanes of the mask, all else as before (R316). -/
theorem Gang.clearRecords (q : Nat) (b : BitVec 4) (l : List Nat) (k : Gang) :
    let r := l.foldl (fun (k : Gang) i => if b.getLsbD i then k.clearRecord (4 * q + i) else k) k
    r = { k with records := r.records, parkedAt := r.parkedAt } ∧
      (∀ i, FMap.get FaultRec.none r.records (4 * q + i) = if i ∈ l ∧ b.getLsbD i = true then
        { FMap.get FaultRec.none k.records (4 * q + i) with cls := 0 }
        else FMap.get FaultRec.none k.records (4 * q + i)) ∧
      ∀ x, (∀ i ∈ l, x ≠ 4 * q + i) → FMap.get FaultRec.none r.records x = FMap.get FaultRec.none k.records x := by
  induction l generalizing k with
  | nil => simp
  | cons i l ih =>
    simp only [List.foldl_cons]
    by_cases hb : b.getLsbD i
    · simp only [hb, if_true]
      obtain ⟨h1, h2, h3⟩ := ih (k.clearRecord (4 * q + i))
      refine ⟨by rw [h1]; rfl, fun j => ?_, fun x hx => ?_⟩
      · rw [h2]
        by_cases hj : j = i
        · subst hj; simp [Gang.clearRecord, FMap.get_set_self, hb]
        · simp only [Gang.clearRecord]
          rw [FMap.get_set_ne _ _ _ (by omega)]; simp [hj]
      · rw [h3 x fun i hi => hx i (List.mem_cons_of_mem _ hi)]
        exact FMap.get_set_ne _ _ _ (hx i (List.mem_cons_self ..))
    · simp only [hb, Bool.false_eq_true, if_false]
      obtain ⟨h1, h2, h3⟩ := ih k
      refine ⟨h1, fun j => ?_, fun x hx => h3 x fun i hi => hx i (List.mem_cons_of_mem _ hi)⟩
      rw [h2]
      by_cases hj : j = i
      · subst hj; simp [hb]
      · simp [hj]

end Sys2Proof.Machine
end

