-- ==== Sys2Proof/Laws/Lanes.lean ====
section
/-!
SUPPORT. Laws of the shapes that lane, scalar and cross-lane instructions share: each shape answers its end where the
instruction is ready.
-/
namespace Sys2Proof.Machine

/-- What `laneReady` says, taken apart. -/
theorem laneReady_iff {s : State} {op : Nat} {o : OpsR} {p : Cx} (h : laneReady s op o = some p) :
    ∃ c, readyCx s op (.r o) o.h = some c ∧ c.prepare op (.r o) (destPort o.d) = some p := by
  unfold laneReady at h
  split at h
  · exact ⟨_, by assumption, h⟩
  · cases h

section
variable {s : State} {op : Nat} {o : OpsR} {p : Cx}

/-- A lane instruction that is ready. -/
theorem laneOp_done {wd wa wb wc : Bool} {f : Cx → Nat → DWord → DWord → DWord → Flagged}
    (h : laneReady s op o = some p) : laneOp op o wd wa wb wc f s = .next (laneEnd p o wd wa wb wc (f p)) := by
  obtain ⟨c, hr, hp⟩ := laneReady_iff h
  unfold laneOp
  rw [issueWith_ready hr, hp]
  rfl

theorem intOp_done {f : Int → Int → Int → Int} (h : laneReady s op o = some p) :
    intOp op o f s = .next (laneEnd p o o.m.ty.wide o.m.ty.wide o.m.ty.wide o.m.ty.wide fun _ a b c =>
      finishInt o.m.ty (o.m.flags % 2 = 1) (f (o.m.ty.int a) (o.m.ty.int b) (o.m.ty.int c))) := by
  unfold intOp
  exact laneOp_done h

theorem bitOp_done {f : DWord → DWord → DWord} (h : laneReady s op o = some p) :
    bitOp op o f s = .next (laneEnd p o o.m.ty.wide o.m.ty.wide o.m.ty.wide o.m.ty.wide fun _ a b _ => (f a b, 0)) := by
  unfold bitOp
  exact laneOp_done h

theorem wordOp_done {f : Word → Word → Word → Word} (h : laneReady s op o = some p) :
    wordOp op o f s = .next (laneEnd p o false false false false fun _ a b c =>
      ((f (a.setWidth 32) (b.setWidth 32) (c.setWidth 32)).setWidth 64, 0)) := by
  unfold wordOp
  exact laneOp_done h

theorem floatOp_done {f : FFmt → Nat → Bool → FVal → FVal → FVal → FRes} (h : laneReady s op o = some p) :
    floatOp op o f s = .next (laneEnd p o false false false false fun l x y z =>
      flagged (f (ffmt o.m.ty) (p.mode o.m l) (p.flush o.m l) (operandF (ffmt o.m.ty) (p.flush o.m l) x.toNat)
        (operandF (ffmt o.m.ty) (p.flush o.m l) y.toNat) (operandF (ffmt o.m.ty) (p.flush o.m l) z.toNat))) := by
  unfold floatOp
  exact laneOp_done h

/-- A cross-lane instruction that raises no flag and is ready. -/
theorem crossOp_done {wd wa : Bool} {f : Cx → List DWord → List DWord → Nat → DWord} (h : laneReady s op o = some p) :
    crossOp op o wd wa f s =
      .next (p.finishCross wd o.d p.runs (f p (p.src o.m.ty wa o.a) (p.src .i32 false o.b)) 0).finished := by
  obtain ⟨c, hr, hp⟩ := laneReady_iff h
  unfold crossOp
  rw [issueWith_ready hr, hp]
  rfl

/-- A scalar instruction in no executing lane is skipped. -/
theorem scalarOp_skip {c : Cx} {wd wa : Bool} {f : Cx → DWord → DWord → DWord → Flagged}
    (h : readyCx s op (.r o) o.h = some c) (he : c.em = 0) : scalarOp op o wd wa f s = .next c.finished := by
  unfold scalarOp
  rw [issueWith_ready h, if_pos he]

/-- A scalar instruction that executes. -/
theorem scalarOp_done {c : Cx} {wd wa : Bool} {f : Cx → DWord → DWord → DWord → Flagged}
    (h : readyCx s op (.r o) o.h = some c) (he : c.em ≠ 0) : scalarOp op o wd wa f s =
      .next (scalarEnd c o wd (f c (at64 (c.src o.m.ty wa o.a) 0) (at64 (c.src o.m.ty wa o.b) 0)
        (at64 (c.src o.m.ty false o.c) 0))) := by
  unfold scalarOp
  rw [issueWith_ready h, if_neg he]
  rfl

/-- A system instruction in no executing lane is skipped; else its body decides. -/
theorem sysOp_ready {o : OpsS} {c : Cx} {body : Cx → Option Cx} (h : readyCx s op (.s o) o.h = some c) :
    sysOp op o s body = if c.em = 0 then .next c.finished else
      match body c with
      | none => .next s
      | some c => .next c.finished := by
  unfold sysOp
  rw [issueWith_ready h]
  by_cases he : c.em = 0
  · rw [if_pos he, if_pos he]
  · rw [if_neg he, if_neg he]
    all_goals (cases body c <;> rfl)

end

end Sys2Proof.Machine
end

