-- ==== Sys2Proof/Laws/Control.lean ====
section
/-!
SUPPORT. What an instruction that acts on each quad of its sub-gang leaves (R245).
-/
namespace Sys2Proof.Machine

/-- The context with its quads and what becomes of them given. -/
abbrev Cx.withQuads (c : Cx) (qs : List Quad) (out : FMap QOut) : Cx :=
  { c with k := { c.k with quads := qs }, out := out }

/-- The fold over the quads, each told what becomes of it or left alone. -/
theorem eachQuad_fold {c : Cx} {F : Cx → Nat → Cx} {f : Nat → QOut × Quad} (l : List Nat) (hn : l.Nodup)
    (hF : ∀ q ∈ l, ∀ qs out, (c.withQuads qs out).k.quad q = c.k.quad q →
      (∃ g, F (c.withQuads qs out) q = (c.withQuads qs out).quadDo q (f q).1 g ∧ g (c.k.quad q) = (f q).2) ∨
      (F (c.withQuads qs out) q = c.withQuads qs out ∧ f q = (.adv, c.k.quad q)))
    (qs : List Quad) (out : FMap QOut) (hl : ∀ q ∈ l, q < qs.length)
    (hq : ∀ q ∈ l, (c.withQuads qs out).k.quad q = c.k.quad q) (ho : ∀ q ∈ l, FMap.find? out q = none) :
    ∃ qs' out', l.foldl F (c.withQuads qs out) = c.withQuads qs' out' ∧ qs'.length = qs.length ∧
      ∀ q, if q ∈ l then FMap.get .adv out' q = (f q).1 ∧ (c.withQuads qs' out').k.quad q = (f q).2
        else FMap.find? out' q = FMap.find? out q ∧
          (c.withQuads qs' out').k.quad q = (c.withQuads qs out).k.quad q := by
  induction l generalizing qs out with
  | nil => exact ⟨qs, out, rfl, rfl, fun q => by simp⟩
  | cons p l ih =>
    have hc := List.nodup_cons.mp hn
    have hp := List.mem_cons_self (a := p) (l := l)
    have tl : ∀ {q}, q ∈ l → q ∈ p :: l := fun h => List.mem_cons_of_mem _ h
    rcases hF p hp qs out (hq p hp) with ⟨g, he, hg⟩ | ⟨he, hf⟩
    · have hstep : F (c.withQuads qs out) p = c.withQuads (qs.modify p g) (out ++ [(p, (f p).1)]) := he
      have hne : ∀ q, q ≠ p → (c.withQuads (qs.modify p g) (out ++ [(p, (f p).1)])).k.quad q =
          (c.withQuads qs out).k.quad q := fun q h => Gang.quad_onQuad_ne (c.withQuads qs out).k g h
      have hout : ∀ q, FMap.find? (out ++ [(p, (f p).1)]) q =
          (match FMap.find? out q with | some y => some y | none => if q = p then some (f p).1 else none) := by
        intro q
        clear hF hl hq ho he hstep hne
        induction out with
        | nil => simp [FMap.find?]
        | cons e r ih =>
          simp only [List.cons_append, FMap.find?]
          split
          · rfl
          · exact ih
      obtain ⟨qs', out', h1, h2, h3⟩ := ih hc.2 (fun q hq => hF q (tl hq)) (qs.modify p g) (out ++ [(p, (f p).1)])
        (fun q hq => by simpa using hl q (tl hq))
        (fun q h => by
          have hqp : q ≠ p := fun e => hc.1 (e ▸ h)
          rw [hne q hqp]; exact hq q (tl h))
        (fun q h => by
          have hqp : q ≠ p := fun e => hc.1 (e ▸ h)
          rw [hout, ho q (tl h)]; simp [hqp])
      refine ⟨qs', out', ?_, by simpa using h2, fun q => ?_⟩
      · rw [List.foldl_cons, hstep, h1]
      · have h3 := h3 q
        by_cases hqp : q = p
        · subst hqp
          rw [if_neg hc.1] at h3
          rw [if_pos hp]
          refine ⟨?_, ?_⟩
          · rw [FMap.get, h3.1, hout, ho q hp]; simp
          · rw [h3.2]
            refine (Gang.quad_onQuad_self (k := (c.withQuads qs out).k) (hl q hp) g).trans ?_
            rw [hq q hp, hg]
        · by_cases hql : q ∈ l
          · rw [if_pos hql] at h3
            rw [if_pos (tl hql)]; exact h3
          · rw [if_neg hql] at h3
            rw [if_neg (by simp [hqp, hql])]
            refine ⟨?_, by rw [h3.2, hne q hqp]⟩
            rw [h3.1, hout]
            cases FMap.find? out q <;> simp [hqp]
    · obtain ⟨qs', out', h1, h2, h3⟩ := ih hc.2 (fun q hq => hF q (tl hq)) qs out
        (fun q h => hl q (tl h)) (fun q h => hq q (tl h)) (fun q h => ho q (tl h))
      refine ⟨qs', out', ?_, h2, fun q => ?_⟩
      · rw [List.foldl_cons, he, h1]
      · have h3 := h3 q
        by_cases hqp : q = p
        · subst hqp
          rw [if_neg hc.1] at h3
          rw [if_pos hp, FMap.get, h3.1, h3.2, ho q hp, hq q hp, hf]
          simp
        · by_cases hql : q ∈ l
          · rw [if_pos hql] at h3
            rw [if_pos (tl hql)]; exact h3
          · rw [if_neg hql] at h3
            rw [if_neg (by simp [hqp, hql])]; exact h3

/-- An instruction that acts on each quad does what it does to each. -/
theorem eachQuad_does {s : State} {c : Cx} (ho : Opened s c) {F : Cx → Nat → Cx} {f : Nat → QOut × Quad}
    (hF : ∀ q ∈ c.qs, ∀ qs out, (c.withQuads qs out).k.quad q = c.k.quad q →
      (∃ g, F (c.withQuads qs out) q = (c.withQuads qs out).quadDo q (f q).1 g ∧ g (c.k.quad q) = (f q).2) ∨
      (F (c.withQuads qs out) q = c.withQuads qs out ∧ f q = (.adv, c.k.quad q))) :
    c.does f (c.eachQuad F).finished := by
  have hc : c.withQuads c.k.quads c.out = c := rfl
  obtain ⟨qs', out', h1, -, h3⟩ := eachQuad_fold c.qs ho.nodup hF c.k.quads c.out ho.qs_lt (fun _ _ => by rw [hc])
    (fun q _ => by rw [ho.out_nil]; rfl)
  rw [hc] at h1
  refine ⟨c.withQuads qs' out', by rw [Cx.eachQuad, h1], rfl, rfl, fun q => ?_⟩
  have h3 := h3 q
  split
  · rename_i hq; rw [if_pos hq] at h3; exact h3
  · rename_i hq; rw [if_neg hq] at h3; exact h3.2

/-- A control instruction that may execute acts on each quad. -/
theorem quadOp_does {s : State} {c : Cx} {op : Nat} {o : OpsC} {F : Cx → Nat → Cx} {f : Nat → QOut × Quad}
    (hr : readyCx s op (.c o) o.h = some c)
    (hF : ∀ q ∈ c.qs, ∀ qs out, (c.withQuads qs out).k.quad q = c.k.quad q →
      (∃ g, F (c.withQuads qs out) q = (c.withQuads qs out).quadDo q (f q).1 g ∧ g (c.k.quad q) = (f q).2) ∨
      (F (c.withQuads qs out) q = c.withQuads qs out ∧ f q = (.adv, c.k.quad q))) :
    ∃ t, quadOp op o F s = .next t ∧ c.does f t := by
  exact ⟨_, issueWith_completes (body := fun c => some (c.eachQuad F)) hr rfl, eachQuad_does (readyCx_opened hr) hF⟩

end Sys2Proof.Machine
end

