-- ==== Sys2Proof/Laws/PerInstr.lean ====
section
/-!
SUPPORT. One fact about every instruction as syntax: a Flaham instruction is built back from its opcode and its
operands, and the operands have the shape of the opcode's format (R209, R220); a step of another agent has no
opcode and no word. The round trip of decoding rests on it.
-/
namespace Sys2Proof

/-- The format shape of operands. -/
def Ops.shape : Ops → Shape
  | .r _ => .r
  | .c _ => .c
  | .m _ => .m
  | .e _ => .e
  | .s _ => .s

end Sys2Proof

namespace Sys2Proof.Laws.BuildsBack

/-- Opcode and operands of an instruction give it back, in the format of its opcode. -/
def Statement (i : Instr) : Prop :=
  match opcodeAndOps i with
  | some x => buildInstr x.1 x.2 = some i ∧ shapeOf x.1 = some x.2.shape
  | none => encode i = none

theorem powerGood (env : BootEnv) : Statement (.powerGood env) := rfl
theorem bootTimeExceeded : Statement .bootTimeExceeded := rfl
theorem restaggerDelayExpiry (env : BootEnv) : Statement (.restaggerDelayExpiry env) := rfl
theorem holdTimeout (env : BootEnv) : Statement (.holdTimeout env) := rfl
theorem modulePowerLoss : Statement .modulePowerLoss := rfl
theorem hostModuleReset (env : BootEnv) : Statement (.hostModuleReset env) := rfl
theorem pacingWindow (d demand : Nat) : Statement (.pacingWindow d demand) := rfl
theorem securityAlarmClass1 (r : Reading) (rs : List Reading) : Statement (.securityAlarmClass1 r rs) := rfl
theorem securityAlarmClass2 (r : Reading) (rs : List Reading) (env : BootEnv) :
    Statement (.securityAlarmClass2 r rs env) := rfl
theorem securityAlarmClass3 (r : Reading) (rs : List Reading) (env : BootEnv) :
    Statement (.securityAlarmClass3 r rs env) := rfl
theorem go : Statement .go := rfl
theorem setlimit : Statement .setlimit := rfl
theorem loadkey : Statement .loadkey := rfl
theorem clearkey : Statement .clearkey := rfl
theorem portkey : Statement .portkey := rfl
theorem setpos : Statement .setpos := rfl
theorem release (env : BootEnv) : Statement (.release env) := rfl
theorem attest : Statement .attest := rfl
theorem handles : Statement .handles := rfl
theorem cert : Statement .cert := rfl
theorem readCell (l : LinkId) (damage : Bool) : Statement (.readCell l damage) := rfl
theorem writeCell (l : LinkId) (damage : Bool) : Statement (.writeCell l damage) := rfl
theorem remoteAtomicCell (l : LinkId) (damage : Bool) : Statement (.remoteAtomicCell l damage) := rfl
theorem copyElementCell (l : LinkId) (damage : Bool) : Statement (.copyElementCell l damage) := rfl
theorem migrationPull (l : LinkId) (damage : Bool) : Statement (.migrationPull l damage) := rfl
theorem readData (l : LinkId) (damage : Bool) : Statement (.readData l damage) := rfl
theorem writeCompletion (l : LinkId) (damage : Bool) : Statement (.writeCompletion l damage) := rfl
theorem atomicResult (l : LinkId) (damage : Bool) : Statement (.atomicResult l damage) := rfl
theorem faultReply (l : LinkId) (damage : Bool) : Statement (.faultReply l damage) := rfl
theorem kdPush (l : LinkId) (damage : Bool) : Statement (.kdPush l damage) := rfl
theorem kdReturn (l : LinkId) (damage : Bool) : Statement (.kdReturn l damage) := rfl
theorem publishCell (l : LinkId) (damage : Bool) : Statement (.publishCell l damage) := rfl
theorem signalRelease (l : LinkId) (damage : Bool) : Statement (.signalRelease l damage) := rfl
theorem ack (l : LinkId) (damage : Bool) : Statement (.ack l damage) := rfl
theorem nak (l : LinkId) (damage : Bool) : Statement (.nak l damage) := rfl
theorem creditOnly (l : LinkId) (damage : Bool) : Statement (.creditOnly l damage) := rfl
theorem restagger (l : LinkId) (damage : Bool) : Statement (.restagger l damage) := rfl
theorem keyControl (l : LinkId) (damage : Bool) : Statement (.keyControl l damage) := rfl
theorem linkStatus (l : LinkId) (damage : Bool) : Statement (.linkStatus l damage) := rfl
theorem ackDeadline (l : LinkId) : Statement (.ackDeadline l) := rfl
theorem linkRetrain (l : LinkId) (trained : Bool) : Statement (.linkRetrain l trained) := rfl
theorem tagFailureLimit (p : Nat) : Statement (.tagFailureLimit p) := rfl
theorem keyexp (p : Nat) : Statement (.keyexp p) := rfl
theorem portRetry (p : Nat) (trained : Bool) : Statement (.portRetry p trained) := rfl
theorem dieOfflineTransition (d : Nat) (room linksUp : Bool) : Statement (.dieOfflineTransition d room linksUp) := rfl
theorem apertureRead (d off len : Nat) : Statement (.apertureRead d off len) := rfl
theorem apertureWrite (d off : Nat) (data : List Byte) : Statement (.apertureWrite d off data) := rfl
theorem apfClear (d : Nat) : Statement (.apfClear d) := rfl
theorem resume (d : Nat) : Statement (.resume d) := rfl
theorem queueConfigWrite (d q : Nat) (v : DWord) : Statement (.queueConfigWrite d q v) := rfl
theorem queueDisable (d q : Nat) (v : DWord) : Statement (.queueDisable d q v) := rfl
theorem tail (d q : Nat) (v : Word) : Statement (.tail d q v) := rfl
theorem resv (d q : Nat) : Statement (.resv d q) := rfl
theorem commit (d q : Nat) (v : Word) : Statement (.commit d q v) := rfl
theorem commandRecordRead (d q : Nat) : Statement (.commandRecordRead d q) := rfl
theorem commandStart (d q : Nat) : Statement (.commandStart d q) := rfl
theorem commandCompletion (d c : Nat) : Statement (.commandCompletion d c) := rfl
theorem nopCommand (d c : Nat) : Statement (.nopCommand d c) := rfl
theorem launchCommand (d c : Nat) : Statement (.launchCommand d c) := rfl
theorem copyCommand (d c : Nat) : Statement (.copyCommand d c) := rfl
theorem publishCommand (d c : Nat) : Statement (.publishCommand d c) := rfl
theorem signalCommand (d c : Nat) : Statement (.signalCommand d c) := rfl
theorem waitCommand (d c : Nat) : Statement (.waitCommand d c) := rfl
theorem migrate (d c : Nat) : Statement (.migrate d c) := rfl
theorem migrationPageSwitch (d c : Nat) : Statement (.migrationPageSwitch d c) := rfl
theorem migrationLinePulled (d page line : Nat) : Statement (.migrationLinePulled d page line) := rfl
theorem quiesce (d c : Nat) : Statement (.quiesce d c) := rfl
theorem quiesceComplete (d : Nat) : Statement (.quiesceComplete d) := rfl
theorem tlbctlAll (d : Nat) : Statement (.tlbctlAll d) := rfl
theorem tlbctlPage (d : Nat) (v : DWord) : Statement (.tlbctlPage d v) := rfl
theorem invalidationDone (d : Nat) : Statement (.invalidationDone d) := rfl
theorem fttail (d : Nat) (v : DWord) : Statement (.fttail d v) := rfl
theorem frameZeroed (d : Nat) : Statement (.frameZeroed d) := rfl
theorem ftemptyClear (d : Nat) : Statement (.ftemptyClear d) := rfl
theorem controlRegisterWrite (fn off : Nat) (v : DWord) : Statement (.controlRegisterWrite fn off v) := rfl
theorem nodeOpen (d n i : Nat) : Statement (.nodeOpen d n i) := rfl
theorem groupPlacement (d n i : Nat) : Statement (.groupPlacement d n i) := rfl
theorem placementStarvation (d : Nat) : Statement (.placementStarvation d) := rfl
theorem groupEnd (d g : Nat) : Statement (.groupEnd d g) := rfl
theorem priorityPreemption (d n i : Nat) : Statement (.priorityPreemption d n i) := rfl
theorem savedGroupPlacement (d g : Nat) : Statement (.savedGroupPlacement d g) := rfl
theorem groupSaved (d g : Nat) : Statement (.groupSaved d g) := rfl
theorem faultVector (d g k q : Nat) : Statement (.faultVector d g k q) := rfl
theorem pageFaultVector (d g k q : Nat) : Statement (.pageFaultVector d g k q) := rfl
theorem faultBeyondRecovery (d g : Nat) : Statement (.faultBeyondRecovery d g) := rfl
theorem portDeadlock (d g : Nat) : Statement (.portDeadlock d g) := rfl
theorem engineElementPerformed (d c e : Nat) : Statement (.engineElementPerformed d c e) := rfl
theorem engineCommandCompletion (d c : Nat) : Statement (.engineCommandCompletion d c) := rfl
theorem sigwaitReread (d g k q : Nat) : Statement (.sigwaitReread d g k q) := rfl
theorem joinEntryExecute (d core : Nat) : Statement (.joinEntryExecute d core) := rfl
theorem batchComplete (d core : Nat) : Statement (.batchComplete d core) := rfl
theorem joinFreeze (d core : Nat) : Statement (.joinFreeze d core) := rfl
theorem macqGrant (d core : Nat) : Statement (.macqGrant d core) := rfl
theorem barRelease (d g : Nat) : Statement (.barRelease d g) := rfl
theorem gsyncRelease (d g : Nat) : Statement (.gsyncRelease d g) := rfl
theorem regangJoin (d g k : Nat) : Statement (.regangJoin d g k) := rfl
theorem vadd (o : OpsR) : Statement (.vadd o) := ⟨rfl, rfl⟩
theorem vsub (o : OpsR) : Statement (.vsub o) := ⟨rfl, rfl⟩
theorem vmul (o : OpsR) : Statement (.vmul o) := ⟨rfl, rfl⟩
theorem vmulhi (o : OpsR) : Statement (.vmulhi o) := ⟨rfl, rfl⟩
theorem vmad (o : OpsR) : Statement (.vmad o) := ⟨rfl, rfl⟩
theorem vneg (o : OpsR) : Statement (.vneg o) := ⟨rfl, rfl⟩
theorem vabs (o : OpsR) : Statement (.vabs o) := ⟨rfl, rfl⟩
theorem vmin (o : OpsR) : Statement (.vmin o) := ⟨rfl, rfl⟩
theorem vmax (o : OpsR) : Statement (.vmax o) := ⟨rfl, rfl⟩
theorem vand (o : OpsR) : Statement (.vand o) := ⟨rfl, rfl⟩
theorem vor (o : OpsR) : Statement (.vor o) := ⟨rfl, rfl⟩
theorem vxor (o : OpsR) : Statement (.vxor o) := ⟨rfl, rfl⟩
theorem vnot (o : OpsR) : Statement (.vnot o) := ⟨rfl, rfl⟩
theorem vshl (o : OpsR) : Statement (.vshl o) := ⟨rfl, rfl⟩
theorem vshr (o : OpsR) : Statement (.vshr o) := ⟨rfl, rfl⟩
theorem vrot (o : OpsR) : Statement (.vrot o) := ⟨rfl, rfl⟩
theorem vpopc (o : OpsR) : Statement (.vpopc o) := ⟨rfl, rfl⟩
theorem vclz (o : OpsR) : Statement (.vclz o) := ⟨rfl, rfl⟩
theorem vbrev (o : OpsR) : Statement (.vbrev o) := ⟨rfl, rfl⟩
theorem vbfx (o : OpsR) : Statement (.vbfx o) := ⟨rfl, rfl⟩
theorem vbfi (o : OpsR) : Statement (.vbfi o) := ⟨rfl, rfl⟩
theorem vcmp (o : OpsR) : Statement (.vcmp o) := ⟨rfl, rfl⟩
theorem vsel (o : OpsR) : Statement (.vsel o) := ⟨rfl, rfl⟩
theorem vmov (o : OpsR) : Statement (.vmov o) := ⟨rfl, rfl⟩
theorem vmovi (o : OpsR) : Statement (.vmovi o) := ⟨rfl, rfl⟩
theorem vdot4 (o : OpsR) : Statement (.vdot4 o) := ⟨rfl, rfl⟩
theorem vdot8 (o : OpsR) : Statement (.vdot8 o) := ⟨rfl, rfl⟩
theorem vlea (o : OpsR) : Statement (.vlea o) := ⟨rfl, rfl⟩
theorem vfadd (o : OpsR) : Statement (.vfadd o) := ⟨rfl, rfl⟩
theorem vfsub (o : OpsR) : Statement (.vfsub o) := ⟨rfl, rfl⟩
theorem vfmul (o : OpsR) : Statement (.vfmul o) := ⟨rfl, rfl⟩
theorem vffma (o : OpsR) : Statement (.vffma o) := ⟨rfl, rfl⟩
theorem vfmin (o : OpsR) : Statement (.vfmin o) := ⟨rfl, rfl⟩
theorem vfmax (o : OpsR) : Statement (.vfmax o) := ⟨rfl, rfl⟩
theorem vfcmp (o : OpsR) : Statement (.vfcmp o) := ⟨rfl, rfl⟩
theorem vfrcp (o : OpsR) : Statement (.vfrcp o) := ⟨rfl, rfl⟩
theorem vfrsq (o : OpsR) : Statement (.vfrsq o) := ⟨rfl, rfl⟩
theorem vfsqrt (o : OpsR) : Statement (.vfsqrt o) := ⟨rfl, rfl⟩
theorem vfexp2 (o : OpsR) : Statement (.vfexp2 o) := ⟨rfl, rfl⟩
theorem vflog2 (o : OpsR) : Statement (.vflog2 o) := ⟨rfl, rfl⟩
theorem vfclass (o : OpsR) : Statement (.vfclass o) := ⟨rfl, rfl⟩
theorem vfdiv (o : OpsR) : Statement (.vfdiv o) := ⟨rfl, rfl⟩
theorem sadd (o : OpsR) : Statement (.sadd o) := ⟨rfl, rfl⟩
theorem ssub (o : OpsR) : Statement (.ssub o) := ⟨rfl, rfl⟩
theorem smul (o : OpsR) : Statement (.smul o) := ⟨rfl, rfl⟩
theorem sand (o : OpsR) : Statement (.sand o) := ⟨rfl, rfl⟩
theorem sor (o : OpsR) : Statement (.sor o) := ⟨rfl, rfl⟩
theorem sxor (o : OpsR) : Statement (.sxor o) := ⟨rfl, rfl⟩
theorem sshl (o : OpsR) : Statement (.sshl o) := ⟨rfl, rfl⟩
theorem sshr (o : OpsR) : Statement (.sshr o) := ⟨rfl, rfl⟩
theorem scmp (o : OpsR) : Statement (.scmp o) := ⟨rfl, rfl⟩
theorem smov (o : OpsR) : Statement (.smov o) := ⟨rfl, rfl⟩
theorem smovi (o : OpsR) : Statement (.smovi o) := ⟨rfl, rfl⟩
theorem ssel (o : OpsR) : Statement (.ssel o) := ⟨rfl, rfl⟩
theorem vcvt (o : OpsR) : Statement (.vcvt o) := ⟨rfl, rfl⟩
theorem vfcvti (o : OpsR) : Statement (.vfcvti o) := ⟨rfl, rfl⟩
theorem vicvtf (o : OpsR) : Statement (.vicvtf o) := ⟨rfl, rfl⟩
theorem vpack (o : OpsR) : Statement (.vpack o) := ⟨rfl, rfl⟩
theorem vunpk (o : OpsR) : Statement (.vunpk o) := ⟨rfl, rfl⟩
theorem vplx (o : OpsR) : Statement (.vplx o) := ⟨rfl, rfl⟩
theorem vpli (o : OpsR) : Statement (.vpli o) := ⟨rfl, rfl⟩
theorem vsplit6 (o : OpsR) : Statement (.vsplit6 o) := ⟨rfl, rfl⟩
theorem vjoin6 (o : OpsR) : Statement (.vjoin6 o) := ⟨rfl, rfl⟩
theorem sfmt (o : OpsR) : Statement (.sfmt o) := ⟨rfl, rfl⟩
theorem ifMask (o : OpsC) : Statement (.ifMask o) := ⟨rfl, rfl⟩
theorem elseMask (o : OpsC) : Statement (.elseMask o) := ⟨rfl, rfl⟩
theorem endif (o : OpsC) : Statement (.endif o) := ⟨rfl, rfl⟩
theorem loop (o : OpsC) : Statement (.loop o) := ⟨rfl, rfl⟩
theorem brk (o : OpsC) : Statement (.brk o) := ⟨rfl, rfl⟩
theorem cont (o : OpsC) : Statement (.cont o) := ⟨rfl, rfl⟩
theorem endloop (o : OpsC) : Statement (.endloop o) := ⟨rfl, rfl⟩
theorem regang (o : OpsC) : Statement (.regang o) := ⟨rfl, rfl⟩
theorem jmp (o : OpsC) : Statement (.jmp o) := ⟨rfl, rfl⟩
theorem bra (o : OpsC) : Statement (.bra o) := ⟨rfl, rfl⟩
theorem call (o : OpsC) : Statement (.call o) := ⟨rfl, rfl⟩
theorem ret (o : OpsC) : Statement (.ret o) := ⟨rfl, rfl⟩
theorem rep (o : OpsC) : Statement (.rep o) := ⟨rfl, rfl⟩
theorem exit (o : OpsC) : Statement (.exit o) := ⟨rfl, rfl⟩
theorem yield (o : OpsC) : Statement (.yield o) := ⟨rfl, rfl⟩
theorem nop (o : OpsC) : Statement (.nop o) := ⟨rfl, rfl⟩
theorem bar (o : OpsC) : Statement (.bar o) := ⟨rfl, rfl⟩
theorem gsync (o : OpsC) : Statement (.gsync o) := ⟨rfl, rfl⟩
theorem vshfl (o : OpsR) : Statement (.vshfl o) := ⟨rfl, rfl⟩
theorem vvote (o : OpsR) : Statement (.vvote o) := ⟨rfl, rfl⟩
theorem vred (o : OpsR) : Statement (.vred o) := ⟨rfl, rfl⟩
theorem vscan (o : OpsR) : Statement (.vscan o) := ⟨rfl, rfl⟩
theorem vmatch (o : OpsR) : Statement (.vmatch o) := ⟨rfl, rfl⟩
theorem vconf (o : OpsR) : Statement (.vconf o) := ⟨rfl, rfl⟩
theorem vquad (o : OpsR) : Statement (.vquad o) := ⟨rfl, rfl⟩
theorem vsegred (o : OpsR) : Statement (.vsegred o) := ⟨rfl, rfl⟩
theorem pbind (o : OpsR) : Statement (.pbind o) := ⟨rfl, rfl⟩
theorem pcnt (o : OpsR) : Statement (.pcnt o) := ⟨rfl, rfl⟩
theorem pflush (o : OpsR) : Statement (.pflush o) := ⟨rfl, rfl⟩
theorem xwin (o : OpsR) : Statement (.xwin o) := ⟨rfl, rfl⟩
theorem ld (o : OpsM) : Statement (.ld o) := ⟨rfl, rfl⟩
theorem st (o : OpsM) : Statement (.st o) := ⟨rfl, rfl⟩
theorem atom (o : OpsM) : Statement (.atom o) := ⟨rfl, rfl⟩
theorem wset (o : OpsE) : Statement (.wset o) := ⟨rfl, rfl⟩
theorem copy (o : OpsE) : Statement (.copy o) := ⟨rfl, rfl⟩
theorem gath (o : OpsE) : Statement (.gath o) := ⟨rfl, rfl⟩
theorem scat (o : OpsE) : Statement (.scat o) := ⟨rfl, rfl⟩
theorem ratom (o : OpsE) : Statement (.ratom o) := ⟨rfl, rfl⟩
theorem coll (o : OpsE) : Statement (.coll o) := ⟨rfl, rfl⟩
theorem wait (o : OpsE) : Statement (.wait o) := ⟨rfl, rfl⟩
theorem publish (o : OpsE) : Statement (.publish o) := ⟨rfl, rfl⟩
theorem fence (o : OpsE) : Statement (.fence o) := ⟨rfl, rfl⟩
theorem sigadd (o : OpsE) : Statement (.sigadd o) := ⟨rfl, rfl⟩
theorem sigwait (o : OpsE) : Statement (.sigwait o) := ⟨rfl, rfl⟩
theorem launch (o : OpsE) : Statement (.launch o) := ⟨rfl, rfl⟩
theorem nres (o : OpsE) : Statement (.nres o) := ⟨rfl, rfl⟩
theorem nhand (o : OpsE) : Statement (.nhand o) := ⟨rfl, rfl⟩
theorem macq (o : OpsE) : Statement (.macq o) := ⟨rfl, rfl⟩
theorem mrel (o : OpsE) : Statement (.mrel o) := ⟨rfl, rfl⟩
theorem tfill (o : OpsE) : Statement (.tfill o) := ⟨rfl, rfl⟩
theorem tzero (o : OpsE) : Statement (.tzero o) := ⟨rfl, rfl⟩
theorem tstore (o : OpsE) : Statement (.tstore o) := ⟨rfl, rfl⟩
theorem jmm (o : OpsE) : Statement (.jmm o) := ⟨rfl, rfl⟩
theorem jmms (o : OpsE) : Statement (.jmms o) := ⟨rfl, rfl⟩
theorem jstream (o : OpsE) : Statement (.jstream o) := ⟨rfl, rfl⟩
theorem jbatch (o : OpsE) : Statement (.jbatch o) := ⟨rfl, rfl⟩
theorem jwait (o : OpsE) : Statement (.jwait o) := ⟨rfl, rfl⟩
theorem copen (o : OpsE) : Statement (.copen o) := ⟨rfl, rfl⟩
theorem cacc (o : OpsE) : Statement (.cacc o) := ⟨rfl, rfl⟩
theorem cprobe (o : OpsE) : Statement (.cprobe o) := ⟨rfl, rfl⟩
theorem cdrain (o : OpsE) : Statement (.cdrain o) := ⟨rfl, rfl⟩
theorem cclose (o : OpsE) : Statement (.cclose o) := ⟨rfl, rfl⟩
theorem cstat (o : OpsE) : Statement (.cstat o) := ⟨rfl, rfl⟩
theorem tsave (o : OpsE) : Statement (.tsave o) := ⟨rfl, rfl⟩
theorem tload (o : OpsE) : Statement (.tload o) := ⟨rfl, rfl⟩
theorem csave (o : OpsE) : Statement (.csave o) := ⟨rfl, rfl⟩
theorem cload (o : OpsE) : Statement (.cload o) := ⟨rfl, rfl⟩
theorem trap (o : OpsS) : Statement (.trap o) := ⟨rfl, rfl⟩
theorem rfe (o : OpsS) : Statement (.rfe o) := ⟨rfl, rfl⟩
theorem sysrd (o : OpsS) : Statement (.sysrd o) := ⟨rfl, rfl⟩
theorem syswr (o : OpsS) : Statement (.syswr o) := ⟨rfl, rfl⟩
theorem fltrd (o : OpsS) : Statement (.fltrd o) := ⟨rfl, rfl⟩
theorem unpark (o : OpsS) : Statement (.unpark o) := ⟨rfl, rfl⟩
theorem pmap (o : OpsS) : Statement (.pmap o) := ⟨rfl, rfl⟩
theorem tlbinv (o : OpsS) : Statement (.tlbinv o) := ⟨rfl, rfl⟩
theorem gsave (o : OpsS) : Statement (.gsave o) := ⟨rfl, rfl⟩
theorem gload (o : OpsS) : Statement (.gload o) := ⟨rfl, rfl⟩
theorem jfrz (o : OpsS) : Statement (.jfrz o) := ⟨rfl, rfl⟩
theorem halt (o : OpsS) : Statement (.halt o) := ⟨rfl, rfl⟩
theorem brkpt (o : OpsS) : Statement (.brkpt o) := ⟨rfl, rfl⟩
theorem exportSlotFill (d slot base len rights : Nat) : Statement (.exportSlotFill d slot base len rights) := rfl
theorem exportRevoke (d slot : Nat) : Statement (.exportRevoke d slot) := rfl

end Sys2Proof.Laws.BuildsBack
end

