-- ==== Sys2Proof/Laws/Encoding.lean ====
section
/-!
SUPPORT. Laws of the encoding, one for each kind of field: cutting and joining fields, registers, permutations,
sources, descriptors, A-operands, types and signed numbers, each in both directions.
-/
namespace Sys2Proof

/-! ### Fields of a word -/

theorem joinFields_splitFields (ns : List Nat) (w : Nat) (h : w < 2 ^ ns.sum) :
    joinFields ns (splitFields ns w) = w := by
  induction ns generalizing w with
  | nil =>
    have : w = 0 := by simpa using h
    simp [joinFields, this]
  | cons n ns ih =>
    simp only [splitFields, joinFields, List.sum_cons, Nat.pow_add] at h ⊢
    rw [ih _ (Nat.div_lt_of_lt_mul h), Nat.mod_mod, Nat.mod_add_div]

/-- Fields that fit their widths come back. -/
theorem splitFields_joinFields (ns fs : List Nat) (hl : fs.length = ns.length)
    (h : ∀ p ∈ ns.zip fs, p.2 < 2 ^ p.1) : splitFields ns (joinFields ns fs) = fs := by
  induction ns generalizing fs with
  | nil => cases fs with
    | nil => rfl
    | cons => simp at hl
  | cons n ns ih =>
    cases fs with
    | nil => simp at hl
    | cons f fs =>
      simp only [List.zip_cons_cons, List.forall_mem_cons] at h
      have hf : f % 2 ^ n = f := Nat.mod_eq_of_lt h.1
      have hp : 0 < 2 ^ n := Nat.two_pow_pos n
      simp only [joinFields, splitFields, hf]
      rw [Nat.add_mul_mod_self_left, hf, Nat.add_mul_div_left _ _ hp, Nat.div_eq_of_lt h.1, Nat.zero_add,
        ih fs (by simpa using hl) h.2]

/-- Joined fields fit the sum of their widths. -/
theorem joinFields_lt (ns fs : List Nat) : joinFields ns fs < 2 ^ ns.sum := by
  induction ns generalizing fs with
  | nil => simp [joinFields]
  | cons n ns ih =>
    cases fs with
    | nil => exact Nat.two_pow_pos _
    | cons f fs =>
      simp only [joinFields, List.sum_cons, Nat.pow_add]
      have h1 := Nat.mod_lt f (Nat.two_pow_pos n)
      have h2 := Nat.mul_le_mul_left (2 ^ n) (Nat.succ_le_of_lt (ih fs))
      rw [Nat.mul_succ] at h2
      omega

/-! ### Types -/

@[simp] theorem tyOf_code (t : Ty) : tyOf t.code = t := by cases t <;> rfl

theorem Ty.code_lt (t : Ty) : t.code < 16 := by cases t <;> decide

theorem code_tyOf (n : Nat) (h : n < 16) : (tyOf n).code = n := by
  have : ∀ n < 16, (tyOf n).code = n := by decide
  exact this n h

/-! ### Registers -/

theorem Reg.code_lt {r : Reg} (h : r.wf = true) : r.code < 1024 := by
  cases r <;> simp only [Reg.wf, Reg.code, decide_eq_true_eq, Bool.and_eq_true, Bool.or_eq_true] at h ⊢ <;> try omega
  case con c => cases c <;> decide
  case port p => cases p <;> decide

theorem regOf_code {r : Reg} (h : r.wf = true) : regOf r.code = r := by
  have low : ∀ m < 728, ∀ r, (m < 576 → Reg.v m = r) → (¬m < 576 → m < 624 → Reg.o (m - 576) = r) →
      (¬m < 624 → m < 640 → Reg.t (m - 624) = r) → (¬m < 640 → m < 704 → Reg.s (m - 640) = r) →
      (¬m < 704 → m < 712 → Reg.x (m - 704) = r) → (¬m < 712 → m < 720 → Reg.p (m - 712) = r) →
      (¬m < 720 → Reg.g (m - 720) = r) → regOf m = r := by
    intro m hm r h1 h2 h3 h4 h5 h6 h7
    unfold regOf
    repeat' split
    all_goals first | omega | (apply_assumption <;> omega)
  cases r with
  | v n | o n | t n | s n | x n | p n | g n =>
    replace h := of_decide_eq_true h
    apply low <;> intros <;> simp only [Reg.code] at * <;> first | omega | exact congrArg _ (by omega)
  | con c => cases c <;> rfl
  | port p => cases p <;> rfl
  | hs n =>
    have : ∀ n < 8, regOf (744 + n) = .hs n := by decide
    exact this n (by simpa [Reg.wf] using h)
  | hv n =>
    have : ∀ n < 8, regOf (752 + n) = .hv n := by decide
    exact this n (by simpa [Reg.wf] using h)
  | idx k c =>
    have : ∀ k < 8, ∀ c < 32, regOf (768 + 32 * k + c) = .idx k c := by decide
    simp only [Reg.wf, Bool.and_eq_true, decide_eq_true_eq] at h
    exact this k h.1 c h.2
  | resv n =>
    simp only [Reg.wf, Bool.or_eq_true, Bool.and_eq_true, decide_eq_true_eq] at h
    have : ∀ n < 8, regOf (760 + n) = .resv (760 + n) := by decide
    simp only [Reg.code]
    rcases h with ((rfl | rfl) | rfl) | h
    · rfl
    · rfl
    · rfl
    · have := this (n - 760) (by omega)
      rwa [show 760 + (n - 760) = n by omega] at this

set_option maxRecDepth 8000 in
/-- Every code names a register that gives it back. -/
theorem regOf_wf_code (n : Nat) (h : n < 1024) : (regOf n).wf = true ∧ (regOf n).code = n := by
  by_cases h1 : n < 728
  · simp only [regOf]
    repeat' split
    all_goals simp only [Reg.wf, Reg.code, decide_eq_true_eq, and_true]
    all_goals omega
  · have : ∀ m < 296, (regOf (728 + m)).wf = true ∧ (regOf (728 + m)).code = 728 + m := by decide
    have := this (n - 728) (by omega)
    rwa [show 728 + (n - 728) = n by omega] at this

/-! ### Permutations and sources -/

theorem permOf_code {p : Perm} (h : p.wf = true) : permOf p.code = p := by
  have : ∀ n < 32, permOf (Perm.rot n).code = .rot n ∧ permOf (Perm.bc n).code = .bc n ∧
      permOf (Perm.bf n).code = .bf n ∧ permOf (Perm.mi n).code = .mi n := by decide
  cases p <;> simp only [Perm.wf, decide_eq_true_eq] at h
  · exact (this _ h).1
  · exact (this _ h).2.1
  · exact (this _ h).2.2.1
  · exact (this _ h).2.2.2

theorem Perm.code_lt {p : Perm} (h : p.wf = true) : p.code < 128 := by
  cases p <;> simp only [Perm.wf, decide_eq_true_eq] at h <;> simp only [Perm.code] <;> omega

theorem permOf_wf_code (n : Nat) (h : n < 128) : (permOf n).wf = true ∧ (permOf n).code = n := by
  have : ∀ n < 128, (permOf n).wf = true ∧ (permOf n).code = n := by decide
  exact this n h

theorem Src.field_lt {s : Src} (h : s.wf = true) : s.field < 131072 := by
  cases s with
  | reg r p =>
    simp only [Src.wf, Bool.and_eq_true] at h
    have := Reg.code_lt h.1.1.1
    have := Perm.code_lt h.1.1.2
    simp only [Src.field]
    omega
  | idx k c =>
    simp only [Src.wf, Bool.and_eq_true, decide_eq_true_eq] at h
    simp only [Src.field]
    omega
  | imm v => exact Nat.zero_lt_succ _

/-- A source register's field comes back, where its permutation bits are read. -/
theorem srcOf_field {s : Src} (h : s.wf = true) (hi : ∀ v, s ≠ .imm v) : srcOf true s.field = s := by
  cases s with
  | imm v => exact absurd rfl (hi v)
  | idx k c =>
    have key : ∀ k < 8, ∀ c < 128, srcOf true (Src.idx k c).field = .idx k c := by decide
    simp only [Src.wf, Bool.and_eq_true, decide_eq_true_eq] at h
    exact key k h.1 c h.2
  | reg r p =>
    simp only [Src.wf, Bool.and_eq_true, Bool.or_eq_true, decide_eq_true_eq] at h
    obtain ⟨⟨⟨hr, hpw⟩, hperm⟩, hidx⟩ := h
    have hc := Reg.code_lt hr
    have e1 : (Src.reg r p).field % 1024 = r.code := by simp only [Src.field]; omega
    have e2 : (Src.reg r p).field / 1024 = p.code := by simp only [Src.field]; omega
    have key : (if r.permutes true then permOf p.code else .rot 0) = p := by
      by_cases hq : r.permutes true = true
      · rw [if_pos hq, permOf_code hpw]
      · rw [if_neg hq]
        exact (hperm.resolve_right hq).symm
    simp only [srcOf, e1, e2, regOf_code hr]
    cases r <;> simp_all

/-! ### Descriptors and A-operands -/

theorem descOf_field {d : Desc} {opx : Bool} (h : d.wf opx = true) : descOf d.field = d := by
  cases d with
  | record id =>
    simp only [Desc.wf, decide_eq_true_eq] at h
    rw [show (Desc.record id).field = 65536 + id from rfl, descOf]
    rw [if_pos (by omega)]
    congr 1
    omega
  | reg x r =>
    simp only [Desc.wf, Bool.and_eq_true] at h
    have hc := Reg.code_lt h.2
    have hx : x < 16 := by
      have := h.1
      split at this <;> simp_all
    rw [show (Desc.reg x r).field = 1024 * x + r.code from rfl, descOf]
    rw [if_neg (by omega), if_pos (by omega), show (1024 * x + r.code) / 1024 = x by omega,
      show (1024 * x + r.code) % 1024 = r.code by omega, regOf_code h.2]
  | win n r =>
    simp only [Desc.wf, Bool.and_eq_true, decide_eq_true_eq] at h
    have hc := Reg.code_lt h.2
    rw [show (Desc.win n r).field = 16384 + 2048 * n + r.code from rfl, descOf]
    rw [if_neg (by omega), if_neg (by omega), if_pos (by omega),
      show (16384 + 2048 * n + r.code) / 2048 % 8 = n by omega,
      show (16384 + 2048 * n + r.code) % 1024 = r.code by omega, regOf_code h.2]
  | tile n =>
    simp only [Desc.wf, decide_eq_true_eq] at h
    rw [show (Desc.tile n).field = 32768 + 1024 * n from rfl, descOf]
    rw [if_neg (by omega), if_neg (by omega), if_neg (by omega), if_pos (by omega)]
    congr 1
    omega
  | imm v =>
    simp only [Desc.wf, decide_eq_true_eq] at h
    rw [show (Desc.imm v).field = 49152 + v from rfl, descOf]
    rw [if_neg (by omega), if_neg (by omega), if_neg (by omega), if_neg (by omega)]
    congr 1
    omega

theorem Desc.field_lt {d : Desc} {opx : Bool} (h : d.wf opx = true) : d.field < 131072 := by
  cases d with
  | record id => simp only [Desc.wf, decide_eq_true_eq] at h; simp only [Desc.field]; omega
  | reg x r =>
    simp only [Desc.wf, Bool.and_eq_true] at h
    have hc := Reg.code_lt h.2
    have hx : x < 16 := by
      have := h.1
      split at this <;> simp_all
    simp only [Desc.field]; omega
  | win n r =>
    simp only [Desc.wf, Bool.and_eq_true, decide_eq_true_eq] at h
    have hc := Reg.code_lt h.2
    simp only [Desc.field]; omega
  | tile n => simp only [Desc.wf, decide_eq_true_eq] at h; simp only [Desc.field]; omega
  | imm v => simp only [Desc.wf, decide_eq_true_eq] at h; simp only [Desc.field]; omega

theorem aOpdOf_field {a : AOpd} (h : a.wf = true) : aOpdOf a.field = a := by
  cases a with
  | reg r =>
    have hc := Reg.code_lt (r := r) h
    rw [show (AOpd.reg r).field = r.code from rfl, aOpdOf]
    rw [if_neg (by omega), Nat.mod_eq_of_lt hc, regOf_code h]
  | imm v =>
    simp only [AOpd.wf, decide_eq_true_eq] at h
    rw [show (AOpd.imm v).field = 65536 + v from rfl, aOpdOf]
    rw [if_pos (by omega)]
    congr 1
    omega

theorem AOpd.field_lt {a : AOpd} (h : a.wf = true) : a.field < 131072 := by
  cases a with
  | reg r => have hc := Reg.code_lt (r := r) h; simp only [AOpd.field]; omega
  | imm v => simp only [AOpd.wf, decide_eq_true_eq] at h; simp only [AOpd.field]; omega

/-! ### Signed numbers and immediates -/

theorem signedOf_bitsOf_32 (v : Int) (h0 : -2147483648 ≤ v) (h1 : v < 2147483648) : signedOf 32 (bitsOf 32 v) = v := by
  unfold signedOf bitsOf
  split <;> omega

theorem signedOf_bitsOf_17 (v : Int) (h0 : -65536 ≤ v) (h1 : v < 65536) : signedOf 17 (bitsOf 17 v) = v := by
  unfold signedOf bitsOf
  split <;> omega

theorem bitsOf_lt (n : Nat) (v : Int) : bitsOf n v < 2 ^ n := by
  have hp : ((2 ^ n : Nat) : Int) = 2 ^ n := by simp
  have h0 : (0 : Int) < 2 ^ n := by rw [← hp]; exact Int.ofNat_lt.mpr (Nat.two_pow_pos n)
  have h1 := Int.emod_lt_of_pos v h0
  simp only [bitsOf]
  omega

/-- A 32-bit immediate spread over two source fields comes back (R209). -/
theorem immFields_join (v : Nat) (h : v < 4294967296) :
    ((immFields v).1 + 131072 * (immFields v).2) % 4294967296 = v ∧ (immFields v).1 < 131072 ∧
      (immFields v).2 < 131072 := by
  simp only [immFields]
  omega

/-! ### Whole words -/

/-- The fields fit their widths (R206). -/
def Raw.fits (r : Raw) : Prop :=
  r.dest < 1024 ∧ r.a < 131072 ∧ r.b < 131072 ∧ r.c < 131072 ∧ r.h.pred < 8 ∧ r.h.stall < 8 ∧
  r.m.variant < 8 ∧ r.m.flags < 8 ∧ r.opcode < 512 ∧ r.format < 8

/-- A word has 96 bits (R206). -/
theorem Raw.word_lt (r : Raw) : r.word < 2 ^ 96 := joinFields_lt fieldWidths _

/-- Fields that fit are read back from their word. -/
theorem Raw.of_word {r : Raw} (h : r.fits) : Raw.of r.word = some r := by
  obtain ⟨h1,h2,h3,h4,h5,h6,h7,h8,h9,h10⟩ := h
  have hb : ∀ b : Bool, b.toNat < 2 := by decide
  have ht := r.m.ty.code_lt
  have key : splitFields fieldWidths r.word = [r.dest, r.a, r.b, r.c, r.h.pred, r.h.neg.toNat, r.h.stall,
      r.h.yh.toNat, r.h.nh.toNat, 0, r.m.ty.code, r.m.variant, r.m.flags, r.opcode, r.format, 0] := by
    refine splitFields_joinFields _ _ rfl ?_
    simp only [fieldWidths, List.zip_cons_cons, List.forall_mem_cons, List.zip_nil_left]
    simp
    have := hb r.h.neg; have := hb r.h.yh; have := hb r.h.nh
    omega
  unfold Raw.of
  rw [key]
  · obtain ⟨d,a,b,c,⟨p,n,st,y,nh⟩,⟨ty,v,f⟩,op,fm⟩ := r
    simp

/-- The fields of well-formed operands fit. -/
theorem fits_fieldsOf {op : Nat} {ops : Ops} (hs : shapeOf op = some ops.shape) (h : fieldsOk op ops = true) :
    (fieldsOf op ops).fits := by
  have hop : op < 512 := by
    unfold shapeOf at hs
    repeat' split at hs
    all_goals first | omega | simp at hs
  cases ops with
  | r o =>
    simp only [fieldsOk, Bool.and_eq_true, Head.wf, Mods.wf, decide_eq_true_eq, srcsOk] at h
    obtain ⟨⟨⟨⟨hp,hst⟩,_⟩,hv,hf⟩,⟨⟨⟨⟨ha,hb⟩,hc⟩,_⟩,hd⟩,_⟩ := h
    have := Reg.code_lt hd
    have := Src.field_lt ha
    have := Src.field_lt hb
    have := Src.field_lt hc
    simp only [fieldsOf, Raw.fits]
    refine ⟨by omega, by omega, ?_, ?_, by omega, by omega, by omega, by omega, by omega, ?_⟩
    · split
      · rename_i v _; have := v.isLt; simp only [immFields]; omega
      · omega
    · split
      · rename_i v _; have := v.isLt; simp only [immFields]; omega
      · omega
    · generalize Option.isSome _ = b
      cases b <;> decide
  | c o =>
    simp only [fieldsOk, Bool.and_eq_true, Head.wf, Mods.wf, decide_eq_true_eq] at h
    obtain ⟨⟨⟨⟨⟨⟨hp,hst⟩,_⟩,hv,hf⟩,ha⟩,_⟩,_⟩ := h
    have := AOpd.field_lt ha
    have := bitsOf_lt 32 o.off
    simp only [fieldsOf, Raw.fits, immFields]
    omega
  | m o =>
    simp only [fieldsOk, Bool.and_eq_true, Head.wf, Mods.wf, decide_eq_true_eq] at h
    obtain ⟨⟨⟨⟨⟨⟨⟨⟨⟨⟨⟨hp, hst⟩, _⟩, hv, hf⟩, hd⟩, hw⟩, hr⟩, hdt⟩, _⟩, hx⟩, _⟩, _⟩ := h
    have := Reg.code_lt hd
    have := Reg.code_lt hr
    have := Reg.code_lt hdt
    have := bitsOf_lt 17 o.disp
    have : o.opx < 16 := by split at hx <;> simp_all
    simp only [fieldsOf, Raw.fits]
    omega
  | e o =>
    simp only [fieldsOk, Bool.and_eq_true, Head.wf, Mods.wf, decide_eq_true_eq] at h
    obtain ⟨⟨⟨⟨⟨⟨⟨⟨⟨hp,hst⟩,_⟩,hv,hf⟩,hd⟩,_⟩,ha⟩,hb⟩,hc⟩,_⟩ := h
    have := Reg.code_lt hd
    have := Desc.field_lt ha
    have := Desc.field_lt hb
    have := Desc.field_lt hc
    simp only [fieldsOf, Raw.fits]
    omega
  | s o =>
    simp only [fieldsOk, Bool.and_eq_true, Head.wf, Mods.wf, decide_eq_true_eq] at h
    obtain ⟨⟨⟨⟨⟨⟨⟨⟨⟨⟨hp,hst⟩,_⟩,hv,hf⟩,hd⟩,ha⟩,hb⟩,_⟩,_⟩,hc⟩,_⟩ := h
    have := Reg.code_lt hd
    have := AOpd.field_lt ha
    have := Reg.code_lt hb
    have := o.imm.isLt
    have : o.c.code < 1024 := by rw [hc]; decide
    simp only [fieldsOf]
    split <;> simp only [Raw.fits, immFields] <;> omega


/-- The operands of an RRR or RRI word whose first source is no immediate come back from its fields. -/
theorem operandsOf_fieldsOf_r {op : Nat} {h : Head} {m : Mods} {d : Reg} {a b c : Src} (hna : ∀ v, a ≠ .imm v)
    (hm : srcsOk op ⟨h, m, d, a, b, c⟩ = true) :
    operandsOf true (fieldsOf op (.r ⟨h, m, d, a, b, c⟩)) .r = .r ⟨h, m, d, a, b, c⟩ := by
  simp only [srcsOk, Bool.and_eq_true] at hm
  obtain ⟨⟨⟨⟨⟨ha, hb⟩, hc⟩, hu⟩, hd⟩, hm⟩ := hm
  have hdd : (if (formR op m.variant).dest = true then regOf d.code else .v 0) = d := by
    rw [regOf_code hd]
    simp only [Bool.or_eq_true, decide_eq_true_eq] at hu
    rcases hu with hu | hu <;> simp [hu]
  by_cases hbi : ∃ v, b = .imm v
  · obtain ⟨v, rfl⟩ := hbi
    have hm2 : (((immAtA op m.variant = false ∧ (immUsed op = true ∨ v = 0)) ∧
        ((formR op m.variant).n ≠ 0 ∨ a = Src.zero)) ∧ c = Src.zero) ∧ formatOk op 1 = true := by
      cases a with
      | imm w => exact absurd rfl (hna w)
      | _ => simpa only [Bool.and_eq_true, Bool.or_eq_true, Bool.not_eq_true', decide_eq_true_eq] using hm
    obtain ⟨⟨⟨⟨h1, h2⟩, h3⟩, h5⟩, h6⟩ := hm2
    have e : fieldsOf op (.r ⟨h, m, d, a, .imm v, c⟩) = ⟨d.code, a.field, (immFields v.toNat).1, (immFields v.toNat).2, h, m, op, 1⟩ := by
      cases a with
      | imm w => exact absurd rfl (hna w)
      | reg r p => rfl
      | idx k co => rfl
    have e2 : BitVec.ofNat 32 (Raw.imm ⟨d.code, a.field, (immFields v.toNat).1, (immFields v.toNat).2, h, m, op, 1⟩) = v := by
      rw [Raw.imm, (immFields_join _ v.isLt).1]; simp
    have hs := srcOf_field ha hna
    have e3 : (if 1 ≤ (formR op m.variant).n then a else Src.zero) = a := by
      split
      · rfl
      · rename_i hn
        rcases h3 with h3 | h3
        · omega
        · exact h3.symm
    have e4 : (if immUsed op = true then v else 0) = v := by
      rcases h2 with h2 | h2 <;> simp [h2]
    rw [e]
    simp only [operandsOf, e2, hs, h1]
    simp [h5, hdd, e3]
    exact fun hv => (by simpa [hv] using e4)
  · have hbi' : ∀ v, b ≠ .imm v := fun v hv => hbi ⟨v, hv⟩
    have hci' : ∀ v, c ≠ .imm v := by
      intro v hv
      subst hv
      cases a with
      | imm w => exact hna w rfl
      | _ => cases b <;> simp_all
    have hm2 : ((formatOk op 0 = true ∧ (1 ≤ (formR op m.variant).n ∨ a = Src.zero)) ∧
        (2 ≤ (formR op m.variant).n ∨ b = Src.zero)) ∧ (3 ≤ (formR op m.variant).n ∨ c = Src.zero) := by
      cases a with
      | imm w => exact absurd rfl (hna w)
      | _ => cases b <;> cases c <;> simp_all
    obtain ⟨⟨⟨h1, h2⟩, h3⟩, h4⟩ := hm2
    have e : fieldsOf op (.r ⟨h, m, d, a, b, c⟩) = ⟨d.code, a.field, b.field, c.field, h, m, op, 0⟩ := by
      cases a with
      | imm w => exact absurd rfl (hna w)
      | _ => cases b <;> simp_all [fieldsOf]
    have ha' := srcOf_field ha hna
    have hb' := srcOf_field hb hbi'
    have hc' := srcOf_field hc hci'
    have sel : ∀ (n k : Nat) (x : Src), (n ≤ k ∨ x = Src.zero) → (if n ≤ k then x else Src.zero) = x := by
      intro n k x hx
      split
      · rfl
      · rcases hx with hx | hx
        · contradiction
        · exact hx.symm
    rw [e]
    simp only [operandsOf, ha', hb', hc', sel _ _ _ h2, sel _ _ _ h3]
    simp [hdd, sel _ _ _ h4]

/-- Well-formed operands come back from their fields. -/
theorem operandsOf_fieldsOf {op : Nat} {ops : Ops} (h : fieldsOk op ops = true) (hk : kindsOk op ops = true) :
    operandsOf true (fieldsOf op ops) ops.shape = ops ∧ (fieldsOf op ops).opcode = op := by
  cases ops with
  | r o =>
    refine ⟨?_, rfl⟩
    simp only [fieldsOk, Bool.and_eq_true] at h
    obtain ⟨_, hs0⟩ := h
    obtain ⟨h, m, d, a, b, c⟩ := o
    have hm := hs0
    simp only [srcsOk, Bool.and_eq_true] at hm
    obtain ⟨⟨⟨⟨⟨ha, hb⟩, hc⟩, hu⟩, hd⟩, hm⟩ := hm
    simp only at *
    have hdd : (if (formR op m.variant).dest = true then regOf d.code else .v 0) = d := by
      rw [regOf_code hd]
      simp only [Bool.or_eq_true, decide_eq_true_eq] at hu
      rcases hu with hu | hu <;> simp [hu]
    cases a with
    | imm v =>
      simp only [Bool.and_eq_true, decide_eq_true_eq] at hm
      obtain ⟨⟨⟨h1, h2⟩, h3⟩, h4⟩ := hm
      have e : fieldsOf op (.r ⟨h, m, d, .imm v, b, c⟩) = ⟨d.code, 0, (immFields v.toNat).1, (immFields v.toNat).2, h, m, op, 1⟩ := rfl
      have e2 : BitVec.ofNat 32 (Raw.imm ⟨d.code, 0, (immFields v.toNat).1, (immFields v.toNat).2, h, m, op, 1⟩) = v := by
        rw [Raw.imm, (immFields_join _ v.isLt).1]; simp
      rw [e]
      simp only [operandsOf, Ops.shape, e2]
      simp [h1, h2, h3, hdd]
    | idx k co => exact operandsOf_fieldsOf_r (by simp) hs0
    | reg r p => exact operandsOf_fieldsOf_r (by simp) hs0
  | c o =>
    refine ⟨?_, rfl⟩
    simp only [fieldsOk, Bool.and_eq_true] at h
    obtain ⟨⟨⟨⟨h1,hv⟩,ha⟩,hoff⟩,hy⟩ := h
    simp only [kindsOk] at hk
    show Ops.c _ = _
    refine congrArg Ops.c ?_
    show (OpsC.mk _ _ (match aOpdOf o.a.field with
           | .imm v => if (formC op o.m.variant).1 = .none then AOpd.reg (.v 0)
               else .imm (if op = 0x0CE then v % 4096 else v)
           | x => if (formC op o.m.variant).1 = .none then .reg (.v 0) else x) _) = _
    rw [aOpdOf_field ha]
    have hoff2 : (if (formC op o.m.variant).2 = true then
        signedOf 32 (Raw.imm ⟨0, o.a.field, (immFields (bitsOf 32 o.off)).1, (immFields (bitsOf 32 o.off)).2, o.h, o.m, op, 2⟩) else 0) = o.off := by
      split
      · rename_i hu
        rw [if_pos hu] at hoff
        simp only [Bool.and_eq_true, decide_eq_true_eq] at hoff
        rw [Raw.imm, (immFields_join _ (bitsOf_lt 32 _)).1]
        exact signedOf_bitsOf_32 _ hoff.1 hoff.2
      · rename_i hu
        rw [if_neg hu] at hoff
        simpa using (of_decide_eq_true hoff).symm
    refine Eq.trans (congrArg (OpsC.mk o.h o.m _) hoff2) ?_
    have ha2 : (match o.a with
           | .imm v => if (formC op o.m.variant).1 = .none then AOpd.reg (.v 0)
               else .imm (if op = 0x0CE then v % 4096 else v)
           | x => if (formC op o.m.variant).1 = .none then .reg (.v 0) else x) = o.a := by
      cases hoa : o.a with
      | imm v =>
        rw [hoa] at hk hy ha
        have hn : (formC op o.m.variant).1 ≠ .none := by
          intro hu
          rw [hu] at hk
          simp [UseA.ok] at hk
        simp only [hn, if_false]
        congr 1
        by_cases hop : op = 0x0CE
        · rw [if_pos hop]
          simp [hop] at hy
          exact Nat.mod_eq_of_lt hy
        · rw [if_neg hop]
      | reg r =>
        rw [hoa] at hk
        by_cases hu : (formC op o.m.variant).1 = .none
        · simp only [hu, if_true]
          rw [hu] at hk
          unfold UseA.ok at hk
          split at hk <;> simp_all
        · simp only [hu, if_false]
    rw [ha2]
  | m o =>
    refine ⟨?_, rfl⟩
    simp only [fieldsOk, Bool.and_eq_true, Bool.or_eq_true, decide_eq_true_eq] at h
    obtain ⟨⟨⟨⟨⟨⟨⟨⟨⟨hp,hv⟩,hd⟩,hw⟩,hr⟩,hdt⟩,hds⟩,hx⟩,hu⟩,hu2⟩ := h
    have c1 := Reg.code_lt hd
    have c2 := Reg.code_lt hr
    have c3 := Reg.code_lt hdt
    simp only [operandsOf, Ops.shape, fieldsOf]
    rw [signedOf_bitsOf_17 _ hds.1 hds.2]
    rw [show (16384 + 2048 * o.win + o.roff.code) / 2048 % 8 = o.win by omega,
      show (16384 + 2048 * o.win + o.roff.code) % 1024 = o.roff.code by omega, regOf_code hr,
      show (1024 * o.opx + o.data.code) % 1024 = o.data.code by omega, regOf_code hdt, regOf_code hd]
    congr 1
    cases o
    simp only at *
    congr 1
    · rcases hu with hu | hu <;> simp [hu]
    · split at hx <;> simp_all <;> omega
    · rcases hu2 with hu | hu <;> simp [hu]
  | e o =>
    refine ⟨?_, rfl⟩
    simp only [fieldsOk, Bool.and_eq_true, Bool.or_eq_true, decide_eq_true_eq] at h
    obtain ⟨⟨⟨⟨⟨⟨⟨hp,hv⟩,hd⟩,hu⟩,ha⟩,hb⟩,hc⟩,hi⟩ := h
    simp only [kindsOk, Bool.and_eq_true, placeOk] at hk
    obtain ⟨⟨ka,kb⟩,kc⟩ := hk
    simp only [operandsOf, Ops.shape, fieldsOf, regOf_code hd, descOf_field ha, descOf_field hb, descOf_field hc]
    congr 1
    obtain ⟨h,m,d,a,b,c⟩ := o
    simp only at *
    have take : ∀ (ks : List Kind) (x : Desc), (if ks.isEmpty = true then decide (x = Desc.zero) else ks.contains x.kind) = true →
        (if ks.isEmpty = true then Desc.zero else x) = x := by
      intro ks x hh; split at hh <;> simp_all
    rw [take _ _ ka, take _ _ kb, take _ _ kc]
    congr 1
    · rcases hu with hu | hu <;> simp [hu]
    · cases a <;> simp [Desc.wf] at ha hi ⊢
      · exact ha.1.symm
      · by_cases hop : op = 329 <;> simp [hop] at hi ⊢; exact hi
    · cases b <;> simp [Desc.wf] at hb ⊢
      exact hb.1.symm
    · split
      · rfl
      · rename_i hop
        cases c <;> simp [Desc.wf, hop] at hc ⊢
        exact hc.1.symm
  | s o =>
    simp only [fieldsOk, Bool.and_eq_true, Bool.or_eq_true, decide_eq_true_eq] at h
    obtain ⟨⟨⟨⟨⟨⟨⟨⟨hp,hv⟩,hd⟩,ha⟩,hb⟩,hu⟩,hu2⟩,hc⟩,hi⟩ := h
    simp only [kindsOk] at hk
    have hbc := Reg.code_lt hb
    by_cases hop : op = 0x1C0
    · subst hop
      refine ⟨?_, by simp [fieldsOf]⟩
      replace hu : o.d = .v 0 := by simpa [formS] using hu
      replace hu2 : o.b = .v 0 := by simpa [formS] using hu2
      replace hk : o.a = .reg (.v 0) := by
        simp only [formS] at hk
        unfold UseA.ok at hk
        split at hk <;> simp_all
      obtain ⟨h, m, d, a, b, c, imm⟩ := o
      simp only at hu hu2 hc hk
      subst hu hu2 hc hk
      have e : ∀ m, fieldsOf 0x1C0 (.s ⟨h, m, .v 0, .reg (.v 0), .v 0, .v 0, imm⟩) = 
         ⟨0, 0, (immFields imm.toNat).1, (immFields imm.toNat).2, h, m, 0x1C0, 5⟩ := fun _ => rfl
      rw [e]
      have e2 : BitVec.ofNat 32 (Raw.imm ⟨0, 0, (immFields imm.toNat).1, (immFields imm.toNat).2, h, m, 0x1C0, 5⟩) = imm := by
        rw [Raw.imm, (immFields_join _ imm.isLt).1]; simp
      show Ops.s (OpsS.mk _ _ _ _ _ _ (BitVec.ofNat 32 (Raw.imm _))) = _
      rw [e2]
      rfl
    · refine ⟨?_, by simp [fieldsOf, hop]⟩
      have e : fieldsOf op (.s o) = ⟨o.d.code, o.a.field, o.b.code, o.c.code, o.h, o.m, op, 5⟩ := by
        simp [fieldsOf, hop]
      rw [e]
      obtain ⟨h, m, d, a, b, c, imm⟩ := o
      simp only at *
      show Ops.s (OpsS.mk _ _ (if (formS op m.variant).1 = true then regOf d.code else .v 0)
        (if (formS op m.variant).2.1 = .none then .reg (.v 0) else aOpdOf a.field)
        (if (formS op m.variant).2.2 = true then regOf (b.code % 1024) else .v 0) (.v 0) (if op = 0x1C0 then _ else 0)) = _
      rw [regOf_code hd, aOpdOf_field ha, Nat.mod_eq_of_lt hbc, regOf_code hb, if_neg hop]
      have i1 : (if (formS op m.variant).1 = true then d else .v 0) = d := by
        rcases hu with hu | hu <;> simp [hu]
      have i2 : (if (formS op m.variant).2.2 = true then b else .v 0) = b := by
        rcases hu2 with hu | hu <;> simp [hu]
      have i3 : (if (formS op m.variant).2.1 = .none then AOpd.reg (.v 0) else a) = a := by
        split
        · rename_i hu
          rw [hu] at hk
          unfold UseA.ok at hk
          split at hk <;> simp_all
        · rfl
      have i4 : imm = 0 := by rcases hi with hi | hi; exact absurd hi hop; exact hi
      rw [i1, i2, i3, hc, i4]
/-- The fields of a word join to it again. -/
theorem Raw.word_of {w : Nat} {r : Raw} (h : Raw.of w = some r) (hw : w < 2 ^ 96) : r.word = w := by
  have back := joinFields_splitFields fieldWidths w (by simpa [fieldWidths] using hw)
  have hlt : ∀ f ∈ (splitFields fieldWidths w)[5]?, f < 2 := by
    simp [splitFields, fieldWidths]; omega
  have hlt7 : ∀ f ∈ (splitFields fieldWidths w)[7]?, f < 2 := by
    simp [splitFields, fieldWidths]; omega
  have hlt8 : ∀ f ∈ (splitFields fieldWidths w)[8]?, f < 2 := by
    simp [splitFields, fieldWidths]; omega
  have hty : ∀ f ∈ (splitFields fieldWidths w)[10]?, f < 16 := by
    simp [splitFields, fieldWidths]; omega
  unfold Raw.of at h
  split at h
  · rename_i heq
    rw [heq] at back hlt hlt7 hlt8 hty
    cases h
    have b1 : ∀ n < 2, (decide (n = 1)).toNat = n := by decide
    unfold Raw.word
    simp only [List.getElem?_cons_succ, List.getElem?_cons_zero, Option.mem_def, Option.some.injEq,
      forall_eq'] at hlt hlt7 hlt8 hty
    simp only [b1 _ hlt, b1 _ hlt7, b1 _ hlt8, code_tyOf _ hty]
    exact back
  · cases h

/-- The instruction built from an opcode and operands has them. -/
theorem opcodeAndOps_buildInstr {op : Nat} {ops : Ops} {i : Instr} (h : buildInstr op ops = some i) :
    opcodeAndOps i = some (op, ops) := by
  cases ops with
  | r o =>
    replace h : buildR op o = some i := h
    unfold buildR at h
    split at h <;> first | (cases h; rfl) | cases h
  | c o =>
    replace h : buildC op o = some i := h
    unfold buildC at h
    split at h <;> first | (cases h; rfl) | cases h
  | m o =>
    replace h : buildM op o = some i := h
    unfold buildM at h
    split at h <;> first | (cases h; rfl) | cases h
  | e o =>
    replace h : buildE op o = some i := h
    unfold buildE at h
    split at h <;> first | (cases h; rfl) | cases h
  | s o =>
    replace h : buildS op o = some i := h
    unfold buildS at h
    split at h <;> first | (cases h; rfl) | cases h

/-- The format of well-formed operands is one that their opcode takes (R209, R221). -/
theorem formatOk_fieldsOf {op : Nat} {ops : Ops} (hs : shapeOf op = some ops.shape) (h : fieldsOk op ops = true) :
    formatOk op (fieldsOf op ops).format = true := by
  cases ops with
  | r o =>
    simp only [fieldsOk, Bool.and_eq_true, srcsOk] at h
    obtain ⟨h, m, d, a, b, c⟩ := o
    have hm := h.2.2
    cases a <;> cases b <;> cases c <;> simp_all [fieldsOf]
  | c o => unfold formatOk; rw [hs]; rfl
  | m o => unfold formatOk; rw [hs]; rfl
  | e o => unfold formatOk; rw [hs]; rfl
  | s o =>
    have hf : (fieldsOf op (.s o)).format = 5 := by
      simp only [fieldsOf]
      split <;> rfl
    unfold formatOk
    rw [hs, hf]
    rfl

end Sys2Proof
end

