-- ==== Sys2Proof/Laws/Join.lean ====
section
/-!
SUPPORT. What a join or cabinet instruction of the owner does at issue (R168, R290, R291): it waits, or it answers what
its checks say.
-/
namespace Sys2Proof.Machine

theorem Core.loadQueued_iff (j : Core) :
    j.loadQueued = true ↔ ∃ e ∈ j.queue, ∃ rid r e0, e.op = JoinOp.cload rid r e0 := by
  rw [Core.loadQueued, List.any_eq_true]
  constructor
  · rintro ⟨e, he, h⟩
    refine ⟨e, he, ?_⟩
    split at h
    · exact ⟨_, _, _, by assumption⟩
    · cases h
  · rintro ⟨e, he, a, b, d, h⟩
    exact ⟨e, he, by rw [h]⟩

/-- Legal registers have legal codes. -/
theorem wordRegFault_none {k : Gang} {regs : Nat} {sup : Bool} {op : Nat} {ops : Ops}
    (h : regFault k regs sup op ops = none) : wordRegFault regs sup op ops = none := by
  rw [regFault] at h
  rw [List.findSome?_eq_none_iff] at h
  rw [wordRegFault]
  have hx : extraRegFault regs op ops = none := by simpa using h (extraRegFault regs op ops) (by simp)
  rw [hx]
  simp only [Option.filter_none, ite_self, Option.orElse_eq_orElse]
  rw [show ∀ o : Option Nat, (o.orElse fun _ => none) = o by intro o; cases o <;> rfl, List.findSome?_eq_none_iff]
  intro p hp
  have hm : posFault k regs sup p ∈ (positions op ops).map (posFault k regs sup) := List.mem_map_of_mem hp
  rw [← List.take_append_drop (extraPlace op) ((positions op ops).map _), List.mem_append] at hm
  have h0 : posFault k regs sup p = none := by
    have := h (posFault k regs sup p) (by
      simp only [List.mem_append]
      exact hm.elim (fun x => .inl (.inl x)) .inr)
    simpa using this
  unfold posFault at h0
  revert h0
  cases codeFault regs sup p
  · intro h0
    by_cases hu : p.unwritable = true
    · simp only [hu, if_true] at h0
      repeat' split at h0
      all_goals simp_all
    · simp [hu]
  · simp

/-- Whether a join instruction acts: some lane is active, or it is of the lane class, which runs with none too (R200, R288). -/
abbrev joinActs (c : Cx) (op : Nat) : Prop := c.em ≠ 0 ∨ laneJoin op = true

/-- The owner of the engine meets no cause before its own. -/
theorem joinCause_none {s : State} {op : Nat} {o : OpsE} {c : Cx} (h : readyCx s op (.e o) o.h = some c)
    (ho : joinActs c op → c.jcore.owner = some (c.gid, c.gi)) : c.joinCause op o = none := by
  have hr := readyCx_regCause h
  have hw : wordRegFault c.grp.regs c.sup op (.e o) = none := by
    obtain ⟨_, _, _, _, _, _, _, _, hreg, _⟩ := readyCx_iff h
    exact wordRegFault_none hreg
  have h1 : ((c.em ≠ 0 || laneJoin op) && !c.owns) = false := by
    by_cases he : joinActs c op
    · simp [Cx.owns, ho he]
    · have h0 : c.em = 0 := by
        by_cases h0 : c.em = 0
        · exact h0
        · exact absurd (.inl h0) he
      have h2 : laneJoin op = false := by
        by_cases h2 : laneJoin op = true
        · exact absurd (.inr h2) he
        · simpa using h2
      simp [h0, h2]
  simp only [Cx.joinCause, hw, hr, h1]
  rfl

/-- An instruction of the owner runs its body; with no executing lane one that acts for the gang is skipped. -/
theorem joinOp_ready {s : State} {op : Nat} {o : OpsE} {c : Cx} {body : Cx → Option Cx}
    (h : readyCx s op (.e o) o.h = some c) (ho : joinActs c op → c.jcore.owner = some (c.gid, c.gi)) :
    joinOp op o s body = if joinActs c op then
      match body c with
      | none => .next s
      | some c => .next c.finished
      else .next c.finished := by
  unfold joinOp
  rw [issueChecked_ready h (by rw [joinCause_none h ho]; rfl)]
  by_cases he : joinActs c op
  · have h1 : (decide (c.em = 0) && !laneJoin op) = false := by
      rcases he with he | he
      · rw [decide_eq_false he]; rfl
      · simp [he]
    simp only [if_pos he, h1, Bool.false_eq_true, if_false]
    all_goals (cases body c <;> rfl)
  · have h1 : (decide (c.em = 0) && !laneJoin op) = true := by
      simp only [not_or, ne_eq, Decidable.not_not, Bool.not_eq_true] at he
      simp [he.1, he.2]
    simp only [if_neg he, h1, if_true]

/-- What the checks of a queued instruction answer, carried out on state `s`; with the engine frozen it may have to wait for
accesses of the gang's commands. -/
def JFate.outcome (s : State) (x : Cx × JFate) : Host.Outcome State Fault Refusal :=
  match x with
  | (c, .trap cause v) => .next (c.trapQuads cause v).finished
  | (c, .park r) => .next (c.park ((lowest c.em).getD 0) r).finished
  | (c, .run op dest) =>
    let c := c.ahead op dest
    let e := c.entry op dest
    if c.jcore.frozen then
      if joinWaits c.s c.dn c.gid c.gi e (joinReach c.s c.dn c.jcore.session e) then .next s
      else .next (c.atOnce e).finished
    else .next (c.onCore fun j => { j with queue := j.queue ++ [e] }).finished

/-- What a queued instruction waits for at issue. -/
def queueWaits (c : Cx) (direct : Bool) : Prop :=
  acquirePending c.s c.dn c.gid c.gi = true ∨ (c.jcore.frozen = true ∧ direct = false) ∨
    (c.jcore.frozen = false ∧ (c.jcore.freezeAsked = true ∨ 16 ≤ c.jcore.queue.length ∨
      ∃ e ∈ c.jcore.queue, ∃ rid r e0, e.op = JoinOp.cload rid r e0))

variable {s : State} {op : Nat} {o : OpsE} {c : Cx} {direct : Bool} {check : Cx → Cx × JFate}

theorem queuedOp_waits (h : readyCx s op (.e o) o.h = some c) (he : joinActs c op)
    (ho : c.jcore.owner = some (c.gid, c.gi)) (hw : queueWaits c direct) : queuedOp op o direct s check = .next s := by
  unfold queuedOp
  rw [joinOp_ready h fun _ => ho, if_pos he]
  dsimp only
  have hl := Core.loadQueued_iff c.jcore
  rcases hw with h1 | ⟨h1, h2⟩ | ⟨h1, h2⟩
  · simp [h1]
  · by_cases ha : acquirePending c.s c.dn c.gid c.gi = true
    · simp [ha]
    · simp [ha, h1, h2]
  · by_cases ha : acquirePending c.s c.dn c.gid c.gi = true
    · simp [ha]
    · rw [← hl] at h2
      have h3 : (c.jcore.freezeAsked || decide (16 ≤ c.jcore.queue.length) || c.jcore.loadQueued) = true := by
        rcases h2 with h2 | h2 | h2 <;> simp [h2]
      simp [ha, h1, h3]

theorem queuedOp_goes (h : readyCx s op (.e o) o.h = some c) (he : joinActs c op)
    (ho : c.jcore.owner = some (c.gid, c.gi)) (hw : ¬ queueWaits c direct) :
    queuedOp op o direct s check = JFate.outcome s (check c) := by
  unfold queuedOp
  rw [joinOp_ready h fun _ => ho, if_pos he]
  dsimp only
  rw [queueWaits, ← Core.loadQueued_iff] at hw
  simp only [not_or, not_and, Bool.not_eq_true, Nat.not_le] at hw
  obtain ⟨h1, h2, h3⟩ := hw
  have hb : ((!c.jcore.frozen) && (c.jcore.freezeAsked || decide (16 ≤ c.jcore.queue.length) || c.jcore.loadQueued)) =
      false := by
    cases hf : c.jcore.frozen
    · obtain ⟨h4, h5, h6⟩ := h3 hf
      simp [h4, h6, Nat.not_le.mpr h5]
    · simp
  have ha : (c.jcore.frozen && !direct) = false := by
    cases hf : c.jcore.frozen
    · simp
    · simp [h2 hf]
  simp only [h1, ha, hb, Bool.false_eq_true, if_false]
  unfold JFate.outcome
  rcases check c with ⟨c', x⟩
  cases x with
  | trap => rfl
  | park => rfl
  | run jop dest =>
    dsimp only
    cases (c'.ahead jop dest).jcore.frozen
    · rfl
    · simp only [if_true]
      generalize joinWaits _ _ _ _ _ _ = b
      cases b <;> rfl

end Sys2Proof.Machine
end

