-- ==== Sys2Proof/Laws/Links.lean ====
section
/-!
SUPPORT. What the operations of a link can do: sending, receiving and freeing a buffer leave every compute die as it is, and
a cell that stands first on an idle link is accepted where it is whole and in order.
-/
namespace Sys2Proof.Machine

@[simp] theorem transmit_dies (s : State) (a b : Nat) (l : LinkDir) (c : Cell) : (transmit s a b l c).dies = s.dies := by
  unfold transmit
  dsimp only
  cases portEnd b with
  | none => rfl
  | some p => dsimp only; split <;> rfl

@[simp] theorem pump_dies (a b n : Nat) (s : State) : (pump a b n s).dies = s.dies := by
  induction n generalizing s with
  | zero => rfl
  | succ n ih =>
    unfold pump
    split
    · rfl
    · split
      · rfl
      · split
        · rfl
        · rw [ih, transmit_dies]

@[simp] theorem enqueue_dies (s : State) (a b : Nat) (c : Cell) : (enqueue s a b c).dies = s.dies := by simp [enqueue]
@[simp] theorem sendCell_dies (s : State) (a : Nat) (c : Cell) : (sendCell s a c).dies = s.dies := by simp [sendCell]
@[simp] theorem sendNak_dies (s : State) (a b n : Nat) : (sendNak s a b n).dies = s.dies := by simp [sendNak]
@[simp] theorem resend_dies (s : State) (a b n : Nat) : (resend s a b n).dies = s.dies := rfl
@[simp] theorem freeBuffer_dies (s : State) (a b : Nat) (c : Cell) : (freeBuffer s a b c).dies = s.dies := rfl

@[simp] theorem takeAck_dies (s : State) (a b : Nat) (c : Cell) : (takeAck s a b c).dies = s.dies := by
  unfold takeAck
  dsimp only
  rw [pump_dies]
  split
  · rfl
  · split
    · rfl
    · split <;> split <;> rfl

@[simp] theorem accept_dies (s : State) (a b : Nat) (c : Cell) : (accept s a b c).dies = s.dies := by
  unfold accept
  dsimp only
  rw [takeAck_dies]
  split <;> rfl

@[simp] theorem discard_dies (s : State) (a b : Nat) (c : Cell) (w t : Bool) : (discard s a b c w t).dies = s.dies := by
  unfold discard
  dsimp only
  split
  · split <;> split <;> (try split) <;> rfl
  · split
    · split <;> split <;> (try split) <;> rfl
    · simp only [sendNak_dies, State.onLink_dies]
      split <;> split <;> (try split) <;> rfl

/-- Receiving a cell changes no compute die. -/
@[simp] theorem receive_dies (s : State) (a b : Nat) (damage : Bool) : (receive s a b damage).2.dies = s.dies := by
  unfold receive
  split
  · rfl
  · split
    · rfl
    · split
      · rfl
      · dsimp only
        split <;> simp

@[simp] theorem receive_die (s : State) (a b n : Nat) (damage : Bool) : (receive s a b damage).2.die n = s.die n := by
  simp [State.die]
@[simp] theorem freeBuffer_die (s : State) (a b n : Nat) (c : Cell) : (freeBuffer s a b c).die n = s.die n := rfl

/-- A cell is accepted where it stands first on an idle link between dies, whole and in order. -/
theorem receive_whole (s : State) (src dst : Nat) (c : Cell) (w : List Cell) (hp : portEnd src = none)
    (hl : s.link src dst = some { LinkDir.fresh with wire := c :: w }) (hh : s.linkHeld src dst = false)
    (hc : c.intact = true) (hs : c.seq = 0) : (receive s src dst false).1 = some c := by
  simp [receive, hl, hh, hc, hs, LinkDir.fresh, tagOk, hp]

/-- A cell as `mkCell` makes it, once sealed, passes the checks on its own content. -/
theorem intact_sealed (src dst vc type tag : Nat) (pay : List Byte) (body : CellBody)
    (h : (typesOnVc vc).contains type = true) : ((mkCell src dst vc type tag pay body).sealed).intact = true := by
  simp only [Cell.intact, Cell.sealed, Cell.header, mkCell]
  simpa using h

end Sys2Proof.Machine
end

