-- ==== Sys2Proof/Laws/Masks.lean ====
section
/-!
SUPPORT. The bits of masks of lanes.
-/
namespace Sys2Proof.Machine

/-- The lanes are the numbers below 32. -/
@[simp] theorem mem_laneList (l : Nat) : l ∈ laneList ↔ l < 32 := by
  rw [show laneList = List.range 32 from rfl, List.mem_range]

/-- A lane of a mask that a test builds. -/
@[simp] theorem maskOf_getLsbD (f : Nat → Bool) (i : Nat) : (maskOf f).getLsbD i = (decide (i < 32) && f i) := by
  have gen : ∀ (l : List Nat), (∀ x ∈ l, x < 32) → ∀ m : Word,
      (l.foldl (fun m l => if f l then m ||| BitVec.ofNat 32 (2 ^ l) else m) m).getLsbD i =
        (m.getLsbD i || (decide (i ∈ l) && f i)) := by
    intro l
    induction l with
    | nil => simp
    | cons x l ih =>
      intro hl m
      rw [List.foldl_cons, ih fun y hy => hl y (List.mem_cons_of_mem _ hy)]
      have hx := hl x (List.mem_cons_self ..)
      by_cases hf : f x
      · simp only [hf, if_true, BitVec.getLsbD_or, BitVec.getLsbD_ofNat, Nat.testBit_two_pow]
        by_cases hxi : x = i
        · subst hxi; simp [hx, hf]
        · have : ¬ i = x := fun h => hxi h.symm
          simp [hxi, this]
      · simp only [hf, Bool.false_eq_true, if_false]
        by_cases hxi : i = x
        · subst hxi; simp [hf]
        · simp [hxi]
  rw [maskOf, gen laneList (by decide)]
  simp

/-- The bits of quad `q` in a mask. -/
@[simp] theorem quadBits_getLsbD (m : Word) (q i : Nat) :
    (quadBits m q).getLsbD i = (decide (i < 4) && m.getLsbD (4 * q + i)) := by
  simp [quadBits]

/-- The bits of a quad's mask in the gang. -/
@[simp] theorem spread_getLsbD (b : BitVec 4) (q i : Nat) :
    (spread b q).getLsbD i = (decide (i < 32) && decide (4 * q ≤ i) && b.getLsbD (i - 4 * q)) := by
  simp only [spread, BitVec.getLsbD_shiftLeft, BitVec.getLsbD_setWidth]
  by_cases h : i < 4 * q
  · simp [h, Nat.not_le.mpr h]
  · have h' : 4 * q ≤ i := Nat.le_of_not_lt h
    by_cases h2 : i < 32
    · have : i - 4 * q < 32 := by omega
      simp [h', h2, this, Nat.not_lt.mpr h']
    · simp [h2]

theorem inMask_iff (m : Word) (l : Nat) : inMask m l = m.getLsbD l := rfl

/-- The lanes of some quads. -/
theorem quadLanes_getLsbD (qs : List Nat) (i : Nat) :
    (quadLanes qs).getLsbD i = (decide (i < 32) && decide (i / 4 ∈ qs)) := by
  have gen : ∀ (l : List Nat) (m : Word), (l.foldl (fun m q => m ||| spread 0xF q) m).getLsbD i =
      (m.getLsbD i || (decide (i < 32) && decide (i / 4 ∈ l))) := by
    intro l
    induction l with
    | nil => simp
    | cons q l ih =>
      intro m
      rw [List.foldl_cons, ih]
      have hb : (spread 0xF q).getLsbD i = (decide (i < 32) && decide (i / 4 = q)) := by
        rw [spread_getLsbD]
        have h15 : ∀ j, (0xF : BitVec 4).getLsbD j = decide (j < 4) := by
          intro j
          by_cases hj : j < 4
          · have : j = 0 ∨ j = 1 ∨ j = 2 ∨ j = 3 := by omega
            rcases this with rfl | rfl | rfl | rfl <;> rfl
          · simp [hj, BitVec.getLsbD_of_ge _ _ (Nat.le_of_not_lt hj)]
        rw [h15]
        by_cases h : i / 4 = q
        · have h1 : 4 * q ≤ i := by omega
          have h2 : i - 4 * q < 4 := by omega
          simp [h, h1, h2]
        · have : ¬ (4 * q ≤ i ∧ i - 4 * q < 4) := by omega
          by_cases h1 : 4 * q ≤ i
          · have h2 : ¬ i - 4 * q < 4 := fun h2 => this ⟨h1, h2⟩
            simp [h, h1, h2]
          · simp [h, h1]
      rw [BitVec.getLsbD_or, hb, Bool.or_assoc, ← Bool.and_or_distrib_left]
      congr 2
      simp
  rw [quadLanes, gen]
  simp

/-- The lanes of a mask are those whose bit is set. -/
theorem mem_lanesOf (m : Word) (l : Nat) : l ∈ lanesOf m ↔ l < 32 ∧ m.getLsbD l = true := by
  simp [lanesOf, inMask_iff, and_comm]

end Sys2Proof.Machine
end

