-- ==== Sys2Proof/Tests/Slice0.lean ====
section
/-!
SUPPORT. Tests: ill-formed terms that each check of WellFormed refuses, words written out from the encodings of the
spec, one step of small states, and a witness for the hypotheses of every statement.
-/
namespace Sys2Proof.Tests
open Sys2Proof Sys2Proof.Machine

section Closed
set_option Elab.async false

/-! ### Ill-formed terms -/

/-- An unguarded head. -/
def h0 : Head := ⟨7, false, 0, false, false⟩
/-- No modifiers. -/
def m0 : Mods := ⟨.i32, 0, 0⟩
/-- The zero source. -/
def z0 : Src := .reg (.v 0) (.rot 0)
/-- A plain source. -/
def src (r : Reg) : Src := .reg r (.rot 0)

theorem test_wf_vadd : (Instr.vadd ⟨h0, m0, .v 1, src (.v 2), src (.v 3), z0⟩).wf = true := by decide
/-- R126: there is no v576. -/
theorem test_illformed_register : (Instr.vadd ⟨h0, m0, .v 576, src (.v 2), src (.v 3), z0⟩).wf = false := by decide
/-- R213: a permutation stands on v, o, t or hv alone. -/
theorem test_illformed_permutation :
    (Instr.vadd ⟨h0, m0, .v 1, .reg (.s 2) (.rot 1), src (.v 3), z0⟩).wf = false := by decide
/-- R214: the offset of an indexed source is below 128. -/
theorem test_illformed_index : (Instr.vadd ⟨h0, m0, .v 1, .idx 0 128, src (.v 3), z0⟩).wf = false := by decide
/-- R216: PRED 7 with NEG is reserved. -/
theorem test_illformed_guard :
    (Instr.vadd ⟨⟨7, true, 0, false, false⟩, m0, .v 1, src (.v 2), src (.v 3), z0⟩).wf = false := by decide
/-- R217, R229: `vadd` has no floating-point type. -/
theorem test_illformed_type :
    (Instr.vadd ⟨h0, ⟨.f32, 0, 0⟩, .v 1, src (.v 2), src (.v 3), z0⟩).wf = false := by decide
/-- R209: `vadd` uses no third source. -/
theorem test_illformed_unused : (Instr.vadd ⟨h0, m0, .v 1, src (.v 2), src (.v 3), src (.v 1)⟩).wf = false := by decide
/-- R221: `vmad` takes no immediate. -/
theorem test_illformed_format : (Instr.vmad ⟨h0, m0, .v 1, src (.v 2), src (.v 3), .imm 1⟩).wf = false := by decide
/-- R210: an A-operand is 16 bits wide. -/
theorem test_illformed_count : (Instr.rep ⟨h0, m0, .imm 65536, 4⟩).wf = false := by decide
/-- R209: the byte offset of `ld` is 17 bits wide and signed. -/
theorem test_illformed_disp : (Instr.ld ⟨h0, m0, .v 4, 2, .v 5, 65536, 0, .v 0⟩).wf = false := by decide
/-- R212: there are eight windows. -/
theorem test_illformed_window : (Instr.ld ⟨h0, m0, .v 4, 8, .v 5, 0, 0, .v 0⟩).wf = false := by decide
/-- R212, R293: `tzero` takes a tile. -/
theorem test_illformed_kind : (Instr.tzero ⟨h0, m0, .v 0, .record 1, Desc.zero, Desc.zero⟩).wf = false := by decide
/-- R212: a record number is 16 bits wide. -/
theorem test_illformed_record :
    (Instr.publish ⟨h0, ⟨.i32, 0, 2⟩, .v 0, .record 65536, Desc.zero, Desc.zero⟩).wf = false := by decide
/-- R307: `trap` alone of the system instructions has an immediate. -/
theorem test_illformed_immediate : (Instr.halt ⟨h0, m0, .v 0, .reg (.v 0), .v 0, .v 0, 1⟩).wf = false := by decide
/-- R6: there is no die 8. -/
theorem test_illformed_die : (Instr.apfClear 8).wf = false := by decide
/-- R46: there is no queue 64. -/
theorem test_illformed_queue : (Instr.resv 0 64).wf = false := by decide
/-- R39: there are 4,096 export slots. -/
theorem test_illformed_slot : (Instr.exportRevoke 0 4096).wf = false := by decide

/-! ### Small states -/

/-- A group of one gang of 32 lanes on die 0, in user state at PC 0, as `withFetchWord` places it. -/
def bench : State := { State.reset.withFetchWord 96 0 with agenda := [], cur := some ⟨0, 0, 0, 0⟩ }
/-- The bench with its gang changed, its group, its die. -/
def benchG (f : Gang → Gang) : State := bench.onGang 0 0 0 f
def benchP (f : Group → Group) : State := bench.onGroup 0 0 f
def benchD (f : Die → Die) : State := bench.onDie 0 f
/-- Every quad of a gang changed. -/
def allQuads (f : Quad → Quad) (k : Gang) : Gang := { k with quads := k.quads.map f }
/-- The bench with every quad changed, and with every quad in supervisor state. -/
def benchQ (f : Quad → Quad) : State := benchG (allQuads f)
def supS : State := benchQ fun u => { u with sup := true }
/-- Bytes stored at a physical address of die 0; addresses below 2 MiB are mapped onto 0x200000. -/
def poke (s : State) (a : Nat) (bs : List Byte) : State := s.onDie 0 fun d => physWrite d (0x200000 + a) bs
/-- A trap table at 0x1000 whose entries are valid, with every handler at 0x4000. -/
def trapS (s : State) : State :=
  poke (s.onDie 0 fun d => { d with trapbase := 0x1000 }) 0x1000
    ((List.range 17).flatMap fun _ => leBytes 16 0x4001)
/-- A guard of p0, which is false in every lane. -/
def hF : Head := ⟨0, false, 0, false, false⟩
/-- Plain operands. -/
def r3 (ty : Ty) (d a b c : Reg) : OpsR := ⟨h0, ⟨ty, 0, 0⟩, d, src a, src b, src c⟩
def rr : OpsR := r3 .i32 (.v 1) (.v 2) (.v 3) (.v 0)
def rw : OpsR := r3 .i64 (.v 2) (.v 4) (.v 6) (.v 0)
def rf : OpsR := r3 .f32 (.v 1) (.v 2) (.v 3) (.v 0)
def o5 : OpsS := ⟨h0, m0, .v 0, .reg (.v 0), .v 0, .v 0, 0⟩
def oc (off : Int) : OpsC := ⟨h0, m0, .imm 0, off⟩

/-! ### Witnesses: fetching and decoding -/

theorem witness_StepRunsFetchedInstruction :
    (let s := State.reset.withFetchWord 96 0x00080000E000000020101005
     match s.agenda with
     | .issue sg :: r => (openCx { s with agenda := r } sg 0 Head.plain).any fun c => !c.blocked && s.hub.powered &&
        !s.hub.safe && (match memRead { s with agenda := r } sg.die (span (c.pc / 5 * 64) 64) with
         | (.ok block, u) => (placeOf u sg.die (c.pc / 5 * 64)).any (fun x =>
             (translate x.1 (u.die x.1) x.2 false).toOption.isSome && c.grp.code = []) && leNat ((block.drop 60).take 4) = 0 &&
            (match decodeWord c.sup (leNat ((block.drop (12 * (c.pc % 5))).take 12)) with
             | .ok i => (match exec i { u with cur := some sg } with
                | .next t => !t.crossed
                | _ => false)
             | _ => false)
         | _ => false)
     | _ => false) = true := by decide +kernel
theorem witness_UndecodableWordTraps :
    (let s := State.reset.withFetchWord 96 (0x1FF * 2 ^ 83)
     match s.agenda with
     | .issue sg :: r => (openCx { s with agenda := r } sg 0 Head.plain).any fun c => !c.blocked && s.hub.powered &&
        !s.hub.safe && !({ c.enter with out := c.qs.map fun q => (q, .trap 2 1 0) } : Cx).finished.crossed && (match memRead { s with agenda := r } sg.die (span (c.pc / 5 * 64) 64) with
         | (.ok block, u) => (match decodeBlock c.sup block (c.pc % 5) with
            | .error _ => (openCx u sg (wordHead block (c.pc % 5)).2 (wordHead block (c.pc % 5)).1).isSome
            | _ => false)
         | _ => false)
     | _ => false) = true := by decide +kernel
/-- A frame to zero is an internal step; the bench alone has none, and its sub-gang is ready. -/
theorem witness_StepOrder :
    opcodeAndOps (.apfClear 0) = none ∧ needsClock (.frameZeroed 0) = true ∧ needsClock .go = false ∧
    bench.hub.powered = true ∧ bench.hub.safe = false ∧ bench.hasDies = true ∧
    (let s := benchD fun d => { d with fttail := 1 }
     s.agenda = [] && (firstChange s (fun i => run i s) (linkActs s ++ (List.range 8).flatMap (internal s))).isSome) = true ∧
    (bench.agenda = [] &&
      (firstChange bench (fun i => run i bench) (linkActs bench ++ (List.range 8).flatMap (internal bench))).isNone &&
      ((rotated ((List.range 8).flatMap (subGangs bench)) bench.free).find? (ready bench)).isSome) = true := by
  decide +kernel
theorem witness_DecodeEncode : (opcodeAndOps (.vadd rr)).isSome = true ∧ (Instr.vadd rr).wf = true := by decide
theorem witness_EncodeDecode : 0x00080000E000000020101005 < 2 ^ 96 ∧
    (decodeWord true 0x00080000E000000020101005).toOption.isSome = true := by decide
/-- Bits 70, 72 and 95 are the ends of the reserved fields; 0x1FF is an unassigned opcode, and `vmad` takes no
immediate. -/
theorem witness_MalformedWordsRefused :
    leNat ((List.replicate 63 0 ++ [(1 : Byte)]).drop 60 |>.take 4) ≠ 0 ∧
    2 ^ 70 / 2 ^ 70 % 8 ≠ 0 ∧ 2 ^ 72 / 2 ^ 70 % 8 ≠ 0 ∧ 2 ^ 95 / 2 ^ 95 % 2 ≠ 0 ∧ shapeOf 0x1FF = none ∧
    formatOk 0x004 1 = false := by decide

/-! ### Witnesses: traps -/

/-- The context of `trap` on a state with a valid trap table, and in supervisor state, where it is lost. -/
theorem witness_TrapOfQuad :
    ((readyCx (trapS bench) 0x1C0 (.s o5) h0).any fun c =>
      let c := { c with out := [(7, .trap 15 0x2A 0)] }
      7 < c.k.quads.length && FMap.get .adv c.out 7 = .trap 15 0x2A 0 && !(c.k.quad 7).allEnded && !(c.k.quad 7).sup &&
        (handlerPc c.s c.dn 15).1.isSome) = true := by decide +kernel
theorem witness_TrapFaultersAndLoss :
    ((readyCx bench 0x1C0 (.s o5) h0).any fun c =>
      let c := { c with out := [(7, .trap 15 0x2A 0)] }
      quadBits c.em 7 ≠ 0 && !(c.k.quad 7).allEnded && (handlerPc c.s c.dn 15).1.isNone) = true ∧
    ((readyCx bench 0x1C0 (.s { o5 with h := hF }) hF).any fun c => quadBits c.em 7 = 0 && (c.k.quad 7).live ≠ 0) = true ∧
    ((readyCx (benchQ fun u => { u with lmask := 0 }) 0x1C0 (.s o5) h0).any fun c =>
      quadBits c.em 7 = 0 && (c.k.quad 7).live = 0) = true ∧
    ((readyCx (benchQ fun u => { u with ended := 0xF }) 0x1C0 (.s o5) h0).any fun c => (c.k.quad 7).ended = 0xF) = true ∧
    ((readyCx (trapS supS) 0x1C0 (.s o5) h0).any fun c => (c.k.quad 7).sup && !(c.k.quad 7).allEnded) = true := by
  decide +kernel
theorem witness_PrivilegedInstructions :
    ([0x1C1, 0x1C3, 0x1C4, 0x1C5, 0x1C6, 0x1C7, 0x1C8, 0x1C9, 0x1CA, 0x1CB].all fun op =>
      (openCx bench ⟨0, 0, 0, 0⟩ op h0).any fun c => !c.blocked && !c.sup) = true ∧
    ([bench, supS].all fun s => (readyCx s 0x1C0 (.s o5) h0).isSome && (readyCx s 0x1CC (.s o5) h0).isSome &&
      (readyChecked s 0x1C2 (.s o5) h0 fun c => srCause o5.a.number false false c.sup).any fun c => c.em ≠ 0) = true := by
  decide +kernel
theorem witness_RfeReturns :
    ((readyCx supS 0x1C1 (.s o5) h0).any fun c => !c.grp.pre && 7 < c.k.quads.length &&
      (c.k.quad 7).stack.length = (c.k.quad 7).edepth) = true ∧
    ((readyCx (benchQ fun u => { u with sup := true, edepth := 1 }) 0x1C1 (.s o5) h0).any fun c =>
      (c.k.quad 7).stack.length ≠ (c.k.quad 7).edepth) = true ∧
    ([(false, false), (true, false), (true, true)].all fun x =>
      (readyCx ((supS.onGroup 0 0 fun g => { g with pre := true, restore := x.1 }).onGang 0 0 0 fun k =>
        { k with loaded := x.2 }) 0x1C1 (.s o5) h0).any fun c => c.grp.pre && c.sup && c.grp.restore = x.1 && c.k.loaded = x.2) = true ∧
    (readyCx supS 0x1C5 (.s o5) h0).isSome = true := by decide +kernel
theorem witness_HaltLosesGroup : ((readyCx supS 0x1CB (.s o5) h0).any fun c => c.trueQuads.length = 8) = true := by
  decide +kernel
theorem witness_InstructionsNeverStop : (opcodeAndOps (.halt o5)).isSome = true := by decide
/-- A quad in the handler of another is held back; d of an `ratom` that has not completed is interlocked. -/
theorem witness_WaitingInstructions :
    ((openCx (benchQ fun u => { u with barArrived := true }) ⟨0, 0, 0, 0⟩ 0 h0).any fun c => c.blocked) = true ∧
    (let cmd : Cmd := ⟨0, 0, true, 0, 0, 0x47, 0, .publish 1, [], some (Reg.v 2).code, false, 0, false, false, false, [], 0, false, [], ⟨[], [], []⟩⟩
     (issuedCx (benchD fun d => { d with cmds := [(0, cmd)] }) 0 h0).any fun c =>
       regFault c.k c.grp.regs c.sup 0 (.r rr) = none && interlocked c 0 (.r rr) h0) = true := by decide +kernel
/-- hv in user state; with `.regs` 1, v31 is the last register. -/
theorem witness_IllegalRegisterTraps :
    ((issuedCx (benchP fun g => { g with regs := 1 }) 0 h0).any fun c =>
      (regFault c.k c.grp.regs c.sup 0 (.r { rr with d := .hv 0 })).isSome &&
      (regFault c.k c.grp.regs c.sup 0 (.r { rr with a := src (.v 31) })).isNone &&
      (regFault c.k c.grp.regs c.sup 0 (.r { rr with a := src (.v 32) })).isSome) = true ∧
    ((issuedCx (supS.onGroup 0 0 fun g => { g with regs := 1 }) 0x1C4 h0).any fun c => c.sup &&
      (regFault c.k c.grp.regs c.sup 0x1C4 (.s { o5 with d := .v 32 })).isSome) = true := by decide +kernel

/-! ### Witnesses: lane and scalar arithmetic -/

/-- The bench in which a scalar, a gang of two cores, and the queues of a port are set. -/
def withS (n : Nat) (v : Word) : State := benchG fun k => { k with scal := FMap.set 0 k.scal (Reg.s n).code v }
def twoCores : State := benchP fun g =>
  { g with fpw := 2, fph := 1, block := 64, cores := [0, 1], gangs := g.gangs ++ [{ benchGang with core := 1 }]
           homes := g.homes ++ g.homes }
/-- `pbind` of `ke` or `kd` to an operand. -/
def bindTo (p : Port) (b : Src) : OpsR := ⟨h0, m0, .v 0, src (.port p), b, z0⟩

theorem witness_IntegerResults : Ty.i64.code < 8 ∧ Ty.n8.code < 8 ∧ (5 : Int) < Ty.i8.least + 256 ∧
    Ty.i8.int (finishInt .i8 true 128).1 = 127 ∧ Ty.i8.int (finishInt .i8 false 128).1 = -128 := by decide
/-- A field that reaches bit 31, one of no bits, and both neighbours of its ends. -/
theorem witness_ShiftAndFieldResults :
    (insertField 0 0xFFFFFFFF 31 1).getLsbD 31 = true ∧ (insertField 0 0xFFFFFFFF 31 1).getLsbD 30 = false ∧
    insertField 0xF0 0xF 0 0 = 0xF0 ∧ (1 : Word) ≠ 0 ∧ leadingZeros 1 = 31 := by decide +kernel
theorem witness_RoundingModes : 2 ^ 2 ∣ 8 ∧ ¬ 2 ^ 2 ∣ 7 ∧ (roundShift 0 false 6 2).1 = 2 ∧ (roundShift 0 false 2 2).1 = 0 ∧
    (roundShift 2 true 7 2).1 = 2 ∧ (roundShift 3 true 7 2).1 = 1 := by decide +kernel
theorem witness_IntegerInstructions :
    ((List.range 0x1C ++ [0x87, 0x88]).all fun op => (laneReady bench op rr).isSome) = true ∧
    (laneReady bench 0 rw).isSome = true := by decide +kernel
theorem witness_FloatInstructions :
    ((List.range 14).all fun i => (laneReady bench (0x40 + i) rf).isSome) = true := by decide +kernel
/-- Field 3 of 8 bits is the last that a register holds. -/
theorem witness_ConversionInstructions :
    ([0x80, 0x81, 0x82, 0x83, 0x84, 0x85, 0x86].all fun op => (laneReady bench op rr).isSome) = true ∧
    packWidth ⟨.i8, 3, 0⟩ * 3 + packWidth ⟨.i8, 3, 0⟩ = 32 ∧
    ((readyCx bench 0x89 (.r rr) h0).any fun c => (c.prepare 0x89 (.r rr) none).any fun p => p.qs = List.range 8) = true ∧
    fmtOk 0 0xBB384000 = true ∧ fmtOk 0 0 = false ∧ (List.range 8).Nodup := by decide +kernel
theorem witness_ScalarInstructions :
    ((List.range 12).all fun i => [h0, hF].all fun h =>
      (readyCx bench (0x60 + i) (.r { r3 .i32 (.s 1) (.s 2) (.s 3) (if i = 11 then .s 4 else .v 0) with h := h }) h).any
        fun c => decide (c.em = 0) = (h == hF)) = true := by decide +kernel
theorem witness_CrossLaneInstructions :
    ((List.range 8).all fun i => (laneReady bench (0x100 + i) rr).isSome) = true := by decide +kernel
/-- Each answer of `pbind` to a mesh port, at the last gang and beyond it; each of `pbind kd`, at 1,023 and 1,024. -/
theorem witness_PortInstructions :
    ((readyCx bench 0x108 (.r { bindTo .ke (src (.s 1)) with h := hF }) hF).any fun c => c.em = 0) = true ∧
    ((readyCx bench 0x10B (.r ⟨hF, m0, .v 0, src (.x 0), .imm 0, z0⟩) hF).any fun c => c.em = 0) = true ∧
    ([src (.con .ones), .imm 1, .imm 2].all fun b => (readyCx twoCores 0x108 (.r (bindTo .ke b)) h0).any fun c => c.em ≠ 0) =
      true ∧
    ((readyCx twoCores 0x108 (.r (bindTo .ke (.imm 1))) h0).any fun c =>
      (at32 (c.src .i32 false (.imm 1)) 0).toNat < (c.grp.block + 31) / 32 &&
        neighbour c.grp c.k.core .ke = some (c.gangOf 1).core) = true ∧
    ((readyCx bench 0x108 (.r (bindTo .kd (.imm 1024))) h0).any fun c =>
      1024 ≤ (at64 (c.src .n64 true (.imm 1024)) 0).toNat && (kdFaces c 1023).1 && c.k.kdFree = []) = true ∧
    ((readyCx (benchP fun g => { g with cores := [1] }) 0x108 (.r (bindTo .kd (.imm 1023))) h0).any fun c =>
      (at64 (c.src .n64 true (.imm 1023)) 0).toNat < 1024 && !(kdFaces c 1023).1) = true ∧
    ((readyCx (benchG fun k => { k with kdFree := [(0, 3)] }) 0x108 (.r (bindTo .kd (.imm 1023))) h0).any fun c =>
      c.k.kdFree ≠ []) = true ∧
    (laneReady bench 0x109 { rr with a := src (.port .kn) }).isSome = true ∧
    (readyCx bench 0x10A (.r ⟨h0, m0, .v 0, src (.port .le), z0, z0⟩) h0).isSome = true ∧
    ([0x0000023F, 0x00000240, 0x0001023F].all fun v =>
      (readyCx bench 0x10B (.r ⟨h0, m0, .v 0, src (.x 7), .imm v, z0⟩) h0).any fun c => c.em ≠ 0) = true ∧
    ((readyCx bench 0x10B (.r ⟨h0, m0, .v 0, src (.x 7), src (.s 1), src (.s 2)⟩) h0).any fun c => c.em ≠ 0) = true := by
  decide +kernel

/-! ### Witnesses: results, ports and parking -/

/-- The context of an instruction without operands on the bench. -/
def cx (s : State) : Cx := ((readyCx s 0xCF (.c (oc 0)) h0)).getD
  { s := s, dn := 0, gid := 0, gi := 0, sgt := 0, grp := benchGroup, k := benchGang, qs := [], sup := false, pc := 0, op := 0,
    nh := false, act := 0, em := 0, helpers := 0, pops := [], out := [], parks := [] }
theorem witness_LaneResults :
    (let c := cx bench
     c.qs.Nodup ∧ (∀ q ∈ c.qs, q < c.k.quads.length) ∧ c.parks = [] ∧ c.out = [] ∧ c.k.core < c.grp.homes.length ∧
       c.qs = List.range 8 ∧ c.nh = false ∧ c.sup = false) ∧
    (Reg.v 575).wf = true ∧ (Reg.o 47).wf = true ∧ (Reg.x 7).wf = true ∧ (Reg.hv 7).wf = true ∧
    (Reg.v 574).wf = true ∧ (Reg.v 574).oddPair = false ∧ (Reg.v 575).oddPair = true := by decide +kernel
theorem witness_LanePush :
    (let c := cx (twoCores.onGang 0 0 0 fun k => { k with binds := [(1, 1)] })
     c.qs.Nodup ∧ (∀ q ∈ c.qs, q < c.k.quads.length) ∧ c.parks = [] ∧ c.out = [] ∧ c.gi < c.grp.gangs.length ∧
       c.k.binds = [(1, 1)] ∧ 1 < c.grp.gangs.length ∧ pushTarget c.k c.gi .ke 31 = some (1, 5, 31)) ∧ Port.ke ≠ Port.kd := by
  decide +kernel
/-- A pop of an empty queue waits, and with an entry in every lane it goes on; the last entry of a window, and the
place after it. -/
theorem witness_PortsAndIndexes :
    (let o : OpsR := { rr with a := src (.port .kn) }
     let s := benchG fun k => { k with binds := [(0, 0)] }
     (readyCx s 0 (.r o) h0).isSome && (laneReady s 0 o).isNone &&
       (laneReady (s.onGang 0 0 0 fun k => { k with queues := (List.range 32).map fun l => (64 + l, [5]) }) 0 o).isSome) = true ∧
    (let o : OpsR := { rr with a := .idx 0 1 }
     let s := fun (n : Nat) => benchG fun k => { k with xwin := [(0, (0, n))] }
     [1, 2].all fun n => (readyCx (s n) 0 (.r o) h0).any fun c => c.parks = [] &&
       (c.prepare 0 (.r o) none).any fun e => (e.parks = []) = (n = 2)) = true ∧
    opcodeAndOps (.vadd { rr with a := src (.port .kn) }) = some (0, .r { rr with a := src (.port .kn) }) := by decide +kernel
theorem witness_LanesPark :
    (let c := (cx bench).park 31 ⟨4, 0, 0, 31, 0, 0, 7, 0, 7⟩
     let d := (cx supS).park 31 ⟨4, 0, 0, 31, 0, 0, 7, 0, 7⟩
     (c.parks.map (·.1)).Nodup ∧ (∀ e ∈ c.parks, e.1 / 4 < c.k.quads.length) ∧ c.sup = false ∧ c.parks.length = 1 ∧
       d.sup = true ∧ d.parks.length = 1) := by decide +kernel

/-! ### Witnesses: control -/

theorem witness_InstructionEnds :
    (let c := cx bench
     c.qs.Nodup ∧ (∀ q ∈ c.qs, q < c.k.quads.length) ∧ c.parks = [] ∧ c.out = [] ∧ c.qs.length = 8 ∧
       (c.k.quad 7).exited = false ∧ (c.k.quad 7).sgt = c.sgt) := by decide +kernel
/-- A level whose end is met with count 2 and with count 1, and one whose end is not met; `rep` on the bench. -/
theorem witness_CountedLoops :
    (let r : RepLevel := ⟨3, 9⟩
     r.stop ≠ 8 ∧ r.stop = 9 ∧ [(2 : Word), 0, 0].getD 0 0 ≠ 1 ∧ [(1 : Word), 0, 0].getD 0 0 = 1 ∧
       completeBodies [2, 0, 0] [r] 9 = (3, [r], [1, 0, 0]) ∧ completeBodies [1, 0, 0] [r] 9 = (9, [], [0, 0, 0])) ∧
    5 * 2 ^ 50 - 1 < 5 * 2 ^ 50 ∧
    ([2, 257, 1, 258].all fun off => (readyCx bench 0xCC (.c (oc off)) h0).isSome) = true := by decide +kernel
theorem witness_StructuredDivergence :
    ((List.range 7).all fun i => [bench, supS].all fun s =>
      (readyCx s (0xC0 + i) (.c ⟨h0, m0, .reg (.v 1), 4⟩) h0).isSome) = true := by decide +kernel
theorem witness_Transfers :
    ((List.range 4).all fun i => [h0, hF].all fun h =>
      (readyCx bench (0xC8 + i) (.c ⟨h, m0, .reg (.s 2), 4⟩) h).isSome) = true := by decide +kernel
/-- Eight quads exit together; where quad 7 has left the sub-gang, seven do. -/
theorem witness_ExitEndsQuads :
    ((readyCx supS 0xCD (.c (oc 0)) h0).any fun c => c.sup) = true ∧
    ((readyCx bench 0xCD (.c (oc 0)) h0).any fun c => !c.sup && c.qs = c.k.liveQuads) = true ∧
    ((readyCx (benchG fun k => k.onQuad 7 fun u => { u with sgt := 7 }) 0xCD (.c (oc 0)) h0).any fun c =>
      !c.sup && c.qs ≠ c.k.liveQuads) = true := by decide +kernel
/-- `yield` with c = 0: no command is out, one is, and a guard that is false. -/
theorem witness_Arrivals :
    ([0xC7, 0xD0, 0xD1, 0xCF].all fun op => (readyCx bench op (.c (oc 0)) h0).isSome) = true ∧
    ((readyCx bench 0xCE (.c ⟨hF, m0, .imm 0xFC0, 2⟩) hF).any fun c => c.em = 0) = true ∧
    ((readyCx (benchG fun k => { k with c := 1 }) 0xCE (.c ⟨h0, m0, .imm 0xFC0, 2⟩) h0).any fun c => !c.sup &&
      !(c.k.c ≤ c.aVal (.imm 0xFC0) % 64 && c.k.a ≤ c.aVal (.imm 0xFC0) / 64 % 64)) = true ∧
    ((readyCx bench 0xCE (.c ⟨h0, m0, .imm 0xFC0, 2⟩) h0).any fun c =>
      c.k.c ≤ c.aVal (.imm 0xFC0) % 64 && c.k.a ≤ c.aVal (.imm 0xFC0) / 64 % 64) = true := by decide +kernel

/-! ### Witnesses: memory and engines -/

/-- The last access of an area of 4,096 bytes, the one after it, and a misaligned one. -/
theorem witness_ScratchpadChecks :
    (let c := cx bench
     c.parks = [] ∧ 4 ∈ [1, 2, 4, 8, 16] ∧ inMask (c.em &&& ~~~c.helpers) 31 = true ∧ (c.window 0).extent = 4096 ∧
       (c.checkWindow 0 4 fun _ => 4092).parks = [] ∧ (c.checkWindow 0 4 fun _ => 4096).parks.length = 32 ∧
       (c.checkWindow 0 4 fun _ => 4094).parks.length = 32) := by decide +kernel
/-- A scratchpad instruction at the offsets that v2 holds. -/
def om (variant : Nat) : OpsM := ⟨h0, ⟨.i32, variant, 0⟩, .v 4, 0, .v 2, 0, 0, .v 8⟩
theorem witness_ScratchpadLoads :
    (om 0).m.variant ≠ 1 ∧ (memReady bench 0x140 (om 0) 4).isSome = true ∧ (memReady bench 0x140 (om 1) 16).isSome = true := by
  decide +kernel
theorem witness_ScratchpadStores :
    ([(0, 4), (1, 16)].all fun x => (memReady bench 0x141 (om x.1) x.2).any fun p => p.k.core < p.grp.homes.length &&
      inMask (p.em &&& ~~~p.helpers &&& ~~~p.parked) 31) = true := by decide +kernel
theorem witness_ScratchpadAtomics :
    ([0, 4].all fun v => (memReady bench 0x142 (om v) 4).any fun p => p.k.core < p.grp.homes.length && p.em ≠ 0 &&
      !releasePending p.s p.dn p.gid p.gi) = true := by decide +kernel
/-- `wset w1`: a base and an extent that end with the area, one more byte, and a base that is no multiple of 64; a
value at the end of RSIZE, one beyond it, and children 0 and 1 of a node with one child. -/
theorem witness_WindowsAndResults :
    (let o := fun (h : Head) (b e : Nat) => (⟨h, m0, .v 0, .win 1 (.con .zero), .imm b, .imm e⟩ : OpsE)
     ((readyCx bench 0x143 (.e (o hF 0 0)) hF).any fun c => c.em = 0 && c.k.core < c.grp.homes.length) = true ∧
     ([(64, 4032), (64, 4033), (32, 0)].all fun x => (readyCx bench 0x143 (.e (o h0 x.1 x.2)) h0).any fun c =>
        c.em ≠ 0 && !acquirePending c.s c.dn c.gid c.gi && c.uniform (.imm x.1) = x.1 && c.uniform (.imm x.2) = x.2 &&
          4096 * c.grp.spad = 4096)) = true ∧
    (let s := fun down => benchP fun g => { g with down := down, kids := 1, rsize := 8 }
     let o : OpsE := ⟨h0, m0, .v 0, .reg 0 (.v 1), .reg 0 (.v 2), .reg 0 (.v 3)⟩
     ((readyCx (s false) 0x150 (.e o) h0).any fun c => !c.grp.down && !acquirePending c.s c.dn c.gid c.gi) = true ∧
     ((engineReady (s true) 0x150 o).any fun p => p.grp.down) = true ∧
     (engineReady (s false) 0x14F { o with c := Desc.zero }).isSome = true) := by decide +kernel
/-- A valid record of 8-byte elements with four elements at address 0x8000. -/
def rec4 : Rec := recOf (leBytes 8 (3 * 2 ^ 60 + 0x8000 + 0x20) ++ leBytes 8 0 ++ leBytes 8 4 ++ leBytes 8 0)
/-- The bench with that record as record 4 of the table at address 0. -/
def recS : State := poke bench 0x80 (leBytes 8 (3 * 2 ^ 60 + 0x8000 + 0x20) ++ leBytes 8 0 ++ leBytes 8 4 ++ leBytes 8 0)
/-- No fault, an invalid record, an index at EXTENT, and a misaligned side. -/
theorem witness_EngineIssue :
    (let c := cx bench
     let side : Side := (1, ⟨0, 64, 0⟩, fun _ => 56, 8)
     c.parks = [] ∧ c.dn < c.s.dies.length ∧ rec4.invalid = false ∧ rec4.extent = 4 ∧
       (c.checkElems none [(4, rec4)] (fun _ => 3) [side] fun l => mkElem l 0 0 0 [] 0).2.length = 32 ∧
       (c.checkElems none [(4, rec4)] (fun _ => 4) [side] fun l => mkElem l 0 0 0 [] 0).2 = [] ∧
       (c.checkElems (some 4) [] (fun _ => 0) [] fun l => mkElem l 0 0 0 [] 0).2 = [] ∧
       (c.checkElems none [] (fun _ => 0) [(1, ⟨0, 64, 0⟩, fun _ => 60, 8)] fun l => mkElem l 0 0 0 [] 0).2 = []) := by
  decide +kernel
/-- Operands of the engine instructions: record 4, an index, a window. -/
def oe (h : Head) (variant : Nat) (a b c : Desc) : OpsE := ⟨h, ⟨.i64, variant, 0⟩, .v 0, a, b, c⟩
theorem witness_LaneCommands :
    (let w : Desc := .win 0 (.v 2)
     let r : Desc := .record 4
     let i : Desc := .reg 0 (.v 2)
     let full := benchG fun k => { k with c := 63, a := 63 }
     let ops : List (Nat × OpsE) := [(0x144, oe h0 0 w r i), (0x145, oe h0 0 w r i), (0x146, oe h0 0 r i w),
       (0x147, { oe h0 0 r i (.reg 0 (.v 6)) with d := .v 4 })]
     (ops.all fun x => ((engineReady full x.1 x.2).any fun p => p.em ≠ 0 && 63 ≤ p.k.a && 63 ≤ p.k.c) &&
       ((engineReady bench x.1 x.2).any fun p => p.em ≠ 0 && p.k.a < 63 && p.k.c < 63) &&
       (engineReady bench x.1 { x.2 with h := hF }).any fun p => p.em = 0) = true ∧
     (engineReady bench 0x144 (oe h0 1 r i w)).isSome = true ∧
     ((engineReady bench 0x144 { oe h0 2 w w (.imm 8) with d := .s 1 }).any fun p =>
       (p.reg (.s 1) 0).toNat < p.grp.cores.length && p.em ≠ 0) = true ∧
     ((engineReady (withS 1 1) 0x144 { oe h0 2 w w (.imm 8) with d := .s 1 }).any fun p =>
       p.grp.cores.length ≤ (p.reg (.s 1) 0).toNat && p.em ≠ 0) = true ∧
     (engineReady bench 0x144 (oe h0 3 r i r)).isSome = true) := by decide +kernel
theorem witness_GangCommands :
    (let r : Desc := .record 4
     let e : Desc := .imm 0
     let full := benchG fun k => { k with c := 63, a := 63 }
     let ops : List (Nat × OpsE) := [(0x148, oe h0 0 r r (.win 0 (.v 2))), (0x14A, oe h0 2 r Desc.zero Desc.zero),
       (0x14C, oe h0 2 r e (.imm 1)), (0x14E, oe h0 2 r e (.imm 1))]
     (ops.all fun x =>
       ((readyCx bench x.1 (.e { x.2 with h := hF }) hF).any fun c => c.em &&& ~~~c.helpers = 0) &&
       ((readyCx full x.1 (.e x.2) h0).any fun c => c.em &&& ~~~c.helpers ≠ 0 && 63 ≤ c.k.a && 63 ≤ c.k.c) &&
       ((readyCx bench x.1 (.e x.2) h0).any fun c => lowest (c.em &&& ~~~c.helpers) = some 0 && c.k.a < 63 && c.k.c < 63 &&
         !acquirePending c.s c.dn c.gid c.gi && !releasePending c.s c.dn c.gid c.gi)) = true ∧
     ((readyCx bench 0x148 (.e (oe h0 0 r r (.win 0 (.v 2)))) h0).any fun c =>
       (c.peekPorts 0x148 (.e (oe h0 0 r r (.win 0 (.v 2))))).isSome) = true) := by decide +kernel
/-- `sigwait` of the last element of record 4, whose read succeeds, and one that stands there already. -/
theorem witness_WaitsAndFences :
    ([(0x149, hF), (0x14B, hF), (0x149, h0), (0x14B, h0)].all fun x =>
      (readyCx bench x.1 (.e (oe x.2 4 (.imm 0xFC0) Desc.zero Desc.zero)) x.2).any fun c => decide (c.em = 0) = (x.2 == hF)) =
      true ∧
    (let o := fun h => oe h 3 (.record 4) (.imm 3) (.imm 1)
     ((readyCx recS 0x14D (.e (o hF)) hF).any fun c => c.em = 0) = true ∧
     ((readyCx recS 0x14D (.e (o h0)) h0).any fun c =>
       let r := (c.record_ 4).1
       lowest c.em = some 0 && !acquirePending c.s c.dn c.gid c.gi && c.qs.all (fun u => (c.k.quad u).sigw = none) &&
         !r.invalid && r.esize = 3 && c.uniform (.imm 3) < r.extent &&
         (readElem (c.record_ 4).2.s c.dn (r.frontAddrs 3)).1.toOption.isSome) = true ∧
     ((readyCx (benchQ fun u => { u with sigw := some ⟨0, 4, rec4, 3, 1, 0, true, []⟩ }) 0x14D (.e (o h0)) h0).any fun c =>
       c.qs.all fun u => (c.k.quad u).sigw = some ⟨c.pc, 4, rec4, 3, 1, 0, true, []⟩) = true) := by decide +kernel

/-! ### Witnesses: the join engine -/

/-- The bench with the join engine of its core changed; owned by its gang. -/
def benchJ (f : Core → Core) : State := benchD fun d => d.setCore 0 (f (d.core 0))
def ownS (f : Core → Core) : State := benchJ fun j => f { j with owner := some (0, 0) }
/-- An entry of the queue. -/
def entryOf (op : JoinOp) : JoinEntry := (cx bench).entry op none
/-- Operands of the join instructions, each in a form that it takes. -/
def oj (d : Reg) (a b c : Desc) : OpsE := ⟨h0, m0, d, a, b, c⟩
def z : Desc := Desc.zero
def w0 : Desc := .win 0 (.s 8)
def joinForms : List (Nat × OpsE) :=
  [(0x181, oj (.v 0) z z z), (0x182, oj (.v 0) (.tile 0) w0 z), (0x183, oj (.v 0) (.tile 0) z z),
   (0x184, oj (.v 0) w0 (.tile 0) z), (0x185, oj (.s 1) (.tile 0) (.tile 1) (.imm 0)),
   (0x186, oj (.s 4) (.tile 0) (.tile 1) (.reg 0 (.s 2))), (0x187, oj (.v 0) w0 w0 (.reg 0 (.s 2))),
   (0x188, oj (.s 1) z z z), (0x189, oj (.v 0) (.imm 0) z z), (0x18A, oj (.v 0) (.record 4) (.imm 16) (.imm 8)),
   (0x18B, oj (.v 0) (.reg 0 (.v 2)) (.reg 0 (.v 8)) z), (0x18C, oj (.v 4) (.reg 0 (.v 2)) (.imm 1) z),
   (0x18D, oj (.s 1) (.record 4) z z), (0x18E, oj (.v 0) z z z), (0x18F, oj (.s 2) z z z), (0x190, oj (.v 0) w0 z z),
   (0x191, oj (.v 0) w0 z z), (0x192, oj (.v 0) (.record 4) (.imm 0) z), (0x193, oj (.v 0) (.record 4) (.imm 0) z)]
/-- An open session of the given grain. -/
def openSession (block : Bool) : Session := ⟨true, block, 0, 15, 7, false, 4, 0⟩

theorem witness_JoinOwnership :
    (joinForms.all fun x => ((issuedCx bench x.1 h0).any fun c => c.em ≠ 0 && c.jcore.owner ≠ some (c.gid, c.gi)) &&
      (readyCx bench x.1 (.e { x.2 with h := hF }) hF).any fun c => c.em = 0) = true ∧
    ((readyCx bench 0x180 (.e (oj (.v 0) z z z)) h0).any fun c => c.em ≠ 0 && c.jcore.owner ≠ some (c.gid, c.gi) &&
      !c.jcore.waiters.contains (c.gid, c.gi)) = true ∧
    ([true, false].all fun u => (readyCx (ownS fun j => { j with unclaimed := u }) 0x180 (.e (oj (.v 0) z z z)) h0).any
      fun c => c.jcore.owner = some (c.gid, c.gi) && c.jcore.unclaimed = u) = true ∧
    ((readyCx ((benchJ fun j => { j with waiters := [(0, 0)] }).onGang 0 0 0 fun k => k.onQuad 7 fun u =>
        { u with sgt := 7, atMacq := true }) 0x180 (.e (oj (.v 0) z z z)) h0).any fun c =>
      c.jcore.waiters.contains (c.gid, c.gi) && c.k.liveQuads.any fun q => (c.k.quad q).atMacq) = true ∧
    ((readyCx (ownS fun j => { j with issue := openSession false }) 0x181 (.e (oj (.v 0) z z z)) h0).any fun c =>
      c.jcore.issue.isOpen) = true ∧
    ((readyCx (ownS id) 0x181 (.e (oj (.v 0) z z z)) h0).any fun c => !c.jcore.issue.isOpen && !c.jcore.frozen &&
      !c.jcore.freezeAsked && c.jcore.queue = [] && !releasePending c.s c.dn c.gid c.gi) = true := by decide +kernel
/-- Every queued instruction is ready for the owner; each cause for which it waits; each answer of the checks. -/
theorem witness_JoinQueue :
    (joinForms.all fun x => (readyCx (ownS id) x.1 (.e x.2) h0).any fun c => c.em ≠ 0 &&
      c.jcore.owner = some (c.gid, c.gi) && !acquirePending c.s c.dn c.gid c.gi && !c.jcore.frozen &&
        !c.jcore.freezeAsked && c.jcore.queue = []) = true ∧
    ((readyCx (ownS fun j => { j with frozen := true }) 0x183 (.e (oj (.v 0) (.tile 0) z z)) h0).any fun c => c.jcore.frozen) =
      true ∧
    ((readyCx (ownS fun j => { j with freezeAsked := true }) 0x183 (.e (oj (.v 0) (.tile 0) z z)) h0).any fun c =>
      c.jcore.freezeAsked) = true ∧
    ((readyCx (ownS fun j => { j with queue := List.replicate 16 (entryOf (.tzero 0)) }) 0x183
      (.e (oj (.v 0) (.tile 0) z z)) h0).any fun c => 16 ≤ c.jcore.queue.length) = true ∧
    ((readyCx (ownS fun j => { j with queue := [entryOf (.cload 4 rec4 0)] }) 0x183
      (.e (oj (.v 0) (.tile 0) z z)) h0).any fun c => c.jcore.loadQueued) = true ∧
    ([true, false].all fun block => (readyCx (ownS fun j => { j with issue := openSession block }) 0x187
      (.e (oj (.v 0) w0 w0 (.reg 0 (.s 2)))) h0).any fun c => c.jcore.issue.isOpen && c.jcore.issue.block = block &&
        1 ≤ c.jcore.issue.wm1 + 1 && c.windowFate w0 0 = none && (jfmtOf (c.k.quad c.sgt).fmt).ok) = true ∧
    ((readyCx (ownS fun j => { j with issue := openSession false }) 0x18D (.e (oj (.s 1) w0 z z)) h0).any fun c =>
      c.jcore.issue.isOpen) = true := by decide +kernel
theorem witness_JoinBatches :
    ((readyCx (ownS fun j => { j with openBatch := 1, doneBatch := 0 }) 0x188 (.e (oj (.s 1) z z z)) h0).any fun c =>
      c.em ≠ 0 && c.jcore.owner = some (c.gid, c.gi) && !c.jcore.frozen && !c.jcore.freezeAsked) = true ∧
    ([(0, 0), (1, 0), (1, 1), (2, 1)].all fun x => (readyCx (ownS fun j => { j with openBatch := 2, doneBatch := x.2 }) 0x189
      (.e (oj (.v 0) (.imm x.1) z z)) h0).any fun c => c.uniform (.imm x.1) = x.1) = true := by decide +kernel

/-! ### Witnesses: system state -/

def os (d : Reg) (a : AOpd) (b : Reg) : OpsS := ⟨h0, m0, d, a, b, .v 0, 0⟩
/-- A reserved register, one for supervisor state alone, and VFLAGS read with `.clr`. -/
theorem witness_SpecialRegisterReads :
    (issuedCx bench 0x1C2 h0).isSome = true ∧ srCause 0x00C false false false = some (1, 4) ∧
    srCause 0x00B false false false = some (1, 5) ∧ srCause 0x003 true false true = some (1, 4) ∧
    (let o : OpsS := { os (.v 4) (.imm 2) (.v 0) with m := ⟨.i32, 1, 0⟩ }
     (readyChecked bench 0x1C2 (.s o) h0 fun c => srCause o.a.number (o.m.variant = 1) false c.sup).any fun c =>
       c.em ≠ 0) = true := by decide +kernel
theorem witness_SpecialRegisterWrites :
    ((issuedCx supS 0x1C3 h0).any fun c => c.sup) = true ∧ srCause 0x003 false true true = some (1, 4) ∧
    ([0x002, 0x012, 0x016, 0x100, 0x106].all fun sr => (readyChecked supS 0x1C3 (.s (os (.v 0) (.imm sr) (.s 2))) h0
      fun c => srCause sr false true c.sup).any fun c => lowest c.em = some 0) = true ∧
    ((readyChecked supS 0x1C3 (.s { os (.v 0) (.imm 2) (.s 2) with h := hF }) hF fun c => srCause 2 false true c.sup).any
      fun c => c.em = 0) = true := by decide +kernel
theorem witness_FaultRecordsRead :
    ((readyCx supS 0x1C4 (.s (os (.v 4) (.reg (.v 2)) (.v 0))) h0).any fun c => c.em ≠ 0) = true := by decide +kernel
/-- The last address of the region and the one after it; a page that the bench maps, one without a table, and a free
entry of a table at 0x102000. -/
theorem witness_PagesAndTranslations :
    2 ^ 56 - 1 < 2 ^ 56 ∧ inPeer 0x8000 = false ∧ inPeer (2 ^ 56 - 1) = true ∧
    (pageState (bench.die 0) 0 4 1 (bench.die 0).ptroot = .present) ∧
    (pageState (bench.die 0) 0x200000 4 1 (bench.die 0).ptroot = .noTable) ∧
    (let d := physWrite (bench.die 0) 0x101008 (leBytes 8 (0x102000 / 16 + 1))
     pageState d 0x200000 4 1 d.ptroot = .free 0x102000) ∧
    ([(0x1C6, Reg.v 2), (0x1C7, .s 2)].all fun x => [h0, hF].all fun h =>
      (readyCx supS x.1 (.s { os (.v 4) (.reg x.2) (.s 4) with h := h }) h).any fun c => decide (c.em = 0) = (h == hF)) =
      true := by decide +kernel
theorem witness_SaveAndFreeze :
    ([0x1C8, 0x1C9, 0x1CA].all fun op => [0, 1].all fun v =>
      (readyCx supS op (.s { os (.v 0) (.imm 0) (.s 0) with m := ⟨.i32, v, 0⟩ }) h0).any fun c => c.em ≠ 0 &&
        c.k.liveQuads.all (fun q => c.qs.contains q) && !(c.grp.home c.k.core).loaded &&
          c.jcore.owner ≠ some (c.gid, c.gi)) = true ∧
    ((readyCx (supS.onGang 0 0 0 fun k => k.onQuad 7 fun u => { u with sgt := 7 }) 0x1C8 (.s (os (.v 0) (.imm 0) (.s 0))) h0).any fun c =>
      c.k.liveQuads.any fun q => !c.qs.contains q && !(c.k.quad q).atGsave) = true ∧
    (let s := fun (f : Core → Core) => supS.onDie 0 fun d => d.setCore 0 (f { d.core 0 with owner := some (0, 0) })
     [(false, false), (true, false), (false, true)].all fun x =>
       (readyCx (s fun j => { j with frozen := x.1, freezeAsked := x.2 }) 0x1CA (.s o5) h0).any fun c =>
         c.jcore.owner = some (c.gid, c.gi) && c.jcore.frozen = x.1 && c.jcore.freezeAsked = x.2) = true := by decide +kernel
/-- The step of the bench's instruction answers a next state. -/
theorem witness_StepKeepsMemory : bench.memOk = true ∧
    (match step (State.reset.withFetchWord 96 0x00080000E000000020101005) with
     | .next _ => true
     | _ => false) = true := by decide +kernel

/-! ### Witnesses: the other agents -/

/-- Reset with the hub changed. -/
def hubS (f : Hub → Hub) : State := { State.reset with hub := f State.reset.hub }
/-- A request of OP `op` whose GO is set. -/
def askedS (op : Nat) : State := hubS fun h => { h with go := true, mreq := if op = 0 then [] else [(0, BitVec.ofNat 8 op)] }
theorem witness_HubSteps :
    State.reset.hub.powered = true ∧
    (let h := (hubS fun h => { h with time := 90 * 1200000000 + 1 }).hub
     h.powered ∧ h.ready = false ∧ h.safe = false ∧ h.holding = false ∧ 90 * 1200000000 < h.time) ∧
    (let h := (hubS fun h => { h with holding := true, pending := some (0, 5, 7), time := 5 }).hub
     h.holding = true ∧ 0 + 5 + h.rpos * 7 ≤ h.time) ∧
    (let h := (hubS fun h => { h with holding := true, time := 600 * 1200000000 }).hub
     h.holding = true ∧ 600 * 1200000000 ≤ h.time - h.holdSince) ∧
    (let s := State.reset.onDie 7 fun d => { d with ready := true }
     7 < 8 ∧ (s.die 7).ready = true ∧ s.hasDies = true) ∧
    (((List.range 9).map (· + 1)).all fun op => (askedS op).hub.go && (askedS op).hub.reqOp = op) = true ∧
    State.reset.hub.go = false := by decide +kernel

/-- A die with a writable page at address 0, and its queue 63 changed. -/
def writable : State := bench.onDie 0 fun d => physWrite d 0x101000 (leBytes 8 (leafWord 0 0 false true 0x200000))
def queueS (s : State) (f : Queue → Queue) : State := s.onDie 0 fun d => d.setQueue 63 (f (d.queue 63))
/-- An access that ends at the end of a line and one of a page that is not present; each form of the queue registers. -/
theorem witness_HostRegisters :
    (let vas := fun off len => (span (0 + off) len).map (· % 2 ^ 56)
     (∀ a ∈ vas 56 8, a / 64 = 0) ∧ (memRead writable 0 (vas 56 8)).1.toOption.isSome = true ∧
       (memWrite writable 0 ((vas 56 8).zip (List.replicate 8 1))).1.toOption.isSome = true ∧
       (memRead writable 0 (vas 0x200000 8)).1.toOption.isSome = false ∧
       (memWrite bench 0 ((vas 56 8).zip (List.replicate 8 1))).1.toOption.isSome = false) ∧
    (0x94 : DWord).toNat / 2 ^ 7 % 2 = 1 ∧ (0x14 : DWord).toNat / 2 ^ 7 % 2 = 0 ∧
    (let u := ((queueS bench fun q => { q with dev := true }).die 0).queue 63
     u.dev = true ∧ u.committed = []) ∧
    (let u := ((queueS bench fun q => { q with en := true, resv := 15 }).die 0).queue 63
     u.dev = false ∧ u.en = true ∧ u.qerr = 0 ∧ (u.resv + 2 ^ 32 - u.head) % 2 ^ 32 < 2 ^ u.log) ∧
    (let u := ((queueS bench fun q => { q with en := true, resv := 16 }).die 0).queue 63
     2 ^ u.log ≤ (u.resv + 2 ^ 32 - u.head) % 2 ^ 32) ∧
    (((benchD fun d => { d with busy := true, invalidating := [some (3 * 2 ^ 16)] }).die 0).busy = true) ∧
    (bench.die 0).ftzero = (bench.die 0).fttail ∧ ((benchD fun d => { d with fttail := 4095 }).die 0).ftzero ≠ 4095 ∧
    4095 < 4096 ∧ 65536 % 65536 = 0 ∧
    (((benchD fun d => { d with exports_ := [(4095, Export.empty)] }).die 0).exports_.find? 4095).isSome = true := by
  decide +kernel

/-- A command in a phase; the bench with it as command 5 of die 0. -/
def cmdIn (op : Nat) (phase : CmdPhase) : HostCmd := ⟨63, 0, op, 0, false, false, false, 0, 0, 0, 0, 0, 65536, 64, phase, 0, false, none, none, []⟩
def cmdS (c : HostCmd) : State := writable.onDie 0 fun d => { d with hostCmds := [(5, c)] }
/-- A record that can be read and one that cannot; a command that may start; each started command; a page to switch
and one to skip; the phases of QUIESCE and of a die that goes offline. -/
theorem witness_CommandSteps :
    ([(0, true), (0x200000, false)].all fun x =>
      let s := queueS writable fun q => { q with en := true, tail := 1, qbase := x.1 }
      let u := (s.die 0).queue 63
      u.en && u.qerr = 0 && u.head ≠ u.tail &&
        (readElem s 0 (span (u.qbase + 64 * (u.head % 2 ^ u.log)) 64)).1.toOption.isSome = x.2) = true ∧
    servedQueue (cmdS (cmdIn 0 .read)) 0 = some 63 ∧ (nextCmd ((cmdS (cmdIn 0 .read)).die 0) 63).isSome = true ∧
    (((cmdS (cmdIn 0 (.finished 0 0))).die 0).hostCmds.find? 5 = some (cmdIn 0 (.finished 0 0))) ∧
    ((List.range 8).all fun op => ((cmdS (cmdIn op .started)).die 0).hostCmds.find? 5 == some (cmdIn op .started)) = true ∧
    (let c := { cmdIn 6 .started with p0 := 0, p1 := 65536, p2 := 1 }
     let s := (cmdS c).onDie 1 fun d => { d with ready := true, ftready := 1, ptroot := 0 }
     let s := s.onDie 1 fun d => physWrite (physWrite (physWrite d 0 (leBytes 8 (0x100000 / 16 + 1))) 0x100000
       (leBytes 8 (0x101000 / 16 + 1))) 0x101000 (leBytes 8 (0x102000 / 16 + 1))
     migrateBad s 0 c = false ∧ 65536 * c.page < c.p1 ∧ (match pageStep s 0 c with
       | .switch _ _ _ => true
       | _ => false) = true ∧ (match pageStep (s.onDie 1 fun d => { d with ftready := 0 }) 0 { c with frame := some 0 } with
       | .switch _ _ _ => true
       | _ => false) = true ∧ (openMigrations (s.die 1)).length < 256 ∧
       (match pageStep s 0 { c with p0 := 0x40000000 } with
         | .skip => true
         | _ => false) = true ∧ migrateBad s 0 { c with p2 := 0 } = true) ∧
    (let q : Quiesce := ⟨true, false, false, [5], false⟩
     let d := (cmdS (cmdIn 7 .started)).die 0
     (d.hostCmds.all fun c => quiesceIgnores q c.1 c.2) = true ∧ d.cmds = [] ∧ d.remote = [] ∧ d.pulls = []) ∧
    (State.reset.die 7).service = .inService ∧ (State.reset.die 7).groups = [] := by decide +kernel

/-- A root node of one block of 32 threads that needs nothing of its children. -/
def rootNode : NodeRec := ⟨noParent, 0, 0, 32, 4, 0, 0, 1, 1, 0, 1, 1, 0, 0, 0, false⟩
def runOf (phase : NodePhase) : NodeRun := ⟨rootNode, [], phase, 1, none, none, []⟩
def launchIn (phase : NodePhase) : Launch := ⟨0, 1, 1, false, false, 0, [(0, runOf phase)], 0, []⟩
/-- A die with that launch and no group. -/
def sweepS (phase : NodePhase) : State :=
  writable.onDie 0 fun d => { d with launches := [(3, launchIn phase)], groups := [], ready := true, nextId := 9 }
/-- A group of lower priority on every core of an H-die, of whose sixteen cores each gives it the whole scratchpad. -/
def fullDie : State :=
  trapS ((sweepS (.ready 0 0)).onDie 0 fun d => { d with
    cyc := 16384
    groups := [(1, { benchGroup with
      launch := 2, prio := 3, block := 32 * 48, spad := 1536, cores := List.range 48
      gangs := (List.range 48).map fun n => { benchGang with core := n }
      homes := List.replicate 48 ⟨[], [], [], [], [], false⟩ })] })
theorem witness_SweepSteps_open : 0 < 8 ∧ (sweepS .unopened).hasDies = true ∧ (launchIn .unopened).mayOpen 0 = true ∧
    (launchIn .opened).mayOpen 0 = false := by decide +kernel
theorem witness_SweepSteps_placement :
    (let d := (sweepS (.ready 0 0)).die 0
     (waiterOf d 3 0).any fun w => placedNext 0 d w && !w.cores &&
       (placement 0 (roomOf d []) (w.rec_.shape w.down) none).isSome) = true := by decide +kernel
theorem witness_SweepSteps_starvation :
    (let d := (sweepS (.ready 0 64)).die 0
     (waiters d).any (fun w => 64 ≤ w.passed) = true ∧ d.placeOnly = none) := by decide +kernel
theorem witness_SweepSteps_preemption :
    (let s := fullDie
     let d := s.die 0
     (waiterOf d 3 0).any fun w => 16384 ≤ d.cyc.toNat - w.since && !placementHeld d && !fits 0 d [] w &&
       fits 0 d ((lowerGroups d w.prio).map (·.1)) w && (lowerGroups d w.prio).map (·.1) = [1] &&
       elementsQuiet d 1 && freePslot d = some 0 && (handlerPc s 0 0).1.isSome) = true := by decide +kernel
theorem witness_SweepSteps_end :
    (let s := benchP fun g => { g with gangs := g.gangs.map fun k => allQuads (fun u => { u with exited := true }) k }
     ((s.die 0).group 0).any fun g => g.runs && gangEnded (s.die 0) g 0 0) = true := by decide +kernel
theorem witness_SweepSteps_loss :
    (((benchP fun g => { g with gangs := g.gangs.map fun k => { k with lost := some (3, 0) } }).die 0).group 0).any
      (fun g => g.loss = some (3, 0) && g.state ≠ .saved) = true := by decide +kernel
theorem witness_SweepSteps_saved :
    (((benchP fun g => { g with pre := true, gangs := g.gangs.map fun k => allQuads (fun u => { u with stopped := true }) k }
      ).die 0).group 0).any (fun g => g.runs && g.pre && !g.restore && g.allStopped) = true := by decide +kernel
theorem witness_SweepSteps_again :
    (let s := trapS (benchP fun g => { g with state := .saved, cores := [] })
     let d := s.die 0
     (d.group 0).any (fun g => savedFits 0 d g && (savedPlacement 0 d g).isSome) && waiters d = [] &&
       (handlerPc s 0 0).1.isSome) = true := by decide +kernel

/-- The bench with an instruction at PC 0. -/
def wordS (w : Nat) : State := poke bench 0 (leBytes 12 w)
/-- One element that waits, of a command that reads record 4 into window 0. -/
def copyCmd (state : ElemState) : Cmd := ⟨0, 0, false, 0, 0, 0x44, 0, .copyIn 4 rec4 ⟨0, 4096, 0⟩,
  [(0, { mkElem 0 0 0 0 [] 0 with state := state })], none, false, 1, false, false, false, [], 0, false, [], ⟨[], [], []⟩⟩
def engineS (state : ElemState) : State := recS.onDie 0 fun d => { d with cmds := [(5, copyCmd state)] }
theorem witness_GangAndEngineSteps : bench.hasDies = true ∧ ((bench.die 0).group 0).isSome = true := by decide +kernel
/-- Lane 31 is parked for a window-bound fault, and an `endif` stands at PC 0. -/
def parkedS : State := poke (trapS (benchG fun k =>
  { k.onQuad 7 fun u => { u with park := 8 } with records := [(31, ⟨3, 2, 0, 31, 0, 0, 0, 0, 0⟩)] })) 0
    (leBytes 12 ((encode (.endif ⟨h0, m0, .reg (.v 0), 0⟩)).getD 0))
theorem witness_GangAndEngineSteps_vector :
    ((nextInstr parkedS ⟨0, 0, 0, 0⟩).any fun x => convergenceOps.contains x.1 && !x.2.2.2.blocked) = true ∧
    (((parkedS.die 0).group 0).any fun g => parkedClass (g.gang 0) 7 = some (3, 8) && g.runs) = true ∧
    (handlerPc parkedS 0 3).1.isSome = true := by decide +kernel
theorem witness_GangAndEngineSteps_held :
    (heldOf ((trapS (engineS (.held 0x8000 false))).die 0) 0 0 0).length = 1 ∧
    (handlerPc (trapS (engineS (.held 0x8000 false))) 0 6).1.isSome = true := by decide +kernel
/-- Seven quads at `bar` and one at `gsync`. -/
theorem witness_GangAndEngineSteps_deadlock :
    (let s := benchP fun g => { g with stalled := 256, gangs := g.gangs.map fun k =>
       (allQuads (fun u => { u with barArrived := true }) k).onQuad 7 fun u => { u with barArrived := false, gsyncArrived := true } }
     (((s.die 0).group 0).any fun g => deadlocked s 0 0 g && 256 ≤ g.stalled && (g.gang 0).tags = [0] && g.gangs.length = 1) &&
       (nextInstr s ⟨0, 0, 0, 0⟩).isSome) = true := by decide +kernel
theorem witness_GangAndEngineSteps_element :
    (let s := engineS .waiting
     mayPerform s 0 5 0 (copyCmd .waiting) (mkElem 0 0 0 0 [] 0) = true ∧
     (readElem s 0 (rec4.frontAddrs 0)).1.toOption.isSome = true ∧
     (readElem s 0 (span 0x200000 8)).1.toOption.isSome = false) ∧
    (∀ a ∈ rec4.frontAddrs 3, a < 0xFF000000000000) := by decide +kernel
theorem witness_GangAndEngineSteps_completion :
    (let s := engineS .performed
     oldest (s.die 0) (copyCmd .performed) = true ∧ heldBack s 0 (copyCmd .performed) = false ∧
       (copyCmd .performed).elems.all (fun x => !x.2.pending) = true) := by decide +kernel
theorem witness_GangAndEngineSteps_join :
    (let c := ((ownS fun j => { j with queue := [entryOf (.tzero 0)], openBatch := 2 }).die 0).core 0
     c.owner = some (0, 0) ∧ c.queue ≠ [] ∧ (c.frozen || c.freezeAsked) = false ∧ c.doneBatch + 1 < c.openBatch) ∧
    (let c := ((benchJ fun j => { j with waiters := [(0, 0)] }).die 0).core 0
     c.owner = none ∧ c.waiters = [(0, 0)]) := by decide +kernel
theorem witness_GangAndEngineSteps_barriers :
    ([fun u : Quad => { u with barArrived := true }, fun u => { u with gsyncArrived := true },
      fun u => { u with atRegang := true }].all fun f => (((benchQ f).die 0).group 0).any fun g => g.runs && !g.pre &&
        g.gangs.all (fun v => v.liveQuads = List.range 8) && !releasePending (benchQ f) 0 0 0) = true := by decide +kernel

/-- A link of two dies, and one of a port, with a cell of a TYPE on the wire. -/
def cellOf (src dst vc type : Nat) (body : CellBody) : Cell := (mkCell src dst vc type 7 noPayload body).sealed
def linkS (src dst : Nat) (c : Cell) : State :=
  { writable with links := [(linkKey src dst, { LinkDir.fresh with wire := [c] })] }
/-- A request for die 0 from die 1, through export slot 5. -/
def reqCell : Cell := (mkCell 1 0 0 0x00 7 noPayload (.readReq (mkHandle 0 5 0) 0 8)).sealed
def reqS : State := (linkS 1 0 reqCell).onDie 0 fun d => { d with exports_ := [(5, ⟨0, 65536, true, true, true, true, 0, true⟩)] }
theorem witness_LinkSteps_cell : reqCell.intact = true := by
  simp [reqCell, Cell.intact, Cell.sealed, Cell.header, mkCell, typesOnVc]
/-- It arrives in order, and not when damaged; the exporter grants it, and refuses a slot that is not filled. -/
theorem witness_LinkSteps_arrival : (reqS.link 1 0).isSome = true ∧ reqCell.seq = 0 ∧ tagOk reqS 1 reqCell = true ∧
    (receive reqS 1 0 true).1 = none := by decide +kernel
theorem witness_LinkSteps_exporter : handleDie (mkHandle 0 5 0) = 0 ∧
    (exporterRead reqS (mkHandle 0 5 0) 0 8).1.toOption.isSome = true ∧
    (exporterRead reqS (mkHandle 0 6 0) 0 8).1.toOption.isSome = false ∧
    exportFault reqS (mkHandle 0 5 0) 0 8 .write = none ∧ (exportFault reqS (mkHandle 0 6 0) 0 8 .write).isSome = true ∧
    (exporterWrite reqS (mkHandle 0 5 0) 0 [1]).1.toOption.isSome = true ∧
    (exporterCheck (reqS.die 0) (mkHandle 0 5 0) 0 4 .atomic).toOption = some 0 := by decide +kernel
theorem witness_LinkSteps :
    (let s := { State.reset with links := [(linkKey 24 8, { LinkDir.fresh with wire := [cellOf 15 8 3 0x33 .none] })] }
     (s.link 24 8).isSome = true ∧ (cellOf 15 8 3 0x33 .none).type = 0x33) ∧
    (let x : LinkDir := { LinkDir.fresh with ackOwed := true, replays := 17, retrains := 2 }
     x.ackOwed = true ∧ 17 ≤ x.replays ∧ x.down = false ∧ 2 ≤ x.retrains) ∧
    (let s := { State.reset with hub := { State.reset.hub with ports := [(7, { ExtPort.empty with tagFailures := 8 })] } }
     8 ≤ (s.port 7).tagFailures ∧ (s.port 7).status = 0 ∧ 7 < 8) := by decide +kernel

/-! ### Further witnesses: traps and arithmetic -/

/-- An entry of the trap table that can be read, and one that cannot; a group that has seen its code as it stands. -/
theorem witness_TrapOfQuad_entry :
    (memRead (trapS bench) 0 (span (0x1000 + 16 * 15) 8)).1.toOption.isSome = true ∧
    (memRead bench 0 (span 0x200000 8)).1.toOption.isSome = false ∧ (cx bench).grp.code = [] ∧
    (translate 0 (bench.die 0) 0 false).toOption.isSome = true := by decide +kernel
/-- A NaN; sums and products that are zero and that are not. -/
theorem witness_RoundingModes_values : (fval f32 0x7FC00000).isNan = true ∧ f32 = ffmt .f32 ∧
    signedInt false 1 0 + signedInt true 1 0 = 0 ∧ signedInt false 1 0 + signedInt false 1 0 ≠ 0 := by decide +kernel
/-- 2^1 and 2^11 are the ends of the exact powers named, and 2^(1/2) is not one of them. -/
theorem witness_FloatInstructions_powers : cmpPow 1 1 2 0 = .eq ∧ cmpPow 1 0 1 0 = .eq ∧ (Nat.log2 1 : Int) + 11 < 12 ∧
    ¬ (Nat.log2 1 : Int) + 12 < 12 ∧ (Ty.f32 : Ty) ∈ [Ty.f32, .f16, .bf16] := by decide +kernel
theorem witness_FloatInstructions_between (i : Nat) : cmpPow 1 (-1) i 0 ≠ .eq := by
  simp only [cmpPow, show ((0 : Int) - min (-1) 0).toNat = 1 from rfl, show ((-1 : Int) - min (-1) 0).toNat = 0 from rfl]
  rw [ne_eq, Nat.compare_eq_eq]
  omega
/-- Some lanes set and none; a leaf in every place. -/
theorem witness_CrossLaneInstructions_tree : Ty.i64.code < 8 ∧ (0x80000001 : Word) ≠ 0 ∧
    (∀ m < 32, (fun m : Nat => some (BitVec.ofNat 64 m)) m = some (BitVec.ofNat 64 m)) ∧ bits 18 16 0xBB384000 < 4 := by
  decide +kernel
/-- The quads of the bench; a core of its group; `hv` and pairs of lane registers. -/
theorem witness_LaneResults_forms : (let c := cx bench
    c.qs.Nodup ∧ (∀ q ∈ c.qs, q < c.k.quads.length) ∧ c.parks = [] ∧ c.out = [] ∧ c.k.core < c.grp.homes.length) ∧
    (Reg.v 574).wf = true ∧ (Reg.v 574).oddPair = false := by decide +kernel

/-! ### Further witnesses: memory, the join engine, system state -/

/-- A die whose first page, where record 4 and the tables of the tests lie, is of kind RC (1) or SO (0), and writable. -/
def pageS (kind : Nat) : State := recS.onDie 0 fun d => physWrite d 0x101000 (leBytes 8 (leafWord kind 0 false true 0x200000))
/-- A state with that command as command 5 of die 0. -/
def withCmd (c : Cmd) (s : State) : State := s.onDie 0 fun d => { d with cmds := [(5, c)] }
/-- `sigwait` on an SO page behind an earlier access of one, and `atom.rel` behind one that the release covers. -/
theorem witness_WaitsAndFences_later :
    ((readyCx (withCmd (copyCmd .waiting) (pageS 0)) 0x14D (.e (oe h0 3 (.record 4) (.imm 3) (.imm 1))) h0).any fun c =>
      let q := (c.record_ 4).2
      ((c.record_ 4).1.frontAddrs 3).any (fun a => kindAt q.s c.dn (a / 65536 * 65536) = 0) && soPending q.s c.dn c.gid c.gi) =
      true ∧
    ((memReady (withCmd (copyCmd .waiting) (pageS 0)) 0x142 (om 4) 4).any fun p => p.em ≠ 0 &&
      p.k.core < p.grp.homes.length && releasePending p.s p.dn p.gid p.gi) = true := by decide +kernel
/-- `jstream` with 2^28 tuples of A and one fewer; a record that takes images. -/
theorem witness_JoinQueue_more :
    ([2 ^ 28, 2 ^ 28 - 1].all fun n => (readyCx ((ownS fun j => { j with issue := openSession false }).onGang 0 0 0 fun k =>
        { k with scal := FMap.set 0 k.scal (Reg.s 2).code (BitVec.ofNat 32 n) }) 0x187 (.e (oj (.v 0) w0 w0 (.reg 0 (.s 2)))) h0).any
      fun c => (c.reg (.s 2) 0).toNat = n && c.jcore.issue.isOpen && !c.jcore.issue.block) = true ∧
    ((readyCx (ownS fun j => { j with issue := openSession false }) 0x18D (.e (oj (.s 1) (.record 4) z z)) h0).any fun c =>
      c.jcore.issue.isOpen) = true := by decide +kernel
/-- The join engine of a core with a session of one bucket and the drawers given. -/
def cab (block : Bool) (ds : FMap Drawer) : Core :=
  { (bench.die 0).core 0 with session := { openSession block with pm1 := 0 }, drawers := ds }
/-- Key 5 finds its first place empty, held by itself, and every place held by another key, in both grains. -/
theorem witness_JoinBatches_places :
    ((cab false []).place 5 [.word 1]).isSome = true ∧ ((cab true []).place 5 [.word 1]).isSome = true ∧
    ((cab false (((cab false []).place 5 [.word 1]).elim [] (·.drawers))).place 5 [.word 1]).isSome = true ∧
    ((cab false ((List.range 4).map fun d => (4 * ((5 * 0x9E3779B97F4A7C15 % 2 ^ 64 / 2 ^ 50) % 16384) + d,
      (⟨6, []⟩ : Drawer)))).place 5 [.word 1]).isNone = true := by decide +kernel
/-- Finite trays, scales and no products; a NaN and an Inf that meets 0; formats with each accumulation. -/
theorem witness_JoinBatches_trays : fval f32 0 = .fin false 0 (-149) ∧ (fval f32 0x7FC00000).isNan = true ∧
    fval f32 0x3F800000 = .fin false 8388608 (-23) ∧ fval f32 0x7F800000 = .inf false ∧
    (⟨.f16, .f16, 0, 1⟩ : JFmt).acc < 3 ∧ (⟨.i8, .bp, 2, 8⟩ : JFmt).acc < 3 := by decide +kernel
/-- A page that the bench maps and one that it does not; an access of two lines of which the second faults. -/
theorem witness_PagesAndTranslations_access : (pageS 1).hasDies = true ∧
    (walk ((pageS 1).die 0) 0x8000).toOption.isSome = true ∧ (walk ((pageS 1).die 0) 0x200000).toOption.isSome = false ∧
    ((pageS 1).die 0).tlb.find? 0 = none ∧ ((pageS 1).die 0).migrations.find? 0 = none ∧
    (translate 0 ((pageS 1).die 0) 0x8000 true).toOption.isSome = true ∧
    distinct ([0x1FFFFE, 0x1FFFFF, 0x200000, 0x200001].map (· / 64)) = [0x7FFF, 0x8000] ∧
    distinct ([0x8000, 0x200000].map (· / 64)) = [0x200] ++ 0x8000 :: [] ∧ [0x8000, 0x8001].Nodup ∧
    (∀ a ∈ [0x8000, 0x803F], a / 64 = 0x200) := by decide +kernel

/-- Supervisor state with record 5, of 64-byte elements at 0x8000 in a writable page. -/
def imageS : State := poke ((pageS 1).onGang 0 0 0 (allQuads fun u => { u with sup := true })) 0xA0
  (leBytes 8 (6 * 2 ^ 60 + 0x8000 + 0x20) ++ leBytes 8 0 ++ leBytes 8 2 ++ leBytes 8 0)
/-- Two lines that the record takes, three that it does not, and an invalid record; a gang image that `gload` reads. -/
theorem witness_SaveAndFreeze_lines :
    ((readyCx imageS 0x1C8 (.s (os (.v 0) (.imm 5) (.s 0))) h0).any fun c =>
      let r := (c.record_ (c.aVal (.imm 5))).1
      let u := (c.record_ (c.aVal (.imm 5))).2
      c.em ≠ 0 && !r.invalid && r.esize = 6 && !r.ro && r.extent = 2 && (u.reg (.s 0) 0).toNat = 0 &&
        (c.record_ 6).1.invalid &&
        (writeElem u.s c.dn ((r.writeAddrs 0).zip (List.replicate 64 1))).1.toOption.isSome &&
        c.k.liveQuads.all fun q => c.qs.contains q) = true ∧
    ((readyCx (imageS.onGroup 0 0 fun g => { g with homes := g.homes.map fun h => { h with loaded := true } }) 0x1C9
      (.s (os (.v 0) (.imm 5) (.s 0))) h0).any fun c => (c.grp.home c.k.core).loaded &&
        (c.loadGang (os (.v 0) (.imm 5) (.s 0))).isSome) = true := by decide +kernel

/-! ### Further witnesses: the hub and the host -/

/-- Both images refused and one accepted; a phase that fails and one that is stuck. -/
def envOf (fail stuck : Option Nat) : BootEnv := ⟨fail, stuck, 3, 5, []⟩
theorem witness_HubSteps_boot :
    (let h := (hubS fun h => { h with images := List.replicate 2 { Image.empty with length := 2 ^ 25 + 1 } }).hub
     imageRefusal h (h.image 0) ≠ 0 ∧ h.powered = true ∧ (envOf (some 3) none).failPhase = some 3 ∧
       (envOf none (some 1)).stuck = some 1) ∧
    (let h := (hubS fun h => { h with bootSince := 5, held := 7, time := 90 * 1200000000 + 13 }).hub
     90 * 1200000000 + h.held < h.time - h.bootSince ∧ h.ready = false ∧ h.safe = false ∧ h.holding = false) := by decide +kernel
/-- Readings of class 1, 2 and 3 that arrive together, and at the ends of their ranges. -/
theorem witness_HubSteps_alarms :
    alarmClass (.voltage 50001 1001) = 1 ∧ alarmClass (.voltage 50001 1000) = 0 ∧ alarmClass (.voltage (-150001) 0) = 2 ∧
    alarmClass (.clock false 20001) = 1 ∧ alarmClass (.temperature 125000) = 1 ∧ alarmClass (.lid true) = 3 ∧
    (∀ r ∈ [Reading.lid true, .temperature 125001], alarmClass r ≤ 3) ∧ (∀ r ∈ [Reading.temperature 125001], alarmClass r ≤ 2) := by
  decide +kernel
/-- Requests outside the safe state: power limits at the ends of their range, die 7, a hold to release. -/
theorem witness_HubSteps_requests :
    (((List.range 9).map (· + 1)).all fun op => (askedS op).hub.safe = false && (askedS op).hub.go) = true ∧
    (let s := hubS fun h => { h with go := true, mreq := Memory.writeAll [] ((span 0 8).zip ([1, 0, 0, 0] ++ leBytes 4 5800)) }
     s.hub.reqOp = 1 ∧ s.hub.req 4 4 = 5800) ∧
    (hubS fun h => { h with go := true, safe := true, mreq := [(0, 9)] }).hub.reqOp = 9 ∧
    (hubS fun h => { h with holding := true }).hub.ready = false ∧ State.reset.hub.power ≤ 300 := by decide +kernel
/-- The way of an aperture access that is open, one of a poisoned die, and one whose hub link is down. -/
theorem witness_HostRegisters_way :
    (writable.die 0).service ≠ .poisoned ∧ writable.linkDown 8 0 = false ∧ writable.linkDown 0 8 = false ∧
    (benchD fun d => { d with service := .poisoned }).die 0 ≠ bench.die 0 ∧
    ({ writable with links := [(linkKey 8 0, { LinkDir.fresh with down := true })] } : State).linkDown 8 0 = true ∧
    (let s : State := { writable with links := [] }
     s.linkDown 8 0 = false) ∧
    (none ∈ [some (3 * 2 ^ 16), (none : Option Nat)]) := by decide +kernel

/-! ### Further witnesses: the command processor and the sweep unit -/

/-- Commands of queue 63: one that waits for a signal, one whose signal is at a page that is not present; and with a
QUIESCE that is complete. -/
def waitsAt (a : Nat) (met : Option Bool) : HostCmd := { cmdIn 0 .read with waits := true, wsig := a, wval := 0, met := met }
theorem witness_CommandSteps_start :
    ([(0x8000, none, true), (0x200000, none, false), (0x8000, some true, true)].all fun x =>
      let s := cmdS (waitsAt x.1 x.2.1)
      (ableCmd (s.die 0) 63).isSome && (readElem s 0 (span x.1 8)).1.toOption.isSome = x.2.2) = true ∧
    (pollWaits (cmdS (waitsAt 0x8000 none)) 0).hasDies = true ∧
    (((pollWaits (cmdS (waitsAt 0x8000 none)) 0).die 0).hostCmds.find? 5).any (fun c => c.met = some true) = true ∧
    (((pollWaits (cmdS (waitsAt 0x200000 none)) 0).die 0).hostCmds.find? 5).any (fun c => c.met = some false) = true ∧
    ((bench.die 0).queue 63).prio < 4 ∧ (bench.die 0).quiesced = false := by decide +kernel
theorem witness_CommandSteps_completion :
    (((cmdS { cmdIn 0 (.finished 0 0) with stata := 0x8000, csig := 0x8008, intr := true }).die 0).hostCmds.find? 5).isSome =
      true ∧
    (match checkPass writable 0 0x8000 1 1 1 false with
      | (.refused _, _) => true
      | _ => false) = true ∧
    (writeElem writable 0 ((span 0x8000 8).zip (leBytes 8 1))).1.toOption.isSome = true ∧
    (writeElem writable 0 ((span 0x200000 8).zip (leBytes 8 1))).1.toOption.isSome = false ∧
    (atomicElem writable 0 (span 0x8008 8) (fun _ => .none) fun old => old + 1).1.toOption.isSome = true ∧
    (atomicElem writable 0 (span 0x200000 8) (fun _ => .none) fun old => old + 1).1.toOption.isSome = false ∧
    (memRead writable 0 (span 0x8000 8)).1.toOption.isSome = true ∧ (memRead writable 0 (span 0x200000 8)).1.toOption.isSome = false ∧
    (memWrite writable 0 ((span 0x8000 8).zip (leBytes 8 1))).1.toOption.isSome = true ∧
    (memWrite writable 0 ((span 0x200000 8).zip (leBytes 8 1))).1.toOption.isSome = false := by decide +kernel
/-- A page that migrates in, with its last line missing; a source that an element still touches. -/
def migIn (valid : Nat) : Migration := ⟨1, 5, 0x400000, 0x600000, 0, 0, BitVec.ofNat 1024 valid, 0⟩
def migS (valid : Nat) : State := writable.onDie 0 fun d => { d with migrations := [(0, migIn valid)] }
theorem witness_CommandSteps_pull :
    ((migS (2 ^ 1023 - 1)).die 0).migrations.find? 0 = some (migIn (2 ^ 1023 - 1)) ∧
    (migIn (2 ^ 1023 - 1)).valid.getLsbD 1023 = false ∧ (migIn (2 ^ 1023 - 1)).valid.getLsbD 1022 = true ∧
    (migIn (2 ^ 1023 - 1)).valid ||| BitVec.ofNat 1024 (2 ^ 1023) = BitVec.allOnes 1024 ∧
    (migIn 0).valid ||| BitVec.ofNat 1024 (2 ^ 1023) ≠ BitVec.allOnes 1024 ∧ (migS 0).hasDies = true ∧
    pageInUse ((withCmd (copyCmd .waiting) writable).die 0) 0x8000 = true ∧ pageInUse (writable.die 0) 0x8000 = false ∧
    lineArrived.walkTable (physWrite (writable.die 0) 0x101008 (leBytes 8 (0x102000 / 16 + 1))) 0x200000 = some 0x102000 := by decide +kernel
/-- A QUIESCE with HOLD that is complete, one without, and one with OFFLINE; a die that drains with a target and
without. -/
theorem witness_CommandSteps_quiesce :
    ([(true, false), (false, false), (true, true)].all fun x =>
      let s := benchD fun d => { d with
        quiesced := true, groups := [], quiesce := some ⟨x.2, false, x.1, [5], true⟩ }
      (s.die 0).quiesce = some ⟨x.2, false, x.1, [5], true⟩ && (s.die 0).service = .inService && (s.die 0).groups = []) = true ∧
    (let s := ((hubS fun h => { h with ready := true }).onDie 0 fun d => { d with service := .draining }).onDie 3 fun d =>
       { d with ready := true }
     dieFits s 0 (drainWhole (s.die 0)) 3 && (moveUnits 0 [drainWhole (s.die 0)] s).isSome && (drain s 0).isSome) = true ∧
    moveUnits 0 [drainWhole (bench.die 0)] bench = none ∧ drain bench 0 = none ∧ (bench.die 0).hostCmds.find? 5 = none ∧
    (cmdS (cmdIn 7 (.finished 0 0))).die 0 ≠ bench.die 0 ∧ ((cmdS (cmdIn 7 (.finished 0 0))).die 0).hostCmds.find? 5 ≠ none ∧
    (State.reset.dies.all fun d => d.migrations = []) = true := by decide +kernel

/-! ### Further witnesses: engines, the join engine and links -/

/-- Record 4 in a page of kind RC, and as a command of each form that memory sees, at each of its levels. -/
def opS (op : CmdOp) (level : Nat) : State × Cmd × Elem :=
  let e : Elem := ⟨0, 0, 0, 0, List.replicate 8 1, 0, level, 0, .waiting⟩
  let c := { copyCmd .waiting with op := op, elems := [(0, e)] }
  (withCmd c (pageS 1), c, e)
def rec6 : Rec := { rec4 with esize := 6, extent := 1 }
/-- A participant of two of a collective, whose NEXT is import 3. -/
def partOf (rank : Nat) : CollDesc := ⟨7, 1, rank, 2, 0, 0, 3⟩
theorem witness_GangAndEngineSteps_elements :
    (([(.copyOut 4 rec4, 0), (.copyDd 4 rec4 4 rec4, 0), (.copyDd 4 rec4 4 rec4, 1), (.gath [4, 4] [rec4, rec4] Win.none, 1),
        (.gath [4] [rec4] Win.none, 0), (.scat [4, 4] [rec4, rec4], 1), (.scat [4] [rec4], 0), (.ratom 4 rec4 0 .i64 1, 0),
        (.sigadd 4 rec4 1, 0), (.publish 4, 0), (.launch 4 rec6 63, 0), (.launch 4 rec6 63, 1), (.copyXc 0 8 Win.none, 0),
        (.coll 4 rec4 4 rec4 (partOf 0) .i64, 0), (.coll 4 rec4 4 rec4 (partOf 0) .i64, 2)] : List (CmdOp × Nat)).all
      fun x => let y := opS x.1 x.2
        mayPerform y.1 0 5 0 y.2.1 y.2.2 && (elemAddrs (y.1.die 0) x.1 y.2.2).all fun a => a < 0xFF000000000000) = true ∧
    (let s := pageS 1
     (readElem s 0 (span 0x8000 8)).1.toOption.isSome && (writeElem s 0 ((span 0x8000 8).zip (leBytes 8 1))).1.toOption.isSome &&
       (atomicElem s 0 (span 0x8000 8) (fun _ => .none) fun old => old + 1).1.toOption.isSome &&
       !(readElem s 0 (span 0x200000 8)).1.toOption.isSome && (match (readElem s 0 (span 0x200000 8)).1 with
         | .error e => e.1.1 = 6
         | .ok _ => false) &&
       !(writeElem s 0 ((span 0x200000 8).zip (leBytes 8 1))).1.toOption.isSome) = true ∧
    ((publishRecord (pageS 1) 0 4).1.toOption.isSome = true ∧ rec4.ro = false ∧ rec4.extent = 4) := by decide +kernel
/-- Two participants that close a ring and agree, and one whose neighbour has not issued. -/
def collS (both : Bool) : State :=
  let cmd := fun r => { copyCmd .waiting with op := .coll 4 rec4 4 rec4 (partOf r) .i64, elems := [(0, { mkElem 0 0 0 0 [] 0 with level := 1 })] }
  (pageS 1).onDie 0 fun d => { d with
    exports_ := [(5, ⟨0, 65536, true, true, true, true, 0, true⟩)]
    imports := [(3, mkHandle 0 5 0)], cmds := if both then [(5, cmd 0), (6, cmd 1)] else [(5, cmd 0)] }
theorem witness_GangAndEngineSteps_collective :
    ((collsOpen (collS true) 0).find? fun z => z.cid = 5).isSome = true ∧
    ((collsOpen (collS true) 0).all fun z => (z.fault (collS true)).isNone && !z.held (collS true)) = true ∧
    (let s := (collS false).onDie 0 fun d => { d with exports_ := [] }
     (collsOpen s 0).all fun z => z.fault s = some (7, 7)) = true ∧
    (((collsOpen (collS true) 0).find? fun z => z.cid = 5).bind fun c =>
      (collRing (collS true) c 4096 c []).map fun x => (x.1.map (·.cid), x.2)) = some ([5, 6], true) ∧
    (((collsOpen (collS false) 0).find? fun z => z.cid = 5).any fun c => (collRing (collS false) c 4096 c []).isNone) = true ∧
    (((collsOpen (collS true) 0).zip ((collsOpen (collS true) 0).drop 1)).all fun p => p.1.agrees p.2 && p.1.e.level = 1) = true := by
  decide +kernel
/-- An element wholly in one import of a die of this module that can be reached. -/
def peerS : State := (pageS 1).onDie 0 fun d => { d with imports := [(0, mkHandle 1 5 0)] }
theorem witness_GangAndEngineSteps_import : oneImport (span 0xFF000000000000 8) = true ∧
    (openImport peerS 0 0xFF000000000000).1.toOption = some (mkHandle 1 5 0) := by decide +kernel

/-- A sealed cell from die 1 to die 0 with tag 7, and a state in whose die 0 it stands first on the link. -/
def cellFrom1 (vc type : Nat) (body : CellBody) : Cell := (mkCell 1 0 vc type 7 noPayload body).sealed
def wireS (s : State) (c : Cell) : State := { s with links := [(linkKey 1 0, { LinkDir.fresh with wire := [c] })] }
theorem wireS_held (s : State) (c : Cell) : (wireS s c).linkHeld 1 0 = false := by
  simp [State.linkHeld, State.linkDown, State.linkRetrains, wireS, linkKey, FMap.find?, LinkDir.fresh]
theorem wireS_received (s : State) (vc type : Nat) (body : CellBody) (h : (typesOnVc vc).contains type = true) :
    (receive (wireS s (cellFrom1 vc type body)) 1 0 false).1 = some (cellFrom1 vc type body) :=
  receive_whole _ 1 0 _ [] rfl (by simp [State.link, wireS, FMap.find?]) (wireS_held s _)
    (intact_sealed 1 0 vc type 7 noPayload body h) rfl
theorem wireS_die (s : State) (c : Cell) (n : Nat) :
    (freeBuffer (receive (wireS s c) 1 0 false).2 1 0 c).die n = s.die n := by
  simp only [freeBuffer_die, receive_die]; rfl
/-- The answers and the `kd` cells of die 1 are received: read data, a completion, an atomic's result, a fault reply, a
push and a return. -/
theorem witness_LinkSteps_received : ∀ x ∈ ([(1, 0x10, .readData [1]), (1, 0x11, .done), (1, 0x12, .atomicResult 1),
    (1, 0x13, .fault 8 2 0), (2, 0x20, .kdPush ⟨0, 0, 0⟩ 1 1 [] 0 0), (2, 0x21, .kdReturn 0 0 1), (3, 0x31, .none)] :
      List (Nat × Nat × CellBody)),
    (receive (wireS bench (cellFrom1 x.1 x.2.1 x.2.2)) 1 0 false).1 = some (cellFrom1 x.1 x.2.1 x.2.2) ∧
      (cellFrom1 x.1 x.2.1 x.2.2).dst = 0 ∧ (cellFrom1 x.1 x.2.1 x.2.2).type = x.2.1 := fun x hx =>
  ⟨wireS_received bench _ _ _ ((by decide : ∀ y ∈ ([(1, 0x10), (1, 0x11), (1, 0x12), (1, 0x13), (2, 0x20), (2, 0x21), (3, 0x31)] :
      List (Nat × Nat)), (typesOnVc y.1).contains y.2 = true) (x.1, x.2.1) (List.mem_map_of_mem (f := fun x => (x.1, x.2.1)) hx)),
    rfl, rfl⟩
/-- Die 0 waits for two answers, 7 and 8, of its element; or pulls the last line of page 0 under tag 7. -/
def waitS : State := (withCmd (copyCmd (.sent [7, 8])) writable).onDie 0 fun d => { d with remote := [(7, (5, 0, 0)), (8, (5, 0, 8))] }
def pullS : State := (migS (2 ^ 1023 - 1)).onDie 0 fun d => { d with pulls := [(7, (0, 1023))] }
theorem witness_LinkSteps_answers :
    (let d := (freeBuffer (receive (wireS waitS (cellFrom1 1 0x10 (.readData [1]))) 1 0 false).2 1 0
       (cellFrom1 1 0x10 (.readData [1]))).die 0
     d.pulls.find? 7 = none ∧ d.remote.find? 7 = some (5, 0, 0) ∧ (d.cmds.find? 5).any (fun c =>
       (c.elems.find? 0).any fun e => e.state = .sent [7, 8]) = true ∧ [7, 8].erase 7 ≠ [] ∧ [7].erase 7 = []) ∧
    (let d := (freeBuffer (receive (wireS pullS (cellFrom1 1 0x13 (.fault 8 2 0))) 1 0 false).2 1 0
       (cellFrom1 1 0x13 (.fault 8 2 0))).die 0
     d.pulls.find? 7 = some (0, 1023) ∧ (d.migrations.find? 0).isSome = true) := by
  simp only [wireS_die]
  decide +kernel
/-- The halves of a push that the bench's gang can take, one alone, a return, and a push that no gang can take. -/
def kdS (ws : List KdWaiting) : State :=
  benchD fun d => { d with kdWaiting := ws, launches := [(0, ⟨0, 1, 1, false, false, 0, [], 0, []⟩)] }
def halfOf (half : Nat) : KdWaiting := ⟨⟨0, 0, 0⟩, half, 1, [9], 1, 0, 0⟩
theorem witness_LinkSteps_kd :
    kdReceiver ((kdS []).die 0) ⟨0, 0, 0⟩ = some (0, 0) ∧ kdReceiver ((kdS []).die 0) ⟨64, 0, 0⟩ = none ∧
    ((kdS [halfOf 0, halfOf 1]).die 0).kdWaiting = [halfOf 0, halfOf 1] ∧ (halfOf 1).half < 2 ∧
    ((kdS []).die 0).group 0 ≠ none ∧ ((kdS []).die 0).group 1 = none ∧
    (((kdS []).die 0).group 0).any (fun g => g.runs && !g.pre && decide (0 < g.gangs.length)) = true := by decide +kernel
/-- The third failure of a link's retraining, with an element of die 0 whose way needs it. -/
def failS : State :=
  let e : Elem := ⟨0, 0, 0, 0, [], 0, 0, 0, .sent [7]⟩
  { (benchD fun d => { d with
      imports := [(0, mkHandle 1 5 0)]
      cmds := [(5, { copyCmd .waiting with op := .copyIn 4 { rec4 with base := 0xFF000000000000 } Win.none, elems := [(0, e)] })] })
    with links := [(linkKey 1 0, { LinkDir.fresh with replays := 17, retrains := 2 })] }
theorem witness_LinkSteps_retrain : (failS.link 1 0).any (fun x => 17 ≤ x.replays && !x.down && 2 ≤ x.retrains) = true ∧
    linkPort 1 0 = none ∧ 0 < failS.dies.length ∧ (∀ d < 8, (failS.die d).pulls = [] ∧ (d ≠ 0 → (failS.die d).cmds = [])) ∧
    (let t : State := { failS with links := [(linkKey 1 0, { LinkDir.fresh with down := true })] }
     ((t.die 0).cmds.find? 5).any fun c => (c.elems.find? 0).any fun e => (unreachable t 0 c e).isSome) = true := by
  decide +kernel

/-- Two halves of a launch: groups that can all be pre-empted together, and one with an element in flight. -/
theorem witness_SweepSteps_together :
    elementsQuiet ((withCmd (copyCmd (.sent [7])) bench).die 0) 0 = false ∧ elementsQuiet (bench.die 0) 0 = true ∧
    (((bench.die 0).group 0).any fun g => g.runs && !g.pre && g.gangs.any fun v => v.liveQuads ≠ []) = true ∧
    exitedEnded (bench.die 0) (((bench.die 0).group 0).getD benchGroup) 0 = true := by decide +kernel
/-- An entry of each kind at the head of the queue of the bench's core; its session is open. -/
def queueJ (op : JoinOp) (block : Bool) (ds : FMap Drawer) : State :=
  ownS fun j => { j with queue := [entryOf op], session := openSession block, drawers := ds }
def at0 : JAt := ⟨0, 0, 0, 0⟩
/-- A k-block that is a step and one that is not; tuples that pair, end and fall; a lane to accumulate; a full drawer. -/
theorem witness_GangAndEngineSteps_entries :
    (let f := fun bits => JoinOp.jmms 0 1 0 0 bits 1 2 2 0 1
     (runEntry at0 (queueJ (f 1) true []) (entryOf (f 1))).2 = .done ∧
     (runEntry at0 (queueJ (f 0) true []) (entryOf (f 0))).2 = .done) ∧
    (let ta : List (List Word) := [[1, 5, 2]]
     let tb : List (List Word) := [[5, 1, 3], [5, 2, 3], [4, 0, 0]]
     seekPair ta tb 1 2 4 0 0 = .pair 0 0 ∧ seekPair ta tb 1 2 4 1 0 = .ended ∧ seekPair [[1, 6, 2]] tb 1 3 5 0 1 = .fall) ∧
    (let op := JoinOp.cacc 1 [(3, 5, [7])]
     (runEntry at0 (queueJ op false []) (entryOf op)).2 = .done) ∧
    (let op := JoinOp.cdrain true none ⟨0, 4096, 0⟩ 0
     (runEntry at0 (queueJ op false [(9, ⟨5, [7]⟩)]) (entryOf op)).2 = .more ∧
     (runEntry at0 (queueJ op false []) (entryOf op)).2 = .done ∧
     ([(9, (⟨5, [7]⟩ : Drawer))].map (·.1)).Pairwise (· < ·) ∧
     FMap.find? [(9, (⟨5, [7]⟩ : Drawer))] (1 * 9) = some ⟨5, [7]⟩) ∧
    (let op := JoinOp.csave 4 rec4 0
     (runEntry at0 (queueJ op false []) (entryOf op)).2 ≠ .more) := by decide +kernel

/-! ### Further witnesses: results, code, images, links -/

/-- Results whose destination is an indexed register or a pair, a predicate, `g`, a scalar or a pair of scalars. -/
theorem witness_LaneResults_masked : (let c := cx (benchG fun k => { k with xwin := [(7, (500, 76))] })
    c.qs.Nodup ∧ c.qs ≠ [] ∧ (FMap.get (0, 0) c.k.xwin 7).1 + (FMap.get (0, 0) c.k.xwin 7).2 ≤ 576 ∧ 7 < 8 ∧
      c.k.core < c.grp.homes.length ∧ 6 + true.toNat < 8 ∧ 7 + false.toNat < 8 ∧ c.em ≠ 0) ∧
    (Reg.s 63).wf = true ∧ (Reg.s 62).oddPair = false ∧ (Reg.hs 7).wf = true ∧ (Reg.hs 6).oddPair = false := by decide +kernel
/-- An `atom` of each order, `ratom`, `publish`, `launch` and `cprobe` with no executing lane. -/
theorem witness_JoinOwnership_skipped :
    ((readyCx bench 0x18B (.e ⟨hF, m0, .v 4, .reg 0 (.v 2), .reg 0 (.v 8), Desc.zero⟩) hF).any fun c => c.em = 0 && !c.nh) = true ∧
    ((engineReady bench 0x147 { oe hF 0 (.record 4) (.reg 0 (.v 2)) (.reg 0 (.v 6)) with d := .v 4 }).any fun p => p.em = 0) =
      true := by decide +kernel
/-- A line of code that its group goes on fetching, with two later writes, numbers 4 and 7. -/
def keptL : KeptLine := ⟨[1], [⟨[2], 4⟩, ⟨[3], 7⟩]⟩
def keptS : State := benchP fun g => { g with code := [(codeKey 0 0x200000, keptL)] }
theorem witness_WaitsAndFences_code : keptL.later ≠ [] ∧
    KeptLine.acquire [4] keptL.later keptL = some ⟨[2], [⟨[3], 7⟩]⟩ ∧ KeptLine.acquire [5] keptL.later keptL = some keptL ∧
    KeptLine.acquire [7] keptL.later keptL = none ∧
    ((keptS.die 0).group 0).any (fun g => (g.code.map (·.1)).Nodup) = true ∧ keptS.hasDies = true ∧
    (cx keptS).grp.code ≠ [] := by decide +kernel
/-- A release at .die by a gang, as another group of its die and a group of another die acquire it; the releases of a gang
that has fenced at .die after it came to know of write 4. -/
theorem witness_WaitsAndFences_releases :
    acquired [⟨.gang 0 0 0, 2, [4, 7]⟩] (.gang 0 1 0) 2 = [4, 7] ∧ acquired [⟨.gang 0 0 0, 2, [4]⟩] (.gang 0 1 0) 1 = [] ∧
    acquired [⟨.gang 0 0 0, 2, [4]⟩] (.gang 1 1 0) 4 = [] ∧ acquired [⟨.host, 4, [4]⟩] (.gang 1 1 0) 4 = [4] ∧
    (let k := ((Know.empty.learn 1 [4]).fence 2 3).learn 5 [7]
     k.releases (.gang 0 0 0) 6 (some 1) = [⟨.gang 0 0 0, 1, [4, 7]⟩, ⟨.gang 0 0 0, 2, [4]⟩] ∧ k.releases (.gang 0 0 0) 2 none = []) := by
  decide +kernel
/-- A `sysrd` into t0, and `syswr` of a register that is not there. -/
theorem witness_SpecialRegisters_codes :
    ((issuedCx bench 0x1C2 h0).any fun c => (regFault c.k c.grp.regs c.sup 0x1C2 (.s (os (.t 0) (.imm 2) (.v 0)))).isSome &&
      (regFault c.k c.grp.regs c.sup 0x1C2 (.s (os (.v 4) (.imm 0xC) (.v 0)))).isNone) = true ∧
    ((issuedCx supS 0x1C3 h0).any fun c => c.sup && (regFault c.k c.grp.regs c.sup 0x1C3 (.s (os (.v 0) (.imm 2) (.v 575)))).isSome &&
      (regFault c.k c.grp.regs c.sup 0x1C3 (.s (os (.v 0) (.imm 3) (.s 2)))).isNone) = true := by decide +kernel
/-- A page that a migration has taken from its 2 MiB leaf. -/
theorem witness_PagesAndTranslations_gone :
    (let d := { (pageS 1).die 0 with gone := [(0x101000, 0)] }
     d.gone ≠ [] ∧ (walk { d with gone := [] } 0).toOption.isSome = true) := by decide +kernel
/-- The group of the bench has an image, and so has its core. -/
theorem witness_SaveAndFreeze_images :
    (let g := ((bench.die 0).group 0).getD benchGroup
     g.fits = true ∧ (g.gang 0).fits = true ∧ (g.home 0).fits = true ∧
       gangImageOk g 0 (gangLines g 0 false 0 ++ pendingLinesOf 0 none) = true ∧ coreImageOk g (coreLines g 0) = true) := by
  decide +kernel
/-- Record 5 of 2,000 elements of zeros, of which the bench's core image and its gang image are read. -/
def imagesS : State := poke ((pageS 1).onGang 0 0 0 (allQuads fun u => { u with sup := true })) 0xA0
  (leBytes 8 (6 * 2 ^ 60 + 0x8000 + 0x20) ++ leBytes 8 0 ++ leBytes 8 2000 ++ leBytes 8 0)
theorem witness_SaveAndFreeze_load :
    ((readyCx imagesS 0x1C9 (.s { os (.v 0) (.imm 5) (.s 0) with m := ⟨.i32, 1, 0⟩ }) h0).any fun c =>
      c.em ≠ 0 && (match c.loadLines { os (.v 0) (.imm 5) (.s 0) with m := ⟨.i32, 1, 0⟩ } 0 3 with
        | some (.ok ls, _) => ls.length = 3
        | _ => false) && (match c.loadLines { os (.v 0) (.imm 6) (.s 0) with m := ⟨.i32, 1, 0⟩ } 0 3 with
        | some (.error e, _) => e = ((5, 2), 0)
        | _ => false) && (match c.loadLines { os (.v 0) (.imm 5) (.s 0) with m := ⟨.i32, 1, 0⟩ } 1998 3 with
        | some (.error e, _) => e = ((5, 1), 2000)
        | _ => false)) = true := by decide +kernel
/-- With no command of its gang, and none queued or the join engine frozen, an image waits for nothing. -/
theorem witness_SaveAndFreeze_waits :
    (let c := cx imagesS
     (∀ y ∈ (c.s.die c.dn).cmds, ¬ (y.2.gid = c.gid ∧ y.2.gang = c.gi)) ∧ joinQueued c.s c.dn c.gid c.gi = []) := by
  decide +kernel

/-- A die that drains while a page of it migrates; one group that is being restored, one whose quads have stopped. -/
theorem witness_CommandSteps_moving :
    (migS 0).die 0 ≠ writable.die 0 ∧ (migIn 0).valid ≠ BitVec.allOnes 1024 ∧ (migIn 0).src = 1 := by decide +kernel
/-- A line that has not been asked for, one that has, without and with an answer on its way. -/
theorem witness_CommandSteps_asked : ((migS (2 ^ 1023 - 1)).die 0).pulls = [] ∧
    (pullS.die 0).pulls = [(7, (0, 1023))] ∧ pullAnswer pullS 0 (64 * 1023) = none ∧
    (pullAnswer { pullS with links := [(linkKey 1 0, { LinkDir.fresh with replay := [cellFrom1 1 0x10 (.readData [1])] })] } 0
      (64 * 1023)).isSome = true := by decide +kernel
theorem witness_SweepSteps_restoring :
    (((benchP fun g => { g with pre := true, restore := true }).die 0).group 0).any (fun g => g.runs && g.pre && g.restore &&
      g.gangs.any fun v => v.liveQuads ≠ []) = true := by decide +kernel
/-- The last-result files of two quads have shifted since the instruction that lands. -/
theorem witness_GangAndEngineSteps_landing :
    ((([(0, 2), (7, 3)] : FMap Nat).map (·.1)).Nodup) ∧
    (let c := cx (benchG fun k => { k with shifts := [(0, 3), (7, 3)] })
     FMap.get 0 c.k.shifts 0 - 2 = 1 ∧
       ((c.land false (.v 1) [(0, 2), (7, 3)] 0xFFFFFFFF fun l => BitVec.ofNat 64 (l + 1)).row 625).lane 3 = 4) := by decide +kernel
/-- An `ratom` that has completed, and `publish` with a predicate of which the element faulted. -/
theorem witness_GangAndEngineSteps_registers :
    (let cmd : Cmd := { copyCmd .performed with op := .ratom 4 rec4 0 .i64 1, isA := true, dest := some (Reg.v 4).code, wide := true,
                                                marks := [(0, 0)] }
     let s := withCmd cmd recS
     oldest (s.die 0) cmd && !heldBack s 0 cmd && cmd.elems.all (fun x => !x.2.pending) && 0 < ((bench.die 0).groups).length) =
      true ∧ regOf (Reg.p 2).code = .p 2 := by decide +kernel
/-- Two participants whose sequence numbers differ, over commands with numbers of their own; a way that retrains. -/
theorem witness_GangAndEngineSteps_disagree :
    ((collS true).dies.all fun d => (d.cmds.map (·.1)).Nodup) = true ∧
    (let s := { collS true with links := [(linkKey 0 8, { LinkDir.fresh with replays := 17 })] }
     s.linkRetrains 0 8 = true) := by decide +kernel

/-- What an entry of the queue of the bench's core makes of it. -/
def ran (op : JoinOp) : State × JDone := runEntry at0 (queueJ op false [(9, ⟨5, [7]⟩)]) (entryOf op)
/-- Headers of a tile that `tfill` takes and refuses, trays that `tload` takes and refuses, and the rest. -/
theorem witness_GangAndEngineSteps_fills :
    (ran (.tfill 1 [(12288, 1)] true none)).2 = .done ∧ (ran (.tfill 1 [] true none)).2 = .misuse ∧
    (ran (.tload [])).2 = .done ∧ (ran (.tload [(1032, 2)])).2 = .misuse ∧ (ran (.cstat 0)).2 = .done ∧
    (ran (.cprobe [(0, 5)] none 1)).2 = .done := by decide +kernel
theorem witness_GangAndEngineSteps_stores :
    (ran (.tstore 1 ⟨0, 4096, 0⟩ 0 false)).2 = .done ∧ (ran (.tsave ⟨0, 4096, 0⟩ 0)).2 = .done := by decide +kernel
/-- An image of a session whose first word is `word`, with one drawer, and what `cload` of a record of that many elements
makes of it: one that is not open, one that is, one of ACC 3, one beyond the record, and one whose drawers meet. -/
def cloads (word n : Nat) : JDone × Bool × Bool :=
  let op := JoinOp.cload 5 { rec6 with extent := n } 0
  let line := List.replicate 42 0 ++ [1] ++ List.replicate 21 0
  let r := runEntry at0 (poke (queueJ op false []) 0x8000 (leBytes 8 word ++ List.replicate 56 0 ++ line ++ line)) (entryOf op)
  (r.2, ((r.1.die 0).core 0).session.isOpen, ((r.1.die 0).core 0).drawers = [(0, ⟨0, List.replicate 8 0⟩)])
theorem witness_GangAndEngineSteps_cload :
    cloads 0 3 = (.done, true, false) ∧ cloads (2 ^ 63 + 1) 3 = (.done, true, true) ∧
    (cloads (2 ^ 63 + 3 * 2 ^ 60) 3).1 = .misuse ∧ cloads (2 ^ 63 + 1) 1 = (.done, true, false) ∧
    cloads (2 ^ 63 + 1) 0 = (.done, true, false) ∧ cloads (2 ^ 63 + 2) 3 = (.misuse, true, true) := by decide +kernel
/-- The requester of a cell from die 1, and of one from another module; a write that its exporter takes and refuses. -/
theorem witness_LinkSteps_requests :
    requester ((withCmd (copyCmd (.sent [7])) writable).onDie 0 fun d => { d with remote := [(7, (5, 0, 0))] })
      (cellFrom1 0 0x01 .none) = none ∧
    requester ((withCmd (copyCmd (.sent [7])) writable).onDie 0 fun d => { d with remote := [(7, (5, 0, 0))] })
      { cellFrom1 0 0x01 .none with src := 0 } = some (5, copyCmd (.sent [7])) ∧
    (partsCheck reqS (mkHandle 0 5 0) .write [(0, 8)]).1.toOption.isSome = true ∧
    (partsCheck reqS (mkHandle 0 6 0) .write [(0, 8)]).1.toOption.isSome = false ∧
    (partsWrite (mkHandle 0 5 0) [(0, [1])] reqS).1.toOption.isSome = true ∧
    (partsWrite (mkHandle 0 6 0) [(0, [1])] reqS).1.toOption.isSome = false := by decide +kernel
theorem witness_LinkSteps_resend :
    (let x : LinkDir := { LinkDir.fresh with replays := 16, replay := [cellFrom1 0 0x01 .none] }
     x.replay.dropWhile (fun c => decide (c.seq ≠ 0)) ≠ [] ∧ 16 ≤ x.replays) := by decide +kernel

/-! ### Words of the spec -/

/-- R242, chapter 13: `vcvt.e4m3.f32.rz v9, v3`. -/
theorem test_decode_vcvt : decodeTableWord 96 0x04011600E000000000000C09 =
    some (.vcvt ⟨h0, ⟨.e4m3, 0, 1⟩, .v 9, src (.v 3), z0, z0⟩) := by decide +kernel
/-- Chapter 23: `vffma ke, v6, v7, kw`. -/
theorem test_decode_vffma : decodeTableWord 96 0x02181000E02E500038001AE3 =
    some (.vffma ⟨h0, ⟨.f32, 0, 0⟩, .port .ke, src (.v 6), src (.v 7), src (.port .kw)⟩) := by decide +kernel
/-- Chapter 20: `vadd.n32 v13, v10:bf16, 12289` and `vmulhi.n32 v14, v10, 349496`. -/
theorem test_decode_vadd : decodeTableWord 96 0x10000200E00001800D00280D =
    some (.vadd ⟨h0, ⟨.n32, 0, 0⟩, .v 13, .reg (.v 10) (.bf 16), .imm 12289, z0⟩) := by decide +kernel
theorem test_decode_vmulhi : decodeTableWord 96 0x10180200E0002AA9C000280E =
    some (.vmulhi ⟨h0, ⟨.n32, 0, 0⟩, .v 14, src (.v 10), .imm 349496, z0⟩) := by decide +kernel
/-- Chapter 14: `vred.add.i32 v14, v6, v13`; chapter 22: `vmatch v5, v3`. -/
theorem test_decode_vred : decodeTableWord 96 0x08100000E00000006800180E =
    some (.vred ⟨h0, m0, .v 14, src (.v 6), src (.v 13), z0⟩) := by decide +kernel
theorem test_decode_vmatch : decodeTableWord 96 0x08200000E000000000000C05 =
    some (.vmatch ⟨h0, m0, .v 5, src (.v 3), z0, z0⟩) := by decide +kernel
/-- Chapter 23: `pbind ke, 1`. -/
theorem test_decode_pbind : decodeTableWord 96 0x18400000E0000000080B8C00 =
    some (.pbind ⟨h0, m0, .v 0, src (.port .ke), .imm 1, z0⟩) := by decide +kernel
/-- Chapter 14: `rep 8` with offset 4, `if p2` with offset 3; chapters 19 and 23: `bra.any s8` with offset 10, `rep s2`
with offset 4. -/
theorem test_decode_rep : decodeTableWord 96 0x26600000E000000024002000 = some (.rep ⟨h0, m0, .imm 8, 4⟩) := by decide +kernel
theorem test_decode_if : decodeTableWord 96 0x26000000E0000000180B2800 =
    some (.ifMask ⟨h0, m0, .reg (.p 2), 3⟩) := by decide +kernel
theorem test_decode_bra : decodeTableWord 96 0x26480000E0000000500A2000 =
    some (.bra ⟨h0, m0, .reg (.s 8), 10⟩) := by decide +kernel
theorem test_decode_rep_register : decodeTableWord 96 0x26600000E0000000200A0800 =
    some (.rep ⟨h0, m0, .reg (.s 2), 4⟩) := by decide +kernel
/-- Chapter 15: `atom.add.i32.rlx.com.grp v16, w3[v15+0], v14` and `copy.in w1[v2+0], b3[v1]`; chapter 22:
`st.f32 w2[v8+0], v7` and `publish.die b3`. -/
theorem test_decode_atom : decodeTableWord 96 0x3A112000E000E00001603C10 =
    some (.atom ⟨h0, ⟨.i32, 1, 1⟩, .v 16, 3, .v 15, 0, 0, .v 14⟩) := by decide +kernel
theorem test_decode_copy : decodeTableWord 96 0x4A200000E000180019200800 =
    some (.copy ⟨h0, m0, .v 0, .win 1 (.v 2), .record 3, .reg 0 (.v 1)⟩) := by decide +kernel
theorem test_decode_st : decodeTableWord 96 0x3A081000E000700001402000 =
    some (.st ⟨h0, ⟨.f32, 0, 0⟩, .v 0, 2, .v 8, 0, 0, .v 7⟩) := by decide +kernel
theorem test_decode_publish : decodeTableWord 96 0x4A520000E000000004000C00 =
    some (.publish ⟨h0, ⟨.i32, 0, 2⟩, .v 0, .record 3, Desc.zero, Desc.zero⟩) := by decide +kernel
/-- Chapter 16: `jmm tl0, tl1, s12, s13` and `copen.blk.f32 b9, 4`; chapter 21: `copen.sc.f32 b3, 1`,
`jstream.w1 w1[zero], w2[zero], s20` and `cacc.w1 v8, v10`. -/
theorem test_decode_jmm : decodeTableWord 96 0x4C280000E028C4200200028D =
    some (.jmm ⟨h0, m0, .s 13, .tile 0, .tile 1, .reg 0 (.s 12)⟩) := by decide +kernel
theorem test_decode_copen : decodeTableWord 96 0x4C503000EC00860024002400 =
    some (.copen ⟨h0, ⟨.f32, 1, 0⟩, .v 0, .record 9, .imm 4, .imm 8⟩) := by decide +kernel
theorem test_decode_copen_scalar : decodeTableWord 96 0x4C501000EC0016000C000C00 =
    some (.copen ⟨h0, ⟨.f32, 0, 0⟩, .v 0, .record 3, .imm 1, .imm 1⟩) := by decide +kernel
theorem test_decode_jstream : decodeTableWord 96 0x4C380000E0294296C12B6000 =
    some (.jstream ⟨h0, m0, .v 0, .win 1 (.con .zero), .win 2 (.con .zero), .reg 0 (.s 20)⟩) := by decide +kernel
theorem test_decode_cacc : decodeTableWord 96 0x4C580000E000000050002000 =
    some (.cacc ⟨h0, m0, .v 0, .reg 0 (.v 8), .reg 0 (.v 10), Desc.zero⟩) := by decide +kernel
/-- Chapter 17: `trap 0x2A` and `sysrd v4, cyc`; chapter 23: `gsave.gang b4, hs2`. -/
theorem test_decode_trap : decodeTableWord 96 0x5E000000E000000150000000 =
    some (.trap ⟨h0, m0, .v 0, .reg (.v 0), .v 0, .v 0, 0x2A⟩) := by decide +kernel
theorem test_decode_sysrd : decodeTableWord 96 0x5E100000E000000004000404 =
    some (.sysrd ⟨h0, m0, .v 4, .imm 1, .v 0, .v 0, 0⟩) := by decide +kernel
theorem test_decode_gsave : decodeTableWord 96 0x5E400000E000001754001000 =
    some (.gsave ⟨h0, m0, .v 0, .imm 4, .hs 2, .v 0, 0⟩) := by decide +kernel
/-- R206, R223: bit 95 alone makes a word trap with reason 2. -/
theorem test_decode_reserved_bit : (match decodeWord true (2 ^ 95 + 0x5E100000E000000004000404) with
    | .error c => c == (1, 2)
    | .ok _ => false) = true := by decide +kernel

/-! ### One step -/

/-- The state after an instruction on a state. -/
def after (i : Instr) (s : State) : State :=
  match exec i s with
  | .next t => t
  | _ => s
/-- Lane `l` of the register of code `n` after an instruction. -/
def laneAfter (i : Instr) (s : State) (n l : Nat) : Word :=
  (FMap.get zeroRow (gangIn (after i s) ⟨0, 0, 0, 0⟩).lanes n).lane l
/-- The bench with one value in every lane of each of some registers. -/
def regsS (rs : List (Reg × Word)) : State :=
  benchG fun k => { k with lanes := rs.foldl (fun m r => FMap.set zeroRow m r.1.code (rowOf fun _ => r.2)) k.lanes }
def q0 (s : State) : Quad := quadIn s ⟨0, 0, 0, 0⟩ 0

/-- R229: addition wraps, and clamps under `.sat`. -/
theorem test_step_vadd_wraps : laneAfter (.vadd rr) (regsS [(.v 2, 0x7FFFFFFF), (.v 3, 1)]) 1 31 = 0x80000000 := by
  decide +kernel
theorem test_step_vadd_saturates :
    laneAfter (.vadd { rr with m := ⟨.i32, 0, 1⟩ }) (regsS [(.v 2, 0x7FFFFFFF), (.v 3, 1)]) 1 31 = 0x7FFFFFFF := by
  decide +kernel
/-- R230: an arithmetic shift of the width or more gives the sign. -/
theorem test_step_vshr_sign : laneAfter (.vshr rr) (regsS [(.v 2, 0x80000000), (.v 3, 40)]) 1 0 = 0xFFFFFFFF := by
  decide +kernel
/-- R127: t0 takes the result, unless the instruction carries `%nh`. -/
theorem test_step_last_result : laneAfter (.vadd rr) (regsS [(.v 2, 2), (.v 3, 3)]) 624 5 = 5 := by decide +kernel
theorem test_step_no_last_result :
    laneAfter (.vadd { rr with h := { h0 with nh := true } }) (regsS [(.v 2, 2), (.v 3, 3)]) 624 5 = 0 := by decide +kernel
/-- R232: 1.5 + 1.5 = 3. -/
theorem test_step_vfadd : laneAfter (.vfadd rf) (regsS [(.v 2, 0x3FC00000), (.v 3, 0x3FC00000)]) 1 0 = 0x40400000 := by
  decide +kernel
/-- Chapter 13: 500.0 is 0x7E as E4M3 under SATC = 1. -/
theorem test_step_vcvt : laneAfter (.vcvt ⟨h0, ⟨.e4m3, 0, 1⟩, .v 9, src (.v 3), z0, z0⟩) (regsS [(.v 3, 0x43FA0000)]) 9 0 =
    0x7E := by decide +kernel
/-- R309, R313: `trap 0x2A` saves the PC after it, the class and the mask, and goes to the handler at 0x4000. -/
theorem test_step_trap :
    (let u := q0 (after (.trap { o5 with imm := 0x2A }) (trapS bench))
     (u.sup, u.epc, u.eclass, u.emask, u.eflt, u.pc) = (true, 1, 15, 0xF, 0xF, 5 * 0x4000 / 64)) := by decide +kernel
/-- R222: `halt` in user state is an illegal instruction with reason 5. -/
theorem test_step_privileged :
    (let t := after (.halt o5) (trapS bench)
     ((q0 t).eclass, (FMap.get FaultRec.none (gangIn t ⟨0, 0, 0, 0⟩).records 0).reason) = (1, 5)) := by decide +kernel
/-- R316: `rfe` returns to EPC with LMASK from EMASK. -/
theorem test_step_rfe :
    (let u := q0 (after (.rfe o5) (benchQ fun u => { u with sup := true, epc := 12, emask := 0xD, lmask := 1 }))
     (u.sup, u.pc, u.lmask) = (false, 12, 0xD)) := by decide +kernel
/-- R250: `rep 2` opens level 0 over the next three instructions. -/
theorem test_step_rep :
    (let u := q0 (after (.rep ⟨h0, m0, .imm 2, 4⟩) bench)
     (u.pc, u.reps, u.lc) = (1, [⟨1, 4⟩], [2, 0, 0])) := by decide +kernel
/-- R251: `exit` discards the call stack and ends the quad. -/
theorem test_step_exit :
    (let u := q0 (after (.exit ⟨h0, m0, .reg (.v 0), 0⟩) (benchQ fun u => { u with calls := [⟨3, 0⟩] }))
     (u.exited, u.calls) = (true, [])) := by decide +kernel
/-- R270: a word stored at offset 4092 is the last of the area; one at 4,094 parks its lane. -/
theorem test_step_st :
    (((after (.st (om 0)) (regsS [(.v 2, 4092), (.v 8, 0x01020304)])).die 0).group 0).any
      (fun g => (g.home 0).area.readAll [4092, 4093, 4094, 4095] = [4, 3, 2, 1]) = true := by decide +kernel
theorem test_step_st_misaligned :
    (quadIn (after (.st (om 0)) (regsS [(.v 2, 4094), (.v 8, 1)])) ⟨0, 0, 0, 0⟩ 7).park = 0xF := by decide +kernel
/-- R312: TRAPBASE keeps bits 55 to 8. -/
theorem test_step_syswr :
    ((after (.syswr (os (.v 0) (.imm 0x106) (.s 2))) (supS.onGang 0 0 0 fun k =>
      { k with scal := FMap.set 0 k.scal (Reg.s 2).code 0x12FF })).die 0).trapbase = 0x1200 := by decide +kernel
/-- R207: the step fetches the word that stands at the PC and counts one cycle. -/
theorem test_step_fetch :
    (match step (State.reset.withFetchWord 96 0x26600000E000000024002000) with
     | .next t => ((q0 t).pc, (q0 t).lc, (t.die 0).cyc) == (1, [8, 0, 0], 1)
     | _ => false) = true := by decide +kernel

end Closed

end Sys2Proof.Tests
end

/-!
The privileged instructions (R222): in user state each stops at its issue with an illegal-instruction trap, before any
check of its own; `trap`, `brkpt` and `sysrd` are issued in either state.
-/
namespace Sys2Proof.Machine

/-! ### A privileged instruction in user state -/

/-- No privileged instruction is a convergence point, so no quad vectors before its trap (R184). -/
theorem convergenceOps_of_privileged {op : Nat} (hp : privileged op = true) : convergenceOps.contains op = false := by
  simp only [privileged, List.contains_eq_mem, List.mem_cons, List.not_mem_nil, or_false, decide_eq_true_eq] at hp
  rcases hp with rfl | rfl | rfl | rfl | rfl | rfl | rfl | rfl | rfl | rfl <;> rfl

section
variable {s : State} {sg : SubGang} {c : Cx} {op : Nat} {ops : Ops} {h : Head}

/-- The issue of a privileged instruction in user state: every quad of the sub-gang traps, whatever the instruction's
checks and effect are. -/
theorem issueChecked_privileged {checks : Cx → Option (Cause × Word)} {body : Cx → Option Cx}
    (hp : privileged op = true) (hcur : s.cur = some sg) (hopen : openCx s sg op h = some c)
    (hb : c.blocked = false) (hs : c.sup = false) :
    issueChecked op ops h s checks body =
      .next ({ c.enter with out := c.qs.map fun q => (q, .trap 1 5 0) } : Cx).finished := by
  have hq : c.qs.isEmpty = false := by simpa using openCx_qs hopen
  have hconv : convergenceOps.contains op = false := convergenceOps_of_privileged hp
  have htrap : trapAll c.enter (clsIllegal, 5) 0 =
      .next ({ c.enter with out := c.qs.map fun q => (q, .trap 1 5 0) } : Cx).finished := by
    rw [← Cx.enter_qs c]
    exact trapAll_next c.enter (clsIllegal, 5) 0
  simp only [issueChecked, hcur, hopen, hb, hconv, Cx.enter_qs, hq, hp, Cx.enter_sup, hs, htrap, Bool.false_eq_true,
    if_false, Bool.not_false, Bool.and_self, if_true]

/-- In user state `rfe` is issued as any other instruction: its part in a pre-emption is for supervisor state. -/
theorem execRfe_user {o : OpsS} (hcur : s.cur = some sg) (hopen : openCx s sg 0x1C1 o.h = some c)
    (hs : c.sup = false) : ∃ body, execRfe o s = issueWith 0x1C1 (.s o) o.h s body := by
  refine ⟨fun c => some { c.qs.foldl Cx.rfeQuad c with k := (c.qs.foldl Cx.rfeQuad c).k.wake }, ?_⟩
  simp [execRfe, hcur, hopen, hs]

end

/-- The ten privileged instructions with their opcodes (R222). -/
def privilegedInstrs (o : OpsS) : List (Nat × Instr) :=
  [(0x1C1, .rfe o), (0x1C3, .syswr o), (0x1C4, .fltrd o), (0x1C5, .unpark o), (0x1C6, .pmap o),
    (0x1C7, .tlbinv o), (0x1C8, .gsave o), (0x1C9, .gload o), (0x1CA, .jfrz o), (0x1CB, .halt o)]

/-- Each of them has that opcode, which is privileged, and `rfe` alone has 0x1C1. -/
theorem privilegedInstrs_opcode {o : OpsS} {op : Nat} {i : Instr} (hi : (op, i) ∈ privilegedInstrs o) :
    opcodeAndOps i = some (op, .s o) ∧ privileged op = true ∧ (op = 0x1C1 → i = .rfe o) := by
  simp only [privilegedInstrs, List.mem_cons, Prod.mk.injEq, List.not_mem_nil, or_false] at hi
  rcases hi with ⟨rfl, rfl⟩ | ⟨rfl, rfl⟩ | ⟨rfl, rfl⟩ | ⟨rfl, rfl⟩ | ⟨rfl, rfl⟩ | ⟨rfl, rfl⟩ | ⟨rfl, rfl⟩ |
    ⟨rfl, rfl⟩ | ⟨rfl, rfl⟩ | ⟨rfl, rfl⟩ <;> exact ⟨rfl, rfl, by simp⟩

/-- Each of them is an illegal instruction with reason 5 in user state (R222). -/
theorem exec_privilegedInstrs_user {s : State} {sg : SubGang} {c : Cx} {o : OpsS} {op : Nat} {i : Instr}
    (hi : (op, i) ∈ privilegedInstrs o) (hcur : s.cur = some sg) (hopen : openCx s sg op o.h = some c)
    (hb : c.blocked = false) (hs : c.sup = false) :
    exec i s = .next ({ c.enter with out := c.qs.map fun q => (q, .trap 1 5 0) } : Cx).finished := by
  obtain ⟨hops, hp, hrfe⟩ := privilegedInstrs_opcode hi
  by_cases hop : op = 0x1C1
  · rw [hrfe hop, exec_rfe]
    subst hop
    obtain ⟨body, hbody⟩ := execRfe_user hcur hopen hs
    rw [hbody]
    exact issueChecked_privileged hp hcur hopen hb hs
  · obtain ⟨checks, body, hexec, -⟩ := exec_issues i op (.s o) s hops hop
    rw [hexec]
    exact issueChecked_privileged hp hcur hopen hb hs

/-! ### The instructions that are not privileged -/

/-- `readyChecked` is `readyCx` with the further check passed. -/
theorem readyChecked_iff {s : State} {op : Nat} {ops : Ops} {h : Head} {first : Cx → Option Cause} {c : Cx} :
    readyChecked s op ops h first = some c ↔ readyCx s op ops h = some c ∧ first c = none := by
  unfold readyChecked
  split
  next c' hr =>
    rw [hr, Option.some.injEq]
    by_cases hf : first c' = none
    · rw [if_neg (by simp [hf])]
      exact ⟨by rintro ⟨⟩; exact ⟨rfl, hf⟩, by rintro ⟨rfl, -⟩; rfl⟩
    · rw [if_pos (Option.isSome_iff_ne_none.mpr hf)]
      exact ⟨nofun, by rintro ⟨rfl, h⟩; exact absurd h hf⟩
  next hr => simp [hr]

/-- A system instruction that only traps in the quads with an executing lane; with no executing lane there is no such
quad, and the skipped instruction ends the same. -/
theorem sysOp_trapsTrueQuads {s : State} {op : Nat} {o : OpsS} {c : Cx} (f : Nat → QOut)
    (hr : readyCx s op (.s o) o.h = some c) :
    sysOp op o s (fun c => some { c with out := c.trueQuads.map fun q => (q, f q) }) =
      .next ({ c with out := c.trueQuads.map fun q => (q, f q) } : Cx).finished := by
  rw [sysOp_ready hr]
  split
  next hem =>
    have hout : ({ c with out := c.trueQuads.map fun q => (q, f q) } : Cx) = c := by
      rw [Cx.trueQuads_none hem, List.map_nil, ← (readyCx_opened hr).out_nil]
    rw [hout]
  next => rfl

/-- `sysrd` whose register is legal and may be read, without `.clr`: the value goes to its destination (R311). -/
theorem execSysrd_reads {s : State} {o : OpsS} {c : Cx} (hr : readyCx s 0x1C2 (.s o) o.h = some c)
    (hsr : srCause o.a.number (o.m.variant = 1) false c.sup = none) (hv : o.m.variant ≠ 1) :
    execSysrd o s = .next (c.resultTy (srWide o.a.number) o.d c.em (c.srValue o.a.number)).finished := by
  unfold execSysrd
  rw [issueChecked_ready hr (by simp only [readyCx_regCause hr, hsr]; rfl)]
  simp only [hv, if_false]

/-- Settles O12: the privilege check of the issue for the ten, the body of the instruction for the three. -/
theorem privilegedInstructions : Obligations.PrivilegedInstructions := by
  unfold Obligations.PrivilegedInstructions
  refine ⟨?_, ?_, ?_, ?_⟩
  · intro s sg c o op i hi hcur hopen hb hs
    exact exec_privilegedInstrs_user hi hcur hopen hb hs
  · intro s c o hr
    exact sysOp_trapsTrueQuads (fun _ => .trap 15 (o.imm.toNat % 256) o.imm) hr
  · intro s c o hr
    exact sysOp_trapsTrueQuads (fun _ => .trap 14 0 0) hr
  · intro s c o hr hv
    obtain ⟨hready, hsr⟩ := readyChecked_iff.mp hr
    exact execSysrd_reads hready hsr hv

end Sys2Proof.Machine

/-!
Jumps, branches, calls and returns (R249): each acts on a quad where its guard lets it (R245), and what it does there
needs nothing of the other quads. Of a quad `call` and `ret` change the call stack alone.
-/
namespace Sys2Proof.Machine

/-! ### A quad on which an instruction acts -/

/-- An instruction acts on quad `q`: it is unguarded, or its guard holds in some active lane of the quad (R245). -/
abbrev Cx.guardLets (c : Cx) (h : Head) (q : Nat) : Prop := (h.pred = 7 ∧ h.neg = false) ∨ quadBits c.em q ≠ 0

theorem Cx.acts_iff {c : Cx} {h : Head} {q : Nat} : c.acts h q = true ↔ c.guardLets h q := by
  simp [Cx.acts, Head.unguarded, Cx.guardLets]

/-- On quad `q`, as the context holds it, `F` gives the outcome `r.1` and leaves the quad as `r.2`, whatever stands in
the other quads and whatever was said of them before. -/
def Cx.doesOn (c : Cx) (F : Cx → Nat → Cx) (q : Nat) (r : QOut × Quad) : Prop :=
  ∀ qs out, (c.withQuads qs out).k.quad q = c.k.quad q →
    (∃ g, F (c.withQuads qs out) q = (c.withQuads qs out).quadDo q r.1 g ∧ g (c.k.quad q) = r.2) ∨
    (F (c.withQuads qs out) q = c.withQuads qs out ∧ r = (.adv, c.k.quad q))

section
variable {c : Cx} {F : Cx → Nat → Cx} {q : Nat}

theorem Cx.doesOn_quadDo {out : QOut} (g : Quad → Quad)
    (h : ∀ qs os, (c.withQuads qs os).k.quad q = c.k.quad q →
      F (c.withQuads qs os) q = (c.withQuads qs os).quadDo q out g) :
    c.doesOn F q (out, g (c.k.quad q)) :=
  fun qs os hq => .inl ⟨g, h qs os hq, rfl⟩

theorem Cx.doesOn_self (h : ∀ qs os, F (c.withQuads qs os) q = c.withQuads qs os) :
    c.doesOn F q (.adv, c.k.quad q) :=
  fun qs os _ => .inr ⟨h qs os, rfl⟩

end

/-- A guarded control instruction does on each quad where it acts what `F` does there, and the others advance. -/
theorem guardedQuadOp_does {s : State} {c : Cx} {op : Nat} {o : OpsC} {F : Cx → Nat → Cx} {f : Nat → QOut × Quad}
    (hr : readyCx s op (.c o) o.h = some c)
    (hskip : ∀ q, ¬ c.guardLets o.h q → f q = (.adv, c.k.quad q))
    (hact : ∀ q, c.guardLets o.h q → c.doesOn F q (f q)) :
    ∃ t, guardedQuadOp op o F s = .next t ∧ c.does f t := by
  refine quadOp_does hr fun q _ qs out hq => ?_
  have hsame : (c.withQuads qs out).acts o.h q = c.acts o.h q := rfl
  rw [hsame]
  by_cases hg : c.guardLets o.h q
  · rw [if_pos (Cx.acts_iff.mpr hg)]
    exact hact q hg qs out hq
  · rw [if_neg (mt Cx.acts_iff.mp hg)]
    exact .inr ⟨rfl, hskip q hg⟩

/-! ### The four instructions -/

/-- The condition under which `bra` is taken, among the lanes of a mask of the quad (R249). -/
abbrev braTaken (variant : Nat) (m a : BitVec 4) : Prop :=
  if variant = 0 then m &&& a ≠ 0 else m ≠ 0 ∧ m &&& ~~~a = 0

/-- It is the test that `execBra` makes. -/
theorem braTaken_iff {variant : Nat} {m a : BitVec 4} :
    (if variant = 0 then decide (m &&& a ≠ 0) else m ≠ 0 && m &&& ~~~a = 0) = true ↔ braTaken variant m a := by
  unfold braTaken
  split <;> simp

/-- What `call` to a target makes of a quad, with the PC to return to (R249). -/
def Quad.called (u : Quad) (ret target : Nat) : QOut × Quad :=
  if u.calls.length = 16 then (.trap 13 0 0, u)
  else (.jump target, { u with calls := ⟨ret, u.stack.length⟩ :: u.calls })

/-- What `ret` makes of a quad (R249). -/
def Quad.returned (u : Quad) : QOut × Quad :=
  match u.calls with
  | e :: r => if e.depth = u.stack.length then (.jump e.ret, { u with calls := r }) else (.trap 1 6 0, u)
  | [] => (.trap 1 6 0, u)

section
variable {s : State} {c : Cx} {o : OpsC}

/-- `jmp`: the quad goes to the target (R249). -/
theorem execJmp_does (hr : readyCx s 0x0C8 (.c o) o.h = some c) :
    ∃ t, execJmp o s = .next t ∧
      c.does (fun q => (if c.guardLets o.h q then .jump (c.jumpTarget o) else .adv, c.k.quad q)) t := by
  refine guardedQuadOp_does hr (fun q hg => by rw [if_neg hg]) fun q hg => ?_
  rw [if_pos hg]
  -- registers, and with them targets and conditions, read the same whatever stands in the quads
  exact Cx.doesOn_quadDo id fun _ _ _ => rfl

/-- `bra`: the quad goes to the target where the branch is taken, and else advances (R249). -/
theorem execBra_does (hr : readyCx s 0x0C9 (.c o) o.h = some c) :
    ∃ t, execBra o s = .next t ∧ c.does (fun q =>
      (if c.guardLets o.h q ∧ braTaken o.m.variant (quadBits c.em q) (c.condition o.a q) then .jump (c.target o.off)
        else .adv, c.k.quad q)) t := by
  refine guardedQuadOp_does hr (fun q hg => by rw [if_neg fun ⟨h, _⟩ => hg h]) fun q hg => ?_
  by_cases ht : braTaken o.m.variant (quadBits c.em q) (c.condition o.a q)
  · rw [if_pos ⟨hg, ht⟩]
    exact Cx.doesOn_quadDo id fun _ _ _ => if_pos (braTaken_iff.mpr ht)
  · rw [if_neg fun ⟨_, h⟩ => ht h]
    exact Cx.doesOn_self fun _ _ => if_neg (mt braTaken_iff.mp ht)

/-- `call`: the quad keeps the PC to return to and goes to the target, unless its call stack is full (R249). -/
theorem execCall_does (hr : readyCx s 0x0CA (.c o) o.h = some c) :
    ∃ t, execCall o s = .next t ∧ c.does (fun q =>
      if ¬ c.guardLets o.h q then (.adv, c.k.quad q)
      else (c.k.quad q).called ((c.pc + 1) % Config.pcModulus) (c.jumpTarget o)) t := by
  refine guardedQuadOp_does hr (fun q hg => by rw [if_pos hg]) fun q hg => ?_
  rw [if_neg (not_not_intro hg), Quad.called]
  by_cases hfull : (c.k.quad q).calls.length = 16
  · rw [if_pos hfull]
    exact Cx.doesOn_quadDo id fun _ _ hq => if_pos (hq ▸ hfull)
  · rw [if_neg hfull]
    exact Cx.doesOn_quadDo (fun u => { u with calls := ⟨(c.pc + 1) % Config.pcModulus, u.stack.length⟩ :: u.calls })
      fun _ _ hq => if_neg (hq ▸ hfull)

/-- `ret`: the quad goes back where the top of its call stack says, unless there is none or the depth of its mask stack
is another (R249). -/
theorem execRet_does (hr : readyCx s 0x0CB (.c o) o.h = some c) :
    ∃ t, execRet o s = .next t ∧ c.does (fun q =>
      if ¬ c.guardLets o.h q then (.adv, c.k.quad q) else (c.k.quad q).returned) t := by
  refine guardedQuadOp_does hr (fun q hg => by rw [if_pos hg]) fun q hg => ?_
  rw [if_neg (not_not_intro hg), Quad.returned]
  cases hcalls : (c.k.quad q).calls with
  | nil => exact Cx.doesOn_quadDo id fun _ _ hq => by simp only [hq, hcalls]; rfl
  | cons e r =>
    by_cases hdepth : e.depth = (c.k.quad q).stack.length
    · simp only [if_pos hdepth]
      exact Cx.doesOn_quadDo (fun u => { u with calls := r }) fun _ _ hq => by simp [hq, hcalls, hdepth]
    · simp only [if_neg hdepth]
      exact Cx.doesOn_quadDo id fun _ _ hq => by simp [hq, hcalls, hdepth, stackMisuse, clsIllegal]

end

/-- Settles O34: each of the four acts on a quad where its guard lets it, and does there what its rule says. -/
theorem transfers : Obligations.Transfers := by
  unfold Obligations.Transfers
  intro s c o
  exact ⟨execJmp_does, execBra_does, execCall_does, execRet_does⟩

end Sys2Proof.Machine

/-!
`fltrd` (R314). Of an instruction that the decoder lets pass it gives the part of the record that R181 lays out. The
statement ranges over every operand term, and for a part above 3 it asks for the word of part 3, while the model finds no
byte of the record there: `fltrd_reads_part` is what holds, `not_faultRecordsRead` has the term beyond it.
-/
namespace Sys2Proof.Machine

/-! ### The parts of a fault record -/

theorem leNat_leBytes (n v : Nat) : leNat (leBytes n v) = v % 256 ^ n := by
  induction n generalizing v with
  | zero => simp [leBytes, leNat, Nat.mod_one]
  | succ n ih => rw [leBytes, leNat, ih, Nat.pow_succ', Nat.mod_mul, BitVec.toNat_ofNat]

/-- The four words of a fault record, with the last of them for every number above 2 (R181). -/
def FaultRec.word (f : FaultRec) (part : Nat) : Nat :=
  if part = 0 then f.cls * 2 ^ 56 + f.reason * 2 ^ 48 + f.gang * 2 ^ 32 + f.lane * 2 ^ 27 + f.opc * 2 ^ 16
  else if part = 1 then f.pc
  else if part = 2 then f.addr
  else f.loc * 2 ^ 48 + f.value.toNat

/-- The bytes of a part, as they stand in the record. -/
theorem FaultRec.bytes_part (f : FaultRec) {part : Nat} (h : part ≤ 3) :
    (f.bytes.drop (8 * part)).take 8 = leBytes 8 (f.word part) := by
  match part, h with
  | 0, _ | 1, _ | 2, _ | 3, _ => rfl

theorem ofNat_recordPart (f : FaultRec) {part : Nat} (h : part ≤ 3) :
    BitVec.ofNat 64 (recordPart f part) = BitVec.ofNat 64 (f.word part) := by
  rw [recordPart, f.bytes_part h, leNat_leBytes]
  exact BitVec.eq_of_toNat_eq (Nat.mod_mod _ _)

/-! ### A result changes no record -/

/-- A fold whose steps change no record changes none. -/
theorem Cx.foldl_records {α : Type} {f : Cx → α → Cx} (hf : ∀ c a, (f c a).k.records = c.k.records) (l : List α) (c : Cx) :
    (l.foldl f c).k.records = c.k.records := by
  induction l generalizing c with
  | nil => rfl
  | cons a l ih => rw [List.foldl_cons, ih, hf]

section
variable (c : Cx) (r : Reg) (m : Word)

@[simp] theorem Cx.setRow_records (code : Nat) (f : Nat → Word) : (c.setRow code m f).k.records = c.k.records := by
  unfold Cx.setRow; split <;> rfl

@[simp] theorem Cx.setScalar_records (code : Nat) (v : Word) : (c.setScalar code v).k.records = c.k.records := by
  unfold Cx.setScalar; split <;> rfl

@[simp] theorem Cx.setPred_records (n : Nat) (f : Nat → Bool) : (c.setPred n m f).k.records = c.k.records := rfl

@[simp] theorem Cx.setReg_records (f : Nat → Word) : (c.setReg r m f).k.records = c.k.records := by
  cases r with
  | v | o | t | x | hv => exact c.setRow_records m _ f
  | s | hs => simp only [Cx.setReg]; split <;> simp
  | p n => exact c.setPred_records m n _
  | g => simp only [Cx.setReg]; split <;> simp
  | idx k off =>
    refine Cx.foldl_records (fun c l => ?_) (lanesOf m) c
    split <;> simp
  | con | port | resv => rfl

@[simp] theorem Cx.shiftOne_records (value : Nat → Word) : (c.shiftOne value).k.records = c.k.records := by
  unfold Cx.shiftOne
  rw [Cx.setRow_records, Cx.foldl_records fun c j => c.setRow_records _ _ _]

@[simp] theorem Cx.setIndexedPair_records (k off : Nat) (lo hi : Nat → Word) :
    (c.setIndexedPair k off m lo hi).k.records = c.k.records := by
  refine Cx.foldl_records (fun c l => ?_) (lanesOf m) c
  split <;> simp

@[simp] theorem Cx.result_records (f : Nat → Word) : (c.result r m f).k.records = c.k.records := by
  unfold Cx.result
  split
  · simp
  · split <;> simp

theorem Cx.result64_records (f : Nat → DWord) : (c.result64 r m f).k.records = c.k.records := by
  unfold Cx.result64
  split
  · simp
  · simp
  · dsimp only; split <;> simp
  · dsimp only; split <;> simp

end

/-! ### The instruction -/

section
variable {s : State} {o : OpsS} {c : Cx} {r : Reg}

/-- `fltrd` of any part, one that the decoder refuses too: its result is what the model finds at that place. -/
theorem exec_fltrd_ready (hr : readyCx s 0x1C4 (.s o) o.h = some c) (hem : c.em ≠ 0) (ha : o.a = .reg r) :
    exec (.fltrd o) s = .next (c.result64 o.d c.em fun l =>
      BitVec.ofNat 64 (recordPart (FMap.get FaultRec.none c.k.records ((c.reg r l).toNat % 32)) o.m.variant)).finished := by
  rw [exec_fltrd]
  unfold execFltrd
  rw [sysOp_ready hr, if_neg hem, ha]
  rfl

/-- The decoder lets the parts 0 to 3 of `fltrd` pass and no other (R314). -/
theorem fltrd_part_le_three (h : modsFault 0x1C4 o.h o.m = none) : o.m.variant ≤ 3 := by
  refine Nat.le_of_not_lt fun hv => ?_
  have hbad : variantOk 0x1C4 o.m.ty o.m.variant o.m.flags = false := decide_eq_false (Nat.not_le_of_gt hv)
  simp [modsFault, hbad] at h

/-- With modifiers that the decoder lets pass, `fltrd` gives the word of the record that R181 lays out, and no record
changes. -/
theorem fltrd_reads_part (hr : readyCx s 0x1C4 (.s o) o.h = some c) (hem : c.em ≠ 0) (ha : o.a = .reg r)
    (hm : modsFault 0x1C4 o.h o.m = none) :
    ∃ c', c' = c.result64 o.d c.em (fun l =>
        BitVec.ofNat 64 ((FMap.get FaultRec.none c.k.records ((c.reg r l).toNat % 32)).word o.m.variant)) ∧
      exec (.fltrd o) s = .next c'.finished ∧ c'.k.records = c.k.records := by
  refine ⟨_, rfl, ?_, c.result64_records _ _ _⟩
  rw [exec_fltrd_ready hr hem ha]
  simp only [ofNat_recordPart _ (fltrd_part_le_three hm)]

end

/-! ### A part beyond the record -/

/-- A gang in supervisor state whose lane 0 holds the record of a `trap 0x2A`. -/
def trapRecorded : State :=
  ({ State.reset.withFetchWord 96 0 with agenda := [], cur := some ⟨0, 0, 0, 0⟩ } : State).onGang 0 0 0 fun k =>
    { k with quads := k.quads.map fun u => { u with sup := true }
             records := [(0, ⟨15, 0x2A, 0, 0, 0xC0, 7, 0, 0xFFFF, 0x2A⟩)] }

/-- `fltrd v4, v2` of a part, well-formed as a term for parts below 8; the decoder refuses those above 3 with reason 4. -/
def fltrdOf (part : Nat) : OpsS := ⟨⟨7, false, 0, false, false⟩, ⟨.i32, part, 0⟩, .v 4, .reg (.v 2), .v 0, .v 0, 0⟩

/-- Lane 0 of v4 in the gang of that state. -/
def lowResult (s : State) : Word := (FMap.get zeroRow (gangIn s ⟨0, 0, 0, 0⟩).lanes (Reg.v 4).code).lane 0

/-- Lane 0 of v4 after a result that `f` takes from the record of the lane that v2 names. -/
def readsLow (c : Cx) (f : FaultRec → Nat) : Word :=
  lowResult (c.result64 (.v 4) c.em fun l =>
    BitVec.ofNat 64 (f (FMap.get FaultRec.none c.k.records ((c.reg (.v 2) l).toNat % 32)))).finished

/-- `fltrd` of part 3 may execute in that state, and the word that R181 lays out ends in the operand of the trap. -/
theorem fltrdOf_three_ready : ((readyCx trapRecorded 0x1C4 (.s (fltrdOf 3)) (fltrdOf 3).h).any fun c =>
    c.em ≠ 0 && readsLow c (FaultRec.word · 3) = 0x2A) = true := by
  decide +kernel

/-- `fltrd_reads_part` on that instruction: it reads the operand of the trap. -/
theorem fltrdOf_three_reads : ∃ t, exec (.fltrd (fltrdOf 3)) trapRecorded = .next t ∧ lowResult t = 0x2A := by
  obtain ⟨c, hr, hc⟩ := (Option.any_eq_true _ _).mp fltrdOf_three_ready
  simp only [Bool.and_eq_true, decide_eq_true_eq] at hc
  obtain ⟨hem, hword⟩ := hc
  obtain ⟨_, rfl, hexec, -⟩ := fltrd_reads_part hr hem rfl rfl
  exact ⟨_, hexec, hword⟩

/-- `fltrd` of part 4 may execute there too; the model gives lane 0 the value 0, and the statement asks for 0x2A. -/
theorem fltrdOf_four_differs : ((readyCx trapRecorded 0x1C4 (.s (fltrdOf 4)) (fltrdOf 4).h).any fun c =>
    c.em ≠ 0 && readsLow c (recordPart · 4) = 0 && readsLow c (FaultRec.word · 4) = 0x2A) = true := by
  decide +kernel

/-- Refutes O51: `fltrd` of part 4, which no word decodes to, reads 0 and not bytes 24 to 31 of the record. With a part
that the decoder lets pass the statement holds (`fltrd_reads_part`). -/
theorem not_faultRecordsRead : ¬ Obligations.FaultRecordsRead := by
  unfold Obligations.FaultRecordsRead
  intro h
  obtain ⟨c, hr, hc⟩ := (Option.any_eq_true _ _).mp fltrdOf_four_differs
  simp only [Bool.and_eq_true, decide_eq_true_eq] at hc
  obtain ⟨⟨hem, hreads⟩, hword⟩ := hc
  -- what the model does and what the statement says it does, in one step
  have hsays := (h trapRecorded (fltrdOf 4) c (.v 2) hr hem rfl).1
  rw [exec_fltrd_ready hr hem rfl, Host.Outcome.next.injEq] at hsays
  have hsame : readsLow c (recordPart · 4) = readsLow c (FaultRec.word · 4) := congrArg lowResult hsays
  rw [hreads, hword] at hsame
  exact absurd hsame (by decide)

end Sys2Proof.Machine
